-- ==== Sys2Proof/Word.lean ====
section
/-! DEFINITION. Word.lean: the widths the spec names (00 R8, R9) and groups of four like things. -/

namespace Sys2Proof

/-- A byte of system memory, of a key or of a block (00 R9). -/
abbrev Byte := BitVec 8

/-- A 32-bit register, data word or system-memory address (00 R8: REG_WIDTH and ADDR_WIDTH are 32). -/
abbrev Word := BitVec 32

/-- A host bus transaction word (30 R120). -/
abbrev Transaction := BitVec 43

/-- Four like things in order: the four words of a block or key, the four bytes of a word or column. -/
structure Quad (α : Type) where
  e0 : α
  e1 : α
  e2 : α
  e3 : α
  deriving DecidableEq, Repr, Inhabited

/-- A 16-byte block, key or cipher state (00 R11, R12), column by column:
column c is the bytes b[4c], b[4c+1], b[4c+2], b[4c+3], so row r of column c is b[r + 4c]. -/
abbrev Block := Quad (Quad Byte)

end Sys2Proof
end

