-- ==== Sys2Proof/Syntax.lean ====
section
/-! DEFINITION. Syntax.lean: the register transactions of 30 R139, one constructor per row of the opcode table. -/

namespace Sys2Proof

/-- A decoded register transaction. A write's `v` is its whole DATA field; `n` is the key word index OFF[3:2] (30 R138).
A read carries no data: its DATA field is ignored (30 R120). -/
inductive Instr where
  | rdCtrl                                   -- RD_CTRL, 43 R309
  | wrCtrl (v : Word)                        -- WR_CTRL, 43 R310 and R312; DATA[1] = 0
  | wrCtrlStart (v : Word)                   -- WR_CTRL_START, 43 R311; DATA[1] = 1
  | rdKey (n : BitVec 2)                     -- RD_KEY n, 43 R314
  | wrKey (n : BitVec 2) (v : Word)          -- WR_KEY n, 43 R315
  | rdDatain                                 -- RD_DATAIN, 43 R317
  | wrDatain (v : Word)                      -- WR_DATAIN, 43 R318
  | rdDataout                                -- RD_DATAOUT, 43 R322
  | wrDataout (v : Word)                     -- WR_DATAOUT, 43 R323
  | wrDmaSrcAddr (v : Word)                  -- WR_DMA_SRC_ADDR, 43 R324
  | rdDmaSrcAddr                             -- RD_DMA_SRC_ADDR, 43 R325
  | wrDmaSrcCount (v : Word)                 -- WR_DMA_SRC_COUNT, 43 R326
  | rdDmaSrcCount                            -- RD_DMA_SRC_COUNT, 43 R327
  | wrDmaDstAddr (v : Word)                  -- WR_DMA_DST_ADDR, 43 R328
  | rdDmaDstAddr                             -- RD_DMA_DST_ADDR, 43 R329
  | wrDmaDstCount (v : Word)                 -- WR_DMA_DST_COUNT, 43 R330
  | rdDmaDstCount                            -- RD_DMA_DST_COUNT, 43 R331
  | wrDmaCtrl (v : Word)                     -- WR_DMA_CTRL, 43 R332
  | rdDmaCtrl                                -- RD_DMA_CTRL, 43 R333
  | rdDmaStatus                              -- RD_DMA_STATUS, 43 R334
  | wrDmaStatus (v : Word)                   -- WR_DMA_STATUS, 43 R335
  | rdLock                                   -- RD_LOCK, 45 R400
  | wrLock (v : Word)                        -- WR_LOCK, 45 R401 and R402
  | rdResult                                 -- RD_RESULT, 45 R405
  | wrResult (v : Word)                      -- WR_RESULT, 45 R406
  deriving DecidableEq, Repr

end Sys2Proof
end

