-- ==== Sys2Proof/WellFormed.lean ====
section
/-! DEFINITION. WellFormed.lean: which terms of Instr stand for a row of 30 R139. -/

namespace Sys2Proof

/-- The two CTRL write rows split on DATA[1] (30 R139, "extra match"); every other row admits every operand. -/
def Instr.wellFormed : Instr → Bool
  | .wrCtrl v => !v.getLsbD 1
  | .wrCtrlStart v => v.getLsbD 1
  | .rdCtrl | .rdKey _ | .wrKey _ _ | .rdDatain | .wrDatain _ | .rdDataout | .wrDataout _
  | .wrDmaSrcAddr _ | .rdDmaSrcAddr | .wrDmaSrcCount _ | .rdDmaSrcCount
  | .wrDmaDstAddr _ | .rdDmaDstAddr | .wrDmaDstCount _ | .rdDmaDstCount
  | .wrDmaCtrl _ | .rdDmaCtrl | .rdDmaStatus | .wrDmaStatus _
  | .rdLock | .wrLock _ | .rdResult | .wrResult _ => true

end Sys2Proof
end

