-- ==== Sys2Proof/Decode.lean ====
section
/-! DEFINITION. Decode.lean: a 43-bit transaction word to a register transaction or a named rejection (30 R120, R121),
the encoder, and the opcode map of 30 R139 as data. -/

namespace Sys2Proof

/-- The fields of a transaction word (30 R120). -/
def Transaction.size (t : Transaction) : BitVec 2 := t.extractLsb' 41 2
def Transaction.isWrite (t : Transaction) : Bool := t.getLsbD 40
def Transaction.off (t : Transaction) : BitVec 8 := t.extractLsb' 32 8
def Transaction.data (t : Transaction) : Word := t.extractLsb' 0 32

/-- A transaction word from its fields (30 R120). -/
def Transaction.make (size : BitVec 2) (isWrite : Bool) (off : BitVec 8) (data : Word) : Transaction :=
  size ++ BitVec.ofBool isWrite ++ off ++ data

/-- The fifteen registers of 30 R122; the four KEYn are one constructor. -/
inductive Reg where
  | ctrl | key (n : BitVec 2) | datain | dataout
  | dmaSrcAddr | dmaSrcCount | dmaDstAddr | dmaDstCount | dmaCtrl | dmaStatus
  | lock | result
  deriving DecidableEq, Repr

/-- The offset of a register (30 R122). -/
def Reg.offset : Reg → BitVec 8
  | .ctrl => 0x00#8
  | .key n => 0b0001#4 ++ n ++ 0b00#2
  | .datain => 0x20#8
  | .dataout => 0x24#8
  | .dmaSrcAddr => 0x30#8
  | .dmaSrcCount => 0x34#8
  | .dmaDstAddr => 0x38#8
  | .dmaDstCount => 0x3C#8
  | .dmaCtrl => 0x40#8
  | .dmaStatus => 0x44#8
  | .lock => 0x50#8
  | .result => 0x54#8

/-- The register at an offset; none at the reserved offsets of 30 R123. -/
def regAt (off : BitVec 8) : Option Reg :=
  if off = 0x00#8 then some .ctrl
  else if off.extractLsb' 4 4 = 0b0001#4 ∧ off.extractLsb' 0 2 = 0b00#2 then some (.key (off.extractLsb' 2 2))
  else if off = 0x20#8 then some .datain
  else if off = 0x24#8 then some .dataout
  else if off = 0x30#8 then some .dmaSrcAddr
  else if off = 0x34#8 then some .dmaSrcCount
  else if off = 0x38#8 then some .dmaDstAddr
  else if off = 0x3C#8 then some .dmaDstCount
  else if off = 0x40#8 then some .dmaCtrl
  else if off = 0x44#8 then some .dmaStatus
  else if off = 0x50#8 then some .lock
  else if off = 0x54#8 then some .result
  else none

/-- The read row of a register (30 R139). -/
def readRow : Reg → Instr
  | .ctrl => .rdCtrl
  | .key n => .rdKey n
  | .datain => .rdDatain
  | .dataout => .rdDataout
  | .dmaSrcAddr => .rdDmaSrcAddr
  | .dmaSrcCount => .rdDmaSrcCount
  | .dmaDstAddr => .rdDmaDstAddr
  | .dmaDstCount => .rdDmaDstCount
  | .dmaCtrl => .rdDmaCtrl
  | .dmaStatus => .rdDmaStatus
  | .lock => .rdLock
  | .result => .rdResult

/-- The write row of a register; CTRL has two, told apart by DATA[1] (30 R139). -/
def writeRow (r : Reg) (v : Word) : Instr :=
  match r with
  | .ctrl => if v.getLsbD 1 then .wrCtrlStart v else .wrCtrl v
  | .key n => .wrKey n v
  | .datain => .wrDatain v
  | .dataout => .wrDataout v
  | .dmaSrcAddr => .wrDmaSrcAddr v
  | .dmaSrcCount => .wrDmaSrcCount v
  | .dmaDstAddr => .wrDmaDstAddr v
  | .dmaDstCount => .wrDmaDstCount v
  | .dmaCtrl => .wrDmaCtrl v
  | .dmaStatus => .wrDmaStatus v
  | .lock => .wrLock v
  | .result => .wrResult v

/-- The two ways a word selects no register transaction (30 R121, R141). -/
inductive DecodeError where
  /-- SIZE is not 2 or OFF[1:0] is not 00. -/
  | busWidth
  /-- An aligned 32-bit access at an offset that 30 R122 does not list. -/
  | busReservedOffset
  deriving DecidableEq, Repr

/-- Decode in the order of 30 R121: width first, then the offset, then the row. -/
def decode (t : Transaction) : Except DecodeError Instr :=
  if t.size ≠ 2#2 ∨ t.off.extractLsb' 0 2 ≠ 0b00#2 then .error .busWidth
  else
    match regAt t.off with
    | none => .error .busReservedOffset
    | some r => .ok (if t.isWrite then writeRow r t.data else readRow r)

/-- A read's canonical word: DATA = 0 (30 R120). -/
def encodeRead (r : Reg) : Transaction := Transaction.make 2#2 false r.offset 0#32

/-- A write's word. -/
def encodeWrite (r : Reg) (v : Word) : Transaction := Transaction.make 2#2 true r.offset v

/-- The word of a transaction (30 R143: SIZE = 2, OFF the register's offset, DATA the value or 0). -/
def encode : Instr → Transaction
  | .rdCtrl => encodeRead .ctrl
  | .wrCtrl v => encodeWrite .ctrl v
  | .wrCtrlStart v => encodeWrite .ctrl v
  | .rdKey n => encodeRead (.key n)
  | .wrKey n v => encodeWrite (.key n) v
  | .rdDatain => encodeRead .datain
  | .wrDatain v => encodeWrite .datain v
  | .rdDataout => encodeRead .dataout
  | .wrDataout v => encodeWrite .dataout v
  | .wrDmaSrcAddr v => encodeWrite .dmaSrcAddr v
  | .rdDmaSrcAddr => encodeRead .dmaSrcAddr
  | .wrDmaSrcCount v => encodeWrite .dmaSrcCount v
  | .rdDmaSrcCount => encodeRead .dmaSrcCount
  | .wrDmaDstAddr v => encodeWrite .dmaDstAddr v
  | .rdDmaDstAddr => encodeRead .dmaDstAddr
  | .wrDmaDstCount v => encodeWrite .dmaDstCount v
  | .rdDmaDstCount => encodeRead .dmaDstCount
  | .wrDmaCtrl v => encodeWrite .dmaCtrl v
  | .rdDmaCtrl => encodeRead .dmaCtrl
  | .rdDmaStatus => encodeRead .dmaStatus
  | .wrDmaStatus v => encodeWrite .dmaStatus v
  | .rdLock => encodeRead .lock
  | .wrLock v => encodeWrite .lock v
  | .rdResult => encodeRead .result
  | .wrResult v => encodeWrite .result v

/-- One row of the opcode map (30 R139). -/
structure OpcodeRow where
  mnemonic : String
  pattern : Transaction
  mask : Transaction
  deriving DecidableEq, Repr

/-- A word matches a row when its masked bits are the row's pattern. -/
def OpcodeRow.covers (r : OpcodeRow) (t : Transaction) : Bool := t &&& r.mask == r.pattern

/-- The opcode map, as 30 R139 prints it: the register rows. -/
def opcodeMapRegisters : List OpcodeRow :=
  [⟨"RD_CTRL", 0x40000000000#43, 0x7FF00000000#43⟩,
   ⟨"WR_CTRL", 0x50000000000#43, 0x7FF00000002#43⟩,
   ⟨"WR_CTRL_START", 0x50000000002#43, 0x7FF00000002#43⟩,
   ⟨"RD_KEY", 0x41000000000#43, 0x7F300000000#43⟩,
   ⟨"WR_KEY", 0x51000000000#43, 0x7F300000000#43⟩,
   ⟨"RD_DATAIN", 0x42000000000#43, 0x7FF00000000#43⟩,
   ⟨"WR_DATAIN", 0x52000000000#43, 0x7FF00000000#43⟩,
   ⟨"RD_DATAOUT", 0x42400000000#43, 0x7FF00000000#43⟩,
   ⟨"WR_DATAOUT", 0x52400000000#43, 0x7FF00000000#43⟩]

/-- The opcode map: the DMA rows. -/
def opcodeMapDma : List OpcodeRow :=
  [⟨"WR_DMA_SRC_ADDR", 0x53000000000#43, 0x7FF00000000#43⟩,
   ⟨"RD_DMA_SRC_ADDR", 0x43000000000#43, 0x7FF00000000#43⟩,
   ⟨"WR_DMA_SRC_COUNT", 0x53400000000#43, 0x7FF00000000#43⟩,
   ⟨"RD_DMA_SRC_COUNT", 0x43400000000#43, 0x7FF00000000#43⟩,
   ⟨"WR_DMA_DST_ADDR", 0x53800000000#43, 0x7FF00000000#43⟩,
   ⟨"RD_DMA_DST_ADDR", 0x43800000000#43, 0x7FF00000000#43⟩,
   ⟨"WR_DMA_DST_COUNT", 0x53C00000000#43, 0x7FF00000000#43⟩,
   ⟨"RD_DMA_DST_COUNT", 0x43C00000000#43, 0x7FF00000000#43⟩,
   ⟨"WR_DMA_CTRL", 0x54000000000#43, 0x7FF00000000#43⟩,
   ⟨"RD_DMA_CTRL", 0x44000000000#43, 0x7FF00000000#43⟩,
   ⟨"RD_DMA_STATUS", 0x44400000000#43, 0x7FF00000000#43⟩,
   ⟨"WR_DMA_STATUS", 0x54400000000#43, 0x7FF00000000#43⟩]

/-- The opcode map: the LOCK and RESULT rows. -/
def opcodeMapArbiter : List OpcodeRow :=
  [⟨"RD_LOCK", 0x45000000000#43, 0x7FF00000000#43⟩,
   ⟨"WR_LOCK", 0x55000000000#43, 0x7FF00000000#43⟩,
   ⟨"RD_RESULT", 0x45400000000#43, 0x7FF00000000#43⟩,
   ⟨"WR_RESULT", 0x55400000000#43, 0x7FF00000000#43⟩]

/-- The 25 rows of 30 R139. -/
def opcodeMap : List OpcodeRow := opcodeMapRegisters ++ opcodeMapDma ++ opcodeMapArbiter

/-- The row's name of a transaction. -/
def Instr.mnemonic : Instr → String
  | .rdCtrl => "RD_CTRL"
  | .wrCtrl _ => "WR_CTRL"
  | .wrCtrlStart _ => "WR_CTRL_START"
  | .rdKey _ => "RD_KEY"
  | .wrKey _ _ => "WR_KEY"
  | .rdDatain => "RD_DATAIN"
  | .wrDatain _ => "WR_DATAIN"
  | .rdDataout => "RD_DATAOUT"
  | .wrDataout _ => "WR_DATAOUT"
  | .wrDmaSrcAddr _ => "WR_DMA_SRC_ADDR"
  | .rdDmaSrcAddr => "RD_DMA_SRC_ADDR"
  | .wrDmaSrcCount _ => "WR_DMA_SRC_COUNT"
  | .rdDmaSrcCount => "RD_DMA_SRC_COUNT"
  | .wrDmaDstAddr _ => "WR_DMA_DST_ADDR"
  | .rdDmaDstAddr => "RD_DMA_DST_ADDR"
  | .wrDmaDstCount _ => "WR_DMA_DST_COUNT"
  | .rdDmaDstCount => "RD_DMA_DST_COUNT"
  | .wrDmaCtrl _ => "WR_DMA_CTRL"
  | .rdDmaCtrl => "RD_DMA_CTRL"
  | .rdDmaStatus => "RD_DMA_STATUS"
  | .wrDmaStatus _ => "WR_DMA_STATUS"
  | .rdLock => "RD_LOCK"
  | .wrLock _ => "WR_LOCK"
  | .rdResult => "RD_RESULT"
  | .wrResult _ => "WR_RESULT"

/-- The instruction this decoder reads from a transaction word given as a number (bit 0 of `w` is bit 0 of the word).
A transaction is one 43-bit word (30 R120, R142); a number with a higher bit set is no transaction word.
`_nbits` (the table's own count of bits) does not change the format. -/
def decodeTableWord (_nbits w : Nat) : Option Instr :=
  if w < 2 ^ 43 then
    match decode (BitVec.ofNat 43 w) with
    | .ok i => some i
    | .error _ => none
  else none

end Sys2Proof
end

