-- ==== Sys2Proof/Machine/Operands.lean ====
section
/-! DEFINITION. Machine/Operands.lean: byte order, packing, and the bit fields of written and returned words. -/

namespace Sys2Proof

/-- `q[n]` for a 2-bit index. -/
def Quad.get {α : Type} (q : Quad α) (n : BitVec 2) : α :=
  if n = 0#2 then q.e0 else if n = 1#2 then q.e1 else if n = 2#2 then q.e2 else q.e3

/-- `q[n] <- v`. -/
def Quad.set {α : Type} (q : Quad α) (n : BitVec 2) (v : α) : Quad α :=
  ⟨if n = 0#2 then v else q.e0, if n = 1#2 then v else q.e1,
   if n = 2#2 then v else q.e2, if n = 3#2 then v else q.e3⟩

/-- Apply a function to each of the four. -/
def Quad.map {α β : Type} (f : α → β) (q : Quad α) : Quad β := ⟨f q.e0, f q.e1, f q.e2, f q.e3⟩

/-- Combine two quads place by place. -/
def Quad.zip {α β γ : Type} (f : α → β → γ) (p : Quad α) (q : Quad β) : Quad γ :=
  ⟨f p.e0 q.e0, f p.e1 q.e1, f p.e2 q.e2, f p.e3 q.e3⟩

/-- The four in order. -/
def Quad.toList {α : Type} (q : Quad α) : List α := [q.e0, q.e1, q.e2, q.e3]

/-- `LE32(b0, b1, b2, b3)` (00 R11). -/
def le32 (b : Quad Byte) : Word := b.e3 ++ b.e2 ++ b.e1 ++ b.e0

/-- The bytes of a word, least significant first: byte j is w[8j+7 : 8j] (20 R82, 43 R340). -/
def wordBytes (w : Word) : Quad Byte :=
  ⟨w.extractLsb' 0 8, w.extractLsb' 8 8, w.extractLsb' 16 8, w.extractLsb' 24 8⟩

/-- The 16 bytes of four words: B[4k+j] = word k [8j+7 : 8j] (43 R340). -/
def blockOfWords (w : Quad Word) : Block := w.map wordBytes

/-- The four words of 16 bytes: word k is LE32 of bytes 4k..4k+3 (43 R340). -/
def wordsOfBlock (b : Block) : Quad Word := b.map le32

/-- The 16 bytes in order b[0], .., b[15]. -/
def blockBytes (b : Block) : List Byte :=
  b.e0.toList ++ b.e1.toList ++ b.e2.toList ++ b.e3.toList

/-- A byte string as a block; none unless it has exactly 16 bytes (47 R437). -/
def blockOfBytes : List Byte → Option Block
  | [a0, a1, a2, a3, b0, b1, b2, b3, c0, c1, c2, c3, d0, d1, d2, d3] =>
    some ⟨⟨a0, a1, a2, a3⟩, ⟨b0, b1, b2, b3⟩, ⟨c0, c1, c2, c3⟩, ⟨d0, d1, d2, d3⟩⟩
  | _ => none

/-- The four bytes of a hex word that lists byte 0 first. -/
def columnOfHex (h : BitVec 32) : Quad Byte :=
  ⟨h.extractLsb' 24 8, h.extractLsb' 16 8, h.extractLsb' 8 8, h.extractLsb' 0 8⟩

/-- The block of a 32-digit hex string, which lists b[0] first (00 R11). -/
def blockOfHex (h : BitVec 128) : Block :=
  ⟨columnOfHex (h.extractLsb' 96 32), columnOfHex (h.extractLsb' 64 32),
   columnOfHex (h.extractLsb' 32 32), columnOfHex (h.extractLsb' 0 32)⟩

/-- One bit at position k of a word. -/
def bitAt (k : Nat) (b : Bool) : Word := (BitVec.ofBool b).setWidth 32 <<< k

/-- Reserved bits of a written word: does any bit at or above position `k` stand (30 R125, R130, R132)? -/
def hasBitsFrom (k : Nat) (v : Word) : Bool := v >>> k != 0

/-- Is a byte address a multiple of four (20 R86)? -/
def wordAligned (a : Word) : Bool := a.extractLsb' 0 2 == 0#2

/-- The defined read fields of each register; every other bit of a read is a draw (43 R303, 30 R124 to R135). -/
def ctrlReadMask : Word := 0x7701#32
def countReadMask : Word := 0xFFFF#32
def enableReadMask : Word := 0x3#32
def codeReadMask : Word := 0xF#32
/-- A read with no defined field (43 R314, R317, R302). -/
def noReadMask : Word := 0#32

end Sys2Proof
end

