-- ==== Sys2Proof/Machine/Cipher.lean ====
section
/-! DEFINITION. Machine/Cipher.lean: the AES-128 datapath: the byte field and round transforms (40), the key schedule (41),
and the forward and inverse ciphers (42). -/

namespace Sys2Proof

/-! ### The byte field (40 R200 to R203) -/

/-- Multiplication by x modulo 0x11B (40 R201). -/
def xtime (a : Byte) : Byte := (a <<< 1) ^^^ (if a.msb then 0x1B#8 else 0#8)

/-- The loop of 40 R202: `n` rounds left. -/
def gmulLoop : Nat → Byte → Byte → Byte → Byte
  | 0, _, _, r => r
  | n + 1, a, b, r => gmulLoop n (xtime a) (b >>> 1) (if b.getLsbD 0 then r ^^^ a else r)

/-- The field product (40 R202). -/
def gmul (a b : Byte) : Byte := gmulLoop 8 a b 0#8

/-- The multiplicative inverse, 0 for 0 (40 R203), as the 254th power. -/
def ginv (a : Byte) : Byte :=
  let a2 := gmul a a
  let a4 := gmul a2 a2
  let a8 := gmul a4 a4
  let a16 := gmul a8 a8
  let a32 := gmul a16 a16
  let a64 := gmul a32 a32
  let a128 := gmul a64 a64
  gmul a128 (gmul a64 (gmul a32 (gmul a16 (gmul a8 (gmul a4 a2)))))

/-- The affine map of 40 R204. -/
def affine (b : Byte) : Byte :=
  b ^^^ b.rotateLeft 1 ^^^ b.rotateLeft 2 ^^^ b.rotateLeft 3 ^^^ b.rotateLeft 4 ^^^ 0x63#8

/-! ### The substitution tables (40 R204, R205; 10 R50) -/

/-- The rows of SBOX as 40 R204 prints them: row x[7:4], column x[3:0] from the left. -/
def sboxRows : List (BitVec 128) :=
  [0x637c777bf26b6fc53001672bfed7ab76#128,
   0xca82c97dfa5947f0add4a2af9ca472c0#128,
   0xb7fd9326363ff7cc34a5e5f171d83115#128,
   0x04c723c31896059a071280e2eb27b275#128,
   0x09832c1a1b6e5aa0523bd6b329e32f84#128,
   0x53d100ed20fcb15b6acbbe394a4c58cf#128,
   0xd0efaafb434d338545f9027f503c9fa8#128,
   0x51a3408f929d38f5bcb6da2110fff3d2#128,
   0xcd0c13ec5f974417c4a77e3d645d1973#128,
   0x60814fdc222a908846eeb814de5e0bdb#128,
   0xe0323a0a4906245cc2d3ac629195e479#128,
   0xe7c8376d8dd54ea96c56f4ea657aae08#128,
   0xba78252e1ca6b4c6e8dd741f4bbd8b8a#128,
   0x703eb5664803f60e613557b986c11d9e#128,
   0xe1f8981169d98e949b1e87e9ce5528df#128,
   0x8ca1890dbfe6426841992d0fb054bb16#128]

/-- The rows of INV_SBOX as 40 R205 prints them. -/
def invSboxRows : List (BitVec 128) :=
  [0x52096ad53036a538bf40a39e81f3d7fb#128,
   0x7ce339829b2fff87348e4344c4dee9cb#128,
   0x547b9432a6c2233dee4c950b42fac34e#128,
   0x082ea16628d924b2765ba2496d8bd125#128,
   0x72f8f66486689816d4a45ccc5d65b692#128,
   0x6c704850fdedb9da5e154657a78d9d84#128,
   0x90d8ab008cbcd30af7e45805b8b34506#128,
   0xd02c1e8fca3f0f02c1afbd0301138a6b#128,
   0x3a9111414f67dcea97f2cfcef0b4e673#128,
   0x96ac7422e7ad3585e2f937e81c75df6e#128,
   0x47f11a711d29c5896fb7620eaa18be1b#128,
   0xfc563e4bc6d279209adbc0fe78cd5af4#128,
   0x1fdda8338807c731b11210592780ec5f#128,
   0x60517fa919b54a0d2de57a9f93c99cef#128,
   0xa0e03b4dae2af5b0c8ebbb3c83539961#128,
   0x172b047eba77d626e169146355210c7d#128]

/-- The entry of a table at row x[7:4], column x[3:0]. -/
def tableEntry (rows : List (BitVec 128)) (x : Byte) : Byte :=
  (rows.getD (x.toNat / 16) 0#128).extractLsb' (8 * (15 - x.toNat % 16)) 8

/-- SBOX[x] (40 R204). -/
def sbox (x : Byte) : Byte := tableEntry sboxRows x

/-- INV_SBOX[y] (40 R205). -/
def invSbox (y : Byte) : Byte := tableEntry invSboxRows y

/-! ### The transforms (40 R206 to R212) -/

/-- SubBytes (40 R206). -/
def subBytes (s : Block) : Block := s.map (Quad.map sbox)

/-- InvSubBytes (40 R207). -/
def invSubBytes (s : Block) : Block := s.map (Quad.map invSbox)

/-- ShiftRows (40 R208): byte r of column c comes from column (c + r) mod 4. -/
def shiftRows (s : Block) : Block :=
  ⟨⟨s.e0.e0, s.e1.e1, s.e2.e2, s.e3.e3⟩,
   ⟨s.e1.e0, s.e2.e1, s.e3.e2, s.e0.e3⟩,
   ⟨s.e2.e0, s.e3.e1, s.e0.e2, s.e1.e3⟩,
   ⟨s.e3.e0, s.e0.e1, s.e1.e2, s.e2.e3⟩⟩

/-- InvShiftRows (40 R209): byte r of column c comes from column (c - r) mod 4. -/
def invShiftRows (s : Block) : Block :=
  ⟨⟨s.e0.e0, s.e3.e1, s.e2.e2, s.e1.e3⟩,
   ⟨s.e1.e0, s.e0.e1, s.e3.e2, s.e2.e3⟩,
   ⟨s.e2.e0, s.e1.e1, s.e0.e2, s.e3.e3⟩,
   ⟨s.e3.e0, s.e2.e1, s.e1.e2, s.e0.e3⟩⟩

/-- MixColumns on one column (40 R210). -/
def mixColumn (a : Quad Byte) : Quad Byte :=
  ⟨gmul a.e0 2 ^^^ gmul a.e1 3 ^^^ a.e2 ^^^ a.e3,
   a.e0 ^^^ gmul a.e1 2 ^^^ gmul a.e2 3 ^^^ a.e3,
   a.e0 ^^^ a.e1 ^^^ gmul a.e2 2 ^^^ gmul a.e3 3,
   gmul a.e0 3 ^^^ a.e1 ^^^ a.e2 ^^^ gmul a.e3 2⟩

/-- MixColumns (40 R210). -/
def mixColumns (s : Block) : Block := s.map mixColumn

/-- InvMixColumns on one column (40 R211). -/
def invMixColumn (a : Quad Byte) : Quad Byte :=
  ⟨gmul a.e0 0x0e ^^^ gmul a.e1 0x0b ^^^ gmul a.e2 0x0d ^^^ gmul a.e3 0x09,
   gmul a.e0 0x09 ^^^ gmul a.e1 0x0e ^^^ gmul a.e2 0x0b ^^^ gmul a.e3 0x0d,
   gmul a.e0 0x0d ^^^ gmul a.e1 0x09 ^^^ gmul a.e2 0x0e ^^^ gmul a.e3 0x0b,
   gmul a.e0 0x0b ^^^ gmul a.e1 0x0d ^^^ gmul a.e2 0x09 ^^^ gmul a.e3 0x0e⟩

/-- InvMixColumns (40 R211). -/
def invMixColumns (s : Block) : Block := s.map invMixColumn

/-- Byte-wise exclusive-or of two words of the key schedule (41 R243). -/
def xorWord (a b : Quad Byte) : Quad Byte := a.zip (fun x y => x ^^^ y) b

/-- AddRoundKey (40 R212). -/
def addRoundKey (s k : Block) : Block := s.zip xorWord k

/-! ### The key schedule (41) -/

/-- RotWord (41 R241). -/
def rotWord (a : Quad Byte) : Quad Byte := ⟨a.e1, a.e2, a.e3, a.e0⟩

/-- SubWord (41 R241). -/
def subWord (a : Quad Byte) : Quad Byte := a.map sbox

/-- RCON: rc[1..10] (41 R242, 10 R50). -/
def rcTable : List Byte := [0x01, 0x02, 0x04, 0x08, 0x10, 0x20, 0x40, 0x80, 0x1b, 0x36]

/-- Rcon[j] for j = 1..10, the word (rc[j], 0, 0, 0) (41 R242); no other j occurs. -/
def rcon (j : Nat) : Quad Byte := ⟨rcTable.getD (j - 1) 0, 0, 0, 0⟩

/-- NextRoundKey(rk, r) (41 R244). -/
def nextRoundKey (rk : Block) (r : Nat) : Block :=
  let n0 := xorWord (xorWord rk.e0 (subWord (rotWord rk.e3))) (rcon r)
  let n1 := xorWord rk.e1 n0
  let n2 := xorWord rk.e2 n1
  let n3 := xorWord rk.e3 n2
  ⟨n0, n1, n2, n3⟩

/-- PrevRoundKey(rk, r) (41 R245): q3 is computed before q0, which uses it. -/
def prevRoundKey (rk : Block) (r : Nat) : Block :=
  let q3 := xorWord rk.e3 rk.e2
  let q2 := xorWord rk.e2 rk.e1
  let q1 := xorWord rk.e1 rk.e0
  let q0 := xorWord (xorWord rk.e0 (subWord (rotWord q3))) (rcon r)
  ⟨q0, q1, q2, q3⟩

/-- Round key r on the fly from the cipher key (41 R244, R246). -/
def roundKey (k : Block) : Nat → Block
  | 0 => k
  | r + 1 => nextRoundKey (roundKey k r) (r + 1)

/-- The word of the expanded key that 41 R243 computes at index `i ≥ 4` from `w[i-4]` and `w[i-1]`. -/
def expandStep (i : Nat) (w4 w1 : Quad Byte) : Quad Byte :=
  xorWord w4 (if i % 4 = 0 then xorWord (subWord (rotWord w1)) (rcon (i / 4)) else w1)

/-- The four words w[i], w[i+1], w[i+2], w[i+3] of the expanded key (41 R240, R243): a window that slides one word a round. -/
def expandWindow (k : Block) : Nat → Block
  | 0 => k
  | i + 1 =>
    let w := expandWindow k i
    ⟨w.e1, w.e2, w.e3, expandStep (i + 4) w.e0 w.e3⟩

/-- `expandKey(K)` = (k0, k10) (41 R246). -/
def expandKey (k : Block) : Block × Block := (k, roundKey k 10)

/-! ### The ciphers (42) -/

/-- Rounds 1 to `n` of the forward cipher, with MixColumns: the running round key and state after them (42 R271). -/
def cipherRounds (k p : Block) : Nat → Block × Block
  | 0 => (k, addRoundKey p k)
  | r + 1 =>
    let (rk, s) := cipherRounds k p r
    let rk' := nextRoundKey rk (r + 1)
    (rk', addRoundKey (mixColumns (shiftRows (subBytes s))) rk')

/-- Cipher(K, P) (42 R271): nine full rounds and a final one without MixColumns. -/
def cipher (k p : Block) : Block :=
  let (rk, s) := cipherRounds k p 9
  addRoundKey (shiftRows (subBytes s)) (nextRoundKey rk 10)

/-- The first `n` inverse rounds, r = 10 down to 11 - n, with InvMixColumns (42 R274). -/
def invCipherRounds (k10 c : Block) : Nat → Block × Block
  | 0 => (k10, addRoundKey c k10)
  | n + 1 =>
    let (rk, s) := invCipherRounds k10 c n
    let rk' := prevRoundKey rk (10 - n)
    (rk', invMixColumns (addRoundKey (invSubBytes (invShiftRows s)) rk'))

/-- InvCipherFromK10(k10, C) (42 R274). -/
def invCipherFromK10 (k10 c : Block) : Block :=
  let (rk, s) := invCipherRounds k10 c 9
  addRoundKey (invSubBytes (invShiftRows s)) (prevRoundKey rk 1)

/-- The software entry points (42 R273, R275). -/
def encryptBlock (block k0 : Block) : Block := cipher k0 block
def decryptBlock (block k10 : Block) : Block := invCipherFromK10 k10 block

/-- Decrypt(K, C), the engine's decrypt function (42 R276). -/
def decryptWithKey (k c : Block) : Block := invCipherFromK10 (expandKey k).2 c

/-- The function the direction bit selects (10 R34, 43 R340). -/
def transform (dec : Bool) (k b : Block) : Block := if dec then decryptWithKey k b else cipher k b

/-- The software backend (47 R450). -/
def softwareEncrypt (k p : Block) : Block := encryptBlock p (expandKey k).1
def softwareDecrypt (k c : Block) : Block := decryptBlock c (expandKey k).2

end Sys2Proof
end

