-- ==== Sys2Proof/Config.lean ====
section
/-! DEFINITION. Config.lean: what an implementation fixes (the parameters of 00 R8), the host programs that are parameters
of a run (47 R431, R447), and the free values. -/

namespace Sys2Proof

/-- BACKEND (00 R8, 47 R451). -/
inductive Backend where
  | software
  | hardware
  deriving DecidableEq, Repr, Inhabited

/-- One region of system memory that DMA may touch: MemAdmit is false outside the listed regions (20 R81). -/
structure Region where
  base : Nat
  size : Nat
  deriving DecidableEq, Repr, Inhabited

/-- A call of the unified API (47 R447); `encrypt` and `encryptBuffer` have `decrypt = false`.
Keys and blocks are byte lists of any length, so that a wrong length can be passed (47 R437). -/
inductive ApiCall where
  | single (decrypt : Bool) (key block : List Byte)
  | stream (decrypt : Bool) (key : List Byte) (src : Word) (srcLen : Nat) (dst : Word) (dstLen : Nat)
  deriving DecidableEq, Repr

/-- One command of a host context's program. -/
inductive HostCmd where
  /-- One bus transaction on the register window, as its word (30 R120). -/
  | bus (t : Transaction)
  /-- A driver or software-backend call (47 R447). -/
  | call (c : ApiCall)
  /-- Write the CPU's interrupt mask (47 R431, R452). -/
  | setMask (masked : Bool)
  /-- The host's own load of one byte (20 R80(b)). -/
  | load (a : Word)
  /-- The host's own store of one byte (20 R80(b)). -/
  | store (a : Word) (b : Byte)
  /-- Read LOCK until it is granted: the forbidden wait of 47 R434. -/
  | spinLock
  deriving DecidableEq, Repr

/-- The OPEN parameters of 00 R8 and the ISR program of 47 R431. No step changes them. -/
structure Platform where
  /-- AES_BASE[31:8]; AES_BASE is a multiple of 0x100 by construction (D2). -/
  aesPage : BitVec 24
  /-- The memory DMA may touch (MemAdmit, D24), less the register window (44 R365). -/
  admitted : List Region
  /-- POLL_BOUND - 1; POLL_BOUND is a positive integer (D28). -/
  pollBoundPred : Nat
  /-- INTERRUPT_REENTRY (D29). -/
  interruptReentry : Bool
  /-- DRIVER_MASKS_IRQ (D29). -/
  driverMasksIrq : Bool
  /-- BACKEND (D30). -/
  backend : Backend
  /-- ENGINE_FAIR (D26): a premise on infinite schedules, read in Safety.lean. -/
  engineFair : Bool
  /-- HOST_ORDER_BARRIER (D23): the host meets its ordering duty; premise P4, read in Safety.lean. -/
  hostOrderBarrier : Bool
  /-- HOST_CACHE_MAINT (D25): the host meets its cache duty; premise P4, read in Safety.lean. -/
  hostCacheMaint : Bool
  /-- The ISR program (47 R431). -/
  isrProgram : List HostCmd
  deriving DecidableEq, Repr, Inhabited

/-- The run's parameters at reset: nothing is known of them (00 R8, OPEN). -/
opaque Config.platform : Platform

/-- `draw()` (00 R10): the word of free bits that the k-th draw of a run gives. -/
opaque Config.draw : Nat → Word

/-- The initial contents of system memory, an arbitrary value given with the run (20 R81, 70 R540). -/
opaque Config.memInit : Nat → Byte

end Sys2Proof
end

