-- ==== Sys2Proof/Machine/State.lean ====
section
/-! DEFINITION. Machine/State.lean: the machine's state (10 R30), its fault reasons (60 R501), its refusals, and reset (70 R540). -/

namespace Sys2Proof.Machine

/-- The fault reasons of 60 R501, in the order of their ids. A fault is a sticky record in `State.faults`: it never stops the
machine (10 R46, 43 R302, 60 R511), so no step of this model answers with the outcome `fault`. Recording is safe: every claim about a
program takes "faults is empty" as a premise (10 R46). -/
inductive Fault where
  /-- Id 1, by a bus transaction that is not an aligned 32-bit access (30 R121). Safe. -/
  | busWidth
  /-- Id 2, by an aligned 32-bit transaction at an unlisted offset (30 R121, R123). Safe. -/
  | busReservedOffset
  /-- Id 3, by WR_CTRL, WR_CTRL_START, WR_DMA_SRC_COUNT, WR_DMA_DST_COUNT, WR_DMA_CTRL, WR_LOCK, WR_RESULT (43 R310, R311, R326, R330, R332, 45 R401, R406). Safe. -/
  | reservedBits
  /-- Id 4, by every CTRL, KEY, DATA and DMA transaction while the lock is free; the transaction proceeds (43 R301). Safe. -/
  | unguardedAccess
  /-- Id 5, by WR_DATAOUT and WR_DMA_STATUS (43 R323, R335). Safe. -/
  | writeReadOnly
  /-- Id 6, by WR_CTRL and WR_CTRL_START in FEEDING, COMPUTING, STREAMING (43 R310, R311). Safe. -/
  | ctrlWriteWhileBusy
  /-- Id 7, by WR_CTRL_START in IDLE and FINISHED (43 R311). Safe. -/
  | startNotReady
  /-- Id 8, by WR_KEY outside IDLE and KEY_LOADED (43 R315). Safe. -/
  | keyWriteWhileBusy
  /-- Id 9, by WR_DATAIN outside KEY_LOADED and FEEDING (43 R318). Safe. -/
  | feedNotReady
  /-- Id 10, by RD_DATAOUT with no single-block result to read (43 R322). Safe. -/
  | dataoutNotReady
  /-- Id 11, by a descriptor write outside IDLE and KEY_LOADED (43 R324, R326, R328, R330). Safe. -/
  | dmaConfigWhileBusy
  /-- Id 12, by a descriptor address write that is not 4-byte aligned (43 R324, R328). Safe. -/
  | dmaMisaligned
  /-- Id 13, by WR_CTRL_START with a range past 2^32 (43 R311, 44 R361). Safe. -/
  | dmaWrap
  /-- Id 14, by WR_DMA_CTRL clearing an enable of an active stream (43 R332). Safe. -/
  | dmaDisableWhileBusy
  /-- Id 15, by WR_CTRL in a FINISHED stream that has not drained (43 R312). Safe. -/
  | dmaNotDrained
  /-- Id 16, by WR_LOCK in mid-operation (45 R402). Safe. -/
  | releaseMidOp
  /-- Id 17, by WR_LOCK while the lock is free (45 R401). Safe. -/
  | releaseNotHeld
  deriving DecidableEq, Repr

/-- What the spec admits no program to do (60 R500, "refusal"), and instructions without a meaning. -/
inductive Refusal where
  /-- An opcode-table row without a meaning yet: answered by exec's arms only. Safe. -/
  | notModelled (mnemonic : String)
  /-- Answered by a host step whose ISR issues a transaction with INTERRUPT_REENTRY = false (47 R431). Safe: the program is not admitted. -/
  | isrTransactionNotAdmitted
  /-- Answered by a host step that calls a buffer operation with BACKEND = SOFTWARE (47 R447, 93 U9). Safe: the program is not admitted. -/
  | bulkCallOnSoftwareBackend
  deriving DecidableEq, Repr

/-- The sticky set of fault reasons (10 R46), one truth value per reason. -/
structure FaultSet where
  busWidth : Bool
  busReservedOffset : Bool
  reservedBits : Bool
  unguardedAccess : Bool
  writeReadOnly : Bool
  ctrlWriteWhileBusy : Bool
  startNotReady : Bool
  keyWriteWhileBusy : Bool
  feedNotReady : Bool
  dataoutNotReady : Bool
  dmaConfigWhileBusy : Bool
  dmaMisaligned : Bool
  dmaWrap : Bool
  dmaDisableWhileBusy : Bool
  dmaNotDrained : Bool
  releaseMidOp : Bool
  releaseNotHeld : Bool
  deriving DecidableEq, Repr

/-- No fault recorded. -/
def FaultSet.empty : FaultSet :=
  ⟨false, false, false, false, false, false, false, false, false, false, false, false, false, false, false, false, false⟩

/-- The engine state (10 R33). -/
inductive EngineState where
  | idle
  | keyLoaded
  | feeding
  | computing
  | finished
  | streaming
  deriving DecidableEq, Repr

/-- The result codes (30 R137); 4..15 are never produced (93 U3). -/
inductive ResultCode where
  | success
  | invalidLength
  | hardwareTimeout
  | busy
  deriving DecidableEq, Repr

/-- The two host contexts (47 R430). -/
inductive Context where
  | fg
  | isr
  deriving DecidableEq, Repr

/-- Who takes the next step: the five agents of 00 R15, where one `host` step is the step of the context that runs, and the
environment's steps (47 R431, 60 R512, 70 R541). -/
inductive Agent where
  /-- The running host context issues its next command. -/
  | host
  /-- ENGINE (43 R340). -/
  | engine
  /-- DMA_SRC (44 R362). -/
  | dmaSrc
  /-- DMA_DST (44 R363). -/
  | dmaDst
  /-- The environment sets irqPending (47 R431). -/
  | irqRaise
  /-- The host takes the interrupt (47 R431). -/
  | isrEnter
  /-- Reset (70 R540). -/
  | reset
  deriving DecidableEq, Repr

/-- One step of a driver call in progress: every constructor issues exactly one transaction (47 R433, R435, R436, 30 R144). -/
inductive DrvOp where
  /-- `Acquire()` (47 R433). -/
  | acquire
  /-- One transaction whose returned word the driver does not use. -/
  | xact (i : Instr)
  /-- `POLL`: the register read `i`, its mask, and how many reads are left (30 R144). -/
  | poll (i : Instr) (mask : Word) (left : Nat)
  /-- `s <- RD CTRL`, then leave with INVALID_LENGTH after a release if STATE = 1 (47 R436). -/
  | checkStarted
  /-- `y[k] <- RD DATAOUT` (47 R435 step 6). -/
  | drain
  /-- `Release()`, then return the code and the drained words (47 R433, R435 step 7). -/
  | release (code : ResultCode)
  deriving DecidableEq, Repr

/-- What a driver call returned: its code and its output bytes (47 R435, R454). -/
structure CallResult where
  code : ResultCode
  out : List Byte
  deriving DecidableEq, Repr

/-- The host state of one context: its program and its driver's variables (47 R431 to R436). -/
structure HostContext where
  prog : List HostCmd
  ops : List DrvOp
  savedMask : Bool
  out : List Word
  reads : List Word
  returns : List CallResult
  holdsLock : Bool
  deriving DecidableEq, Repr

/-- A context with nothing to do and nothing observed (log entries 3, 4 and 5). -/
def HostContext.fresh : HostContext :=
  { prog := [], ops := [], savedMask := true, out := [], reads := [], returns := [], holdsLock := false }

/-- System memory: the bytes that differ from the initial contents, addresses strictly rising (20 R81). -/
abbrev Memory := List Host.Cell

/-- The machine state (10 R30, R32; 47 R431): INVENTORY.md lists every field with its rule. -/
structure State where
  decrypt : Bool
  st : EngineState
  stream : Bool
  key : Quad Word
  keyValid : Quad Bool
  inBuf : List Word
  outBuf : List Word
  blocksDone : BitVec 16
  srcAddr : Word
  srcCount : BitVec 16
  dstAddr : Word
  dstCount : BitVec 16
  srcEn : Bool
  dstEn : Bool
  srcDone : Bool
  dstDone : Bool
  srcWords : BitVec 18
  dstWords : BitVec 18
  lockHeld : Bool
  resultCode : ResultCode
  faults : FaultSet
  mem : Memory
  ctx : Context
  irqMasked : Bool
  irqPending : Bool
  isrSavedMask : Bool
  fg : HostContext
  isr : HostContext
  platform : Platform
  draws : Nat
  schedule : List Agent
  deriving DecidableEq, Repr

/-- The machine right after reset (70 R540). Memory lists nothing: every byte is its initial value (log entry 2).
The run's parameters are the opaque `Config.platform` (log entry 6). -/
def State.reset : State where
  decrypt := false
  st := .idle
  stream := false
  key := ⟨0, 0, 0, 0⟩
  keyValid := ⟨false, false, false, false⟩
  inBuf := []
  outBuf := []
  blocksDone := 0
  srcAddr := 0
  srcCount := 0
  dstAddr := 0
  dstCount := 0
  srcEn := false
  dstEn := false
  srcDone := false
  dstDone := false
  srcWords := 0
  dstWords := 0
  lockHeld := false
  resultCode := .success
  faults := FaultSet.empty
  mem := []
  ctx := .fg
  irqMasked := true
  irqPending := false
  isrSavedMask := true
  fg := HostContext.fresh
  isr := HostContext.fresh
  platform := Config.platform
  draws := 0
  schedule := []

/-- What a transaction or a step answers. -/
abbrev Result := Host.Outcome State Fault Refusal

end Sys2Proof.Machine
end

