-- ==== Sys2Proof/Machine/Ops.lean ====
section
/-! DEFINITION. Machine/Ops.lean: the named operations over faults, memory, the host's returned words, teardown,
and the host's interrupt entry and return. -/

namespace Sys2Proof.Machine

/-! ### The fault set (10 R46) -/

/-- Is a reason recorded? -/
def FaultSet.has (f : FaultSet) : Fault → Bool
  | .busWidth => f.busWidth
  | .busReservedOffset => f.busReservedOffset
  | .reservedBits => f.reservedBits
  | .unguardedAccess => f.unguardedAccess
  | .writeReadOnly => f.writeReadOnly
  | .ctrlWriteWhileBusy => f.ctrlWriteWhileBusy
  | .startNotReady => f.startNotReady
  | .keyWriteWhileBusy => f.keyWriteWhileBusy
  | .feedNotReady => f.feedNotReady
  | .dataoutNotReady => f.dataoutNotReady
  | .dmaConfigWhileBusy => f.dmaConfigWhileBusy
  | .dmaMisaligned => f.dmaMisaligned
  | .dmaWrap => f.dmaWrap
  | .dmaDisableWhileBusy => f.dmaDisableWhileBusy
  | .dmaNotDrained => f.dmaNotDrained
  | .releaseMidOp => f.releaseMidOp
  | .releaseNotHeld => f.releaseNotHeld

/-- Add a reason to the set. -/
def FaultSet.add (f : FaultSet) : Fault → FaultSet
  | .busWidth => { f with busWidth := true }
  | .busReservedOffset => { f with busReservedOffset := true }
  | .reservedBits => { f with reservedBits := true }
  | .unguardedAccess => { f with unguardedAccess := true }
  | .writeReadOnly => { f with writeReadOnly := true }
  | .ctrlWriteWhileBusy => { f with ctrlWriteWhileBusy := true }
  | .startNotReady => { f with startNotReady := true }
  | .keyWriteWhileBusy => { f with keyWriteWhileBusy := true }
  | .feedNotReady => { f with feedNotReady := true }
  | .dataoutNotReady => { f with dataoutNotReady := true }
  | .dmaConfigWhileBusy => { f with dmaConfigWhileBusy := true }
  | .dmaMisaligned => { f with dmaMisaligned := true }
  | .dmaWrap => { f with dmaWrap := true }
  | .dmaDisableWhileBusy => { f with dmaDisableWhileBusy := true }
  | .dmaNotDrained => { f with dmaNotDrained := true }
  | .releaseMidOp => { f with releaseMidOp := true }
  | .releaseNotHeld => { f with releaseNotHeld := true }

/-- `raise Fault(r)`: record the reason and change nothing else (00 R10, 43 R302, 60 R511). -/
def State.raise (r : Fault) (s : State) : State := { s with faults := s.faults.add r }

/-- The guard check (43 R301): an access with the lock free is recorded, and proceeds. -/
def State.guardCheck (s : State) : State :=
  { s with faults := if s.lockHeld then s.faults else s.faults.add .unguardedAccess }

/-! ### What a read returns to the issuing context (43 R300) -/

/-- The host context that runs (47 R430). -/
def State.cur (s : State) : HostContext :=
  match s.ctx with
  | .fg => s.fg
  | .isr => s.isr

/-- Replace the running context's host state. -/
def State.setCur (h : HostContext) (s : State) : State :=
  { s with
    fg := match s.ctx with | .fg => h | .isr => s.fg
    isr := match s.ctx with | .fg => s.isr | .isr => h }

/-- A read returns a word every bit of which the spec defines. -/
def State.returnWord (w : Word) (s : State) : State :=
  s.setCur { s.cur with reads := w :: s.cur.reads }

/-- The word of a read whose defined fields are `v` under `mask`; every other bit is an independent draw (43 R303). -/
def State.drawnWord (mask v : Word) (s : State) : Word :=
  (v &&& mask) ||| (Config.draw s.draws &&& ~~~mask)

/-- A read returns such a word; its draw is used up. -/
def State.returnDrawn (mask v : Word) (s : State) : State :=
  { s.returnWord (s.drawnWord mask v) with draws := s.draws + 1 }

/-- A faulting read: record the reason, change nothing else, return a draw (43 R302). -/
def State.refuseRead (r : Fault) (s : State) : State := (s.raise r).returnDrawn noReadMask 0

/-- The running context learns that its acquire succeeded, or that it has released (47 R432). -/
def State.setHolds (b : Bool) (s : State) : State := s.setCur { s.cur with holdsLock := b }

/-! ### The arbiter's state (10 R44, R45) -/

/-- `lock.held <- b`. -/
def State.setLock (b : Bool) (s : State) : State := { s with lockHeld := b }

/-- `result.code <- c`. -/
def State.setResult (c : ResultCode) (s : State) : State := { s with resultCode := c }

/-- `ctrl.decrypt <- d`. -/
def State.setDecrypt (d : Bool) (s : State) : State := { s with decrypt := d }

/-! ### Teardown (10 R52) -/

/-- Return the engine to IDLE. -/
def State.teardown (s : State) : State :=
  { s with
    st := .idle
    stream := false
    key := ⟨0, 0, 0, 0⟩
    keyValid := ⟨false, false, false, false⟩
    inBuf := []
    outBuf := []
    blocksDone := 0
    srcEn := false
    dstEn := false
    srcDone := false
    dstDone := false
    srcWords := 0
    dstWords := 0 }

/-! ### System memory (20 R81, R82) -/

/-- The byte at an address: the listed byte, else its initial value. -/
def Memory.readByte : Memory → Nat → Byte
  | [], a => Config.memInit a
  | (k, b) :: m, a => if k = a then b else Memory.readByte m a

/-- Write a byte, keeping the canonical form: addresses rise, and a byte equal to its initial value is not listed. -/
def Memory.writeByte (a : Nat) (b : Byte) : Memory → Memory
  | [] => if b = Config.memInit a then [] else [(a, b)]
  | (k, c) :: m =>
    if a < k then (if b = Config.memInit a then (k, c) :: m else (a, b) :: (k, c) :: m)
    else if a = k then (if b = Config.memInit a then m else (a, b) :: m)
    else (k, c) :: Memory.writeByte a b m

/-- The canonical form from address `lo` on. -/
def Memory.wfFrom (lo : Nat) : Memory → Bool
  | [] => true
  | (k, b) :: m => decide (lo ≤ k) && decide (k < 2 ^ 32) && decide (b ≠ Config.memInit k) && Memory.wfFrom (k + 1) m

/-- The canonical form: addresses strictly rising and below 2^32, no entry equal to what an unlisted address reads as. -/
def Memory.wf (m : Memory) : Bool := Memory.wfFrom 0 m

/-- The byte at a 32-bit address. -/
def Memory.read8 (m : Memory) (a : Word) : Byte := m.readByte a.toNat

/-- Write the byte at a 32-bit address. -/
def Memory.write8 (m : Memory) (a : Word) (b : Byte) : Memory := Memory.writeByte a.toNat b m

/-- `MemRead(addr, 4)` (20 R82); address addition is modulo 2^32 (00 R9). -/
def Memory.read32 (m : Memory) (a : Word) : Word :=
  le32 ⟨m.read8 a, m.read8 (a + 1), m.read8 (a + 2), m.read8 (a + 3)⟩

/-- `MemWrite(addr, 4, w)` (20 R82). -/
def Memory.write32 (m : Memory) (a : Word) (w : Word) : Memory :=
  let b := wordBytes w
  (((m.write8 a b.e0).write8 (a + 1) b.e1).write8 (a + 2) b.e2).write8 (a + 3) b.e3

end Sys2Proof.Machine

namespace Sys2Proof

/-! ### The platform (00 R8) -/

/-- AES_BASE (20 R89). -/
def Platform.aesBase (p : Platform) : Word := p.aesPage ++ 0#8

/-- POLL_BOUND (30 R144). -/
def Platform.pollBound (p : Platform) : Nat := p.pollBoundPred + 1

/-- Is an address in the register window [AES_BASE, AES_BASE + 0x100) (20 R80)? -/
def Platform.inWindow (p : Platform) (a : Word) : Bool := a.extractLsb' 8 24 == p.aesPage

/-- May DMA touch one byte: it is in an admitted region and not in the register window (44 R365). -/
def Platform.admitsByte (p : Platform) (a : Word) : Bool :=
  (p.admitted.any fun r => decide (r.base ≤ a.toNat) && decide (a.toNat < r.base + r.size)) && !p.inWindow a

/-- MemAdmit(addr, n) (20 R81): every one of the n bytes is memory DMA may touch. -/
def Platform.memAdmit (p : Platform) (a : Word) (n : Nat) : Bool :=
  (List.range n).all fun i => p.admitsByte (a + BitVec.ofNat 32 i)

end Sys2Proof

namespace Sys2Proof.Machine

/-! ### The host's interrupt entry and return, and reset: no trap of the block exists (60 R510, R511) -/

/-- ISR entry is enabled (47 R431). -/
def State.isrEnterEnabled (s : State) : Bool :=
  decide (s.ctx = .fg) && !s.irqMasked && s.irqPending

/-- ISR entry: the ISR runs its program from its start, and the mask it found is kept (47 R431, 60 R512). -/
def State.enterIsr (s : State) : State :=
  if s.isrEnterEnabled then
    { s with
      ctx := .isr
      irqPending := false
      isrSavedMask := s.irqMasked
      isr := { s.isr with prog := s.platform.isrProgram, ops := [] } }
  else s

/-- The ISR's return: the foreground goes on, and the mask is what it was when the ISR began (60 R512). -/
def State.returnIsr (s : State) : State := { s with ctx := .fg, irqMasked := s.isrSavedMask }

/-- A context after reset: its driver's variables are lost; what it has still to issue and what it observed are kept (log entry 9). -/
def HostContext.afterReset (keepProg : Bool) (h : HostContext) : HostContext :=
  { HostContext.fresh with
    prog := if keepProg then h.prog else []
    reads := h.reads
    returns := h.returns }

/-- Reset in mid-run: every piece of state goes to its reset value; memory stays (70 R540, R542), and so do the run's parameters,
the free values already used and the schedule. -/
def State.afterReset (s : State) : State :=
  { State.reset with
    mem := s.mem
    fg := s.fg.afterReset true
    isr := s.isr.afterReset false
    platform := s.platform
    draws := s.draws
    schedule := s.schedule }

end Sys2Proof.Machine
end

