-- ==== Sys2Proof/Machine/Flags.lean ====
section
/-! DEFINITION. Machine/Flags.lean: the derived flags (10 R47 to R49), START's two predicates (44 R361), codes, and the
words that status reads are built from. -/

namespace Sys2Proof.Machine

/-- CTRL.STATE (30 R126). -/
def EngineState.code : EngineState → BitVec 3
  | .idle => 0
  | .keyLoaded => 1
  | .feeding => 2
  | .computing => 3
  | .finished => 4
  | .streaming => 5

/-- The result codes (30 R137). -/
def ResultCode.bits : ResultCode → BitVec 4
  | .success => 0
  | .invalidLength => 1
  | .hardwareTimeout => 2
  | .busy => 3

/-- DATA_FEED_READY (10 R47). -/
def State.dataFeedReady (s : State) : Bool :=
  match s.st with
  | .keyLoaded | .feeding => true
  | .streaming => decide (s.inBuf.length < 4) && decide (s.srcWords.toNat < 4 * s.srcCount.toNat)
  | .idle | .computing | .finished => false

/-- FINISHED (10 R48). -/
def State.finishedFlag (s : State) : Bool := decide (s.st = .finished)

/-- `dmaActive` (10 R49). -/
def State.dmaActive (s : State) : Bool :=
  match s.st with
  | .streaming => true
  | .finished => s.stream && !s.dstDone
  | .idle | .keyLoaded | .feeding | .computing => false

/-- May descriptors and the direction be written (43 R310, R324 to R330)? -/
def State.configurable (s : State) : Bool :=
  match s.st with
  | .idle | .keyLoaded => true
  | .feeding | .computing | .finished | .streaming => false

/-- `CountsValid()` (44 R361). -/
def State.countsValid (s : State) : Bool := decide (s.srcCount ≠ 0) && decide (s.srcCount = s.dstCount)

/-- `RangeWraps()` (44 R361): integer arithmetic, no wrap. -/
def State.rangeWraps (s : State) : Bool :=
  decide (2 ^ 32 < s.srcAddr.toNat + 16 * s.srcCount.toNat) || decide (2 ^ 32 < s.dstAddr.toNat + 16 * s.dstCount.toNat)

/-- The defined fields of a CTRL read (30 R124, 43 R309). -/
def State.ctrlFields (s : State) : Word :=
  bitAt 0 s.decrypt ||| bitAt 8 s.dataFeedReady ||| bitAt 9 s.finishedFlag ||| bitAt 10 s.stream
    ||| (s.st.code.setWidth 32 <<< 12)

/-- The defined fields of a DMA_CTRL read (30 R132, 43 R333). -/
def State.enableFields (s : State) : Word := bitAt 0 s.srcEn ||| bitAt 1 s.dstEn

/-- The defined fields of a DMA_STATUS read (30 R133, 43 R334). -/
def State.doneFields (s : State) : Word := bitAt 0 s.srcDone ||| bitAt 1 s.dstDone

/-- The defined field of a RESULT read (30 R135, 45 R405). -/
def State.codeField (s : State) : Word := s.resultCode.bits.setWidth 32

end Sys2Proof.Machine
end

