-- ==== Sys2Proof/Machine/Agents.lean ====
section
/-! DEFINITION. Machine/Agents.lean: the steps of ENGINE (43 R340), DMA_SRC (44 R362) and DMA_DST (44 R363).
A step that is not enabled does not happen: the state stays as it is. -/

namespace Sys2Proof.Machine

/-- The four result words of a block of input words (43 R340). -/
def State.compute (w : Quad Word) (s : State) : Quad Word :=
  wordsOfBlock (transform s.decrypt (blockOfWords s.key) (blockOfWords w))

/-- The ENGINE step is enabled (43 R340). In COMPUTING inBuf holds four words (10 R53 d). -/
def State.engineEnabled (s : State) : Bool :=
  match s.st with
  | .computing => decide (s.inBuf.length = 4)
  | .streaming => decide (s.inBuf.length = 4) && decide (s.outBuf = [])
  | .idle | .keyLoaded | .feeding | .finished => false

/-- The buffers after a computed block (43 R340). -/
def State.emitBlock (w : Quad Word) (s : State) : State :=
  { s with outBuf := (s.compute w).toList, inBuf := [] }

/-- The block count of a stream after a computed block; the last block ends the computation (43 R340). -/
def State.countBlock (s : State) : State :=
  { s with
    blocksDone := s.blocksDone + 1
    st := if s.blocksDone + 1 = s.srcCount then .finished else .streaming }

/-- The ENGINE step (43 R340). -/
def State.engineStep (s : State) : State :=
  if s.engineEnabled then
    match s.inBuf with
    | [w0, w1, w2, w3] =>
      let t := s.emitBlock ⟨w0, w1, w2, w3⟩
      if s.st = .computing then { t with st := .finished } else t.countBlock
    | _ => s
  else s

/-- The address of the next source word (10 R43, 44 R362). -/
def State.srcCursor (s : State) : Word := s.srcAddr + 4 * s.srcWords.setWidth 32

/-- The address of the next destination word (10 R43, 44 R363). -/
def State.dstCursor (s : State) : Word := s.dstAddr + 4 * s.dstWords.setWidth 32

/-- The DMA_SRC step is enabled (44 R362). -/
def State.srcEnabled (s : State) : Bool :=
  s.srcEn && decide (s.st = .streaming) && decide (s.inBuf.length < 4)
    && decide (s.srcWords.toNat < 4 * s.srcCount.toNat) && s.platform.memAdmit s.srcCursor 4

/-- The DMA_SRC step: read one source word (44 R362). -/
def State.dmaSrcStep (s : State) : State :=
  if s.srcEnabled then
    { s with
      inBuf := s.inBuf ++ [s.mem.read32 s.srcCursor]
      srcWords := s.srcWords + 1
      srcDone := if (s.srcWords + 1).toNat = 4 * s.srcCount.toNat then true else s.srcDone }
  else s

/-- The DMA_DST step is enabled (44 R363). -/
def State.dstEnabled (s : State) : Bool :=
  s.dstEn && s.stream && decide (s.outBuf ≠ [])
    && decide (s.dstWords.toNat < 4 * s.dstCount.toNat) && s.platform.memAdmit s.dstCursor 4

/-- The DMA_DST step: write one result word (44 R363). -/
def State.dmaDstStep (s : State) : State :=
  if s.dstEnabled then
    match s.outBuf with
    | [] => s
    | x :: rest =>
      { s with
        mem := s.mem.write32 s.dstCursor x
        outBuf := rest
        dstWords := s.dstWords + 1
        dstDone := if (s.dstWords + 1).toNat = 4 * s.dstCount.toNat then true else s.dstDone }
  else s

end Sys2Proof.Machine
end

