-- ==== Sys2Proof/Machine/Ctrl.lean ====
section
/-! DEFINITION. Machine/Ctrl.lean: RD_CTRL, WR_CTRL, WR_CTRL_START (43 R309 to R312). -/

namespace Sys2Proof.Machine

/-- RD_CTRL (43 R309). -/
def execRdCtrl (s : State) : Result :=
  .next (s.guardCheck.returnDrawn ctrlReadMask s.ctrlFields)

/-- A WR_CTRL in FINISHED ends the operation (43 R312). -/
def State.endOperation (dir : Bool) (s : State) : State :=
  if s.stream && !s.dstDone then s.raise .dmaNotDrained
  else s.teardown.setDecrypt dir

/-- WR_CTRL: set the direction (43 R310), or end a finished operation (43 R312). -/
def execWrCtrl (v : Word) (s : State) : Result :=
  let s := s.guardCheck
  if hasBitsFrom 2 v then .next (s.raise .reservedBits)
  else
    match s.st with
    | .idle | .keyLoaded => .next (s.setDecrypt (v.getLsbD 0))
    | .finished => .next (s.endOperation (v.getLsbD 0))
    | .feeding | .computing | .streaming => .next (s.raise .ctrlWriteWhileBusy)

/-- The accepted START (43 R311). -/
def State.startStream (dir : Bool) (s : State) : State :=
  { s with
    decrypt := dir
    st := .streaming
    stream := true
    blocksDone := 0
    srcWords := 0
    dstWords := 0
    srcDone := false
    dstDone := false }

/-- WR_CTRL_START: validate the descriptors and start a stream (43 R311, 44 R361). -/
def execWrCtrlStart (v : Word) (s : State) : Result :=
  let s := s.guardCheck
  if hasBitsFrom 2 v then .next (s.raise .reservedBits)
  else
    match s.st with
    | .keyLoaded =>
      if !s.countsValid then .next (s.setResult .invalidLength)
      else if s.rangeWraps then .next (s.raise .dmaWrap)
      else .next (s.startStream (v.getLsbD 0))
    | .idle | .finished => .next (s.raise .startNotReady)
    | .feeding | .computing | .streaming => .next (s.raise .ctrlWriteWhileBusy)

end Sys2Proof.Machine
end

