-- ==== Sys2Proof/Machine/DmaRegs.lean ====
section
/-! DEFINITION. Machine/DmaRegs.lean: the DMA descriptor, control and status transactions (43 R324 to R335). -/

namespace Sys2Proof.Machine

/-- WR_DMA_SRC_ADDR (43 R324). -/
def execWrDmaSrcAddr (v : Word) (s : State) : Result :=
  let s := s.guardCheck
  if !wordAligned v then .next (s.raise .dmaMisaligned)
  else if !s.configurable then .next (s.raise .dmaConfigWhileBusy)
  else .next { s with srcAddr := v }

/-- RD_DMA_SRC_ADDR (43 R325). -/
def execRdDmaSrcAddr (s : State) : Result :=
  .next (s.guardCheck.returnWord s.srcAddr)

/-- WR_DMA_SRC_COUNT (43 R326). -/
def execWrDmaSrcCount (v : Word) (s : State) : Result :=
  let s := s.guardCheck
  if hasBitsFrom 16 v then .next (s.raise .reservedBits)
  else if !s.configurable then .next (s.raise .dmaConfigWhileBusy)
  else .next { s with srcCount := v.extractLsb' 0 16 }

/-- RD_DMA_SRC_COUNT (43 R327). -/
def execRdDmaSrcCount (s : State) : Result :=
  .next (s.guardCheck.returnDrawn countReadMask (s.srcCount.setWidth 32))

/-- WR_DMA_DST_ADDR (43 R328). -/
def execWrDmaDstAddr (v : Word) (s : State) : Result :=
  let s := s.guardCheck
  if !wordAligned v then .next (s.raise .dmaMisaligned)
  else if !s.configurable then .next (s.raise .dmaConfigWhileBusy)
  else .next { s with dstAddr := v }

/-- RD_DMA_DST_ADDR (43 R329). -/
def execRdDmaDstAddr (s : State) : Result :=
  .next (s.guardCheck.returnWord s.dstAddr)

/-- WR_DMA_DST_COUNT (43 R330). -/
def execWrDmaDstCount (v : Word) (s : State) : Result :=
  let s := s.guardCheck
  if hasBitsFrom 16 v then .next (s.raise .reservedBits)
  else if !s.configurable then .next (s.raise .dmaConfigWhileBusy)
  else .next { s with dstCount := v.extractLsb' 0 16 }

/-- RD_DMA_DST_COUNT (43 R331). -/
def execRdDmaDstCount (s : State) : Result :=
  .next (s.guardCheck.returnDrawn countReadMask (s.dstCount.setWidth 32))

/-- Would this DMA_CTRL value clear an enable that is set (43 R332)? -/
def State.disablesChannel (v : Word) (s : State) : Bool :=
  (s.srcEn && !v.getLsbD 0) || (s.dstEn && !v.getLsbD 1)

/-- WR_DMA_CTRL (43 R332). -/
def execWrDmaCtrl (v : Word) (s : State) : Result :=
  let s := s.guardCheck
  if hasBitsFrom 2 v then .next (s.raise .reservedBits)
  else if s.dmaActive && s.disablesChannel v then .next (s.raise .dmaDisableWhileBusy)
  else .next { s with srcEn := v.getLsbD 0, dstEn := v.getLsbD 1 }

/-- RD_DMA_CTRL (43 R333). -/
def execRdDmaCtrl (s : State) : Result :=
  .next (s.guardCheck.returnDrawn enableReadMask s.enableFields)

/-- RD_DMA_STATUS (43 R334). -/
def execRdDmaStatus (s : State) : Result :=
  .next (s.guardCheck.returnDrawn enableReadMask s.doneFields)

/-- WR_DMA_STATUS (43 R335). -/
def execWrDmaStatus (_v : Word) (s : State) : Result :=
  .next (s.guardCheck.raise .writeReadOnly)

end Sys2Proof.Machine
end

