-- ==== Sys2Proof/Machine/KeyData.lean ====
section
/-! DEFINITION. Machine/KeyData.lean: the KEYn, DATAIN and DATAOUT transactions (43 R314 to R323). -/

namespace Sys2Proof.Machine

/-- RD_KEY n: a draw (43 R314). -/
def execRdKey (_n : BitVec 2) (s : State) : Result :=
  .next (s.guardCheck.returnDrawn noReadMask 0)

/-- All four key words are written: keyValid == 0b1111 (10 R36). -/
def keyComplete (kv : Quad Bool) : Bool := kv.e0 && kv.e1 && kv.e2 && kv.e3

/-- Write key word n; the fourth distinct word makes IDLE into KEY_LOADED (43 R315). -/
def State.loadKeyWord (n : BitVec 2) (v : Word) (s : State) : State :=
  { s with
    key := s.key.set n v
    keyValid := s.keyValid.set n true
    st := if s.st = .idle ∧ keyComplete (s.keyValid.set n true) = true then .keyLoaded else s.st }

/-- WR_KEY n (43 R315). -/
def execWrKey (n : BitVec 2) (v : Word) (s : State) : Result :=
  let s := s.guardCheck
  match s.st with
  | .idle | .keyLoaded => .next (s.loadKeyWord n v)
  | .feeding | .computing | .finished | .streaming => .next (s.raise .keyWriteWhileBusy)

/-- RD_DATAIN: a draw; it does not pop inBuf (43 R317). -/
def execRdDatain (s : State) : Result :=
  .next (s.guardCheck.returnDrawn noReadMask 0)

/-- Append a data word; the fourth starts the computation (43 R318). -/
def State.feedWord (v : Word) (s : State) : State :=
  { s with
    inBuf := s.inBuf ++ [v]
    st := if (s.inBuf ++ [v]).length = 4 then .computing else .feeding }

/-- WR_DATAIN (43 R318). -/
def execWrDatain (v : Word) (s : State) : Result :=
  let s := s.guardCheck
  match s.st with
  | .keyLoaded | .feeding => .next (s.feedWord v)
  | .idle | .computing | .finished | .streaming => .next (s.raise .feedNotReady)

/-- Pop the result words down to `rest`; the last one tears down (43 R322). -/
def State.popResult (rest : List Word) (s : State) : State :=
  if rest = [] then s.teardown else { s with outBuf := rest }

/-- RD_DATAOUT (43 R322). -/
def execRdDataout (s : State) : Result :=
  let s := s.guardCheck
  match s.st, s.stream, s.outBuf with
  | .finished, false, x :: rest => .next ((s.popResult rest).returnWord x)
  | _, _, _ => .next (s.refuseRead .dataoutNotReady)

/-- WR_DATAOUT (43 R323). -/
def execWrDataout (_v : Word) (s : State) : Result :=
  .next (s.guardCheck.raise .writeReadOnly)

end Sys2Proof.Machine
end

