-- ==== Sys2Proof/Machine/Mutex.lean ====
section
/-! DEFINITION. Machine/Mutex.lean: the LOCK and RESULT transactions (45 R400 to R406); both are exempt from the guard check. -/

namespace Sys2Proof.Machine

/-- The word a granted LOCK read returns (30 R134). -/
def lockGranted : Word := 0x00000000#32

/-- The word a LOCK read returns while held (30 R134). -/
def lockBusy : Word := 0x00000003#32

/-- RD_LOCK: test and set in one step (45 R400). -/
def execRdLock (s : State) : Result :=
  if s.lockHeld then .next ((s.setResult .busy).returnWord lockBusy)
  else .next (((s.setLock true).setHolds true).returnWord lockGranted)

/-- The release condition (45 R402). -/
def State.releasable (s : State) : Bool :=
  match s.st with
  | .idle | .keyLoaded => true
  | .finished => !s.dmaActive
  | .feeding | .computing | .streaming => false

/-- WR_LOCK: release (45 R401, R402). -/
def execWrLock (v : Word) (s : State) : Result :=
  if v ≠ 0#32 then .next (s.raise .reservedBits)
  else if !s.lockHeld then .next (s.raise .releaseNotHeld)
  else if s.releasable then .next ((s.teardown.setLock false).setHolds false)
  else .next (s.raise .releaseMidOp)

/-- RD_RESULT (45 R405). -/
def execRdResult (s : State) : Result :=
  .next (s.returnDrawn codeReadMask s.codeField)

/-- WR_RESULT: a write of 0 clears the code (45 R406). -/
def execWrResult (v : Word) (s : State) : Result :=
  if v ≠ 0#32 then .next (s.raise .reservedBits)
  else .next (s.setResult .success)

end Sys2Proof.Machine
end

