-- ==== Sys2Proof/Machine/Dispatch.lean ====
section
/-! DEFINITION. Machine/Dispatch.lean: one arm per register transaction (30 R139). -/

namespace Sys2Proof.Machine

def exec (i : Instr) (s : State) : Host.Outcome State Fault Refusal :=
  match i with
  | .rdCtrl => Sys2Proof.Machine.execRdCtrl s
  | .wrCtrl v => Sys2Proof.Machine.execWrCtrl v s
  | .wrCtrlStart v => Sys2Proof.Machine.execWrCtrlStart v s
  | .rdKey n => Sys2Proof.Machine.execRdKey n s
  | .wrKey n v => Sys2Proof.Machine.execWrKey n v s
  | .rdDatain => Sys2Proof.Machine.execRdDatain s
  | .wrDatain v => Sys2Proof.Machine.execWrDatain v s
  | .rdDataout => Sys2Proof.Machine.execRdDataout s
  | .wrDataout v => Sys2Proof.Machine.execWrDataout v s
  | .wrDmaSrcAddr v => Sys2Proof.Machine.execWrDmaSrcAddr v s
  | .rdDmaSrcAddr => Sys2Proof.Machine.execRdDmaSrcAddr s
  | .wrDmaSrcCount v => Sys2Proof.Machine.execWrDmaSrcCount v s
  | .rdDmaSrcCount => Sys2Proof.Machine.execRdDmaSrcCount s
  | .wrDmaDstAddr v => Sys2Proof.Machine.execWrDmaDstAddr v s
  | .rdDmaDstAddr => Sys2Proof.Machine.execRdDmaDstAddr s
  | .wrDmaDstCount v => Sys2Proof.Machine.execWrDmaDstCount v s
  | .rdDmaDstCount => Sys2Proof.Machine.execRdDmaDstCount s
  | .wrDmaCtrl v => Sys2Proof.Machine.execWrDmaCtrl v s
  | .rdDmaCtrl => Sys2Proof.Machine.execRdDmaCtrl s
  | .rdDmaStatus => Sys2Proof.Machine.execRdDmaStatus s
  | .wrDmaStatus v => Sys2Proof.Machine.execWrDmaStatus v s
  | .rdLock => Sys2Proof.Machine.execRdLock s
  | .wrLock v => Sys2Proof.Machine.execWrLock v s
  | .rdResult => Sys2Proof.Machine.execRdResult s
  | .wrResult v => Sys2Proof.Machine.execWrResult v s

end Sys2Proof.Machine
end

