-- ==== Sys2Proof/Machine/Driver.lean ====
section
/-! DEFINITION. Machine/Driver.lean: the host's steps: bus transactions (30 R121, 43 R300), the pseudo-instructions (30 R144),
the drivers singleBlockOp and streamingOp (47 R433 to R440), the unified API over the two backends (47 R447, R450),
and one step of each agent (00 R15). -/

namespace Sys2Proof.Machine

/-- Go on from a next state; a fault or a refusal ends the step. -/
def onNext (r : Result) (f : State → Result) : Result :=
  match r with
  | .next s => f s
  | .fault e => .fault e
  | .refused e => .refused e

/-! ### Bus transactions -/

/-- The running context issues a register transaction. With INTERRUPT_REENTRY = false the ISR issues none (47 R431). -/
def issue (i : Instr) (s : State) : Result :=
  match s.ctx with
  | .fg => exec i s
  | .isr => if s.platform.interruptReentry then exec i s else .refused .isrTransactionNotAdmitted

/-- A rejected transaction: its fault is recorded before any guard check, it has no effect, and a read returns a draw
(30 R121, 43 R300, R302). -/
def rejectTransaction (r : Fault) (t : Transaction) (s : State) : State :=
  if t.isWrite then s.raise r else s.refuseRead r

/-- A transaction word on the bus (43 R300). -/
def busTransaction (t : Transaction) (s : State) : Result :=
  match decode t with
  | .ok i => issue i s
  | .error e =>
    match s.ctx, s.platform.interruptReentry with
    | .isr, false => .refused .isrTransactionNotAdmitted
    | _, _ =>
      match e with
      | .busWidth => .next (rejectTransaction .busWidth t s)
      | .busReservedOffset => .next (rejectTransaction .busReservedOffset t s)

/-! ### The host's own memory accesses (20 R80(b), R91) -/

/-- Load one byte; in the register window it is an 8-bit transaction (20 R85). -/
def hostLoad (a : Word) (s : State) : Result :=
  if s.platform.inWindow a then busTransaction (Transaction.make 0#2 false (a.extractLsb' 0 8) 0) s
  else .next (s.returnWord ((s.mem.read8 a).setWidth 32))

/-- Store one byte; in the register window it is an 8-bit transaction (20 R85). -/
def hostStore (a : Word) (b : Byte) (s : State) : Result :=
  if s.platform.inWindow a then busTransaction (Transaction.make 0#2 true (a.extractLsb' 0 8) (b.setWidth 32)) s
  else .next { s with mem := s.mem.write8 a b }

/-! ### The pseudo-instructions (30 R144) -/

def pseudoAcquire : List DrvOp := [.xact .rdLock]
def pseudoRelease : List DrvOp := [.xact (.wrLock 0)]

/-- A direction bit as a written word. -/
def dirWord (d : Bool) : Word := bitAt 0 d

def pseudoSetDir (d : Bool) : List DrvOp := [.xact (.wrCtrl (dirWord d))]
def pseudoStart (d : Bool) : List DrvOp := [.xact (.wrCtrlStart (0x2#32 ||| dirWord d))]

def pseudoLoadKey (k : Block) : List DrvOp :=
  let w := wordsOfBlock k
  [.xact (.wrKey 0 w.e0), .xact (.wrKey 1 w.e1), .xact (.wrKey 2 w.e2), .xact (.wrKey 3 w.e3)]

/-- DATA_FEED_READY, FINISHED and DST_DONE as poll masks (30 R124, R133). -/
def feedReadyMask : Word := 0x100#32
def finishedMask : Word := 0x200#32
def dstDoneMask : Word := 0x2#32

/-- FEED B, each poll of at most `p` reads. -/
def pseudoFeed (p : Nat) (b : Block) : List DrvOp :=
  (wordsOfBlock b).toList.flatMap fun w => [.poll .rdCtrl feedReadyMask p, .xact (.wrDatain w)]

def pseudoDrain : List DrvOp := [.drain, .drain, .drain, .drain]

def pseudoDmaCfg (src : Word) (n : Nat) (dst : Word) (m : Nat) : List DrvOp :=
  [.xact (.wrDmaSrcAddr src), .xact (.wrDmaSrcCount (BitVec.ofNat 32 n)),
   .xact (.wrDmaDstAddr dst), .xact (.wrDmaDstCount (BitVec.ofNat 32 m))]

def pseudoDmaEn : List DrvOp := [.xact (.wrDmaCtrl 0x3)]
def pseudoClrResult : List DrvOp := [.xact (.wrResult 0)]

/-! ### The driver sequences (47 R435, R436) -/

/-- singleBlockOp, steps 1 to 7 (47 R435). -/
def singleBlockOps (p : Nat) (d : Bool) (k b : Block) : List DrvOp :=
  [.acquire] ++ pseudoSetDir d ++ pseudoLoadKey k ++ pseudoFeed p b ++ [.poll .rdCtrl finishedMask p] ++ pseudoDrain
    ++ [.release .success]

/-- streamingOp's argument check (47 R436, R437). -/
def streamArgsBad (key : List Byte) (src : Word) (n : Nat) (dst : Word) (m : Nat) : Bool :=
  decide (key.length ≠ 16) || decide (n = 0) || decide (n % 16 ≠ 0) || decide (m ≠ n) || decide (65535 < n / 16)
    || !wordAligned src || !wordAligned dst || decide (2 ^ 32 < src.toNat + n) || decide (2 ^ 32 < dst.toNat + m)

/-- streamingOp after its argument check (47 R436). -/
def streamingOps (p : Nat) (d : Bool) (k : Block) (src : Word) (n : Nat) (dst : Word) (m : Nat) : List DrvOp :=
  [.acquire, .xact (.wrDmaDstAddr dst), .xact (.wrDmaDstCount (BitVec.ofNat 32 (m / 16))),
   .xact (.wrDmaSrcAddr src), .xact (.wrDmaSrcCount (BitVec.ofNat 32 (n / 16)))]
    ++ pseudoLoadKey k ++ pseudoStart d ++ [.checkStarted] ++ pseudoDmaEn
    ++ [.poll .rdCtrl finishedMask p, .poll .rdDmaStatus dstDoneMask p, .release .success]

/-- Set what is left of the running context's driver call. -/
def State.setOps (ops : List DrvOp) (s : State) : State := s.setCur { s.cur with ops := ops }

/-- A driver call returns (47 R445). -/
def State.finishCall (code : ResultCode) (out : List Byte) (s : State) : State :=
  s.setCur { s.cur with ops := [], out := [], returns := ⟨code, out⟩ :: s.cur.returns }

/-- A driver call begins its transactions. -/
def State.beginCall (ops : List DrvOp) (s : State) : State := s.setCur { s.cur with ops := ops, out := [] }

/-- The word the context's last read returned. -/
def State.lastRead (s : State) : Word := s.cur.reads.headD 0

/-- `irqMasked <- saved` (47 R433). -/
def State.restoreMask (s : State) : State := { s with irqMasked := s.cur.savedMask }

/-- Keep the mask, and mask interrupts if the driver does so and the foreground runs (47 R433). -/
def State.saveMask (s : State) : State :=
  { s.setCur { s.cur with savedMask := s.irqMasked } with
    irqMasked := s.irqMasked || (s.platform.driverMasksIrq && decide (s.ctx = .fg)) }

/-- `Acquire()` (47 R433): it never spins; BUSY ends the call. -/
def execAcquire (rest : List DrvOp) (s : State) : Result :=
  onNext (issue .rdLock s.saveMask) fun t =>
    if t.lastRead = lockBusy then .next (t.restoreMask.finishCall .busy [])
    else .next (t.setOps rest)

/-- `Release()`, and the call returns (47 R433). -/
def execRelease (code : ResultCode) (s : State) : Result :=
  onNext (issue (.wrLock 0) s) fun t =>
    .next (t.restoreMask.finishCall code (t.cur.out.flatMap fun w => (wordBytes w).toList))

/-- One read of a POLL (30 R144, 47 R440): on the last read without success the call returns HARDWARE_TIMEOUT and the lock stays held. -/
def execPoll (i : Instr) (mask : Word) (left : Nat) (rest : List DrvOp) (s : State) : Result :=
  onNext (issue i s) fun t =>
    if t.lastRead &&& mask = mask then .next (t.setOps rest)
    else if left ≤ 1 then .next (t.finishCall .hardwareTimeout [])
    else .next (t.setOps (.poll i mask (left - 1) :: rest))

/-- `s <- RD CTRL`; STATE = 1 means START was refused (47 R436). -/
def execCheckStarted (rest : List DrvOp) (s : State) : Result :=
  onNext (issue .rdCtrl s) fun t =>
    if t.lastRead.extractLsb' 12 3 = 1#3 then .next (t.setOps [.release .invalidLength])
    else .next (t.setOps rest)

/-- `y[k] <- RD DATAOUT` (47 R435). -/
def execDrain (rest : List DrvOp) (s : State) : Result :=
  onNext (issue .rdDataout s) fun t =>
    .next (t.setCur { t.cur with ops := rest, out := t.cur.out ++ [t.lastRead] })

/-- One step of a driver call: one transaction. -/
def execDrvOp (op : DrvOp) (rest : List DrvOp) (s : State) : Result :=
  match op with
  | .acquire => execAcquire rest s
  | .xact i => onNext (issue i s) fun t => .next (t.setOps rest)
  | .poll i mask left => execPoll i mask left rest s
  | .checkStarted => execCheckStarted rest s
  | .drain => execDrain rest s
  | .release code => execRelease code s

/-! ### The unified API (47 R447, R450) -/

/-- encrypt, decrypt, encryptBuffer, decryptBuffer as calls (47 R447). -/
def apiEncrypt (key block : List Byte) : ApiCall := .single false key block
def apiDecrypt (key block : List Byte) : ApiCall := .single true key block
def apiEncryptBuffer (key : List Byte) (src : Word) (n : Nat) (dst : Word) : ApiCall := .stream false key src n dst n
def apiDecryptBuffer (key : List Byte) (src : Word) (n : Nat) (dst : Word) : ApiCall := .stream true key src n dst n

/-- Start a call: arguments are checked before any register is touched (47 R437); the software backend answers at once and
touches no register (47 R450); it has no bulk call (47 R447).
With INTERRUPT_REENTRY = false an ISR's call that issues no transaction (the software backend's, or one with a bad argument) runs:
DESIGN CHOICE, the spec leaves it open (log entry 20). -/
def startCall (c : ApiCall) (s : State) : Result :=
  match c, s.platform.backend with
  | .single d key block, backend =>
    match blockOfBytes key, blockOfBytes block with
    | some k, some b =>
      match backend with
      | .hardware => .next (s.beginCall (singleBlockOps s.platform.pollBound d k b))
      | .software => .next (s.finishCall .success (blockBytes (if d then softwareDecrypt k b else softwareEncrypt k b)))
    | _, _ => .next (s.finishCall .invalidLength [])
  | .stream d key src n dst m, .hardware =>
    match streamArgsBad key src n dst m, blockOfBytes key with
    | false, some k => .next (s.beginCall (streamingOps s.platform.pollBound d k src n dst m))
    | _, _ => .next (s.finishCall .invalidLength [])
  | .stream _ _ _ _ _ _, .software => .refused .bulkCallOnSoftwareBackend

/-! ### The host's step (47 R430) -/

/-- One command of the running context's program, already taken off the program. -/
def execHostCmd (c : HostCmd) (s : State) : Result :=
  match c with
  | .bus t => busTransaction t s
  | .call a => startCall a s
  | .setMask b => .next { s with irqMasked := b }
  | .load a => hostLoad a s
  | .store a b => hostStore a b s
  | .spinLock =>
    onNext (issue .rdLock s) fun t =>
      if t.lastRead = lockBusy then .next (t.setCur { t.cur with prog := .spinLock :: t.cur.prog }) else .next t

/-- The step of the running context: its driver call goes on, else its next command; with nothing left the foreground's run is
over (47 R454) and the ISR returns (60 R512). -/
def State.hostStep (s : State) : Result :=
  match s.cur.ops, s.cur.prog with
  | op :: rest, _ => execDrvOp op rest s
  | [], c :: cs => execHostCmd c (s.setCur { s.cur with prog := cs })
  | [], [] =>
    match s.ctx with
    | .fg => .next s
    | .isr => .next s.returnIsr

/-- One step of an agent. -/
def State.agentStep (a : Agent) (s : State) : Result :=
  match a with
  | .host => s.hostStep
  | .engine => .next s.engineStep
  | .dmaSrc => .next s.dmaSrcStep
  | .dmaDst => .next s.dmaDstStep
  | .irqRaise => .next { s with irqPending := true }
  | .isrEnter => .next s.enterIsr
  | .reset => .next s.afterReset

/-- Give the running context a transaction word as its next command, before what it has still to issue.
An ISR that may issue none (47 R431) gives way to the foreground. -/
def State.offerTransaction (t : Transaction) (s : State) : State :=
  match s.ctx, s.platform.interruptReentry with
  | .isr, true => { s with isr := { s.isr with ops := [], prog := .bus t :: s.isr.prog } }
  | .isr, false => { s with ctx := .fg, fg := { s.fg with ops := [], prog := .bus t :: s.fg.prog } }
  | .fg, _ => { s with fg := { s.fg with ops := [], prog := .bus t :: s.fg.prog } }

end Sys2Proof.Machine
end

