-- ==== Sys2Proof/Machine/Step.lean ====
section
/-! DEFINITION. Machine/Step.lean: one step of the machine, and a transaction placed where the next step issues it. -/

namespace Sys2Proof.Machine

/-- One step: the agent that the schedule names next takes its step (00 R15, 20 R91). With nothing scheduled nothing happens. -/
def step (s : State) : Host.Outcome State Fault Refusal :=
  match s.schedule with
  | [] => .next s
  | a :: rest => { s with schedule := rest }.agentStep a

/-- The transaction word `w` as the running context's next command, and the host as the next agent to step (log entry 4). -/
def State.withFetchWord (s : State) (_nbits w : Nat) : State :=
  { s.offerTransaction (BitVec.ofNat 43 w) with schedule := .host :: s.schedule }

end Sys2Proof.Machine
end

