-- ==== Sys2Proof/Safety.lean ====
section
/-! DEFINITION. Safety.lean: the invariants the spec promises (10 R53, 44 R367, R368), the host's discipline (47 R432), the launch
premises of every claim about a program (47 R455), and what a stream's data is (44 R369). -/

namespace Sys2Proof.Machine

/-! ### Invariants of the block -/

/-- 10 R53, clauses (a) to (i), as the spec states them. -/
abbrev BlockInv (s : State) : Prop :=
  (s.inBuf.length ≤ 4 ∧ s.outBuf.length ≤ 4) ∧
  (s.st = .keyLoaded → keyComplete s.keyValid = true ∧ s.inBuf = []) ∧
  (s.st = .feeding → 1 ≤ s.inBuf.length ∧ s.inBuf.length ≤ 3 ∧ s.stream = false) ∧
  (s.st = .computing → s.inBuf.length = 4 ∧ s.stream = false) ∧
  (s.st = .streaming → s.stream = true) ∧
  (s.stream = true → s.st = .streaming ∨ s.st = .finished) ∧
  (s.st = .idle → s.inBuf = [] ∧ s.outBuf = [] ∧ s.stream = false) ∧
  (s.stream = true → s.srcWords.toNat ≤ 4 * s.srcCount.toNat ∧ s.dstWords.toNat ≤ 4 * s.dstCount.toNat) ∧
  (s.st = .finished → s.stream = false → 1 ≤ s.outBuf.length ∧ s.outBuf.length ≤ 4)

/-- Descriptor addresses are 4-byte aligned (10 R40, 20 R86). -/
abbrev AlignedInv (s : State) : Prop := wordAligned s.srcAddr = true ∧ wordAligned s.dstAddr = true

/-- outBuf is empty until a block is computed: what START and the fourth data word find (43 R318, R340; log entry 8). -/
abbrev NoStaleResult (s : State) : Prop :=
  s.st = .keyLoaded ∨ s.st = .feeding ∨ s.st = .computing → s.outBuf = []

/-- A stream's counters account for every word (44 R361 to R363, R367, R368): the counts are valid and the ranges do not wrap; the
words read are those of the computed blocks and of inBuf; the words written and those of outBuf are those of the computed blocks;
the computation is over exactly in FINISHED; the done flags say that the last word is moved. -/
abbrev StreamInv (s : State) : Prop :=
  s.stream = true →
    s.countsValid = true ∧ s.rangeWraps = false ∧
    s.srcWords.toNat = 4 * s.blocksDone.toNat + s.inBuf.length ∧
    s.dstWords.toNat + s.outBuf.length = 4 * s.blocksDone.toNat ∧
    s.srcWords.toNat ≤ 4 * s.srcCount.toNat ∧
    (s.st = .streaming → s.blocksDone.toNat < s.srcCount.toNat) ∧
    (s.st = .finished → s.blocksDone = s.srcCount) ∧
    (s.srcDone = true ↔ s.srcWords.toNat = 4 * s.srcCount.toNat) ∧
    (s.dstDone = true ↔ s.dstWords.toNat = 4 * s.dstCount.toNat)

/-- The whole invariant of the engine and its streams. -/
abbrev EngineInv (s : State) : Prop := BlockInv s ∧ NoStaleResult s ∧ StreamInv s

/-- The lock is held exactly when one of the two contexts holds it, and never both do (45 R408, 47 R432). -/
abbrev LockInv (s : State) : Prop :=
  (s.lockHeld = true ↔ s.fg.holdsLock = true ∨ s.isr.holdsLock = true) ∧ ¬(s.fg.holdsLock = true ∧ s.isr.holdsLock = true)

/-! ### What the next step does -/

/-- The register transaction a step of a driver call issues. -/
def DrvOp.transaction : DrvOp → Instr
  | .acquire => .rdLock
  | .xact i => i
  | .poll i _ _ => i
  | .checkStarted => .rdCtrl
  | .drain => .rdDataout
  | .release _ => .wrLock 0

/-- The register transaction the running context issues next, if it is one. -/
def State.nextTransaction (s : State) : Option Instr :=
  match s.schedule with
  | .host :: _ =>
    match s.cur.ops, s.cur.prog with
    | op :: _, _ => some op.transaction
    | [], .bus t :: _ => (match decode t with | .ok i => some i | .error _ => none)
    | [], .spinLock :: _ => some .rdLock
    | [], _ => none
  | _ => none

/-- The byte of system memory that a host store writes in the next step, if it writes one (20 R96). -/
def State.nextHostStore (s : State) : Option Word :=
  match s.schedule with
  | .host :: _ =>
    match s.cur.ops, s.cur.prog with
    | [], .store a _ :: _ => if s.platform.inWindow a then none else some a
    | _, _ => none
  | _ => none

/-- The rows that the guard check covers; LOCK and RESULT are exempt (43 R301). -/
def isGuarded : Instr → Bool
  | .rdLock | .wrLock _ | .rdResult | .wrResult _ => false
  | .rdCtrl | .wrCtrl _ | .wrCtrlStart _ | .rdKey _ | .wrKey _ _ | .rdDatain | .wrDatain _ | .rdDataout | .wrDataout _
  | .wrDmaSrcAddr _ | .rdDmaSrcAddr | .wrDmaSrcCount _ | .rdDmaSrcCount
  | .wrDmaDstAddr _ | .rdDmaDstAddr | .wrDmaDstCount _ | .rdDmaDstCount
  | .wrDmaCtrl _ | .rdDmaCtrl | .rdDmaStatus | .wrDmaStatus _ => true

/-- Is a transaction a LOCK write? -/
def isLockWrite : Instr → Bool
  | .wrLock _ => true
  | .rdLock | .rdResult | .wrResult _
  | .rdCtrl | .wrCtrl _ | .wrCtrlStart _ | .rdKey _ | .wrKey _ _ | .rdDatain | .wrDatain _ | .rdDataout | .wrDataout _
  | .wrDmaSrcAddr _ | .rdDmaSrcAddr | .wrDmaSrcCount _ | .rdDmaSrcCount
  | .wrDmaDstAddr _ | .rdDmaDstAddr | .wrDmaDstCount _ | .rdDmaDstCount
  | .wrDmaCtrl _ | .rdDmaCtrl | .rdDmaStatus | .wrDmaStatus _ => false

/-- The lock discipline of 47 R432 for a transaction of the running context: (a) guarded rows and (b) LOCK writes only between
its own acquire and release, (c) no LOCK read while it holds the lock. -/
abbrev Disciplined (i : Instr) (s : State) : Prop :=
  (isGuarded i = true → s.cur.holdsLock = true) ∧
  (isLockWrite i = true → s.cur.holdsLock = true) ∧
  (i = .rdLock → s.cur.holdsLock = false)

/-- The next step keeps the lock discipline (premise P3 of 47 R455). -/
abbrev StepDisciplined (s : State) : Prop := ∀ i, s.nextTransaction = some i → Disciplined i s

/-- The number of transactions a driver operation can still issue: its polls are bounded (47 R441). -/
def DrvOp.cost : DrvOp → Nat
  | .acquire => 1
  | .xact _ => 1
  | .poll _ _ left => max 1 left
  | .checkStarted => 2
  | .drain => 1
  | .release _ => 1

/-- The transactions the running context's driver call can still issue. -/
def State.callCost (s : State) : Nat := (s.cur.ops.map DrvOp.cost).sum

/-! ### Streams (44 R368, R369) -/

/-- The overlap condition (44 R368): the ranges are disjoint, or the destination is not ahead of the source. -/
abbrev OverlapOk (s : State) : Prop :=
  s.dstAddr.toNat ≤ s.srcAddr.toNat ∨
  s.srcAddr.toNat + 16 * s.srcCount.toNat ≤ s.dstAddr.toNat ∨
  s.dstAddr.toNat + 16 * s.dstCount.toNat ≤ s.srcAddr.toNat

/-- Word `k` of the source buffer as `orig` gives its bytes (20 R84). -/
def sourceWord (orig : Word → Byte) (s : State) (k : Nat) : Word :=
  let a := s.srcAddr + BitVec.ofNat 32 (4 * k)
  le32 ⟨orig a, orig (a + 1), orig (a + 2), orig (a + 3)⟩

/-- Block `j` of the source buffer (20 R84). -/
def sourceBlock (orig : Word → Byte) (s : State) (j : Nat) : Block :=
  blockOfWords ⟨sourceWord orig s (4 * j), sourceWord orig s (4 * j + 1), sourceWord orig s (4 * j + 2), sourceWord orig s (4 * j + 3)⟩

/-- Block `j` of the result: f(K, S_j) (44 R369). -/
def resultBlock (orig : Word → Byte) (s : State) (j : Nat) : Block :=
  transform s.decrypt (blockOfWords s.key) (sourceBlock orig s j)

/-- Word `k` of the result. -/
def resultWord (orig : Word → Byte) (s : State) (k : Nat) : Word :=
  (wordsOfBlock (resultBlock orig s (k / 4))).get (BitVec.ofNat 2 k)

/-- Where a stream's data stands, `orig` being memory at START: source words not yet read are still in memory, inBuf holds the
words read and not yet computed, outBuf the result words not yet written, and the words written are in memory (44 R368, R369). -/
abbrev StreamData (orig : Word → Byte) (s : State) : Prop :=
  (∀ k, s.srcWords.toNat ≤ k → k < 4 * s.srcCount.toNat →
    s.mem.read32 (s.srcAddr + BitVec.ofNat 32 (4 * k)) = sourceWord orig s k) ∧
  (∀ k (h : k < s.inBuf.length), s.inBuf[k] = sourceWord orig s (4 * s.blocksDone.toNat + k)) ∧
  (∀ k (h : k < s.outBuf.length), s.outBuf[k] = resultWord orig s (s.dstWords.toNat + k)) ∧
  (∀ k, k < s.dstWords.toNat → s.mem.read32 (s.dstAddr + BitVec.ofNat 32 (4 * k)) = resultWord orig s k)

/-- An address is in the source or the destination range of the descriptors. -/
abbrev InStreamRanges (s : State) (a : Word) : Prop :=
  (s.srcAddr.toNat ≤ a.toNat ∧ a.toNat < s.srcAddr.toNat + 16 * s.srcCount.toNat) ∨
  (s.dstAddr.toNat ≤ a.toNat ∧ a.toNat < s.dstAddr.toNat + 16 * s.dstCount.toNat)

/-- The next step is no host store into the stream's buffers (20 R95, R96, 44 R369). -/
abbrev HostLeavesBuffers (s : State) : Prop := ∀ a, s.nextHostStore = some a → ¬InStreamRanges s a

/-! ### The premises of a claim about a program (47 R455)

P1 is the configuration: the field `platform`, whatever it binds. P6 is `OverlapOk` above. -/

/-- No fault is recorded (10 R46). -/
abbrev FaultFree (s : State) : Prop := s.faults = FaultSet.empty

/-- P2: the block in its reset state, whatever the run's parameters, host programs and schedule. -/
abbrev LaunchedFromReset (s : State) : Prop :=
  s = { State.reset with
        mem := s.mem
        platform := s.platform
        fg := { HostContext.fresh with prog := s.fg.prog }
        schedule := s.schedule }

/-- P4: the host meets 20 R92 for every stream. -/
abbrev HostMeetsOrderingDuty (s : State) : Prop := s.platform.hostOrderBarrier = true ∧ s.platform.hostCacheMaint = true

/-- P5: MemAdmit admits every word of the two buffers. -/
abbrev BuffersAdmitted (s : State) : Prop :=
  (∀ k, k < 4 * s.srcCount.toNat → s.platform.memAdmit (s.srcAddr + BitVec.ofNat 32 (4 * k)) 4 = true) ∧
  (∀ k, k < 4 * s.dstCount.toNat → s.platform.memAdmit (s.dstAddr + BitVec.ofNat 32 (4 * k)) 4 = true)

/-- The states of an infinite run: each is the next state of the one before (20 R91). -/
abbrev InfiniteRun (r : Nat → State) : Prop := ∀ k, step (r k) = .next (r (k + 1))

/-- ENGINE_FAIR (43 R341): with it set, an ENGINE step that stays enabled is taken. -/
abbrev EngineFair (r : Nat → State) : Prop :=
  (r 0).platform.engineFair = true →
    ∀ k, (∀ j, k ≤ j → (r j).engineEnabled = true) → ∃ j, k ≤ j ∧ (r j).schedule.head? = some .engine

/-- The host steps that a run takes from state `k` up to state `k + n`. -/
def hostStepsIn (r : Nat → State) (k n : Nat) : Nat :=
  ((List.range n).filter fun d => decide ((r (k + d)).schedule.head? = some .host)).length

/-- The foreground's steps that a run takes from state `k` up to state `k + n`. -/
def fgStepsIn (r : Nat → State) (k n : Nat) : Nat :=
  ((List.range n).filter fun d =>
    decide ((r (k + d)).schedule.head? = some .host) && decide ((r (k + d)).ctx = .fg)).length

/-- A latency bound relative to the host's steps (47 R441): while the step of agent `a` stays enabled and is not taken, the host takes
fewer than `bound` steps. -/
abbrev AgentLatencyBound (a : Agent) (enabled : State → Bool) (bound : Nat) (r : Nat → State) : Prop :=
  ∀ k n, (∀ d, d < n → enabled (r (k + d)) = true ∧ (r (k + d)).schedule.head? ≠ some a) → hostStepsIn r k n < bound

/-- P7 for ENGINE, DMA_SRC and DMA_DST (47 R441, R455). -/
abbrev EngineLatencyBound (bound : Nat) (r : Nat → State) : Prop := AgentLatencyBound .engine State.engineEnabled bound r
abbrev DmaSrcLatencyBound (bound : Nat) (r : Nat → State) : Prop := AgentLatencyBound .dmaSrc State.srcEnabled bound r
abbrev DmaDstLatencyBound (bound : Nat) (r : Nat → State) : Prop := AgentLatencyBound .dmaDst State.dstEnabled bound r

/-- P7: one bound for the engine and both DMA channels. -/
abbrev LatencyBound (bound : Nat) (r : Nat → State) : Prop :=
  EngineLatencyBound bound r ∧ DmaSrcLatencyBound bound r ∧ DmaDstLatencyBound bound r

/-- A run without end in which every context keeps the lock discipline (P3) and no reset comes. -/
abbrev DisciplinedRun (r : Nat → State) : Prop :=
  InfiniteRun r ∧ (∀ k, StepDisciplined (r k)) ∧ ∀ k, (r k).schedule.head? ≠ some .reset

/-! ### What a transaction answers -/

/-- A mask and a match of the opcode map pick the words that decode to the instruction `f` reads off them (30 R139). -/
abbrev RowDecodes (pattern mask : Transaction) (f : Transaction → Instr) : Prop :=
  ∀ t : Transaction, t &&& mask = pattern → decode t = .ok (f t)

/-- The faults after the guard check (43 R301): UNGUARDED_ACCESS is added while the lock is free. -/
def State.guardFaults (s : State) : FaultSet := if s.lockHeld then s.faults else s.faults.add .unguardedAccess

/-- `t` is `s` after a read that returned `w` to the running context and left the faults `f`; only free values are used up
(43 R300). -/
abbrev ReadReturns (s t : State) (w : Word) (f : FaultSet) : Prop :=
  t = { s with faults := f, draws := t.draws, fg := t.fg, isr := t.isr } ∧
  t.cur = { s.cur with reads := w :: s.cur.reads } ∧
  (s.ctx = .fg → t.isr = s.isr) ∧ (s.ctx = .isr → t.fg = s.fg)

/-- Every bit of the returned word is defined: no free value is used. -/
abbrev ExactRead (s t : State) (w : Word) (f : FaultSet) : Prop := ReadReturns s t w f ∧ t.draws = s.draws

/-- The bits of the returned word outside `mask` are the next free word's, which is used up (43 R303). -/
abbrev DrawnRead (s t : State) (w mask : Word) (f : FaultSet) : Prop :=
  ReadReturns s t w f ∧ t.draws = s.draws + 1 ∧ w &&& ~~~mask = Config.draw s.draws &&& ~~~mask

/-- The running host context has `c` as its next command, and the host is next to step; `u` is the state in which it acts. -/
abbrev NextCommand (s : State) (c : HostCmd) (u : State) : Prop :=
  ∃ rest cs, s.schedule = .host :: rest ∧ s.cur.ops = [] ∧ s.cur.prog = c :: cs ∧
    u = { s with schedule := rest }.setCur { s.cur with prog := cs }

/-- The running host context's driver call has `op` as its next step, and the host is next to step; `u` is the state in which it acts. -/
abbrev NextDriverStep (s : State) (op : DrvOp) (more : List DrvOp) (u : State) : Prop :=
  ∃ rest, s.schedule = .host :: rest ∧ s.cur.ops = op :: more ∧ u = { s with schedule := rest }

/-- The running context may issue transactions (47 R431). -/
abbrev MayIssue (s : State) : Prop := s.ctx = .fg ∨ s.platform.interruptReentry = true

/-- Only the running context's host state differs, and it is `h` (47 R430). -/
abbrev HostOnly (s t : State) (h : HostContext) : Prop :=
  t = { s with fg := t.fg, isr := t.isr } ∧ t.cur = h ∧ (s.ctx = .fg → t.isr = s.isr) ∧ (s.ctx = .isr → t.fg = s.fg)

/-- What 10 R52 writes, field by field: the engine is IDLE with no key; direction, descriptors, lock, result code and faults stay. -/
def State.tornDown (s : State) : State :=
  { s with
    st := .idle, stream := false,
    key := ⟨0#32, 0#32, 0#32, 0#32⟩, keyValid := ⟨false, false, false, false⟩,
    inBuf := [], outBuf := [], blocksDone := 0#16,
    srcEn := false, dstEn := false, srcDone := false, dstDone := false, srcWords := 0#18, dstWords := 0#18 }

end Sys2Proof.Machine
end

