-- ==== Sys2Proof/Certificates/Slice0/Obligations.lean ====
section
/-! DEFINITION. Certificates/Slice0/Obligations.lean: the statements for the provers, each from the rules of spec/ that its
docstring names. -/

section Statements

open Sys2Proof Sys2Proof.Machine

/-! ### Encoding (30) -/

/-- Every well-formed transaction's word decodes to that transaction, with every operand at every value (30 R120, R138, R143). -/
def Obligations.EncodedTransactionDecodesToItself : Prop :=
  ∀ i : Instr, i.wellFormed = true → decode (encode i) = .ok i

/-- A decoded word is a well-formed transaction and encodes back to the word; of a read, DATA is ignored (30 R120). -/
def Obligations.DecodedWordKeepsItsOperands : Prop :=
  ∀ (t : Transaction) (i : Instr), decode t = .ok i →
    i.wellFormed = true ∧ encode i = if t.isWrite then t else t &&& 0x7FF00000000#43

/-- The opcode map of 30 R139 is the decoder: a row covers a word exactly when the word decodes to a transaction of that row, the
rows are disjoint, a word that no row covers is a bus fault, and n is OFF[3:2]. -/
def Obligations.OpcodeMapIsTheDecoder : Prop :=
  ∀ t : Transaction,
    (∀ r ∈ opcodeMap, r.covers t = true ↔ ∃ i, decode t = .ok i ∧ i.mnemonic = r.mnemonic) ∧
    (∀ r ∈ opcodeMap, ∀ q ∈ opcodeMap, r.covers t = true → q.covers t = true → r = q) ∧
    ((∀ r ∈ opcodeMap, r.covers t = false) ↔ decode t = .error .busWidth ∨ decode t = .error .busReservedOffset) ∧
    (∀ n, decode t = .ok (.rdKey n) → n = t.extractLsb' 34 2) ∧
    (∀ n v, decode t = .ok (.wrKey n v) → n = t.extractLsb' 34 2 ∧ v = t.extractLsb' 0 32)

/-- Words written out in 95 V40 to V47 decode to the transactions they stand for. -/
def Obligations.SpecWordsDecode : Prop :=
  decode 0x40000000000#43 = .ok .rdCtrl ∧
  decode 0x50000000001#43 = .ok (.wrCtrl 1#32) ∧
  decode 0x50000000002#43 = .ok (.wrCtrlStart 2#32) ∧
  decode 0x5180B0A0908#43 = .ok (.wrKey 2#2 0x0b0a0908#32) ∧
  decode 0x41800000000#43 = .ok (.rdKey 2#2) ∧
  decode 0x52033221100#43 = .ok (.wrDatain 0x33221100#32) ∧
  decode 0x42400000000#43 = .ok .rdDataout ∧
  decode 0x53020000100#43 = .ok (.wrDmaSrcAddr 0x20000100#32) ∧
  decode 0x53C00000001#43 = .ok (.wrDmaDstCount 1#32) ∧
  decode 0x54000000003#43 = .ok (.wrDmaCtrl 3#32) ∧
  decode 0x45000000000#43 = .ok .rdLock ∧
  decode 0x55400000005#43 = .ok (.wrResult 5#32) ∧
  decode 0x20400000000#43 = .error .busWidth ∧
  decode 0x40200000000#43 = .error .busWidth ∧
  decode 0x5FC00000000#43 = .error .busReservedOffset

/-! ### Steps of the host (43 R300, 47 R430) -/

/-- A bus word that decodes runs exactly that transaction, in the state in which the command is taken off the running context's
program; a driver's transaction runs the same way, and the driver goes on behind it. -/
def Obligations.StepRunsTheDecodedTransaction : Prop :=
  (∀ (s u : State) (t : Transaction) (i : Instr), NextCommand s (.bus t) u → MayIssue s → decode t = .ok i → step s = exec i u) ∧
  (∀ (s u : State) (i : Instr) (more : List DrvOp), NextDriverStep s (.xact i) more u → MayIssue s →
    ∃ v t, exec i u = .next v ∧ step s = .next t ∧ HostOnly v t { v.cur with ops := more })

/-- A word of another width or at an offset that is no multiple of four records BUS_WIDTH, one at a reserved offset records
BUS_RESERVED_OFFSET; neither has another effect, no guard check applies, and a read returns a free word (20 R85, 30 R123). -/
def Obligations.RejectedTransactionRecordsItsFaultOnly : Prop :=
  ∀ (s u : State) (t : Transaction), NextCommand s (.bus t) u → MayIssue s →
    ((t.extractLsb' 41 2 ≠ 2#2 ∨ t.extractLsb' 32 2 ≠ 0#2) →
      ∃ v, step s = .next v ∧
        (t.getLsbD 40 = true → v = { u with faults := u.faults.add .busWidth }) ∧
        (t.getLsbD 40 = false → ∃ w, DrawnRead u v w 0#32 (u.faults.add .busWidth))) ∧
    (t.extractLsb' 41 2 = 2#2 →
      (t.extractLsb' 32 8 ∈ [0x04#8, 0x08#8, 0x0C#8, 0x28#8, 0x2C#8, 0x48#8, 0x4C#8] ∨
        (t.extractLsb' 32 2 = 0#2 ∧ 0x58#8 ≤ t.extractLsb' 32 8)) →
      ∃ v, step s = .next v ∧
        (t.getLsbD 40 = true → v = { u with faults := u.faults.add .busReservedOffset }) ∧
        (t.getLsbD 40 = false → ∃ w, DrawnRead u v w 0#32 (u.faults.add .busReservedOffset)))

/-- The host's own load returns one byte of system memory and changes nothing; its store changes that byte alone; inside the
register window either is an access of another width (20 R80, R85, R91). The byte-wide access is the model's form of a host access
(log entry 10). -/
def Obligations.HostLoadsAndStoresOneByte : Prop :=
  (∀ (s u : State) (a : Word), NextCommand s (.load a) u →
    (u.platform.inWindow a = false →
      ∃ v, step s = .next v ∧ ExactRead u v ((u.mem.read8 a).setWidth 32) u.faults) ∧
    (u.platform.inWindow a = true → MayIssue s →
      ∃ v w, step s = .next v ∧ DrawnRead u v w 0#32 (u.faults.add .busWidth))) ∧
  (∀ (s u : State) (a : Word) (b : Byte), NextCommand s (.store a b) u →
    (u.platform.inWindow a = false → u.mem.wf = true →
      ∃ v, step s = .next v ∧ v = { u with mem := v.mem } ∧ v.mem.read8 a = b ∧
        ∀ x, x ≠ a → v.mem.read8 x = u.mem.read8 x) ∧
    (u.platform.inWindow a = true → MayIssue s →
      step s = .next { u with faults := u.faults.add .busWidth }))

/-! ### Reset (70) -/

/-- Reset, at power-on and as an event in mid-run, leaves every listed value, so the listed reads; system memory stays as it was
(70 R540). -/
def Obligations.ResetLeavesTheListedValues : Prop :=
  (∀ t : State, (t = State.reset ∨ ∃ s rest, s.schedule = .reset :: rest ∧ step s = .next t) →
    (t.st = .idle ∧ t.stream = false ∧ t.decrypt = false ∧
      t.key = ⟨0#32, 0#32, 0#32, 0#32⟩ ∧ t.keyValid = ⟨false, false, false, false⟩ ∧
      t.inBuf = [] ∧ t.outBuf = [] ∧ t.blocksDone = 0#16 ∧
      t.srcAddr = 0#32 ∧ t.dstAddr = 0#32 ∧ t.srcCount = 0#16 ∧ t.dstCount = 0#16 ∧
      t.srcEn = false ∧ t.dstEn = false ∧ t.srcDone = false ∧ t.dstDone = false ∧
      t.srcWords = 0#18 ∧ t.dstWords = 0#18 ∧
      t.lockHeld = false ∧ t.resultCode = .success ∧ (∀ r, t.faults.has r = false) ∧
      t.ctx = .fg ∧ t.irqMasked = true ∧ t.irqPending = false) ∧
    (∃ u w, exec .rdCtrl t = .next u ∧ u.cur.reads.head? = some w ∧ w &&& 0x7701#32 = 0#32) ∧
    (∃ u w, exec .rdDmaStatus t = .next u ∧ u.cur.reads.head? = some w ∧ w &&& 0x3#32 = 0#32) ∧
    (∃ u w, exec .rdResult t = .next u ∧ u.cur.reads.head? = some w ∧ w &&& 0xF#32 = 0#32) ∧
    (∃ u, exec .rdLock t = .next u ∧ u.cur.reads.head? = some 0#32)) ∧
  (∀ (s : State) (rest : List Agent), s.schedule = .reset :: rest →
    ∃ t, step s = .next t ∧ ∀ a, t.mem.read8 a = s.mem.read8 a)

/-- The state after reset meets every invariant of this file (10 R53, 70 R541). -/
def Obligations.ResetStateMeetsTheInvariants : Prop :=
  EngineInv State.reset ∧ AlignedInv State.reset ∧ LockInv State.reset ∧ State.reset.mem.wf = true

/-! ### Invariants that every step keeps -/

/-- 10 R53: every step keeps clauses (a) to (i), and reset establishes them. -/
def Obligations.BlockInvariantsAreKept : Prop :=
  (∀ s t : State, BlockInv s → step s = .next t → BlockInv t) ∧ BlockInv State.reset

/-- Every step keeps the engine's whole invariant: 10 R53, an empty result buffer before a block is computed, and the account of a
stream's words (from 43 R340, 44 R361 to R363). -/
def Obligations.StreamAccountIsKept : Prop :=
  ∀ s t : State, EngineInv s → step s = .next t → EngineInv t

/-- 44 R367, in every state that meets the invariant that reset establishes and every step keeps. -/
def Obligations.StreamDoneFlagsImplyComputation : Prop :=
  ∀ s : State, EngineInv s → s.stream = true →
    (s.dstDone = true → s.srcDone = true ∧ s.st = .finished) ∧ (s.st = .finished → s.srcDone = true)

/-- Every step keeps memory's canonical form, the model's own (20 R81; log entry 2). -/
def Obligations.MemoryStaysCanonical : Prop :=
  ∀ s t : State, s.mem.wf = true → step s = .next t → t.mem.wf = true

/-- 20 R86: a misaligned descriptor address is refused, so the descriptors stay aligned and so does every DMA access. -/
def Obligations.DmaAddressesStayAligned : Prop :=
  (∀ (s : State) (v : Word), v.extractLsb' 0 2 ≠ 0#2 →
    exec (.wrDmaSrcAddr v) s = .next { s with faults := s.guardFaults.add .dmaMisaligned } ∧
    exec (.wrDmaDstAddr v) s = .next { s with faults := s.guardFaults.add .dmaMisaligned }) ∧
  (∀ s t : State, AlignedInv s → step s = .next t → AlignedInv t) ∧
  (∀ s : State, AlignedInv s → wordAligned s.srcCursor = true ∧ wordAligned s.dstCursor = true)

/-- If every step keeps 47 R432, the lock is held exactly when one context holds it, and never by both (45 R408).
What a context knows of its own acquire is the model's field `holdsLock` (log entry 5). -/
def Obligations.DisciplinedLockHasOneHolder : Prop :=
  ∀ s t : State, LockInv s → StepDisciplined s → step s = .next t → LockInv t

/-- Under 47 R432 no step adds UNGUARDED_ACCESS or RELEASE_NOT_HELD (43 R301, 45 R401). -/
def Obligations.DisciplineAvoidsLockFaults : Prop :=
  ∀ s t : State, LockInv s → StepDisciplined s → step s = .next t →
    (t.faults.has .unguardedAccess = true → s.faults.has .unguardedAccess = true) ∧
    (t.faults.has .releaseNotHeld = true → s.faults.has .releaseNotHeld = true)

/-- 10 R46: no transaction and no step removes a fault reason; reset alone empties the set (70 R540; log entry 9). -/
def Obligations.FaultReasonsAreSticky : Prop :=
  (∀ (i : Instr) (s t : State) (r : Fault), exec i s = .next t → s.faults.has r = true → t.faults.has r = true) ∧
  (∀ (s t : State) (r : Fault), step s = .next t → s.schedule.head? ≠ some .reset → s.faults.has r = true → t.faults.has r = true)

/-- 43 R302, 60 R501 and R504: a transaction that adds a reason other than UNGUARDED_ACCESS changes nothing but the fault set, and a
read returns a free word; and a transaction adds at most UNGUARDED_ACCESS and one other reason. -/
def Obligations.FaultingTransactionHasNoOtherEffect : Prop :=
  ∀ (i : Instr) (s t : State) (r : Fault), exec i s = .next t →
    r ≠ .unguardedAccess → s.faults.has r = false → t.faults.has r = true →
    let f := (if isGuarded i then s.guardFaults else s.faults).add r
    (t = { s with faults := f } ∨ (i = .rdDataout ∧ ∃ w, DrawnRead s t w 0#32 f)) ∧
    (∀ q, t.faults.has q = true → s.faults.has q = true ∨ q = .unguardedAccess ∨ q = r)

/-- 10 R54: the engine state moves only along the arrows of the table, and nothing leaves COMPUTING or STREAMING but the ENGINE step
and reset. -/
def Obligations.EngineStateMovesByTheTable : Prop :=
  (∀ (i : Instr) (s t : State), BlockInv s → exec i s = .next t →
    t.st = s.st ∨
    (s.st = .idle ∧ t.st = .keyLoaded ∧ ∃ n v, i = .wrKey n v ∧ ∀ m, m ≠ n → s.keyValid.get m = true) ∨
    (s.st = .keyLoaded ∧ t.st = .feeding ∧ ∃ v, i = .wrDatain v) ∨
    (s.st = .feeding ∧ t.st = .computing ∧ s.inBuf.length = 3 ∧ ∃ v, i = .wrDatain v) ∨
    (s.st = .finished ∧ t.st = .idle ∧ s.stream = false ∧ s.outBuf.length = 1 ∧ i = .rdDataout) ∨
    (s.st = .keyLoaded ∧ t.st = .streaming ∧ s.countsValid = true ∧ ∃ v, i = .wrCtrlStart v) ∨
    (s.st = .finished ∧ t.st = .idle ∧ s.dmaActive = false ∧ ∃ v, i = .wrCtrl v) ∨
    ((s.st = .keyLoaded ∨ s.st = .finished) ∧ t.st = .idle ∧ s.dmaActive = false ∧ s.lockHeld = true ∧ i = .wrLock 0#32)) ∧
  (∀ s : State, s.engineStep.st = s.st ∨ (s.st = .computing ∧ s.engineStep.st = .finished) ∨
    (s.st = .streaming ∧ s.engineStep.st = .finished ∧ s.engineStep.blocksDone = s.srcCount)) ∧
  (∀ s : State, s.dmaSrcStep.st = s.st ∧ s.dmaDstStep.st = s.st) ∧
  (∀ s t : State, step s = .next t → s.st = .computing ∨ s.st = .streaming →
    t.st = s.st ∨ (t.st = .finished ∧ s.schedule.head? = some .engine) ∨ (t.st = .idle ∧ s.schedule.head? = some .reset))

/-- 45 R407: the result code changes on a BUSY LOCK read, a refused START, a host write of 0 and reset, and on nothing else. -/
def Obligations.ResultCodeChangesOnItsEvents : Prop :=
  (∀ (i : Instr) (s t : State), exec i s = .next t → t.resultCode ≠ s.resultCode →
    (i = .rdLock ∧ s.lockHeld = true ∧ t.resultCode = .busy) ∨
    ((∃ v, i = .wrCtrlStart v) ∧ s.st = .keyLoaded ∧ ¬(s.srcCount ≠ 0#16 ∧ s.srcCount = s.dstCount) ∧ t.resultCode = .invalidLength) ∨
    (i = .wrResult 0#32 ∧ t.resultCode = .success)) ∧
  (∀ s t : State, step s = .next t → t.resultCode ≠ s.resultCode →
    s.schedule.head? = some .host ∨ (s.schedule.head? = some .reset ∧ t.resultCode = .success))

/-- 43 R342: in FEEDING, COMPUTING and STREAMING no transaction, and no step but reset, changes the key or the direction. -/
def Obligations.KeyAndDirectionHoldWhileBusy : Prop :=
  (∀ (i : Instr) (s t : State), s.st = .feeding ∨ s.st = .computing ∨ s.st = .streaming → exec i s = .next t →
    t.key = s.key ∧ t.decrypt = s.decrypt) ∧
  (∀ s t : State, s.st = .feeding ∨ s.st = .computing ∨ s.st = .streaming → step s = .next t →
    s.schedule.head? ≠ some .reset → t.key = s.key ∧ t.decrypt = s.decrypt)

/-- 44 R370: while DMA words are still to be moved, each transaction that would cancel the stream faults with no effect, and only
the last destination word and reset end the stream. -/
def Obligations.ActiveStreamCannotBeCancelled : Prop :=
  ∀ s : State, s.dmaActive = true →
    (∀ v, ∃ r, exec (.wrCtrl v) s = .next { s with faults := s.guardFaults.add r }) ∧
    (∀ v, ∃ r, exec (.wrCtrlStart v) s = .next { s with faults := s.guardFaults.add r }) ∧
    (∀ v, (s.srcEn = true ∧ v.getLsbD 0 = false) ∨ (s.dstEn = true ∧ v.getLsbD 1 = false) →
      ∃ r, exec (.wrDmaCtrl v) s = .next { s with faults := s.guardFaults.add r }) ∧
    (∀ v, ∃ r, exec (.wrDmaSrcAddr v) s = .next { s with faults := s.guardFaults.add r }) ∧
    (∀ v, ∃ r, exec (.wrDmaSrcCount v) s = .next { s with faults := s.guardFaults.add r }) ∧
    (∀ v, ∃ r, exec (.wrDmaDstAddr v) s = .next { s with faults := s.guardFaults.add r }) ∧
    (∀ v, ∃ r, exec (.wrDmaDstCount v) s = .next { s with faults := s.guardFaults.add r }) ∧
    (∀ n v, ∃ r, exec (.wrKey n v) s = .next { s with faults := s.guardFaults.add r }) ∧
    (∀ v, ∃ r, exec (.wrLock v) s = .next { s with faults := s.faults.add r }) ∧
    (∀ t, EngineInv s → step s = .next t →
      t.dmaActive = true ∨ (t.dstDone = true ∧ s.schedule.head? = some .dmaDst) ∨ s.schedule.head? = some .reset)

/-- No transaction and no DMA step lets anything depend on the key but the key registers themselves: two states that differ in the key
alone go to states that differ in the key alone (30 R127, 43 R314, 44 R362, R363).
The comparison of two runs rests on a choice of the model's, log entry 1: a draw is a function of a counter, so both runs draw alike.
00 R10 puts draw() under no law, and by D7 the word that a read of KEYn returns may be the key itself: that an environment's draws do
not depend on the key is assumed here and not proved. -/
def Obligations.TransactionsDoNotRevealTheKey : Prop :=
  (∀ (i : Instr) (s t t' : State) (k : Quad Word), exec i s = .next t → exec i { s with key := k } = .next t' →
    t' = { t with key := t'.key }) ∧
  (∀ (s : State) (k : Quad Word), ({ s with key := k } : State).dmaSrcStep = { s.dmaSrcStep with key := k } ∧
    ({ s with key := k } : State).dmaDstStep = { s.dmaDstStep with key := k })

/-- The frame of all 25 transactions: no byte of memory changes, nor the interrupt state, the run's parameters, the schedule, the other
host context, or of the running one anything but the words it read and its knowledge of the lock (43 R300, 60 R511). -/
def Obligations.TransactionsLeaveMemoryAndHostAlone : Prop :=
  ∀ (i : Instr) (s t : State), exec i s = .next t →
    (∀ a, t.mem.read8 a = s.mem.read8 a) ∧
    t.ctx = s.ctx ∧ t.irqMasked = s.irqMasked ∧ t.irqPending = s.irqPending ∧ t.isrSavedMask = s.isrSavedMask ∧
    t.platform = s.platform ∧ t.schedule = s.schedule ∧
    (s.ctx = .fg → t.isr = s.isr) ∧ (s.ctx = .isr → t.fg = s.fg) ∧
    t.cur = { s.cur with reads := t.cur.reads, holdsLock := t.cur.holdsLock }

/-! ### The cipher (40 to 42) -/

/-- 42 R277: decryption undoes encryption and encryption undoes decryption, for every key and block. -/
def Obligations.CipherRoundTrip : Prop :=
  ∀ k b : Block, decryptWithKey k (cipher k b) = b ∧ cipher k (decryptWithKey k b) = b

/-- 41 R243 to R245: the on-the-fly steps undo each other, and round key r is words 4r to 4r+3 of the expanded key. -/
def Obligations.KeyScheduleRunsBothWays : Prop :=
  (∀ (rk : Block) (r : Nat), prevRoundKey (nextRoundKey rk r) r = rk ∧ nextRoundKey (prevRoundKey rk r) r = rk) ∧
  (∀ (k : Block) (r : Nat), roundKey k r = expandWindow k (4 * r))

/-- 40 R213, laws (a) to (e), and 40 R211's linearity. -/
def Obligations.RoundTransformLaws : Prop :=
  (∀ s, invSubBytes (subBytes s) = s ∧ subBytes (invSubBytes s) = s) ∧
  (∀ s, invShiftRows (shiftRows s) = s ∧ shiftRows (invShiftRows s) = s) ∧
  (∀ s, invMixColumns (mixColumns s) = s ∧ mixColumns (invMixColumns s) = s) ∧
  (∀ s, subBytes (shiftRows s) = shiftRows (subBytes s)) ∧
  (∀ s, invSubBytes (invShiftRows s) = invShiftRows (invSubBytes s)) ∧
  (∀ s k, invMixColumns (addRoundKey s k) = addRoundKey (invMixColumns s) (invMixColumns k))

/-- 40 R204 and R205: SBOX is the affine image of the field inverse, has no fixed and no opposite fixed point, and INV_SBOX inverts it;
`ginv` gives inverses (40 R203). -/
def Obligations.SubstitutionTables : Prop :=
  ∀ x : Byte, sbox x = affine (ginv x) ∧ sbox x ≠ x ∧ sbox x ≠ x ^^^ 0xFF#8 ∧ invSbox (sbox x) = x ∧
    (x ≠ 0#8 → gmul x (ginv x) = 1#8)

/-- 40 R202: the field product as its loop computes it, and its laws. -/
def Obligations.FieldProductLaws : Prop :=
  (∀ a b : Byte, gmul a b = (List.range 8).foldl (fun r i => if b.getLsbD i then r ^^^ Nat.iterate xtime i a else r) 0#8) ∧
  (∀ a b : Byte, gmul a b = gmul b a) ∧
  (∀ a b c : Byte, gmul (gmul a b) c = gmul a (gmul b c)) ∧
  (∀ a b c : Byte, gmul a (b ^^^ c) = gmul a b ^^^ gmul a c) ∧
  (∀ a : Byte, gmul a 1#8 = a ∧ gmul a 0#8 = 0#8)

/-- 42 R279: the known-answer test, both ways. -/
def Obligations.KnownAnswer : Prop :=
  cipher (blockOfHex 0x000102030405060708090a0b0c0d0e0f#128) (blockOfHex 0x00112233445566778899aabbccddeeff#128)
    = blockOfHex 0x69c4e0d86a7b0430d8cdb78070b4c55a#128 ∧
  decryptWithKey (blockOfHex 0x000102030405060708090a0b0c0d0e0f#128) (blockOfHex 0x69c4e0d86a7b0430d8cdb78070b4c55a#128)
    = blockOfHex 0x00112233445566778899aabbccddeeff#128

/-! ### ENGINE and the DMA channels (43 R340, 44) -/

/-- 43 R340: the ENGINE step, in every state that meets 10 R53: where it is enabled it computes one block, elsewhere nothing happens. -/
def Obligations.EngineComputesOneBlock : Prop :=
  ∀ (s : State) (rest : List Agent), s.schedule = .engine :: rest → BlockInv s →
    (∀ w0 w1 w2 w3, s.inBuf = [w0, w1, w2, w3] →
      let K := blockOfWords s.key
      let B := blockOfWords ⟨w0, w1, w2, w3⟩
      let R := wordsOfBlock (if s.decrypt then decryptWithKey K B else cipher K B)
      (s.st = .computing →
        step s = .next { s with schedule := rest, outBuf := [R.e0, R.e1, R.e2, R.e3], inBuf := [], st := .finished }) ∧
      (s.st = .streaming → s.outBuf = [] →
        step s = .next { s with
          schedule := rest, outBuf := [R.e0, R.e1, R.e2, R.e3], inBuf := [], blocksDone := s.blocksDone + 1,
          st := if s.blocksDone + 1 = s.srcCount then .finished else .streaming })) ∧
    (¬(s.st = .computing ∨ (s.st = .streaming ∧ s.inBuf.length = 4 ∧ s.outBuf = [])) →
      step s = .next { s with schedule := rest })

/-- 44 R362: the DMA_SRC step. -/
def Obligations.DmaSrcReadsOneWord : Prop :=
  ∀ (s : State) (rest : List Agent), s.schedule = .dmaSrc :: rest →
    let a := s.srcAddr + 4 * s.srcWords.setWidth 32
    let enabled := s.srcEn = true ∧ s.st = .streaming ∧ s.inBuf.length < 4 ∧ s.srcWords.toNat < 4 * s.srcCount.toNat ∧
      s.platform.memAdmit a 4 = true
    (enabled → step s = .next { s with
      schedule := rest,
      inBuf := s.inBuf ++ [le32 ⟨s.mem.read8 a, s.mem.read8 (a + 1), s.mem.read8 (a + 2), s.mem.read8 (a + 3)⟩],
      srcWords := s.srcWords + 1,
      srcDone := if s.srcWords.toNat + 1 = 4 * s.srcCount.toNat then true else s.srcDone }) ∧
    (¬enabled → step s = .next { s with schedule := rest })

/-- 44 R363: the DMA_DST step. Its four bytes of memory get the word; every other byte reads as before. -/
def Obligations.DmaDstWritesOneWord : Prop :=
  ∀ (s : State) (rest : List Agent), s.schedule = .dmaDst :: rest → s.mem.wf = true →
    let a := s.dstAddr + 4 * s.dstWords.setWidth 32
    let enabled := s.dstEn = true ∧ s.stream = true ∧ s.outBuf ≠ [] ∧ s.dstWords.toNat < 4 * s.dstCount.toNat ∧
      s.platform.memAdmit a 4 = true
    (enabled → ∃ x tail t, s.outBuf = x :: tail ∧ step s = .next t ∧
      t = { s with
        schedule := rest, mem := t.mem, outBuf := tail, dstWords := s.dstWords + 1,
        dstDone := if s.dstWords.toNat + 1 = 4 * s.dstCount.toNat then true else s.dstDone } ∧
      t.mem.read8 a = x.extractLsb' 0 8 ∧ t.mem.read8 (a + 1) = x.extractLsb' 8 8 ∧
      t.mem.read8 (a + 2) = x.extractLsb' 16 8 ∧ t.mem.read8 (a + 3) = x.extractLsb' 24 8 ∧
      ∀ b, b ≠ a → b ≠ a + 1 → b ≠ a + 2 → b ≠ a + 3 → t.mem.read8 b = s.mem.read8 b) ∧
    (¬enabled → step s = .next { s with schedule := rest })

/-- 44 R365: no word of the register window is admitted, and a channel of an active stream whose next word is not admitted stays at
that word until reset; while the destination channel is stuck, no DMA step changes memory and DST_DONE stays 0. -/
def Obligations.UnadmittedChannelIsStuck : Prop :=
  (∀ (p : Platform) (a : Word), p.inWindow a = true → p.memAdmit a 4 = false) ∧
  (∀ s t : State, EngineInv s → s.dmaActive = true → step s = .next t → s.schedule.head? ≠ some .reset →
    (s.platform.memAdmit s.srcCursor 4 = false → s.srcDone = false →
      t.srcCursor = s.srcCursor ∧ t.srcWords = s.srcWords ∧ t.srcDone = false ∧ t.platform = s.platform ∧ t.dmaActive = true) ∧
    (s.platform.memAdmit s.dstCursor 4 = false →
      t.dstCursor = s.dstCursor ∧ t.dstWords = s.dstWords ∧ t.dstDone = false ∧ t.platform = s.platform ∧ t.dmaActive = true ∧
      (s.schedule.head? ≠ some .host → ∀ a, t.mem.read8 a = s.mem.read8 a)))

/-- Every step of a stream keeps where its data stands (44 R368): `orig` is memory at START; the host leaves both buffers alone. -/
def Obligations.StreamDataIsKept : Prop :=
  ∀ (orig : Word → Byte) (s t : State), EngineInv s → s.mem.wf = true → OverlapOk s → HostLeavesBuffers s →
    s.stream = true → StreamData orig s → step s = .next t → t.stream = true → StreamData orig t

/-- 44 R369: bulk equivalence. `p` accepts START and goes to `r 0`; the run goes on while the stream lasts and the host leaves both
buffers alone; in every state with DST_DONE = 1, byte i of destination block j is byte i of f(K, S_j), S_j the source block at START.
Premise P4 of 47 R455 (20 R92): the host meets its ordering and cache duty, without which the hardware's memory is not the sequentially
consistent one of this model (log entry 7). -/
def Obligations.BulkEquivalence : Prop :=
  ∀ (p : State) (v : Word) (r : Nat → State) (n : Nat),
    HostMeetsOrderingDuty p → EngineInv p → p.mem.wf = true → OverlapOk p → p.st = .keyLoaded →
    exec (.wrCtrlStart v) p = .next (r 0) → (r 0).st = .streaming →
    (∀ k, k < n → HostLeavesBuffers (r k) ∧ step (r k) = .next (r (k + 1)) ∧ (r (k + 1)).stream = true) →
    (r n).dstDone = true →
    ∀ j i, j < p.srcCount.toNat → i < 16 →
      let S := blockOfWords
        ⟨p.mem.read32 (p.srcAddr + BitVec.ofNat 32 (16 * j)), p.mem.read32 (p.srcAddr + BitVec.ofNat 32 (16 * j + 4)),
         p.mem.read32 (p.srcAddr + BitVec.ofNat 32 (16 * j + 8)), p.mem.read32 (p.srcAddr + BitVec.ofNat 32 (16 * j + 12))⟩
      let R := if v.getLsbD 0 then decryptWithKey (blockOfWords p.key) S else cipher (blockOfWords p.key) S
      (blockBytes R)[i]? = some ((r n).mem.read8 (p.dstAddr + BitVec.ofNat 32 (16 * j + i)))

/-! ### The register transactions (43, 45): each answers a next state, in every state -/

/-- 43 R301: the guard check. With the lock free a covered transaction does what it does with the lock held, and UNGUARDED_ACCESS is
added; with the lock held, and for LOCK and RESULT, it is not. -/
def Obligations.GuardCheckRecordsAndProceeds : Prop :=
  (∀ (i : Instr) (s : State), isGuarded i = true → s.lockHeld = false →
    ∃ t, exec i { s with lockHeld := true } = .next t ∧
      exec i s = .next { t with lockHeld := false, faults := t.faults.add .unguardedAccess }) ∧
  (∀ (i : Instr) (s t : State), isGuarded i = false ∨ s.lockHeld = true → exec i s = .next t →
    t.faults.has .unguardedAccess = s.faults.has .unguardedAccess)

/-- 43 R309. -/
def Obligations.RdCtrlReturnsTheStatus : Prop :=
  RowDecodes 0x40000000000#43 0x7FF00000000#43 (fun _ => .rdCtrl) ∧
  ∀ s : State, ∃ t w, exec .rdCtrl s = .next t ∧ DrawnRead s t w 0x7701#32 s.guardFaults ∧
    w.getLsbD 0 = s.decrypt ∧
    (w.getLsbD 8 = true ↔ s.st = .keyLoaded ∨ s.st = .feeding ∨
      (s.st = .streaming ∧ s.inBuf.length < 4 ∧ s.srcWords.toNat < 4 * s.srcCount.toNat)) ∧
    (w.getLsbD 9 = true ↔ s.st = .finished) ∧
    w.getLsbD 10 = s.stream ∧
    w.extractLsb' 12 3 =
      (match s.st with
        | .idle => 0#3
        | .keyLoaded => 1#3
        | .feeding => 2#3
        | .computing => 3#3
        | .finished => 4#3
        | .streaming => 5#3)

/-- 43 R310 and R312: a CTRL write with DATA[1] = 0. -/
def Obligations.WrCtrlSetsDirectionOrEndsOperation : Prop :=
  RowDecodes 0x50000000000#43 0x7FF00000002#43 (fun t => .wrCtrl (t.extractLsb' 0 32)) ∧
  ∀ (s : State) (v : Word),
    (v.extractLsb' 2 30 ≠ 0#30 → exec (.wrCtrl v) s = .next { s with faults := s.guardFaults.add .reservedBits }) ∧
    (v.extractLsb' 2 30 = 0#30 →
      (s.st = .idle ∨ s.st = .keyLoaded →
        exec (.wrCtrl v) s = .next { s with faults := s.guardFaults, decrypt := v.getLsbD 0 }) ∧
      (s.st = .feeding ∨ s.st = .computing ∨ s.st = .streaming →
        exec (.wrCtrl v) s = .next { s with faults := s.guardFaults.add .ctrlWriteWhileBusy }) ∧
      (s.st = .finished → s.stream = true ∧ s.dstDone = false →
        exec (.wrCtrl v) s = .next { s with faults := s.guardFaults.add .dmaNotDrained }) ∧
      (s.st = .finished → s.stream = false ∨ s.dstDone = true →
        exec (.wrCtrl v) s = .next { s.tornDown with faults := s.guardFaults, decrypt := v.getLsbD 0 }))

/-- 43 R311 and 44 R361: START. -/
def Obligations.StartValidatesAndStarts : Prop :=
  RowDecodes 0x50000000002#43 0x7FF00000002#43 (fun t => .wrCtrlStart (t.extractLsb' 0 32)) ∧
  ∀ (s : State) (v : Word),
    let valid := s.srcCount ≠ 0#16 ∧ s.srcCount = s.dstCount
    let wraps := 2 ^ 32 < s.srcAddr.toNat + 16 * s.srcCount.toNat ∨ 2 ^ 32 < s.dstAddr.toNat + 16 * s.dstCount.toNat
    (v.extractLsb' 2 30 ≠ 0#30 → exec (.wrCtrlStart v) s = .next { s with faults := s.guardFaults.add .reservedBits }) ∧
    (v.extractLsb' 2 30 = 0#30 →
      (s.st = .keyLoaded →
        (¬valid → exec (.wrCtrlStart v) s = .next { s with faults := s.guardFaults, resultCode := .invalidLength }) ∧
        (valid → wraps → exec (.wrCtrlStart v) s = .next { s with faults := s.guardFaults.add .dmaWrap }) ∧
        (valid → ¬wraps → exec (.wrCtrlStart v) s = .next { s with
          faults := s.guardFaults, decrypt := v.getLsbD 0, st := .streaming, stream := true, blocksDone := 0#16,
          srcWords := 0#18, dstWords := 0#18, srcDone := false, dstDone := false })) ∧
      (s.st = .idle ∨ s.st = .finished →
        exec (.wrCtrlStart v) s = .next { s with faults := s.guardFaults.add .startNotReady }) ∧
      (s.st = .feeding ∨ s.st = .computing ∨ s.st = .streaming →
        exec (.wrCtrlStart v) s = .next { s with faults := s.guardFaults.add .ctrlWriteWhileBusy }))

/-- 43 R314 and R317: reads of KEYn and DATAIN return free words and have no side effect. -/
def Obligations.RdKeyAndRdDatainReturnDraws : Prop :=
  RowDecodes 0x41000000000#43 0x7F300000000#43 (fun t => .rdKey (t.extractLsb' 34 2)) ∧
  RowDecodes 0x42000000000#43 0x7FF00000000#43 (fun _ => .rdDatain) ∧
  ∀ s : State,
    (∀ n, ∃ t w, exec (.rdKey n) s = .next t ∧ DrawnRead s t w 0#32 s.guardFaults) ∧
    (∃ t w, exec .rdDatain s = .next t ∧ DrawnRead s t w 0#32 s.guardFaults)

/-- 43 R315. -/
def Obligations.WrKeyLoadsOneWord : Prop :=
  RowDecodes 0x51000000000#43 0x7F300000000#43 (fun t => .wrKey (t.extractLsb' 34 2) (t.extractLsb' 0 32)) ∧
  ∀ (s : State) (n : BitVec 2) (v : Word),
    (s.st = .idle ∨ s.st = .keyLoaded →
      ∃ t, exec (.wrKey n v) s = .next t ∧
        t = { s with faults := s.guardFaults, key := t.key, keyValid := t.keyValid, st := t.st } ∧
        t.key.get n = v ∧ (∀ m, m ≠ n → t.key.get m = s.key.get m) ∧
        t.keyValid.get n = true ∧ (∀ m, m ≠ n → t.keyValid.get m = s.keyValid.get m) ∧
        (s.st = .keyLoaded → t.st = .keyLoaded) ∧
        (s.st = .idle → (∀ m, m ≠ n → s.keyValid.get m = true) → t.st = .keyLoaded) ∧
        (s.st = .idle → (∃ m, m ≠ n ∧ s.keyValid.get m = false) → t.st = .idle)) ∧
    (¬(s.st = .idle ∨ s.st = .keyLoaded) →
      exec (.wrKey n v) s = .next { s with faults := s.guardFaults.add .keyWriteWhileBusy })

/-- 43 R318. -/
def Obligations.WrDatainFeedsOneWord : Prop :=
  RowDecodes 0x52000000000#43 0x7FF00000000#43 (fun t => .wrDatain (t.extractLsb' 0 32)) ∧
  ∀ (s : State) (v : Word),
    (s.st = .keyLoaded ∨ s.st = .feeding →
      exec (.wrDatain v) s = .next { s with
        faults := s.guardFaults, inBuf := s.inBuf ++ [v], st := if s.inBuf.length + 1 = 4 then .computing else .feeding }) ∧
    (¬(s.st = .keyLoaded ∨ s.st = .feeding) →
      exec (.wrDatain v) s = .next { s with faults := s.guardFaults.add .feedNotReady })

/-- 43 R322. -/
def Obligations.RdDataoutPopsOneWord : Prop :=
  RowDecodes 0x42400000000#43 0x7FF00000000#43 (fun _ => .rdDataout) ∧
  ∀ s : State,
    (∀ x rest, s.st = .finished → s.stream = false → s.outBuf = x :: rest →
      ∃ t, exec .rdDataout s = .next t ∧
        ExactRead (if rest = [] then s.tornDown else { s with outBuf := rest }) t x s.guardFaults) ∧
    (¬(s.st = .finished ∧ s.stream = false ∧ s.outBuf ≠ []) →
      ∃ t w, exec .rdDataout s = .next t ∧ DrawnRead s t w 0#32 (s.guardFaults.add .dataoutNotReady))

/-- 43 R323 and R335: writes to the read-only registers. -/
def Obligations.ReadOnlyWritesRecordTheirFault : Prop :=
  RowDecodes 0x52400000000#43 0x7FF00000000#43 (fun t => .wrDataout (t.extractLsb' 0 32)) ∧
  RowDecodes 0x54400000000#43 0x7FF00000000#43 (fun t => .wrDmaStatus (t.extractLsb' 0 32)) ∧
  ∀ (s : State) (v : Word),
    exec (.wrDataout v) s = .next { s with faults := s.guardFaults.add .writeReadOnly } ∧
    exec (.wrDmaStatus v) s = .next { s with faults := s.guardFaults.add .writeReadOnly }

/-- 43 R324 and R328: the descriptor addresses. -/
def Obligations.WrDmaAddrSetsTheAddress : Prop :=
  RowDecodes 0x53000000000#43 0x7FF00000000#43 (fun t => .wrDmaSrcAddr (t.extractLsb' 0 32)) ∧
  RowDecodes 0x53800000000#43 0x7FF00000000#43 (fun t => .wrDmaDstAddr (t.extractLsb' 0 32)) ∧
  ∀ (s : State) (v : Word),
    (v.extractLsb' 0 2 ≠ 0#2 →
      exec (.wrDmaSrcAddr v) s = .next { s with faults := s.guardFaults.add .dmaMisaligned } ∧
      exec (.wrDmaDstAddr v) s = .next { s with faults := s.guardFaults.add .dmaMisaligned }) ∧
    (v.extractLsb' 0 2 = 0#2 → ¬(s.st = .idle ∨ s.st = .keyLoaded) →
      exec (.wrDmaSrcAddr v) s = .next { s with faults := s.guardFaults.add .dmaConfigWhileBusy } ∧
      exec (.wrDmaDstAddr v) s = .next { s with faults := s.guardFaults.add .dmaConfigWhileBusy }) ∧
    (v.extractLsb' 0 2 = 0#2 → s.st = .idle ∨ s.st = .keyLoaded →
      exec (.wrDmaSrcAddr v) s = .next { s with faults := s.guardFaults, srcAddr := v } ∧
      exec (.wrDmaDstAddr v) s = .next { s with faults := s.guardFaults, dstAddr := v })

/-- 43 R326 and R330: the descriptor counts. -/
def Obligations.WrDmaCountSetsTheCount : Prop :=
  RowDecodes 0x53400000000#43 0x7FF00000000#43 (fun t => .wrDmaSrcCount (t.extractLsb' 0 32)) ∧
  RowDecodes 0x53C00000000#43 0x7FF00000000#43 (fun t => .wrDmaDstCount (t.extractLsb' 0 32)) ∧
  ∀ (s : State) (v : Word),
    (v.extractLsb' 16 16 ≠ 0#16 →
      exec (.wrDmaSrcCount v) s = .next { s with faults := s.guardFaults.add .reservedBits } ∧
      exec (.wrDmaDstCount v) s = .next { s with faults := s.guardFaults.add .reservedBits }) ∧
    (v.extractLsb' 16 16 = 0#16 → ¬(s.st = .idle ∨ s.st = .keyLoaded) →
      exec (.wrDmaSrcCount v) s = .next { s with faults := s.guardFaults.add .dmaConfigWhileBusy } ∧
      exec (.wrDmaDstCount v) s = .next { s with faults := s.guardFaults.add .dmaConfigWhileBusy }) ∧
    (v.extractLsb' 16 16 = 0#16 → s.st = .idle ∨ s.st = .keyLoaded →
      exec (.wrDmaSrcCount v) s = .next { s with faults := s.guardFaults, srcCount := v.extractLsb' 0 16 } ∧
      exec (.wrDmaDstCount v) s = .next { s with faults := s.guardFaults, dstCount := v.extractLsb' 0 16 })

/-- 43 R325, R327, R329, R331, R333 and R334: the DMA register reads. -/
def Obligations.DmaReadsReturnTheirFields : Prop :=
  (RowDecodes 0x43000000000#43 0x7FF00000000#43 (fun _ => .rdDmaSrcAddr) ∧
   RowDecodes 0x43400000000#43 0x7FF00000000#43 (fun _ => .rdDmaSrcCount) ∧
   RowDecodes 0x43800000000#43 0x7FF00000000#43 (fun _ => .rdDmaDstAddr) ∧
   RowDecodes 0x43C00000000#43 0x7FF00000000#43 (fun _ => .rdDmaDstCount) ∧
   RowDecodes 0x44000000000#43 0x7FF00000000#43 (fun _ => .rdDmaCtrl) ∧
   RowDecodes 0x44400000000#43 0x7FF00000000#43 (fun _ => .rdDmaStatus)) ∧
  ∀ s : State,
    (∃ t, exec .rdDmaSrcAddr s = .next t ∧ ExactRead s t s.srcAddr s.guardFaults) ∧
    (∃ t, exec .rdDmaDstAddr s = .next t ∧ ExactRead s t s.dstAddr s.guardFaults) ∧
    (AlignedInv s → s.srcAddr.extractLsb' 0 2 = 0#2 ∧ s.dstAddr.extractLsb' 0 2 = 0#2) ∧
    (∃ t w, exec .rdDmaSrcCount s = .next t ∧ DrawnRead s t w 0xFFFF#32 s.guardFaults ∧ w.extractLsb' 0 16 = s.srcCount) ∧
    (∃ t w, exec .rdDmaDstCount s = .next t ∧ DrawnRead s t w 0xFFFF#32 s.guardFaults ∧ w.extractLsb' 0 16 = s.dstCount) ∧
    (∃ t w, exec .rdDmaCtrl s = .next t ∧ DrawnRead s t w 0x3#32 s.guardFaults ∧
      w.getLsbD 0 = s.srcEn ∧ w.getLsbD 1 = s.dstEn) ∧
    (∃ t w, exec .rdDmaStatus s = .next t ∧ DrawnRead s t w 0x3#32 s.guardFaults ∧
      w.getLsbD 0 = s.srcDone ∧ w.getLsbD 1 = s.dstDone)

/-- 43 R332. -/
def Obligations.WrDmaCtrlSetsTheEnables : Prop :=
  RowDecodes 0x54000000000#43 0x7FF00000000#43 (fun t => .wrDmaCtrl (t.extractLsb' 0 32)) ∧
  ∀ (s : State) (v : Word),
    let active := s.st = .streaming ∨ (s.st = .finished ∧ s.stream = true ∧ s.dstDone = false)
    let clears := (s.srcEn = true ∧ v.getLsbD 0 = false) ∨ (s.dstEn = true ∧ v.getLsbD 1 = false)
    (v.extractLsb' 2 30 ≠ 0#30 → exec (.wrDmaCtrl v) s = .next { s with faults := s.guardFaults.add .reservedBits }) ∧
    (v.extractLsb' 2 30 = 0#30 →
      (active ∧ clears → exec (.wrDmaCtrl v) s = .next { s with faults := s.guardFaults.add .dmaDisableWhileBusy }) ∧
      (¬(active ∧ clears) →
        exec (.wrDmaCtrl v) s = .next { s with faults := s.guardFaults, srcEn := v.getLsbD 0, dstEn := v.getLsbD 1 }))

/-- 45 R400 to R402: LOCK. `holdsLock` is the running context's own knowledge (log entry 5). -/
def Obligations.LockIsTestAndSet : Prop :=
  RowDecodes 0x45000000000#43 0x7FF00000000#43 (fun _ => .rdLock) ∧
  RowDecodes 0x55000000000#43 0x7FF00000000#43 (fun t => .wrLock (t.extractLsb' 0 32)) ∧
  ∀ s : State,
    (s.lockHeld = false → ∃ t, exec .rdLock s = .next t ∧
      HostOnly { s with lockHeld := true } t { s.cur with reads := 0#32 :: s.cur.reads, holdsLock := true }) ∧
    (s.lockHeld = true → ∃ t, exec .rdLock s = .next t ∧ ExactRead { s with resultCode := .busy } t 3#32 s.faults) ∧
    (∀ v, v ≠ 0#32 → exec (.wrLock v) s = .next { s with faults := s.faults.add .reservedBits }) ∧
    (s.lockHeld = false → exec (.wrLock 0#32) s = .next { s with faults := s.faults.add .releaseNotHeld }) ∧
    (s.lockHeld = true →
      let free := s.st = .idle ∨ s.st = .keyLoaded ∨ (s.st = .finished ∧ ¬(s.stream = true ∧ s.dstDone = false))
      (free → ∃ t, exec (.wrLock 0#32) s = .next t ∧
        HostOnly { s.tornDown with lockHeld := false } t { s.cur with holdsLock := false }) ∧
      (¬free → exec (.wrLock 0#32) s = .next { s with faults := s.faults.add .releaseMidOp }))

/-- 45 R405 and R406: RESULT, exempt from the guard check. -/
def Obligations.ResultIsReadAndCleared : Prop :=
  RowDecodes 0x45400000000#43 0x7FF00000000#43 (fun _ => .rdResult) ∧
  RowDecodes 0x55400000000#43 0x7FF00000000#43 (fun t => .wrResult (t.extractLsb' 0 32)) ∧
  ∀ s : State,
    (∃ t w, exec .rdResult s = .next t ∧ DrawnRead s t w 0xF#32 s.faults ∧
      w.extractLsb' 0 4 =
        (match s.resultCode with
          | .success => 0#4
          | .invalidLength => 1#4
          | .hardwareTimeout => 2#4
          | .busy => 3#4)) ∧
    (∀ v, v ≠ 0#32 → exec (.wrResult v) s = .next { s with faults := s.faults.add .reservedBits }) ∧
    exec (.wrResult 0#32) s = .next { s with resultCode := .success }

/-! ### The driver (47) -/

/-- 47 R437: a call with a bad argument returns INVALID_LENGTH and touches no register. That the check is one step of its own (log entry
12), that no bytes come with the code (log entry 16), and that an ISR with INTERRUPT_REENTRY = false may make such a call (log entry 20;
47 R431 bars only its transactions) are the model's choices. -/
def Obligations.BadArgumentsTouchNoRegister : Prop :=
  ∀ (s u : State) (c : ApiCall), NextCommand s (.call c) u → s.platform.backend = .hardware →
    (match c with
      | .single _ key block => key.length ≠ 16 ∨ block.length ≠ 16
      | .stream _ key src n dst m => key.length ≠ 16 ∨ n = 0 ∨ n % 16 ≠ 0 ∨ m ≠ n ∨ 65535 < n / 16 ∨
          src.extractLsb' 0 2 ≠ 0#2 ∨ dst.extractLsb' 0 2 ≠ 0#2 ∨ 2 ^ 32 < src.toNat + n ∨ 2 ^ 32 < dst.toNat + m) →
    ∃ t, step s = .next t ∧
      HostOnly u t { u.cur with ops := [], out := [], returns := ⟨.invalidLength, []⟩ :: u.cur.returns }

/-- 47 R450 and 42 R278: the software backend answers in one step, touches no register, checks lengths, and computes the functions that
the ENGINE step computes; its bulk calls are not admitted (47 R447). The model's own: the refusal's name (log entry 14), the one step of
a call (log entry 12), no bytes beside INVALID_LENGTH (log entry 16), and that an ISR with INTERRUPT_REENTRY = false may make such a
call (log entry 20). -/
def Obligations.SoftwareBackendComputesTheSame : Prop :=
  (∀ (s u : State) (d : Bool) (key block : List Byte), NextCommand s (.call (.single d key block)) u →
    s.platform.backend = .software →
    (key.length = 16 → block.length = 16 → ∃ K B t, blockBytes K = key ∧ blockBytes B = block ∧ step s = .next t ∧
      HostOnly u t { u.cur with
        ops := [], out := [],
        returns := ⟨.success, blockBytes (if d then decryptWithKey K B else cipher K B)⟩ :: u.cur.returns }) ∧
    (key.length ≠ 16 ∨ block.length ≠ 16 → ∃ t, step s = .next t ∧
      HostOnly u t { u.cur with ops := [], out := [], returns := ⟨.invalidLength, []⟩ :: u.cur.returns })) ∧
  (∀ K B, softwareEncrypt K B = cipher K B ∧ softwareDecrypt K B = decryptWithKey K B) ∧
  (∀ (s u : State) (d : Bool) (key : List Byte) (src dst : Word) (n m : Nat),
    NextCommand s (.call (.stream d key src n dst m)) u → s.platform.backend = .software →
    step s = .refused .bulkCallOnSoftwareBackend)

/-- 47 R435 and R436: on the hardware backend a call with good arguments sets up exactly this list of driver steps, in a step of its
own that issues no transaction (the model's choice, log entry 12). What each kind of step does is said by StepRunsTheDecodedTransaction,
AcquireAndRelease and PollSucceedsGoesOnOrTimesOut. -/
def Obligations.DriverCallsIssueTheirSequences : Prop :=
  ∀ (s u : State) (d : Bool) (key : List Byte), s.platform.backend = .hardware → key.length = 16 →
    (∀ block, block.length = 16 → NextCommand s (.call (.single d key block)) u →
      ∃ K B t, blockBytes K = key ∧ blockBytes B = block ∧ step s = .next t ∧
        let k := wordsOfBlock K
        let b := wordsOfBlock B
        let p := u.platform.pollBound
        HostOnly u t { u.cur with
          out := [],
          ops := [.acquire, .xact (.wrCtrl (if d then 1#32 else 0#32)),
            .xact (.wrKey 0#2 k.e0), .xact (.wrKey 1#2 k.e1), .xact (.wrKey 2#2 k.e2), .xact (.wrKey 3#2 k.e3),
            .poll .rdCtrl 0x100#32 p, .xact (.wrDatain b.e0), .poll .rdCtrl 0x100#32 p, .xact (.wrDatain b.e1),
            .poll .rdCtrl 0x100#32 p, .xact (.wrDatain b.e2), .poll .rdCtrl 0x100#32 p, .xact (.wrDatain b.e3),
            .poll .rdCtrl 0x200#32 p, .drain, .drain, .drain, .drain, .release .success] }) ∧
    (∀ src dst n, n ≠ 0 → n % 16 = 0 → n / 16 ≤ 65535 → src.extractLsb' 0 2 = 0#2 → dst.extractLsb' 0 2 = 0#2 →
      src.toNat + n ≤ 2 ^ 32 → dst.toNat + n ≤ 2 ^ 32 → NextCommand s (.call (.stream d key src n dst n)) u →
      ∃ K t, blockBytes K = key ∧ step s = .next t ∧
        let k := wordsOfBlock K
        let p := u.platform.pollBound
        HostOnly u t { u.cur with
          out := [],
          ops := [.acquire, .xact (.wrDmaDstAddr dst), .xact (.wrDmaDstCount (BitVec.ofNat 32 (n / 16))),
            .xact (.wrDmaSrcAddr src), .xact (.wrDmaSrcCount (BitVec.ofNat 32 (n / 16))),
            .xact (.wrKey 0#2 k.e0), .xact (.wrKey 1#2 k.e1), .xact (.wrKey 2#2 k.e2), .xact (.wrKey 3#2 k.e3),
            .xact (.wrCtrlStart (if d then 3#32 else 2#32)), .checkStarted, .xact (.wrDmaCtrl 3#32),
            .poll .rdCtrl 0x200#32 p, .poll .rdDmaStatus 0x2#32 p, .release .success] })

/-- 47 R433: Acquire and Release, and the interrupt mask they save and restore. The model's own: the mask, the LOCK access and the
return are one step (log entry 12), no bytes come with BUSY (log entry 16), and `holdsLock` is the context's knowledge (log entry 5). -/
def Obligations.AcquireAndRelease : Prop :=
  (∀ (s u : State) (more : List DrvOp), NextDriverStep s .acquire more u → MayIssue s →
    (s.lockHeld = false → ∃ t, step s = .next t ∧
      HostOnly { u with lockHeld := true, irqMasked := u.irqMasked || (u.platform.driverMasksIrq && decide (u.ctx = .fg)) } t
        { u.cur with ops := more, reads := 0#32 :: u.cur.reads, holdsLock := true, savedMask := u.irqMasked }) ∧
    (s.lockHeld = true → ∃ t, step s = .next t ∧
      HostOnly { u with resultCode := .busy } t
        { u.cur with
          ops := [], out := [], reads := 3#32 :: u.cur.reads, savedMask := u.irqMasked,
          returns := ⟨.busy, []⟩ :: u.cur.returns })) ∧
  (∀ (s u : State) (more : List DrvOp) (code : ResultCode), NextDriverStep s (.release code) more u → MayIssue s →
    ∃ v t, exec (.wrLock 0#32) u = .next v ∧ step s = .next t ∧
      HostOnly { v with irqMasked := u.cur.savedMask } t
        { v.cur with
          ops := [], out := [],
          returns := ⟨code, u.cur.out.flatMap fun w => (wordBytes w).toList⟩ :: u.cur.returns })

/-- The driver's steps that read. 47 R440 and 30 R144, one read of a POLL: it exits at the first read in which every mask bit is 1, else
goes on while reads are left, else the call returns HARDWARE_TIMEOUT and the lock stays as it was. 47 R436, the refusal check: STATE = 1,
which is KEY_LOADED, leads to Release and INVALID_LENGTH, else the call goes on. 47 R435 step 6: a drained word is kept behind those
before it. The model's own: the read, its test and the return are one step (log entry 12), and no bytes come with a timeout (log
entry 16). -/
def Obligations.PollSucceedsGoesOnOrTimesOut : Prop :=
  (∀ (s u : State) (i : Instr) (mask : Word) (left : Nat) (more : List DrvOp),
    NextDriverStep s (.poll i mask left) more u → MayIssue s → i = .rdCtrl ∨ i = .rdDmaStatus →
    ∃ v w t, exec i u = .next v ∧ v.cur.reads = w :: u.cur.reads ∧ step s = .next t ∧ t.lockHeld = s.lockHeld ∧ t.st = s.st ∧
      (w &&& mask = mask → HostOnly v t { v.cur with ops := more }) ∧
      (w &&& mask ≠ mask → 1 < left → HostOnly v t { v.cur with ops := .poll i mask (left - 1) :: more }) ∧
      (w &&& mask ≠ mask → left ≤ 1 →
        HostOnly v t { v.cur with ops := [], out := [], returns := ⟨.hardwareTimeout, []⟩ :: v.cur.returns })) ∧
  (∀ (s u : State) (more : List DrvOp), NextDriverStep s .checkStarted more u → MayIssue s →
    ∃ v t, exec .rdCtrl u = .next v ∧ step s = .next t ∧
      (s.st = .keyLoaded → HostOnly v t { v.cur with ops := [.release .invalidLength] }) ∧
      (s.st ≠ .keyLoaded → HostOnly v t { v.cur with ops := more })) ∧
  (∀ (s u : State) (more : List DrvOp), NextDriverStep s .drain more u → MayIssue s →
    ∃ v w t, exec .rdDataout u = .next v ∧ v.cur.reads = w :: u.cur.reads ∧ step s = .next t ∧
      HostOnly v t { v.cur with ops := more, out := u.cur.out ++ [w] })

/-- 47 R441. (a): each step of a driver call takes from the transactions that the call can still issue, whatever the other agents do,
and a call starts with a bounded number of them. (b), (c): in every run in which both contexts keep 47 R432 and no reset comes, the
foreground's FINISHED poll of a single-block call goes on at its first read after the ENGINE step, and without that step the call
returns HARDWARE_TIMEOUT after POLL_BOUND reads. Under premise P7 of 47 R455 the ENGINE step comes before the last read, and in a
stream with both channels on and every word admitted so does what its FINISHED and DST_DONE polls wait for: the rest of a stream of N
blocks is at most 9 N steps. That P7's bound counts the host's steps is the model's reading (log entry 15): 47 R441 bounds the latency
"relative to the host's polls" and gives it no unit. -/
def Obligations.DriverCallsAreBounded : Prop :=
  ((∀ (s u t : State) (op : DrvOp) (more : List DrvOp), NextDriverStep s op more u → step s = .next t →
    t.ctx = s.ctx ∧ t.callCost < s.callCost) ∧
  (∀ (s u t : State) (c : ApiCall), NextCommand s (.call c) u → step s = .next t →
    t.callCost ≤ 15 + 5 * u.platform.pollBound) ∧
  (∀ s t : State, step s = .next t → s.schedule.head? ≠ some .host → s.schedule.head? ≠ some .reset →
    s.schedule.head? ≠ some .isrEnter → t.callCost = s.callCost)) ∧
  (∀ (r : Nat → State) (more : List DrvOp), DisciplinedRun r → LockInv (r 0) → BlockInv (r 0) → (r 0).fg.holdsLock = true →
    let p := (r 0).platform.pollBound
    (r 0).st = .computing → (r 0).fg.ops = .poll .rdCtrl 0x200#32 p :: more →
    (∀ k d, (∀ j, j < k → (r j).schedule.head? ≠ some .engine) → (r k).schedule.head? = some .engine → fgStepsIn r 0 k < p →
      fgStepsIn r k d = 0 → (r (k + d)).schedule.head? = some .host → (r (k + d)).ctx = .fg →
      (r (k + d + 1)).fg.ops = more ∧ (r (k + d + 1)).fg.returns = (r 0).fg.returns ∧ (r (k + d + 1)).st = .finished) ∧
    (∀ n, (∀ j, j < n → (r j).schedule.head? ≠ some .engine) →
      (fgStepsIn r 0 n < p → (r n).fg.ops = .poll .rdCtrl 0x200#32 (p - fgStepsIn r 0 n) :: more ∧
        (r n).fg.returns = (r 0).fg.returns) ∧
      (fgStepsIn r 0 n + 1 = p → (r n).schedule.head? = some .host → (r n).ctx = .fg →
        (r (n + 1)).fg.ops = [] ∧ (r (n + 1)).fg.returns = ⟨.hardwareTimeout, []⟩ :: (r 0).fg.returns ∧
        (r (n + 1)).lockHeld = true ∧ (r (n + 1)).st = .computing)) ∧
    (EngineLatencyBound p r → ∀ n, fgStepsIn r 0 n = p →
      ∃ k, k < n ∧ (r k).schedule.head? = some .engine ∧ fgStepsIn r 0 k < p)) ∧
  (∀ (r : Nat → State) (more : List DrvOp) (bound : Nat), DisciplinedRun r → LockInv (r 0) → EngineInv (r 0) →
    (r 0).fg.holdsLock = true → (r 0).dmaActive = true → (r 0).srcEn = true → (r 0).dstEn = true → BuffersAdmitted (r 0) →
    let p := (r 0).platform.pollBound
    LatencyBound bound r → 9 * (r 0).srcCount.toNat * bound ≤ p →
    ∀ n, fgStepsIn r 0 n = p →
      ((r 0).fg.ops = .poll .rdCtrl 0x200#32 p :: more → ∃ k, k < n ∧ (r k).st = .finished ∧ fgStepsIn r 0 k < p) ∧
      ((r 0).fg.ops = .poll .rdDmaStatus 0x2#32 p :: more → ∃ k, k < n ∧ (r k).dstDone = true ∧ fgStepsIn r 0 k < p))

/-- 47 R430, R431 and 60 R512: ISR entry, what the foreground does meanwhile, the ISR's return, and an ISR that may issue nothing.
47 R431 and R452: the host's own write of the mask. The model's own: an ISR with nothing left returns (log entry 18), and a
transaction of an ISR that may issue none is refused by name (log entry 14). -/
def Obligations.InterruptEntryAndReturn : Prop :=
  (∀ (s : State) (rest : List Agent), s.schedule = .isrEnter :: rest →
    (s.ctx = .fg → s.irqMasked = false → s.irqPending = true →
      step s = .next { s with
        schedule := rest, ctx := .isr, irqPending := false, isrSavedMask := s.irqMasked,
        isr := { s.isr with prog := s.platform.isrProgram, ops := [] } }) ∧
    (¬(s.ctx = .fg ∧ s.irqMasked = false ∧ s.irqPending = true) → step s = .next { s with schedule := rest })) ∧
  (∀ (s : State) (rest : List Agent), s.schedule = .irqRaise :: rest →
    step s = .next { s with schedule := rest, irqPending := true }) ∧
  (∀ s t : State, s.ctx = .isr → step s = .next t → s.schedule.head? ≠ some .reset → t.fg = s.fg) ∧
  (∀ (s : State) (rest : List Agent), s.schedule = .host :: rest → s.ctx = .isr → s.isr.ops = [] → s.isr.prog = [] →
    step s = .next { s with schedule := rest, ctx := .fg, irqMasked := s.isrSavedMask }) ∧
  (∀ (s u : State) (t : Transaction), NextCommand s (.bus t) u → s.ctx = .isr → s.platform.interruptReentry = false →
    step s = .refused .isrTransactionNotAdmitted) ∧
  (∀ (s u : State) (b : Bool), NextCommand s (.setMask b) u → step s = .next { u with irqMasked := b })

/-- 47 R434: an ISR that spins on a held LOCK spins for ever: no step but reset ends the wait or lets the foreground run. -/
def Obligations.SpinningIsrHangs : Prop :=
  ∀ (s t : State) (cs : List HostCmd), s.ctx = .isr → s.lockHeld = true → s.isr.ops = [] → s.isr.prog = .spinLock :: cs →
    step s = .next t → s.schedule.head? ≠ some .reset →
    t.ctx = .isr ∧ t.lockHeld = true ∧ t.isr.ops = [] ∧ t.isr.prog = .spinLock :: cs ∧ t.fg = s.fg

/-- 47 R435: a single-block call of the foreground from IDLE with the lock free, on one schedule: the step that begins the call (log
entry 12) and 14 transactions, the ENGINE step, and 6 transactions, nothing else between (47 R441 on other schedules is
DriverCallsAreBounded). It returns SUCCESS and Cipher(K, B) or Decrypt(K, B), the engine is IDLE, the lock free, the mask as before, and
no fault is added. -/
def Obligations.SingleBlockCallReturnsTheCipher : Prop :=
  ∀ (s : State) (d : Bool) (K B : Block) (cs : List HostCmd) (rest : List Agent),
    s.schedule = List.replicate 15 .host ++ [.engine] ++ List.replicate 6 .host ++ rest →
    s.ctx = .fg → s.platform.backend = .hardware → s.fg.ops = [] →
    s.fg.prog = .call (.single d (blockBytes K) (blockBytes B)) :: cs →
    BlockInv s → s.st = .idle → s.lockHeld = false →
    ∃ t : State, Sys2Proof.core.run 22 s = .next t ∧
      t.fg.returns = ⟨.success, blockBytes (if d then decryptWithKey K B else cipher K B)⟩ :: s.fg.returns ∧
      t.fg.ops = [] ∧ t.fg.prog = cs ∧ t.fg.holdsLock = false ∧ t.schedule = rest ∧
      t.st = .idle ∧ t.lockHeld = false ∧ t.key = ⟨0#32, 0#32, 0#32, 0#32⟩ ∧ t.decrypt = d ∧
      t.irqMasked = s.irqMasked ∧ t.faults = s.faults ∧ t.resultCode = s.resultCode ∧ t.mem = s.mem

end Statements
end

