-- ==== Sys2Proof/Laws/Decode.lean ====
section
/-! SUPPORT. Laws/Decode.lean: what the decoder reads off a word: its fields, the fields of a word made of fields, and the fields that a
row of the opcode map fixes. -/

namespace Sys2Proof

/-- The decoder reads SIZE, OFF, W and DATA, and nothing else. -/
theorem decode_fields (t : Transaction) : decode t =
    if t.extractLsb' 41 2 ≠ 2#2 ∨ t.extractLsb' 32 2 ≠ 0#2 then .error .busWidth
    else
      match regAt (t.extractLsb' 32 8) with
      | none => .error .busReservedOffset
      | some r => .ok (if t.getLsbD 40 then writeRow r (t.extractLsb' 0 32) else readRow r) := by
  have h : (t.extractLsb' 32 8).extractLsb' 0 2 = t.extractLsb' 32 2 := by
    ext i hi
    simp [BitVec.getElem_extractLsb', BitVec.getLsbD_extractLsb']
    omega
  simp only [decode, Transaction.size, Transaction.off, Transaction.isWrite, Transaction.data, h]
  rfl

/-- The fields of a word made of fields (30 R120). -/
theorem make_fields (w : Bool) (o : BitVec 8) (d : Word) :
    (Transaction.make 2#2 w o d).extractLsb' 41 2 = 2#2 ∧
    (Transaction.make 2#2 w o d).extractLsb' 32 2 = o.extractLsb' 0 2 ∧
    (Transaction.make 2#2 w o d).extractLsb' 32 8 = o ∧
    (Transaction.make 2#2 w o d).getLsbD 40 = w ∧
    (Transaction.make 2#2 w o d).extractLsb' 0 32 = d := by
  have bit : ∀ k, (Transaction.make 2#2 w o d).getLsbD k =
      if k < 32 then d.getLsbD k else if k < 40 then o.getLsbD (k - 32) else if k < 41 then w else (2#2).getLsbD (k - 41) := by
    intro k
    unfold Transaction.make
    rw [BitVec.getLsbD_append]
    split
    · rfl
    · rw [BitVec.getLsbD_append]
      by_cases h1 : k < 40
      · rw [if_pos (by omega), if_pos h1]
      · rw [if_neg (by omega), if_neg h1, BitVec.getLsbD_append]
        by_cases h2 : k < 41
        · rw [if_pos (by omega), if_pos h2, show k - 32 - 8 = 0 by omega]
          cases w <;> rfl
        · rw [if_neg (by omega), if_neg h2, show k - 32 - 8 - 1 = k - 41 by omega]
  refine ⟨?_, ?_, ?_, ?_, ?_⟩
  · ext i hi
    rw [BitVec.getElem_extractLsb', bit, if_neg (by omega), if_neg (by omega), if_neg (by omega), show 41 + i - 41 = i by omega,
      BitVec.getLsbD_eq_getElem hi]
  · ext i hi
    rw [BitVec.getElem_extractLsb', bit, if_neg (by omega), if_pos (by omega), BitVec.getElem_extractLsb', Nat.zero_add,
      show 32 + i - 32 = i by omega]
  · ext i hi
    rw [BitVec.getElem_extractLsb', bit, if_neg (by omega), if_pos (by omega), show 32 + i - 32 = i by omega,
      BitVec.getLsbD_eq_getElem hi]
  · rw [bit, if_neg (by omega), if_neg (by omega), if_pos (by omega)]
  · ext i hi
    rw [BitVec.getElem_extractLsb', bit, if_pos (by omega), Nat.zero_add, BitVec.getLsbD_eq_getElem hi]

/-- A bit that a row's mask keeps is the row's. -/
theorem getLsbD_of_masked {t m p : Transaction} (h : t &&& m = p) (i : Nat) (hm : m.getLsbD i = true) : t.getLsbD i = p.getLsbD i := by
  rw [← h, BitVec.getLsbD_and, hm, Bool.and_true]

/-- SIZE, OFF and W of a word that a row with all of them in its mask covers. -/
theorem fields_of_masked {t m p : Transaction} (h : t &&& m = p) (hm : m.extractLsb' 32 11 = BitVec.allOnes 11) :
    t.extractLsb' 41 2 = p.extractLsb' 41 2 ∧ t.extractLsb' 32 2 = p.extractLsb' 32 2 ∧
    t.extractLsb' 32 8 = p.extractLsb' 32 8 ∧ t.getLsbD 40 = p.getLsbD 40 := by
  have e : ∀ k, 32 ≤ k → k < 43 → t.getLsbD k = p.getLsbD k := by
    intro k h1 h2
    apply getLsbD_of_masked h
    have := congrArg (fun x => x.getLsbD (k - 32)) hm
    simp only [BitVec.getLsbD_extractLsb', BitVec.getLsbD_allOnes] at this
    rw [show 32 + (k - 32) = k by omega] at this
    have h3 : k - 32 < 11 := by omega
    simpa [h3] using this
  refine ⟨?_, ?_, ?_, e 40 (by omega) (by omega)⟩
  all_goals
    ext i hi
    rw [BitVec.getElem_extractLsb', BitVec.getElem_extractLsb']
    exact e _ (by omega) (by omega)

end Sys2Proof
end

