-- ==== Sys2Proof/Laws/State.lean ====
section
/-! SUPPORT. Laws/State.lean: what each update of State leaves in each field, one lemma per field per update. -/

namespace Sys2Proof.Machine

/-! ### raise -/

@[simp] theorem raise_decrypt (r : Fault) (s : State) : (s.raise r).decrypt = s.decrypt := rfl
@[simp] theorem raise_st (r : Fault) (s : State) : (s.raise r).st = s.st := rfl
@[simp] theorem raise_stream (r : Fault) (s : State) : (s.raise r).stream = s.stream := rfl
@[simp] theorem raise_key (r : Fault) (s : State) : (s.raise r).key = s.key := rfl
@[simp] theorem raise_keyValid (r : Fault) (s : State) : (s.raise r).keyValid = s.keyValid := rfl
@[simp] theorem raise_inBuf (r : Fault) (s : State) : (s.raise r).inBuf = s.inBuf := rfl
@[simp] theorem raise_outBuf (r : Fault) (s : State) : (s.raise r).outBuf = s.outBuf := rfl
@[simp] theorem raise_blocksDone (r : Fault) (s : State) : (s.raise r).blocksDone = s.blocksDone := rfl
@[simp] theorem raise_srcAddr (r : Fault) (s : State) : (s.raise r).srcAddr = s.srcAddr := rfl
@[simp] theorem raise_srcCount (r : Fault) (s : State) : (s.raise r).srcCount = s.srcCount := rfl
@[simp] theorem raise_dstAddr (r : Fault) (s : State) : (s.raise r).dstAddr = s.dstAddr := rfl
@[simp] theorem raise_dstCount (r : Fault) (s : State) : (s.raise r).dstCount = s.dstCount := rfl
@[simp] theorem raise_srcEn (r : Fault) (s : State) : (s.raise r).srcEn = s.srcEn := rfl
@[simp] theorem raise_dstEn (r : Fault) (s : State) : (s.raise r).dstEn = s.dstEn := rfl
@[simp] theorem raise_srcDone (r : Fault) (s : State) : (s.raise r).srcDone = s.srcDone := rfl
@[simp] theorem raise_dstDone (r : Fault) (s : State) : (s.raise r).dstDone = s.dstDone := rfl
@[simp] theorem raise_srcWords (r : Fault) (s : State) : (s.raise r).srcWords = s.srcWords := rfl
@[simp] theorem raise_dstWords (r : Fault) (s : State) : (s.raise r).dstWords = s.dstWords := rfl
@[simp] theorem raise_lockHeld (r : Fault) (s : State) : (s.raise r).lockHeld = s.lockHeld := rfl
@[simp] theorem raise_resultCode (r : Fault) (s : State) : (s.raise r).resultCode = s.resultCode := rfl
@[simp] theorem raise_faults (r : Fault) (s : State) : (s.raise r).faults = s.faults.add r := rfl
@[simp] theorem raise_mem (r : Fault) (s : State) : (s.raise r).mem = s.mem := rfl
@[simp] theorem raise_ctx (r : Fault) (s : State) : (s.raise r).ctx = s.ctx := rfl
@[simp] theorem raise_irqMasked (r : Fault) (s : State) : (s.raise r).irqMasked = s.irqMasked := rfl
@[simp] theorem raise_irqPending (r : Fault) (s : State) : (s.raise r).irqPending = s.irqPending := rfl
@[simp] theorem raise_isrSavedMask (r : Fault) (s : State) : (s.raise r).isrSavedMask = s.isrSavedMask := rfl
@[simp] theorem raise_fg (r : Fault) (s : State) : (s.raise r).fg = s.fg := rfl
@[simp] theorem raise_isr (r : Fault) (s : State) : (s.raise r).isr = s.isr := rfl
@[simp] theorem raise_platform (r : Fault) (s : State) : (s.raise r).platform = s.platform := rfl
@[simp] theorem raise_draws (r : Fault) (s : State) : (s.raise r).draws = s.draws := rfl
@[simp] theorem raise_schedule (r : Fault) (s : State) : (s.raise r).schedule = s.schedule := rfl

/-! ### guardCheck -/

@[simp] theorem guardCheck_decrypt (s : State) : (s.guardCheck).decrypt = s.decrypt := rfl
@[simp] theorem guardCheck_st (s : State) : (s.guardCheck).st = s.st := rfl
@[simp] theorem guardCheck_stream (s : State) : (s.guardCheck).stream = s.stream := rfl
@[simp] theorem guardCheck_key (s : State) : (s.guardCheck).key = s.key := rfl
@[simp] theorem guardCheck_keyValid (s : State) : (s.guardCheck).keyValid = s.keyValid := rfl
@[simp] theorem guardCheck_inBuf (s : State) : (s.guardCheck).inBuf = s.inBuf := rfl
@[simp] theorem guardCheck_outBuf (s : State) : (s.guardCheck).outBuf = s.outBuf := rfl
@[simp] theorem guardCheck_blocksDone (s : State) : (s.guardCheck).blocksDone = s.blocksDone := rfl
@[simp] theorem guardCheck_srcAddr (s : State) : (s.guardCheck).srcAddr = s.srcAddr := rfl
@[simp] theorem guardCheck_srcCount (s : State) : (s.guardCheck).srcCount = s.srcCount := rfl
@[simp] theorem guardCheck_dstAddr (s : State) : (s.guardCheck).dstAddr = s.dstAddr := rfl
@[simp] theorem guardCheck_dstCount (s : State) : (s.guardCheck).dstCount = s.dstCount := rfl
@[simp] theorem guardCheck_srcEn (s : State) : (s.guardCheck).srcEn = s.srcEn := rfl
@[simp] theorem guardCheck_dstEn (s : State) : (s.guardCheck).dstEn = s.dstEn := rfl
@[simp] theorem guardCheck_srcDone (s : State) : (s.guardCheck).srcDone = s.srcDone := rfl
@[simp] theorem guardCheck_dstDone (s : State) : (s.guardCheck).dstDone = s.dstDone := rfl
@[simp] theorem guardCheck_srcWords (s : State) : (s.guardCheck).srcWords = s.srcWords := rfl
@[simp] theorem guardCheck_dstWords (s : State) : (s.guardCheck).dstWords = s.dstWords := rfl
@[simp] theorem guardCheck_lockHeld (s : State) : (s.guardCheck).lockHeld = s.lockHeld := rfl
@[simp] theorem guardCheck_resultCode (s : State) : (s.guardCheck).resultCode = s.resultCode := rfl
@[simp] theorem guardCheck_faults (s : State) : (s.guardCheck).faults = if s.lockHeld then s.faults else s.faults.add .unguardedAccess := rfl
@[simp] theorem guardCheck_mem (s : State) : (s.guardCheck).mem = s.mem := rfl
@[simp] theorem guardCheck_ctx (s : State) : (s.guardCheck).ctx = s.ctx := rfl
@[simp] theorem guardCheck_irqMasked (s : State) : (s.guardCheck).irqMasked = s.irqMasked := rfl
@[simp] theorem guardCheck_irqPending (s : State) : (s.guardCheck).irqPending = s.irqPending := rfl
@[simp] theorem guardCheck_isrSavedMask (s : State) : (s.guardCheck).isrSavedMask = s.isrSavedMask := rfl
@[simp] theorem guardCheck_fg (s : State) : (s.guardCheck).fg = s.fg := rfl
@[simp] theorem guardCheck_isr (s : State) : (s.guardCheck).isr = s.isr := rfl
@[simp] theorem guardCheck_platform (s : State) : (s.guardCheck).platform = s.platform := rfl
@[simp] theorem guardCheck_draws (s : State) : (s.guardCheck).draws = s.draws := rfl
@[simp] theorem guardCheck_schedule (s : State) : (s.guardCheck).schedule = s.schedule := rfl

/-! ### setCur -/

@[simp] theorem setCur_decrypt (h : HostContext) (s : State) : (s.setCur h).decrypt = s.decrypt := rfl
@[simp] theorem setCur_st (h : HostContext) (s : State) : (s.setCur h).st = s.st := rfl
@[simp] theorem setCur_stream (h : HostContext) (s : State) : (s.setCur h).stream = s.stream := rfl
@[simp] theorem setCur_key (h : HostContext) (s : State) : (s.setCur h).key = s.key := rfl
@[simp] theorem setCur_keyValid (h : HostContext) (s : State) : (s.setCur h).keyValid = s.keyValid := rfl
@[simp] theorem setCur_inBuf (h : HostContext) (s : State) : (s.setCur h).inBuf = s.inBuf := rfl
@[simp] theorem setCur_outBuf (h : HostContext) (s : State) : (s.setCur h).outBuf = s.outBuf := rfl
@[simp] theorem setCur_blocksDone (h : HostContext) (s : State) : (s.setCur h).blocksDone = s.blocksDone := rfl
@[simp] theorem setCur_srcAddr (h : HostContext) (s : State) : (s.setCur h).srcAddr = s.srcAddr := rfl
@[simp] theorem setCur_srcCount (h : HostContext) (s : State) : (s.setCur h).srcCount = s.srcCount := rfl
@[simp] theorem setCur_dstAddr (h : HostContext) (s : State) : (s.setCur h).dstAddr = s.dstAddr := rfl
@[simp] theorem setCur_dstCount (h : HostContext) (s : State) : (s.setCur h).dstCount = s.dstCount := rfl
@[simp] theorem setCur_srcEn (h : HostContext) (s : State) : (s.setCur h).srcEn = s.srcEn := rfl
@[simp] theorem setCur_dstEn (h : HostContext) (s : State) : (s.setCur h).dstEn = s.dstEn := rfl
@[simp] theorem setCur_srcDone (h : HostContext) (s : State) : (s.setCur h).srcDone = s.srcDone := rfl
@[simp] theorem setCur_dstDone (h : HostContext) (s : State) : (s.setCur h).dstDone = s.dstDone := rfl
@[simp] theorem setCur_srcWords (h : HostContext) (s : State) : (s.setCur h).srcWords = s.srcWords := rfl
@[simp] theorem setCur_dstWords (h : HostContext) (s : State) : (s.setCur h).dstWords = s.dstWords := rfl
@[simp] theorem setCur_lockHeld (h : HostContext) (s : State) : (s.setCur h).lockHeld = s.lockHeld := rfl
@[simp] theorem setCur_resultCode (h : HostContext) (s : State) : (s.setCur h).resultCode = s.resultCode := rfl
@[simp] theorem setCur_faults (h : HostContext) (s : State) : (s.setCur h).faults = s.faults := rfl
@[simp] theorem setCur_mem (h : HostContext) (s : State) : (s.setCur h).mem = s.mem := rfl
@[simp] theorem setCur_ctx (h : HostContext) (s : State) : (s.setCur h).ctx = s.ctx := rfl
@[simp] theorem setCur_irqMasked (h : HostContext) (s : State) : (s.setCur h).irqMasked = s.irqMasked := rfl
@[simp] theorem setCur_irqPending (h : HostContext) (s : State) : (s.setCur h).irqPending = s.irqPending := rfl
@[simp] theorem setCur_isrSavedMask (h : HostContext) (s : State) : (s.setCur h).isrSavedMask = s.isrSavedMask := rfl
@[simp] theorem setCur_fg (h : HostContext) (s : State) : (s.setCur h).fg = (match s.ctx with | .fg => h | .isr => s.fg) := rfl
@[simp] theorem setCur_isr (h : HostContext) (s : State) : (s.setCur h).isr = (match s.ctx with | .fg => s.isr | .isr => h) := rfl
@[simp] theorem setCur_platform (h : HostContext) (s : State) : (s.setCur h).platform = s.platform := rfl
@[simp] theorem setCur_draws (h : HostContext) (s : State) : (s.setCur h).draws = s.draws := rfl
@[simp] theorem setCur_schedule (h : HostContext) (s : State) : (s.setCur h).schedule = s.schedule := rfl

/-! ### returnWord -/

@[simp] theorem returnWord_decrypt (w : Word) (s : State) : (s.returnWord w).decrypt = s.decrypt := rfl
@[simp] theorem returnWord_st (w : Word) (s : State) : (s.returnWord w).st = s.st := rfl
@[simp] theorem returnWord_stream (w : Word) (s : State) : (s.returnWord w).stream = s.stream := rfl
@[simp] theorem returnWord_key (w : Word) (s : State) : (s.returnWord w).key = s.key := rfl
@[simp] theorem returnWord_keyValid (w : Word) (s : State) : (s.returnWord w).keyValid = s.keyValid := rfl
@[simp] theorem returnWord_inBuf (w : Word) (s : State) : (s.returnWord w).inBuf = s.inBuf := rfl
@[simp] theorem returnWord_outBuf (w : Word) (s : State) : (s.returnWord w).outBuf = s.outBuf := rfl
@[simp] theorem returnWord_blocksDone (w : Word) (s : State) : (s.returnWord w).blocksDone = s.blocksDone := rfl
@[simp] theorem returnWord_srcAddr (w : Word) (s : State) : (s.returnWord w).srcAddr = s.srcAddr := rfl
@[simp] theorem returnWord_srcCount (w : Word) (s : State) : (s.returnWord w).srcCount = s.srcCount := rfl
@[simp] theorem returnWord_dstAddr (w : Word) (s : State) : (s.returnWord w).dstAddr = s.dstAddr := rfl
@[simp] theorem returnWord_dstCount (w : Word) (s : State) : (s.returnWord w).dstCount = s.dstCount := rfl
@[simp] theorem returnWord_srcEn (w : Word) (s : State) : (s.returnWord w).srcEn = s.srcEn := rfl
@[simp] theorem returnWord_dstEn (w : Word) (s : State) : (s.returnWord w).dstEn = s.dstEn := rfl
@[simp] theorem returnWord_srcDone (w : Word) (s : State) : (s.returnWord w).srcDone = s.srcDone := rfl
@[simp] theorem returnWord_dstDone (w : Word) (s : State) : (s.returnWord w).dstDone = s.dstDone := rfl
@[simp] theorem returnWord_srcWords (w : Word) (s : State) : (s.returnWord w).srcWords = s.srcWords := rfl
@[simp] theorem returnWord_dstWords (w : Word) (s : State) : (s.returnWord w).dstWords = s.dstWords := rfl
@[simp] theorem returnWord_lockHeld (w : Word) (s : State) : (s.returnWord w).lockHeld = s.lockHeld := rfl
@[simp] theorem returnWord_resultCode (w : Word) (s : State) : (s.returnWord w).resultCode = s.resultCode := rfl
@[simp] theorem returnWord_faults (w : Word) (s : State) : (s.returnWord w).faults = s.faults := rfl
@[simp] theorem returnWord_mem (w : Word) (s : State) : (s.returnWord w).mem = s.mem := rfl
@[simp] theorem returnWord_ctx (w : Word) (s : State) : (s.returnWord w).ctx = s.ctx := rfl
@[simp] theorem returnWord_irqMasked (w : Word) (s : State) : (s.returnWord w).irqMasked = s.irqMasked := rfl
@[simp] theorem returnWord_irqPending (w : Word) (s : State) : (s.returnWord w).irqPending = s.irqPending := rfl
@[simp] theorem returnWord_isrSavedMask (w : Word) (s : State) : (s.returnWord w).isrSavedMask = s.isrSavedMask := rfl
@[simp] theorem returnWord_platform (w : Word) (s : State) : (s.returnWord w).platform = s.platform := rfl
@[simp] theorem returnWord_draws (w : Word) (s : State) : (s.returnWord w).draws = s.draws := rfl
@[simp] theorem returnWord_schedule (w : Word) (s : State) : (s.returnWord w).schedule = s.schedule := rfl

/-! ### returnDrawn -/

@[simp] theorem returnDrawn_decrypt (mask v : Word) (s : State) : (s.returnDrawn mask v).decrypt = s.decrypt := rfl
@[simp] theorem returnDrawn_st (mask v : Word) (s : State) : (s.returnDrawn mask v).st = s.st := rfl
@[simp] theorem returnDrawn_stream (mask v : Word) (s : State) : (s.returnDrawn mask v).stream = s.stream := rfl
@[simp] theorem returnDrawn_key (mask v : Word) (s : State) : (s.returnDrawn mask v).key = s.key := rfl
@[simp] theorem returnDrawn_keyValid (mask v : Word) (s : State) : (s.returnDrawn mask v).keyValid = s.keyValid := rfl
@[simp] theorem returnDrawn_inBuf (mask v : Word) (s : State) : (s.returnDrawn mask v).inBuf = s.inBuf := rfl
@[simp] theorem returnDrawn_outBuf (mask v : Word) (s : State) : (s.returnDrawn mask v).outBuf = s.outBuf := rfl
@[simp] theorem returnDrawn_blocksDone (mask v : Word) (s : State) : (s.returnDrawn mask v).blocksDone = s.blocksDone := rfl
@[simp] theorem returnDrawn_srcAddr (mask v : Word) (s : State) : (s.returnDrawn mask v).srcAddr = s.srcAddr := rfl
@[simp] theorem returnDrawn_srcCount (mask v : Word) (s : State) : (s.returnDrawn mask v).srcCount = s.srcCount := rfl
@[simp] theorem returnDrawn_dstAddr (mask v : Word) (s : State) : (s.returnDrawn mask v).dstAddr = s.dstAddr := rfl
@[simp] theorem returnDrawn_dstCount (mask v : Word) (s : State) : (s.returnDrawn mask v).dstCount = s.dstCount := rfl
@[simp] theorem returnDrawn_srcEn (mask v : Word) (s : State) : (s.returnDrawn mask v).srcEn = s.srcEn := rfl
@[simp] theorem returnDrawn_dstEn (mask v : Word) (s : State) : (s.returnDrawn mask v).dstEn = s.dstEn := rfl
@[simp] theorem returnDrawn_srcDone (mask v : Word) (s : State) : (s.returnDrawn mask v).srcDone = s.srcDone := rfl
@[simp] theorem returnDrawn_dstDone (mask v : Word) (s : State) : (s.returnDrawn mask v).dstDone = s.dstDone := rfl
@[simp] theorem returnDrawn_srcWords (mask v : Word) (s : State) : (s.returnDrawn mask v).srcWords = s.srcWords := rfl
@[simp] theorem returnDrawn_dstWords (mask v : Word) (s : State) : (s.returnDrawn mask v).dstWords = s.dstWords := rfl
@[simp] theorem returnDrawn_lockHeld (mask v : Word) (s : State) : (s.returnDrawn mask v).lockHeld = s.lockHeld := rfl
@[simp] theorem returnDrawn_resultCode (mask v : Word) (s : State) : (s.returnDrawn mask v).resultCode = s.resultCode := rfl
@[simp] theorem returnDrawn_faults (mask v : Word) (s : State) : (s.returnDrawn mask v).faults = s.faults := rfl
@[simp] theorem returnDrawn_mem (mask v : Word) (s : State) : (s.returnDrawn mask v).mem = s.mem := rfl
@[simp] theorem returnDrawn_ctx (mask v : Word) (s : State) : (s.returnDrawn mask v).ctx = s.ctx := rfl
@[simp] theorem returnDrawn_irqMasked (mask v : Word) (s : State) : (s.returnDrawn mask v).irqMasked = s.irqMasked := rfl
@[simp] theorem returnDrawn_irqPending (mask v : Word) (s : State) : (s.returnDrawn mask v).irqPending = s.irqPending := rfl
@[simp] theorem returnDrawn_isrSavedMask (mask v : Word) (s : State) : (s.returnDrawn mask v).isrSavedMask = s.isrSavedMask := rfl
@[simp] theorem returnDrawn_platform (mask v : Word) (s : State) : (s.returnDrawn mask v).platform = s.platform := rfl
@[simp] theorem returnDrawn_draws (mask v : Word) (s : State) : (s.returnDrawn mask v).draws = s.draws + 1 := rfl
@[simp] theorem returnDrawn_schedule (mask v : Word) (s : State) : (s.returnDrawn mask v).schedule = s.schedule := rfl

/-! ### refuseRead -/

@[simp] theorem refuseRead_decrypt (r : Fault) (s : State) : (s.refuseRead r).decrypt = s.decrypt := rfl
@[simp] theorem refuseRead_st (r : Fault) (s : State) : (s.refuseRead r).st = s.st := rfl
@[simp] theorem refuseRead_stream (r : Fault) (s : State) : (s.refuseRead r).stream = s.stream := rfl
@[simp] theorem refuseRead_key (r : Fault) (s : State) : (s.refuseRead r).key = s.key := rfl
@[simp] theorem refuseRead_keyValid (r : Fault) (s : State) : (s.refuseRead r).keyValid = s.keyValid := rfl
@[simp] theorem refuseRead_inBuf (r : Fault) (s : State) : (s.refuseRead r).inBuf = s.inBuf := rfl
@[simp] theorem refuseRead_outBuf (r : Fault) (s : State) : (s.refuseRead r).outBuf = s.outBuf := rfl
@[simp] theorem refuseRead_blocksDone (r : Fault) (s : State) : (s.refuseRead r).blocksDone = s.blocksDone := rfl
@[simp] theorem refuseRead_srcAddr (r : Fault) (s : State) : (s.refuseRead r).srcAddr = s.srcAddr := rfl
@[simp] theorem refuseRead_srcCount (r : Fault) (s : State) : (s.refuseRead r).srcCount = s.srcCount := rfl
@[simp] theorem refuseRead_dstAddr (r : Fault) (s : State) : (s.refuseRead r).dstAddr = s.dstAddr := rfl
@[simp] theorem refuseRead_dstCount (r : Fault) (s : State) : (s.refuseRead r).dstCount = s.dstCount := rfl
@[simp] theorem refuseRead_srcEn (r : Fault) (s : State) : (s.refuseRead r).srcEn = s.srcEn := rfl
@[simp] theorem refuseRead_dstEn (r : Fault) (s : State) : (s.refuseRead r).dstEn = s.dstEn := rfl
@[simp] theorem refuseRead_srcDone (r : Fault) (s : State) : (s.refuseRead r).srcDone = s.srcDone := rfl
@[simp] theorem refuseRead_dstDone (r : Fault) (s : State) : (s.refuseRead r).dstDone = s.dstDone := rfl
@[simp] theorem refuseRead_srcWords (r : Fault) (s : State) : (s.refuseRead r).srcWords = s.srcWords := rfl
@[simp] theorem refuseRead_dstWords (r : Fault) (s : State) : (s.refuseRead r).dstWords = s.dstWords := rfl
@[simp] theorem refuseRead_lockHeld (r : Fault) (s : State) : (s.refuseRead r).lockHeld = s.lockHeld := rfl
@[simp] theorem refuseRead_resultCode (r : Fault) (s : State) : (s.refuseRead r).resultCode = s.resultCode := rfl
@[simp] theorem refuseRead_faults (r : Fault) (s : State) : (s.refuseRead r).faults = s.faults.add r := rfl
@[simp] theorem refuseRead_mem (r : Fault) (s : State) : (s.refuseRead r).mem = s.mem := rfl
@[simp] theorem refuseRead_ctx (r : Fault) (s : State) : (s.refuseRead r).ctx = s.ctx := rfl
@[simp] theorem refuseRead_irqMasked (r : Fault) (s : State) : (s.refuseRead r).irqMasked = s.irqMasked := rfl
@[simp] theorem refuseRead_irqPending (r : Fault) (s : State) : (s.refuseRead r).irqPending = s.irqPending := rfl
@[simp] theorem refuseRead_isrSavedMask (r : Fault) (s : State) : (s.refuseRead r).isrSavedMask = s.isrSavedMask := rfl
@[simp] theorem refuseRead_platform (r : Fault) (s : State) : (s.refuseRead r).platform = s.platform := rfl
@[simp] theorem refuseRead_draws (r : Fault) (s : State) : (s.refuseRead r).draws = s.draws + 1 := rfl
@[simp] theorem refuseRead_schedule (r : Fault) (s : State) : (s.refuseRead r).schedule = s.schedule := rfl

/-! ### setHolds -/

@[simp] theorem setHolds_decrypt (b : Bool) (s : State) : (s.setHolds b).decrypt = s.decrypt := rfl
@[simp] theorem setHolds_st (b : Bool) (s : State) : (s.setHolds b).st = s.st := rfl
@[simp] theorem setHolds_stream (b : Bool) (s : State) : (s.setHolds b).stream = s.stream := rfl
@[simp] theorem setHolds_key (b : Bool) (s : State) : (s.setHolds b).key = s.key := rfl
@[simp] theorem setHolds_keyValid (b : Bool) (s : State) : (s.setHolds b).keyValid = s.keyValid := rfl
@[simp] theorem setHolds_inBuf (b : Bool) (s : State) : (s.setHolds b).inBuf = s.inBuf := rfl
@[simp] theorem setHolds_outBuf (b : Bool) (s : State) : (s.setHolds b).outBuf = s.outBuf := rfl
@[simp] theorem setHolds_blocksDone (b : Bool) (s : State) : (s.setHolds b).blocksDone = s.blocksDone := rfl
@[simp] theorem setHolds_srcAddr (b : Bool) (s : State) : (s.setHolds b).srcAddr = s.srcAddr := rfl
@[simp] theorem setHolds_srcCount (b : Bool) (s : State) : (s.setHolds b).srcCount = s.srcCount := rfl
@[simp] theorem setHolds_dstAddr (b : Bool) (s : State) : (s.setHolds b).dstAddr = s.dstAddr := rfl
@[simp] theorem setHolds_dstCount (b : Bool) (s : State) : (s.setHolds b).dstCount = s.dstCount := rfl
@[simp] theorem setHolds_srcEn (b : Bool) (s : State) : (s.setHolds b).srcEn = s.srcEn := rfl
@[simp] theorem setHolds_dstEn (b : Bool) (s : State) : (s.setHolds b).dstEn = s.dstEn := rfl
@[simp] theorem setHolds_srcDone (b : Bool) (s : State) : (s.setHolds b).srcDone = s.srcDone := rfl
@[simp] theorem setHolds_dstDone (b : Bool) (s : State) : (s.setHolds b).dstDone = s.dstDone := rfl
@[simp] theorem setHolds_srcWords (b : Bool) (s : State) : (s.setHolds b).srcWords = s.srcWords := rfl
@[simp] theorem setHolds_dstWords (b : Bool) (s : State) : (s.setHolds b).dstWords = s.dstWords := rfl
@[simp] theorem setHolds_lockHeld (b : Bool) (s : State) : (s.setHolds b).lockHeld = s.lockHeld := rfl
@[simp] theorem setHolds_resultCode (b : Bool) (s : State) : (s.setHolds b).resultCode = s.resultCode := rfl
@[simp] theorem setHolds_faults (b : Bool) (s : State) : (s.setHolds b).faults = s.faults := rfl
@[simp] theorem setHolds_mem (b : Bool) (s : State) : (s.setHolds b).mem = s.mem := rfl
@[simp] theorem setHolds_ctx (b : Bool) (s : State) : (s.setHolds b).ctx = s.ctx := rfl
@[simp] theorem setHolds_irqMasked (b : Bool) (s : State) : (s.setHolds b).irqMasked = s.irqMasked := rfl
@[simp] theorem setHolds_irqPending (b : Bool) (s : State) : (s.setHolds b).irqPending = s.irqPending := rfl
@[simp] theorem setHolds_isrSavedMask (b : Bool) (s : State) : (s.setHolds b).isrSavedMask = s.isrSavedMask := rfl
@[simp] theorem setHolds_platform (b : Bool) (s : State) : (s.setHolds b).platform = s.platform := rfl
@[simp] theorem setHolds_draws (b : Bool) (s : State) : (s.setHolds b).draws = s.draws := rfl
@[simp] theorem setHolds_schedule (b : Bool) (s : State) : (s.setHolds b).schedule = s.schedule := rfl

/-! ### setOps -/

@[simp] theorem setOps_decrypt (ops : List DrvOp) (s : State) : (s.setOps ops).decrypt = s.decrypt := rfl
@[simp] theorem setOps_st (ops : List DrvOp) (s : State) : (s.setOps ops).st = s.st := rfl
@[simp] theorem setOps_stream (ops : List DrvOp) (s : State) : (s.setOps ops).stream = s.stream := rfl
@[simp] theorem setOps_key (ops : List DrvOp) (s : State) : (s.setOps ops).key = s.key := rfl
@[simp] theorem setOps_keyValid (ops : List DrvOp) (s : State) : (s.setOps ops).keyValid = s.keyValid := rfl
@[simp] theorem setOps_inBuf (ops : List DrvOp) (s : State) : (s.setOps ops).inBuf = s.inBuf := rfl
@[simp] theorem setOps_outBuf (ops : List DrvOp) (s : State) : (s.setOps ops).outBuf = s.outBuf := rfl
@[simp] theorem setOps_blocksDone (ops : List DrvOp) (s : State) : (s.setOps ops).blocksDone = s.blocksDone := rfl
@[simp] theorem setOps_srcAddr (ops : List DrvOp) (s : State) : (s.setOps ops).srcAddr = s.srcAddr := rfl
@[simp] theorem setOps_srcCount (ops : List DrvOp) (s : State) : (s.setOps ops).srcCount = s.srcCount := rfl
@[simp] theorem setOps_dstAddr (ops : List DrvOp) (s : State) : (s.setOps ops).dstAddr = s.dstAddr := rfl
@[simp] theorem setOps_dstCount (ops : List DrvOp) (s : State) : (s.setOps ops).dstCount = s.dstCount := rfl
@[simp] theorem setOps_srcEn (ops : List DrvOp) (s : State) : (s.setOps ops).srcEn = s.srcEn := rfl
@[simp] theorem setOps_dstEn (ops : List DrvOp) (s : State) : (s.setOps ops).dstEn = s.dstEn := rfl
@[simp] theorem setOps_srcDone (ops : List DrvOp) (s : State) : (s.setOps ops).srcDone = s.srcDone := rfl
@[simp] theorem setOps_dstDone (ops : List DrvOp) (s : State) : (s.setOps ops).dstDone = s.dstDone := rfl
@[simp] theorem setOps_srcWords (ops : List DrvOp) (s : State) : (s.setOps ops).srcWords = s.srcWords := rfl
@[simp] theorem setOps_dstWords (ops : List DrvOp) (s : State) : (s.setOps ops).dstWords = s.dstWords := rfl
@[simp] theorem setOps_lockHeld (ops : List DrvOp) (s : State) : (s.setOps ops).lockHeld = s.lockHeld := rfl
@[simp] theorem setOps_resultCode (ops : List DrvOp) (s : State) : (s.setOps ops).resultCode = s.resultCode := rfl
@[simp] theorem setOps_faults (ops : List DrvOp) (s : State) : (s.setOps ops).faults = s.faults := rfl
@[simp] theorem setOps_mem (ops : List DrvOp) (s : State) : (s.setOps ops).mem = s.mem := rfl
@[simp] theorem setOps_ctx (ops : List DrvOp) (s : State) : (s.setOps ops).ctx = s.ctx := rfl
@[simp] theorem setOps_irqMasked (ops : List DrvOp) (s : State) : (s.setOps ops).irqMasked = s.irqMasked := rfl
@[simp] theorem setOps_irqPending (ops : List DrvOp) (s : State) : (s.setOps ops).irqPending = s.irqPending := rfl
@[simp] theorem setOps_isrSavedMask (ops : List DrvOp) (s : State) : (s.setOps ops).isrSavedMask = s.isrSavedMask := rfl
@[simp] theorem setOps_platform (ops : List DrvOp) (s : State) : (s.setOps ops).platform = s.platform := rfl
@[simp] theorem setOps_draws (ops : List DrvOp) (s : State) : (s.setOps ops).draws = s.draws := rfl
@[simp] theorem setOps_schedule (ops : List DrvOp) (s : State) : (s.setOps ops).schedule = s.schedule := rfl

/-! ### beginCall -/

@[simp] theorem beginCall_decrypt (ops : List DrvOp) (s : State) : (s.beginCall ops).decrypt = s.decrypt := rfl
@[simp] theorem beginCall_st (ops : List DrvOp) (s : State) : (s.beginCall ops).st = s.st := rfl
@[simp] theorem beginCall_stream (ops : List DrvOp) (s : State) : (s.beginCall ops).stream = s.stream := rfl
@[simp] theorem beginCall_key (ops : List DrvOp) (s : State) : (s.beginCall ops).key = s.key := rfl
@[simp] theorem beginCall_keyValid (ops : List DrvOp) (s : State) : (s.beginCall ops).keyValid = s.keyValid := rfl
@[simp] theorem beginCall_inBuf (ops : List DrvOp) (s : State) : (s.beginCall ops).inBuf = s.inBuf := rfl
@[simp] theorem beginCall_outBuf (ops : List DrvOp) (s : State) : (s.beginCall ops).outBuf = s.outBuf := rfl
@[simp] theorem beginCall_blocksDone (ops : List DrvOp) (s : State) : (s.beginCall ops).blocksDone = s.blocksDone := rfl
@[simp] theorem beginCall_srcAddr (ops : List DrvOp) (s : State) : (s.beginCall ops).srcAddr = s.srcAddr := rfl
@[simp] theorem beginCall_srcCount (ops : List DrvOp) (s : State) : (s.beginCall ops).srcCount = s.srcCount := rfl
@[simp] theorem beginCall_dstAddr (ops : List DrvOp) (s : State) : (s.beginCall ops).dstAddr = s.dstAddr := rfl
@[simp] theorem beginCall_dstCount (ops : List DrvOp) (s : State) : (s.beginCall ops).dstCount = s.dstCount := rfl
@[simp] theorem beginCall_srcEn (ops : List DrvOp) (s : State) : (s.beginCall ops).srcEn = s.srcEn := rfl
@[simp] theorem beginCall_dstEn (ops : List DrvOp) (s : State) : (s.beginCall ops).dstEn = s.dstEn := rfl
@[simp] theorem beginCall_srcDone (ops : List DrvOp) (s : State) : (s.beginCall ops).srcDone = s.srcDone := rfl
@[simp] theorem beginCall_dstDone (ops : List DrvOp) (s : State) : (s.beginCall ops).dstDone = s.dstDone := rfl
@[simp] theorem beginCall_srcWords (ops : List DrvOp) (s : State) : (s.beginCall ops).srcWords = s.srcWords := rfl
@[simp] theorem beginCall_dstWords (ops : List DrvOp) (s : State) : (s.beginCall ops).dstWords = s.dstWords := rfl
@[simp] theorem beginCall_lockHeld (ops : List DrvOp) (s : State) : (s.beginCall ops).lockHeld = s.lockHeld := rfl
@[simp] theorem beginCall_resultCode (ops : List DrvOp) (s : State) : (s.beginCall ops).resultCode = s.resultCode := rfl
@[simp] theorem beginCall_faults (ops : List DrvOp) (s : State) : (s.beginCall ops).faults = s.faults := rfl
@[simp] theorem beginCall_mem (ops : List DrvOp) (s : State) : (s.beginCall ops).mem = s.mem := rfl
@[simp] theorem beginCall_ctx (ops : List DrvOp) (s : State) : (s.beginCall ops).ctx = s.ctx := rfl
@[simp] theorem beginCall_irqMasked (ops : List DrvOp) (s : State) : (s.beginCall ops).irqMasked = s.irqMasked := rfl
@[simp] theorem beginCall_irqPending (ops : List DrvOp) (s : State) : (s.beginCall ops).irqPending = s.irqPending := rfl
@[simp] theorem beginCall_isrSavedMask (ops : List DrvOp) (s : State) : (s.beginCall ops).isrSavedMask = s.isrSavedMask := rfl
@[simp] theorem beginCall_platform (ops : List DrvOp) (s : State) : (s.beginCall ops).platform = s.platform := rfl
@[simp] theorem beginCall_draws (ops : List DrvOp) (s : State) : (s.beginCall ops).draws = s.draws := rfl
@[simp] theorem beginCall_schedule (ops : List DrvOp) (s : State) : (s.beginCall ops).schedule = s.schedule := rfl

/-! ### finishCall -/

@[simp] theorem finishCall_decrypt (code : ResultCode) (out : List Byte) (s : State) : (s.finishCall code out).decrypt = s.decrypt := rfl
@[simp] theorem finishCall_st (code : ResultCode) (out : List Byte) (s : State) : (s.finishCall code out).st = s.st := rfl
@[simp] theorem finishCall_stream (code : ResultCode) (out : List Byte) (s : State) : (s.finishCall code out).stream = s.stream := rfl
@[simp] theorem finishCall_key (code : ResultCode) (out : List Byte) (s : State) : (s.finishCall code out).key = s.key := rfl
@[simp] theorem finishCall_keyValid (code : ResultCode) (out : List Byte) (s : State) : (s.finishCall code out).keyValid = s.keyValid := rfl
@[simp] theorem finishCall_inBuf (code : ResultCode) (out : List Byte) (s : State) : (s.finishCall code out).inBuf = s.inBuf := rfl
@[simp] theorem finishCall_outBuf (code : ResultCode) (out : List Byte) (s : State) : (s.finishCall code out).outBuf = s.outBuf := rfl
@[simp] theorem finishCall_blocksDone (code : ResultCode) (out : List Byte) (s : State) : (s.finishCall code out).blocksDone = s.blocksDone := rfl
@[simp] theorem finishCall_srcAddr (code : ResultCode) (out : List Byte) (s : State) : (s.finishCall code out).srcAddr = s.srcAddr := rfl
@[simp] theorem finishCall_srcCount (code : ResultCode) (out : List Byte) (s : State) : (s.finishCall code out).srcCount = s.srcCount := rfl
@[simp] theorem finishCall_dstAddr (code : ResultCode) (out : List Byte) (s : State) : (s.finishCall code out).dstAddr = s.dstAddr := rfl
@[simp] theorem finishCall_dstCount (code : ResultCode) (out : List Byte) (s : State) : (s.finishCall code out).dstCount = s.dstCount := rfl
@[simp] theorem finishCall_srcEn (code : ResultCode) (out : List Byte) (s : State) : (s.finishCall code out).srcEn = s.srcEn := rfl
@[simp] theorem finishCall_dstEn (code : ResultCode) (out : List Byte) (s : State) : (s.finishCall code out).dstEn = s.dstEn := rfl
@[simp] theorem finishCall_srcDone (code : ResultCode) (out : List Byte) (s : State) : (s.finishCall code out).srcDone = s.srcDone := rfl
@[simp] theorem finishCall_dstDone (code : ResultCode) (out : List Byte) (s : State) : (s.finishCall code out).dstDone = s.dstDone := rfl
@[simp] theorem finishCall_srcWords (code : ResultCode) (out : List Byte) (s : State) : (s.finishCall code out).srcWords = s.srcWords := rfl
@[simp] theorem finishCall_dstWords (code : ResultCode) (out : List Byte) (s : State) : (s.finishCall code out).dstWords = s.dstWords := rfl
@[simp] theorem finishCall_lockHeld (code : ResultCode) (out : List Byte) (s : State) : (s.finishCall code out).lockHeld = s.lockHeld := rfl
@[simp] theorem finishCall_resultCode (code : ResultCode) (out : List Byte) (s : State) : (s.finishCall code out).resultCode = s.resultCode := rfl
@[simp] theorem finishCall_faults (code : ResultCode) (out : List Byte) (s : State) : (s.finishCall code out).faults = s.faults := rfl
@[simp] theorem finishCall_mem (code : ResultCode) (out : List Byte) (s : State) : (s.finishCall code out).mem = s.mem := rfl
@[simp] theorem finishCall_ctx (code : ResultCode) (out : List Byte) (s : State) : (s.finishCall code out).ctx = s.ctx := rfl
@[simp] theorem finishCall_irqMasked (code : ResultCode) (out : List Byte) (s : State) : (s.finishCall code out).irqMasked = s.irqMasked := rfl
@[simp] theorem finishCall_irqPending (code : ResultCode) (out : List Byte) (s : State) : (s.finishCall code out).irqPending = s.irqPending := rfl
@[simp] theorem finishCall_isrSavedMask (code : ResultCode) (out : List Byte) (s : State) : (s.finishCall code out).isrSavedMask = s.isrSavedMask := rfl
@[simp] theorem finishCall_platform (code : ResultCode) (out : List Byte) (s : State) : (s.finishCall code out).platform = s.platform := rfl
@[simp] theorem finishCall_draws (code : ResultCode) (out : List Byte) (s : State) : (s.finishCall code out).draws = s.draws := rfl
@[simp] theorem finishCall_schedule (code : ResultCode) (out : List Byte) (s : State) : (s.finishCall code out).schedule = s.schedule := rfl

/-! ### saveMask -/

@[simp] theorem saveMask_decrypt (s : State) : (s.saveMask).decrypt = s.decrypt := rfl
@[simp] theorem saveMask_st (s : State) : (s.saveMask).st = s.st := rfl
@[simp] theorem saveMask_stream (s : State) : (s.saveMask).stream = s.stream := rfl
@[simp] theorem saveMask_key (s : State) : (s.saveMask).key = s.key := rfl
@[simp] theorem saveMask_keyValid (s : State) : (s.saveMask).keyValid = s.keyValid := rfl
@[simp] theorem saveMask_inBuf (s : State) : (s.saveMask).inBuf = s.inBuf := rfl
@[simp] theorem saveMask_outBuf (s : State) : (s.saveMask).outBuf = s.outBuf := rfl
@[simp] theorem saveMask_blocksDone (s : State) : (s.saveMask).blocksDone = s.blocksDone := rfl
@[simp] theorem saveMask_srcAddr (s : State) : (s.saveMask).srcAddr = s.srcAddr := rfl
@[simp] theorem saveMask_srcCount (s : State) : (s.saveMask).srcCount = s.srcCount := rfl
@[simp] theorem saveMask_dstAddr (s : State) : (s.saveMask).dstAddr = s.dstAddr := rfl
@[simp] theorem saveMask_dstCount (s : State) : (s.saveMask).dstCount = s.dstCount := rfl
@[simp] theorem saveMask_srcEn (s : State) : (s.saveMask).srcEn = s.srcEn := rfl
@[simp] theorem saveMask_dstEn (s : State) : (s.saveMask).dstEn = s.dstEn := rfl
@[simp] theorem saveMask_srcDone (s : State) : (s.saveMask).srcDone = s.srcDone := rfl
@[simp] theorem saveMask_dstDone (s : State) : (s.saveMask).dstDone = s.dstDone := rfl
@[simp] theorem saveMask_srcWords (s : State) : (s.saveMask).srcWords = s.srcWords := rfl
@[simp] theorem saveMask_dstWords (s : State) : (s.saveMask).dstWords = s.dstWords := rfl
@[simp] theorem saveMask_lockHeld (s : State) : (s.saveMask).lockHeld = s.lockHeld := rfl
@[simp] theorem saveMask_resultCode (s : State) : (s.saveMask).resultCode = s.resultCode := rfl
@[simp] theorem saveMask_faults (s : State) : (s.saveMask).faults = s.faults := rfl
@[simp] theorem saveMask_mem (s : State) : (s.saveMask).mem = s.mem := rfl
@[simp] theorem saveMask_ctx (s : State) : (s.saveMask).ctx = s.ctx := rfl
@[simp] theorem saveMask_irqMasked (s : State) : (s.saveMask).irqMasked = (s.irqMasked || (s.platform.driverMasksIrq && decide (s.ctx = .fg))) := rfl
@[simp] theorem saveMask_irqPending (s : State) : (s.saveMask).irqPending = s.irqPending := rfl
@[simp] theorem saveMask_isrSavedMask (s : State) : (s.saveMask).isrSavedMask = s.isrSavedMask := rfl
@[simp] theorem saveMask_platform (s : State) : (s.saveMask).platform = s.platform := rfl
@[simp] theorem saveMask_draws (s : State) : (s.saveMask).draws = s.draws := rfl
@[simp] theorem saveMask_schedule (s : State) : (s.saveMask).schedule = s.schedule := rfl

/-! ### restoreMask -/

@[simp] theorem restoreMask_decrypt (s : State) : (s.restoreMask).decrypt = s.decrypt := rfl
@[simp] theorem restoreMask_st (s : State) : (s.restoreMask).st = s.st := rfl
@[simp] theorem restoreMask_stream (s : State) : (s.restoreMask).stream = s.stream := rfl
@[simp] theorem restoreMask_key (s : State) : (s.restoreMask).key = s.key := rfl
@[simp] theorem restoreMask_keyValid (s : State) : (s.restoreMask).keyValid = s.keyValid := rfl
@[simp] theorem restoreMask_inBuf (s : State) : (s.restoreMask).inBuf = s.inBuf := rfl
@[simp] theorem restoreMask_outBuf (s : State) : (s.restoreMask).outBuf = s.outBuf := rfl
@[simp] theorem restoreMask_blocksDone (s : State) : (s.restoreMask).blocksDone = s.blocksDone := rfl
@[simp] theorem restoreMask_srcAddr (s : State) : (s.restoreMask).srcAddr = s.srcAddr := rfl
@[simp] theorem restoreMask_srcCount (s : State) : (s.restoreMask).srcCount = s.srcCount := rfl
@[simp] theorem restoreMask_dstAddr (s : State) : (s.restoreMask).dstAddr = s.dstAddr := rfl
@[simp] theorem restoreMask_dstCount (s : State) : (s.restoreMask).dstCount = s.dstCount := rfl
@[simp] theorem restoreMask_srcEn (s : State) : (s.restoreMask).srcEn = s.srcEn := rfl
@[simp] theorem restoreMask_dstEn (s : State) : (s.restoreMask).dstEn = s.dstEn := rfl
@[simp] theorem restoreMask_srcDone (s : State) : (s.restoreMask).srcDone = s.srcDone := rfl
@[simp] theorem restoreMask_dstDone (s : State) : (s.restoreMask).dstDone = s.dstDone := rfl
@[simp] theorem restoreMask_srcWords (s : State) : (s.restoreMask).srcWords = s.srcWords := rfl
@[simp] theorem restoreMask_dstWords (s : State) : (s.restoreMask).dstWords = s.dstWords := rfl
@[simp] theorem restoreMask_lockHeld (s : State) : (s.restoreMask).lockHeld = s.lockHeld := rfl
@[simp] theorem restoreMask_resultCode (s : State) : (s.restoreMask).resultCode = s.resultCode := rfl
@[simp] theorem restoreMask_faults (s : State) : (s.restoreMask).faults = s.faults := rfl
@[simp] theorem restoreMask_mem (s : State) : (s.restoreMask).mem = s.mem := rfl
@[simp] theorem restoreMask_ctx (s : State) : (s.restoreMask).ctx = s.ctx := rfl
@[simp] theorem restoreMask_irqMasked (s : State) : (s.restoreMask).irqMasked = s.cur.savedMask := rfl
@[simp] theorem restoreMask_irqPending (s : State) : (s.restoreMask).irqPending = s.irqPending := rfl
@[simp] theorem restoreMask_isrSavedMask (s : State) : (s.restoreMask).isrSavedMask = s.isrSavedMask := rfl
@[simp] theorem restoreMask_fg (s : State) : (s.restoreMask).fg = s.fg := rfl
@[simp] theorem restoreMask_isr (s : State) : (s.restoreMask).isr = s.isr := rfl
@[simp] theorem restoreMask_platform (s : State) : (s.restoreMask).platform = s.platform := rfl
@[simp] theorem restoreMask_draws (s : State) : (s.restoreMask).draws = s.draws := rfl
@[simp] theorem restoreMask_schedule (s : State) : (s.restoreMask).schedule = s.schedule := rfl

/-! ### returnIsr -/

@[simp] theorem returnIsr_decrypt (s : State) : (s.returnIsr).decrypt = s.decrypt := rfl
@[simp] theorem returnIsr_st (s : State) : (s.returnIsr).st = s.st := rfl
@[simp] theorem returnIsr_stream (s : State) : (s.returnIsr).stream = s.stream := rfl
@[simp] theorem returnIsr_key (s : State) : (s.returnIsr).key = s.key := rfl
@[simp] theorem returnIsr_keyValid (s : State) : (s.returnIsr).keyValid = s.keyValid := rfl
@[simp] theorem returnIsr_inBuf (s : State) : (s.returnIsr).inBuf = s.inBuf := rfl
@[simp] theorem returnIsr_outBuf (s : State) : (s.returnIsr).outBuf = s.outBuf := rfl
@[simp] theorem returnIsr_blocksDone (s : State) : (s.returnIsr).blocksDone = s.blocksDone := rfl
@[simp] theorem returnIsr_srcAddr (s : State) : (s.returnIsr).srcAddr = s.srcAddr := rfl
@[simp] theorem returnIsr_srcCount (s : State) : (s.returnIsr).srcCount = s.srcCount := rfl
@[simp] theorem returnIsr_dstAddr (s : State) : (s.returnIsr).dstAddr = s.dstAddr := rfl
@[simp] theorem returnIsr_dstCount (s : State) : (s.returnIsr).dstCount = s.dstCount := rfl
@[simp] theorem returnIsr_srcEn (s : State) : (s.returnIsr).srcEn = s.srcEn := rfl
@[simp] theorem returnIsr_dstEn (s : State) : (s.returnIsr).dstEn = s.dstEn := rfl
@[simp] theorem returnIsr_srcDone (s : State) : (s.returnIsr).srcDone = s.srcDone := rfl
@[simp] theorem returnIsr_dstDone (s : State) : (s.returnIsr).dstDone = s.dstDone := rfl
@[simp] theorem returnIsr_srcWords (s : State) : (s.returnIsr).srcWords = s.srcWords := rfl
@[simp] theorem returnIsr_dstWords (s : State) : (s.returnIsr).dstWords = s.dstWords := rfl
@[simp] theorem returnIsr_lockHeld (s : State) : (s.returnIsr).lockHeld = s.lockHeld := rfl
@[simp] theorem returnIsr_resultCode (s : State) : (s.returnIsr).resultCode = s.resultCode := rfl
@[simp] theorem returnIsr_faults (s : State) : (s.returnIsr).faults = s.faults := rfl
@[simp] theorem returnIsr_mem (s : State) : (s.returnIsr).mem = s.mem := rfl
@[simp] theorem returnIsr_ctx (s : State) : (s.returnIsr).ctx = .fg := rfl
@[simp] theorem returnIsr_irqMasked (s : State) : (s.returnIsr).irqMasked = s.isrSavedMask := rfl
@[simp] theorem returnIsr_irqPending (s : State) : (s.returnIsr).irqPending = s.irqPending := rfl
@[simp] theorem returnIsr_isrSavedMask (s : State) : (s.returnIsr).isrSavedMask = s.isrSavedMask := rfl
@[simp] theorem returnIsr_fg (s : State) : (s.returnIsr).fg = s.fg := rfl
@[simp] theorem returnIsr_isr (s : State) : (s.returnIsr).isr = s.isr := rfl
@[simp] theorem returnIsr_platform (s : State) : (s.returnIsr).platform = s.platform := rfl
@[simp] theorem returnIsr_draws (s : State) : (s.returnIsr).draws = s.draws := rfl
@[simp] theorem returnIsr_schedule (s : State) : (s.returnIsr).schedule = s.schedule := rfl

/-! ### teardown -/

@[simp] theorem teardown_decrypt (s : State) : (s.teardown).decrypt = s.decrypt := rfl
@[simp] theorem teardown_st (s : State) : (s.teardown).st = .idle := rfl
@[simp] theorem teardown_stream (s : State) : (s.teardown).stream = false := rfl
@[simp] theorem teardown_key (s : State) : (s.teardown).key = ⟨0, 0, 0, 0⟩ := rfl
@[simp] theorem teardown_keyValid (s : State) : (s.teardown).keyValid = ⟨false, false, false, false⟩ := rfl
@[simp] theorem teardown_inBuf (s : State) : (s.teardown).inBuf = [] := rfl
@[simp] theorem teardown_outBuf (s : State) : (s.teardown).outBuf = [] := rfl
@[simp] theorem teardown_blocksDone (s : State) : (s.teardown).blocksDone = 0 := rfl
@[simp] theorem teardown_srcAddr (s : State) : (s.teardown).srcAddr = s.srcAddr := rfl
@[simp] theorem teardown_srcCount (s : State) : (s.teardown).srcCount = s.srcCount := rfl
@[simp] theorem teardown_dstAddr (s : State) : (s.teardown).dstAddr = s.dstAddr := rfl
@[simp] theorem teardown_dstCount (s : State) : (s.teardown).dstCount = s.dstCount := rfl
@[simp] theorem teardown_srcEn (s : State) : (s.teardown).srcEn = false := rfl
@[simp] theorem teardown_dstEn (s : State) : (s.teardown).dstEn = false := rfl
@[simp] theorem teardown_srcDone (s : State) : (s.teardown).srcDone = false := rfl
@[simp] theorem teardown_dstDone (s : State) : (s.teardown).dstDone = false := rfl
@[simp] theorem teardown_srcWords (s : State) : (s.teardown).srcWords = 0 := rfl
@[simp] theorem teardown_dstWords (s : State) : (s.teardown).dstWords = 0 := rfl
@[simp] theorem teardown_lockHeld (s : State) : (s.teardown).lockHeld = s.lockHeld := rfl
@[simp] theorem teardown_resultCode (s : State) : (s.teardown).resultCode = s.resultCode := rfl
@[simp] theorem teardown_faults (s : State) : (s.teardown).faults = s.faults := rfl
@[simp] theorem teardown_mem (s : State) : (s.teardown).mem = s.mem := rfl
@[simp] theorem teardown_ctx (s : State) : (s.teardown).ctx = s.ctx := rfl
@[simp] theorem teardown_irqMasked (s : State) : (s.teardown).irqMasked = s.irqMasked := rfl
@[simp] theorem teardown_irqPending (s : State) : (s.teardown).irqPending = s.irqPending := rfl
@[simp] theorem teardown_isrSavedMask (s : State) : (s.teardown).isrSavedMask = s.isrSavedMask := rfl
@[simp] theorem teardown_fg (s : State) : (s.teardown).fg = s.fg := rfl
@[simp] theorem teardown_isr (s : State) : (s.teardown).isr = s.isr := rfl
@[simp] theorem teardown_platform (s : State) : (s.teardown).platform = s.platform := rfl
@[simp] theorem teardown_draws (s : State) : (s.teardown).draws = s.draws := rfl
@[simp] theorem teardown_schedule (s : State) : (s.teardown).schedule = s.schedule := rfl

/-! ### startStream -/

@[simp] theorem startStream_decrypt (dir : Bool) (s : State) : (s.startStream dir).decrypt = dir := rfl
@[simp] theorem startStream_st (dir : Bool) (s : State) : (s.startStream dir).st = .streaming := rfl
@[simp] theorem startStream_stream (dir : Bool) (s : State) : (s.startStream dir).stream = true := rfl
@[simp] theorem startStream_key (dir : Bool) (s : State) : (s.startStream dir).key = s.key := rfl
@[simp] theorem startStream_keyValid (dir : Bool) (s : State) : (s.startStream dir).keyValid = s.keyValid := rfl
@[simp] theorem startStream_inBuf (dir : Bool) (s : State) : (s.startStream dir).inBuf = s.inBuf := rfl
@[simp] theorem startStream_outBuf (dir : Bool) (s : State) : (s.startStream dir).outBuf = s.outBuf := rfl
@[simp] theorem startStream_blocksDone (dir : Bool) (s : State) : (s.startStream dir).blocksDone = 0 := rfl
@[simp] theorem startStream_srcAddr (dir : Bool) (s : State) : (s.startStream dir).srcAddr = s.srcAddr := rfl
@[simp] theorem startStream_srcCount (dir : Bool) (s : State) : (s.startStream dir).srcCount = s.srcCount := rfl
@[simp] theorem startStream_dstAddr (dir : Bool) (s : State) : (s.startStream dir).dstAddr = s.dstAddr := rfl
@[simp] theorem startStream_dstCount (dir : Bool) (s : State) : (s.startStream dir).dstCount = s.dstCount := rfl
@[simp] theorem startStream_srcEn (dir : Bool) (s : State) : (s.startStream dir).srcEn = s.srcEn := rfl
@[simp] theorem startStream_dstEn (dir : Bool) (s : State) : (s.startStream dir).dstEn = s.dstEn := rfl
@[simp] theorem startStream_srcDone (dir : Bool) (s : State) : (s.startStream dir).srcDone = false := rfl
@[simp] theorem startStream_dstDone (dir : Bool) (s : State) : (s.startStream dir).dstDone = false := rfl
@[simp] theorem startStream_srcWords (dir : Bool) (s : State) : (s.startStream dir).srcWords = 0 := rfl
@[simp] theorem startStream_dstWords (dir : Bool) (s : State) : (s.startStream dir).dstWords = 0 := rfl
@[simp] theorem startStream_lockHeld (dir : Bool) (s : State) : (s.startStream dir).lockHeld = s.lockHeld := rfl
@[simp] theorem startStream_resultCode (dir : Bool) (s : State) : (s.startStream dir).resultCode = s.resultCode := rfl
@[simp] theorem startStream_faults (dir : Bool) (s : State) : (s.startStream dir).faults = s.faults := rfl
@[simp] theorem startStream_mem (dir : Bool) (s : State) : (s.startStream dir).mem = s.mem := rfl
@[simp] theorem startStream_ctx (dir : Bool) (s : State) : (s.startStream dir).ctx = s.ctx := rfl
@[simp] theorem startStream_irqMasked (dir : Bool) (s : State) : (s.startStream dir).irqMasked = s.irqMasked := rfl
@[simp] theorem startStream_irqPending (dir : Bool) (s : State) : (s.startStream dir).irqPending = s.irqPending := rfl
@[simp] theorem startStream_isrSavedMask (dir : Bool) (s : State) : (s.startStream dir).isrSavedMask = s.isrSavedMask := rfl
@[simp] theorem startStream_fg (dir : Bool) (s : State) : (s.startStream dir).fg = s.fg := rfl
@[simp] theorem startStream_isr (dir : Bool) (s : State) : (s.startStream dir).isr = s.isr := rfl
@[simp] theorem startStream_platform (dir : Bool) (s : State) : (s.startStream dir).platform = s.platform := rfl
@[simp] theorem startStream_draws (dir : Bool) (s : State) : (s.startStream dir).draws = s.draws := rfl
@[simp] theorem startStream_schedule (dir : Bool) (s : State) : (s.startStream dir).schedule = s.schedule := rfl

/-! ### loadKeyWord -/

@[simp] theorem loadKeyWord_decrypt (n : BitVec 2) (v : Word) (s : State) : (s.loadKeyWord n v).decrypt = s.decrypt := rfl
@[simp] theorem loadKeyWord_st (n : BitVec 2) (v : Word) (s : State) : (s.loadKeyWord n v).st = if s.st = .idle ∧ keyComplete (s.keyValid.set n true) = true then .keyLoaded else s.st := rfl
@[simp] theorem loadKeyWord_stream (n : BitVec 2) (v : Word) (s : State) : (s.loadKeyWord n v).stream = s.stream := rfl
@[simp] theorem loadKeyWord_key (n : BitVec 2) (v : Word) (s : State) : (s.loadKeyWord n v).key = s.key.set n v := rfl
@[simp] theorem loadKeyWord_keyValid (n : BitVec 2) (v : Word) (s : State) : (s.loadKeyWord n v).keyValid = s.keyValid.set n true := rfl
@[simp] theorem loadKeyWord_inBuf (n : BitVec 2) (v : Word) (s : State) : (s.loadKeyWord n v).inBuf = s.inBuf := rfl
@[simp] theorem loadKeyWord_outBuf (n : BitVec 2) (v : Word) (s : State) : (s.loadKeyWord n v).outBuf = s.outBuf := rfl
@[simp] theorem loadKeyWord_blocksDone (n : BitVec 2) (v : Word) (s : State) : (s.loadKeyWord n v).blocksDone = s.blocksDone := rfl
@[simp] theorem loadKeyWord_srcAddr (n : BitVec 2) (v : Word) (s : State) : (s.loadKeyWord n v).srcAddr = s.srcAddr := rfl
@[simp] theorem loadKeyWord_srcCount (n : BitVec 2) (v : Word) (s : State) : (s.loadKeyWord n v).srcCount = s.srcCount := rfl
@[simp] theorem loadKeyWord_dstAddr (n : BitVec 2) (v : Word) (s : State) : (s.loadKeyWord n v).dstAddr = s.dstAddr := rfl
@[simp] theorem loadKeyWord_dstCount (n : BitVec 2) (v : Word) (s : State) : (s.loadKeyWord n v).dstCount = s.dstCount := rfl
@[simp] theorem loadKeyWord_srcEn (n : BitVec 2) (v : Word) (s : State) : (s.loadKeyWord n v).srcEn = s.srcEn := rfl
@[simp] theorem loadKeyWord_dstEn (n : BitVec 2) (v : Word) (s : State) : (s.loadKeyWord n v).dstEn = s.dstEn := rfl
@[simp] theorem loadKeyWord_srcDone (n : BitVec 2) (v : Word) (s : State) : (s.loadKeyWord n v).srcDone = s.srcDone := rfl
@[simp] theorem loadKeyWord_dstDone (n : BitVec 2) (v : Word) (s : State) : (s.loadKeyWord n v).dstDone = s.dstDone := rfl
@[simp] theorem loadKeyWord_srcWords (n : BitVec 2) (v : Word) (s : State) : (s.loadKeyWord n v).srcWords = s.srcWords := rfl
@[simp] theorem loadKeyWord_dstWords (n : BitVec 2) (v : Word) (s : State) : (s.loadKeyWord n v).dstWords = s.dstWords := rfl
@[simp] theorem loadKeyWord_lockHeld (n : BitVec 2) (v : Word) (s : State) : (s.loadKeyWord n v).lockHeld = s.lockHeld := rfl
@[simp] theorem loadKeyWord_resultCode (n : BitVec 2) (v : Word) (s : State) : (s.loadKeyWord n v).resultCode = s.resultCode := rfl
@[simp] theorem loadKeyWord_faults (n : BitVec 2) (v : Word) (s : State) : (s.loadKeyWord n v).faults = s.faults := rfl
@[simp] theorem loadKeyWord_mem (n : BitVec 2) (v : Word) (s : State) : (s.loadKeyWord n v).mem = s.mem := rfl
@[simp] theorem loadKeyWord_ctx (n : BitVec 2) (v : Word) (s : State) : (s.loadKeyWord n v).ctx = s.ctx := rfl
@[simp] theorem loadKeyWord_irqMasked (n : BitVec 2) (v : Word) (s : State) : (s.loadKeyWord n v).irqMasked = s.irqMasked := rfl
@[simp] theorem loadKeyWord_irqPending (n : BitVec 2) (v : Word) (s : State) : (s.loadKeyWord n v).irqPending = s.irqPending := rfl
@[simp] theorem loadKeyWord_isrSavedMask (n : BitVec 2) (v : Word) (s : State) : (s.loadKeyWord n v).isrSavedMask = s.isrSavedMask := rfl
@[simp] theorem loadKeyWord_fg (n : BitVec 2) (v : Word) (s : State) : (s.loadKeyWord n v).fg = s.fg := rfl
@[simp] theorem loadKeyWord_isr (n : BitVec 2) (v : Word) (s : State) : (s.loadKeyWord n v).isr = s.isr := rfl
@[simp] theorem loadKeyWord_platform (n : BitVec 2) (v : Word) (s : State) : (s.loadKeyWord n v).platform = s.platform := rfl
@[simp] theorem loadKeyWord_draws (n : BitVec 2) (v : Word) (s : State) : (s.loadKeyWord n v).draws = s.draws := rfl
@[simp] theorem loadKeyWord_schedule (n : BitVec 2) (v : Word) (s : State) : (s.loadKeyWord n v).schedule = s.schedule := rfl

/-! ### feedWord -/

@[simp] theorem feedWord_decrypt (v : Word) (s : State) : (s.feedWord v).decrypt = s.decrypt := rfl
@[simp] theorem feedWord_st (v : Word) (s : State) : (s.feedWord v).st = if (s.inBuf ++ [v]).length = 4 then .computing else .feeding := rfl
@[simp] theorem feedWord_stream (v : Word) (s : State) : (s.feedWord v).stream = s.stream := rfl
@[simp] theorem feedWord_key (v : Word) (s : State) : (s.feedWord v).key = s.key := rfl
@[simp] theorem feedWord_keyValid (v : Word) (s : State) : (s.feedWord v).keyValid = s.keyValid := rfl
@[simp] theorem feedWord_inBuf (v : Word) (s : State) : (s.feedWord v).inBuf = s.inBuf ++ [v] := rfl
@[simp] theorem feedWord_outBuf (v : Word) (s : State) : (s.feedWord v).outBuf = s.outBuf := rfl
@[simp] theorem feedWord_blocksDone (v : Word) (s : State) : (s.feedWord v).blocksDone = s.blocksDone := rfl
@[simp] theorem feedWord_srcAddr (v : Word) (s : State) : (s.feedWord v).srcAddr = s.srcAddr := rfl
@[simp] theorem feedWord_srcCount (v : Word) (s : State) : (s.feedWord v).srcCount = s.srcCount := rfl
@[simp] theorem feedWord_dstAddr (v : Word) (s : State) : (s.feedWord v).dstAddr = s.dstAddr := rfl
@[simp] theorem feedWord_dstCount (v : Word) (s : State) : (s.feedWord v).dstCount = s.dstCount := rfl
@[simp] theorem feedWord_srcEn (v : Word) (s : State) : (s.feedWord v).srcEn = s.srcEn := rfl
@[simp] theorem feedWord_dstEn (v : Word) (s : State) : (s.feedWord v).dstEn = s.dstEn := rfl
@[simp] theorem feedWord_srcDone (v : Word) (s : State) : (s.feedWord v).srcDone = s.srcDone := rfl
@[simp] theorem feedWord_dstDone (v : Word) (s : State) : (s.feedWord v).dstDone = s.dstDone := rfl
@[simp] theorem feedWord_srcWords (v : Word) (s : State) : (s.feedWord v).srcWords = s.srcWords := rfl
@[simp] theorem feedWord_dstWords (v : Word) (s : State) : (s.feedWord v).dstWords = s.dstWords := rfl
@[simp] theorem feedWord_lockHeld (v : Word) (s : State) : (s.feedWord v).lockHeld = s.lockHeld := rfl
@[simp] theorem feedWord_resultCode (v : Word) (s : State) : (s.feedWord v).resultCode = s.resultCode := rfl
@[simp] theorem feedWord_faults (v : Word) (s : State) : (s.feedWord v).faults = s.faults := rfl
@[simp] theorem feedWord_mem (v : Word) (s : State) : (s.feedWord v).mem = s.mem := rfl
@[simp] theorem feedWord_ctx (v : Word) (s : State) : (s.feedWord v).ctx = s.ctx := rfl
@[simp] theorem feedWord_irqMasked (v : Word) (s : State) : (s.feedWord v).irqMasked = s.irqMasked := rfl
@[simp] theorem feedWord_irqPending (v : Word) (s : State) : (s.feedWord v).irqPending = s.irqPending := rfl
@[simp] theorem feedWord_isrSavedMask (v : Word) (s : State) : (s.feedWord v).isrSavedMask = s.isrSavedMask := rfl
@[simp] theorem feedWord_fg (v : Word) (s : State) : (s.feedWord v).fg = s.fg := rfl
@[simp] theorem feedWord_isr (v : Word) (s : State) : (s.feedWord v).isr = s.isr := rfl
@[simp] theorem feedWord_platform (v : Word) (s : State) : (s.feedWord v).platform = s.platform := rfl
@[simp] theorem feedWord_draws (v : Word) (s : State) : (s.feedWord v).draws = s.draws := rfl
@[simp] theorem feedWord_schedule (v : Word) (s : State) : (s.feedWord v).schedule = s.schedule := rfl

/-! ### emitBlock -/

@[simp] theorem emitBlock_decrypt (w : Quad Word) (s : State) : (s.emitBlock w).decrypt = s.decrypt := rfl
@[simp] theorem emitBlock_st (w : Quad Word) (s : State) : (s.emitBlock w).st = s.st := rfl
@[simp] theorem emitBlock_stream (w : Quad Word) (s : State) : (s.emitBlock w).stream = s.stream := rfl
@[simp] theorem emitBlock_key (w : Quad Word) (s : State) : (s.emitBlock w).key = s.key := rfl
@[simp] theorem emitBlock_keyValid (w : Quad Word) (s : State) : (s.emitBlock w).keyValid = s.keyValid := rfl
@[simp] theorem emitBlock_inBuf (w : Quad Word) (s : State) : (s.emitBlock w).inBuf = [] := rfl
@[simp] theorem emitBlock_outBuf (w : Quad Word) (s : State) : (s.emitBlock w).outBuf = (s.compute w).toList := rfl
@[simp] theorem emitBlock_blocksDone (w : Quad Word) (s : State) : (s.emitBlock w).blocksDone = s.blocksDone := rfl
@[simp] theorem emitBlock_srcAddr (w : Quad Word) (s : State) : (s.emitBlock w).srcAddr = s.srcAddr := rfl
@[simp] theorem emitBlock_srcCount (w : Quad Word) (s : State) : (s.emitBlock w).srcCount = s.srcCount := rfl
@[simp] theorem emitBlock_dstAddr (w : Quad Word) (s : State) : (s.emitBlock w).dstAddr = s.dstAddr := rfl
@[simp] theorem emitBlock_dstCount (w : Quad Word) (s : State) : (s.emitBlock w).dstCount = s.dstCount := rfl
@[simp] theorem emitBlock_srcEn (w : Quad Word) (s : State) : (s.emitBlock w).srcEn = s.srcEn := rfl
@[simp] theorem emitBlock_dstEn (w : Quad Word) (s : State) : (s.emitBlock w).dstEn = s.dstEn := rfl
@[simp] theorem emitBlock_srcDone (w : Quad Word) (s : State) : (s.emitBlock w).srcDone = s.srcDone := rfl
@[simp] theorem emitBlock_dstDone (w : Quad Word) (s : State) : (s.emitBlock w).dstDone = s.dstDone := rfl
@[simp] theorem emitBlock_srcWords (w : Quad Word) (s : State) : (s.emitBlock w).srcWords = s.srcWords := rfl
@[simp] theorem emitBlock_dstWords (w : Quad Word) (s : State) : (s.emitBlock w).dstWords = s.dstWords := rfl
@[simp] theorem emitBlock_lockHeld (w : Quad Word) (s : State) : (s.emitBlock w).lockHeld = s.lockHeld := rfl
@[simp] theorem emitBlock_resultCode (w : Quad Word) (s : State) : (s.emitBlock w).resultCode = s.resultCode := rfl
@[simp] theorem emitBlock_faults (w : Quad Word) (s : State) : (s.emitBlock w).faults = s.faults := rfl
@[simp] theorem emitBlock_mem (w : Quad Word) (s : State) : (s.emitBlock w).mem = s.mem := rfl
@[simp] theorem emitBlock_ctx (w : Quad Word) (s : State) : (s.emitBlock w).ctx = s.ctx := rfl
@[simp] theorem emitBlock_irqMasked (w : Quad Word) (s : State) : (s.emitBlock w).irqMasked = s.irqMasked := rfl
@[simp] theorem emitBlock_irqPending (w : Quad Word) (s : State) : (s.emitBlock w).irqPending = s.irqPending := rfl
@[simp] theorem emitBlock_isrSavedMask (w : Quad Word) (s : State) : (s.emitBlock w).isrSavedMask = s.isrSavedMask := rfl
@[simp] theorem emitBlock_fg (w : Quad Word) (s : State) : (s.emitBlock w).fg = s.fg := rfl
@[simp] theorem emitBlock_isr (w : Quad Word) (s : State) : (s.emitBlock w).isr = s.isr := rfl
@[simp] theorem emitBlock_platform (w : Quad Word) (s : State) : (s.emitBlock w).platform = s.platform := rfl
@[simp] theorem emitBlock_draws (w : Quad Word) (s : State) : (s.emitBlock w).draws = s.draws := rfl
@[simp] theorem emitBlock_schedule (w : Quad Word) (s : State) : (s.emitBlock w).schedule = s.schedule := rfl

/-! ### countBlock -/

@[simp] theorem countBlock_decrypt (s : State) : (s.countBlock).decrypt = s.decrypt := rfl
@[simp] theorem countBlock_st (s : State) : (s.countBlock).st = if s.blocksDone + 1 = s.srcCount then .finished else .streaming := rfl
@[simp] theorem countBlock_stream (s : State) : (s.countBlock).stream = s.stream := rfl
@[simp] theorem countBlock_key (s : State) : (s.countBlock).key = s.key := rfl
@[simp] theorem countBlock_keyValid (s : State) : (s.countBlock).keyValid = s.keyValid := rfl
@[simp] theorem countBlock_inBuf (s : State) : (s.countBlock).inBuf = s.inBuf := rfl
@[simp] theorem countBlock_outBuf (s : State) : (s.countBlock).outBuf = s.outBuf := rfl
@[simp] theorem countBlock_blocksDone (s : State) : (s.countBlock).blocksDone = s.blocksDone + 1 := rfl
@[simp] theorem countBlock_srcAddr (s : State) : (s.countBlock).srcAddr = s.srcAddr := rfl
@[simp] theorem countBlock_srcCount (s : State) : (s.countBlock).srcCount = s.srcCount := rfl
@[simp] theorem countBlock_dstAddr (s : State) : (s.countBlock).dstAddr = s.dstAddr := rfl
@[simp] theorem countBlock_dstCount (s : State) : (s.countBlock).dstCount = s.dstCount := rfl
@[simp] theorem countBlock_srcEn (s : State) : (s.countBlock).srcEn = s.srcEn := rfl
@[simp] theorem countBlock_dstEn (s : State) : (s.countBlock).dstEn = s.dstEn := rfl
@[simp] theorem countBlock_srcDone (s : State) : (s.countBlock).srcDone = s.srcDone := rfl
@[simp] theorem countBlock_dstDone (s : State) : (s.countBlock).dstDone = s.dstDone := rfl
@[simp] theorem countBlock_srcWords (s : State) : (s.countBlock).srcWords = s.srcWords := rfl
@[simp] theorem countBlock_dstWords (s : State) : (s.countBlock).dstWords = s.dstWords := rfl
@[simp] theorem countBlock_lockHeld (s : State) : (s.countBlock).lockHeld = s.lockHeld := rfl
@[simp] theorem countBlock_resultCode (s : State) : (s.countBlock).resultCode = s.resultCode := rfl
@[simp] theorem countBlock_faults (s : State) : (s.countBlock).faults = s.faults := rfl
@[simp] theorem countBlock_mem (s : State) : (s.countBlock).mem = s.mem := rfl
@[simp] theorem countBlock_ctx (s : State) : (s.countBlock).ctx = s.ctx := rfl
@[simp] theorem countBlock_irqMasked (s : State) : (s.countBlock).irqMasked = s.irqMasked := rfl
@[simp] theorem countBlock_irqPending (s : State) : (s.countBlock).irqPending = s.irqPending := rfl
@[simp] theorem countBlock_isrSavedMask (s : State) : (s.countBlock).isrSavedMask = s.isrSavedMask := rfl
@[simp] theorem countBlock_fg (s : State) : (s.countBlock).fg = s.fg := rfl
@[simp] theorem countBlock_isr (s : State) : (s.countBlock).isr = s.isr := rfl
@[simp] theorem countBlock_platform (s : State) : (s.countBlock).platform = s.platform := rfl
@[simp] theorem countBlock_draws (s : State) : (s.countBlock).draws = s.draws := rfl
@[simp] theorem countBlock_schedule (s : State) : (s.countBlock).schedule = s.schedule := rfl

/-! ### setLock -/

@[simp] theorem setLock_decrypt (b : Bool) (s : State) : (s.setLock b).decrypt = s.decrypt := rfl
@[simp] theorem setLock_st (b : Bool) (s : State) : (s.setLock b).st = s.st := rfl
@[simp] theorem setLock_stream (b : Bool) (s : State) : (s.setLock b).stream = s.stream := rfl
@[simp] theorem setLock_key (b : Bool) (s : State) : (s.setLock b).key = s.key := rfl
@[simp] theorem setLock_keyValid (b : Bool) (s : State) : (s.setLock b).keyValid = s.keyValid := rfl
@[simp] theorem setLock_inBuf (b : Bool) (s : State) : (s.setLock b).inBuf = s.inBuf := rfl
@[simp] theorem setLock_outBuf (b : Bool) (s : State) : (s.setLock b).outBuf = s.outBuf := rfl
@[simp] theorem setLock_blocksDone (b : Bool) (s : State) : (s.setLock b).blocksDone = s.blocksDone := rfl
@[simp] theorem setLock_srcAddr (b : Bool) (s : State) : (s.setLock b).srcAddr = s.srcAddr := rfl
@[simp] theorem setLock_srcCount (b : Bool) (s : State) : (s.setLock b).srcCount = s.srcCount := rfl
@[simp] theorem setLock_dstAddr (b : Bool) (s : State) : (s.setLock b).dstAddr = s.dstAddr := rfl
@[simp] theorem setLock_dstCount (b : Bool) (s : State) : (s.setLock b).dstCount = s.dstCount := rfl
@[simp] theorem setLock_srcEn (b : Bool) (s : State) : (s.setLock b).srcEn = s.srcEn := rfl
@[simp] theorem setLock_dstEn (b : Bool) (s : State) : (s.setLock b).dstEn = s.dstEn := rfl
@[simp] theorem setLock_srcDone (b : Bool) (s : State) : (s.setLock b).srcDone = s.srcDone := rfl
@[simp] theorem setLock_dstDone (b : Bool) (s : State) : (s.setLock b).dstDone = s.dstDone := rfl
@[simp] theorem setLock_srcWords (b : Bool) (s : State) : (s.setLock b).srcWords = s.srcWords := rfl
@[simp] theorem setLock_dstWords (b : Bool) (s : State) : (s.setLock b).dstWords = s.dstWords := rfl
@[simp] theorem setLock_lockHeld (b : Bool) (s : State) : (s.setLock b).lockHeld = b := rfl
@[simp] theorem setLock_resultCode (b : Bool) (s : State) : (s.setLock b).resultCode = s.resultCode := rfl
@[simp] theorem setLock_faults (b : Bool) (s : State) : (s.setLock b).faults = s.faults := rfl
@[simp] theorem setLock_mem (b : Bool) (s : State) : (s.setLock b).mem = s.mem := rfl
@[simp] theorem setLock_ctx (b : Bool) (s : State) : (s.setLock b).ctx = s.ctx := rfl
@[simp] theorem setLock_irqMasked (b : Bool) (s : State) : (s.setLock b).irqMasked = s.irqMasked := rfl
@[simp] theorem setLock_irqPending (b : Bool) (s : State) : (s.setLock b).irqPending = s.irqPending := rfl
@[simp] theorem setLock_isrSavedMask (b : Bool) (s : State) : (s.setLock b).isrSavedMask = s.isrSavedMask := rfl
@[simp] theorem setLock_fg (b : Bool) (s : State) : (s.setLock b).fg = s.fg := rfl
@[simp] theorem setLock_isr (b : Bool) (s : State) : (s.setLock b).isr = s.isr := rfl
@[simp] theorem setLock_platform (b : Bool) (s : State) : (s.setLock b).platform = s.platform := rfl
@[simp] theorem setLock_draws (b : Bool) (s : State) : (s.setLock b).draws = s.draws := rfl
@[simp] theorem setLock_schedule (b : Bool) (s : State) : (s.setLock b).schedule = s.schedule := rfl

/-! ### setResult -/

@[simp] theorem setResult_decrypt (c : ResultCode) (s : State) : (s.setResult c).decrypt = s.decrypt := rfl
@[simp] theorem setResult_st (c : ResultCode) (s : State) : (s.setResult c).st = s.st := rfl
@[simp] theorem setResult_stream (c : ResultCode) (s : State) : (s.setResult c).stream = s.stream := rfl
@[simp] theorem setResult_key (c : ResultCode) (s : State) : (s.setResult c).key = s.key := rfl
@[simp] theorem setResult_keyValid (c : ResultCode) (s : State) : (s.setResult c).keyValid = s.keyValid := rfl
@[simp] theorem setResult_inBuf (c : ResultCode) (s : State) : (s.setResult c).inBuf = s.inBuf := rfl
@[simp] theorem setResult_outBuf (c : ResultCode) (s : State) : (s.setResult c).outBuf = s.outBuf := rfl
@[simp] theorem setResult_blocksDone (c : ResultCode) (s : State) : (s.setResult c).blocksDone = s.blocksDone := rfl
@[simp] theorem setResult_srcAddr (c : ResultCode) (s : State) : (s.setResult c).srcAddr = s.srcAddr := rfl
@[simp] theorem setResult_srcCount (c : ResultCode) (s : State) : (s.setResult c).srcCount = s.srcCount := rfl
@[simp] theorem setResult_dstAddr (c : ResultCode) (s : State) : (s.setResult c).dstAddr = s.dstAddr := rfl
@[simp] theorem setResult_dstCount (c : ResultCode) (s : State) : (s.setResult c).dstCount = s.dstCount := rfl
@[simp] theorem setResult_srcEn (c : ResultCode) (s : State) : (s.setResult c).srcEn = s.srcEn := rfl
@[simp] theorem setResult_dstEn (c : ResultCode) (s : State) : (s.setResult c).dstEn = s.dstEn := rfl
@[simp] theorem setResult_srcDone (c : ResultCode) (s : State) : (s.setResult c).srcDone = s.srcDone := rfl
@[simp] theorem setResult_dstDone (c : ResultCode) (s : State) : (s.setResult c).dstDone = s.dstDone := rfl
@[simp] theorem setResult_srcWords (c : ResultCode) (s : State) : (s.setResult c).srcWords = s.srcWords := rfl
@[simp] theorem setResult_dstWords (c : ResultCode) (s : State) : (s.setResult c).dstWords = s.dstWords := rfl
@[simp] theorem setResult_lockHeld (c : ResultCode) (s : State) : (s.setResult c).lockHeld = s.lockHeld := rfl
@[simp] theorem setResult_resultCode (c : ResultCode) (s : State) : (s.setResult c).resultCode = c := rfl
@[simp] theorem setResult_faults (c : ResultCode) (s : State) : (s.setResult c).faults = s.faults := rfl
@[simp] theorem setResult_mem (c : ResultCode) (s : State) : (s.setResult c).mem = s.mem := rfl
@[simp] theorem setResult_ctx (c : ResultCode) (s : State) : (s.setResult c).ctx = s.ctx := rfl
@[simp] theorem setResult_irqMasked (c : ResultCode) (s : State) : (s.setResult c).irqMasked = s.irqMasked := rfl
@[simp] theorem setResult_irqPending (c : ResultCode) (s : State) : (s.setResult c).irqPending = s.irqPending := rfl
@[simp] theorem setResult_isrSavedMask (c : ResultCode) (s : State) : (s.setResult c).isrSavedMask = s.isrSavedMask := rfl
@[simp] theorem setResult_fg (c : ResultCode) (s : State) : (s.setResult c).fg = s.fg := rfl
@[simp] theorem setResult_isr (c : ResultCode) (s : State) : (s.setResult c).isr = s.isr := rfl
@[simp] theorem setResult_platform (c : ResultCode) (s : State) : (s.setResult c).platform = s.platform := rfl
@[simp] theorem setResult_draws (c : ResultCode) (s : State) : (s.setResult c).draws = s.draws := rfl
@[simp] theorem setResult_schedule (c : ResultCode) (s : State) : (s.setResult c).schedule = s.schedule := rfl

/-! ### setDecrypt -/

@[simp] theorem setDecrypt_decrypt (d : Bool) (s : State) : (s.setDecrypt d).decrypt = d := rfl
@[simp] theorem setDecrypt_st (d : Bool) (s : State) : (s.setDecrypt d).st = s.st := rfl
@[simp] theorem setDecrypt_stream (d : Bool) (s : State) : (s.setDecrypt d).stream = s.stream := rfl
@[simp] theorem setDecrypt_key (d : Bool) (s : State) : (s.setDecrypt d).key = s.key := rfl
@[simp] theorem setDecrypt_keyValid (d : Bool) (s : State) : (s.setDecrypt d).keyValid = s.keyValid := rfl
@[simp] theorem setDecrypt_inBuf (d : Bool) (s : State) : (s.setDecrypt d).inBuf = s.inBuf := rfl
@[simp] theorem setDecrypt_outBuf (d : Bool) (s : State) : (s.setDecrypt d).outBuf = s.outBuf := rfl
@[simp] theorem setDecrypt_blocksDone (d : Bool) (s : State) : (s.setDecrypt d).blocksDone = s.blocksDone := rfl
@[simp] theorem setDecrypt_srcAddr (d : Bool) (s : State) : (s.setDecrypt d).srcAddr = s.srcAddr := rfl
@[simp] theorem setDecrypt_srcCount (d : Bool) (s : State) : (s.setDecrypt d).srcCount = s.srcCount := rfl
@[simp] theorem setDecrypt_dstAddr (d : Bool) (s : State) : (s.setDecrypt d).dstAddr = s.dstAddr := rfl
@[simp] theorem setDecrypt_dstCount (d : Bool) (s : State) : (s.setDecrypt d).dstCount = s.dstCount := rfl
@[simp] theorem setDecrypt_srcEn (d : Bool) (s : State) : (s.setDecrypt d).srcEn = s.srcEn := rfl
@[simp] theorem setDecrypt_dstEn (d : Bool) (s : State) : (s.setDecrypt d).dstEn = s.dstEn := rfl
@[simp] theorem setDecrypt_srcDone (d : Bool) (s : State) : (s.setDecrypt d).srcDone = s.srcDone := rfl
@[simp] theorem setDecrypt_dstDone (d : Bool) (s : State) : (s.setDecrypt d).dstDone = s.dstDone := rfl
@[simp] theorem setDecrypt_srcWords (d : Bool) (s : State) : (s.setDecrypt d).srcWords = s.srcWords := rfl
@[simp] theorem setDecrypt_dstWords (d : Bool) (s : State) : (s.setDecrypt d).dstWords = s.dstWords := rfl
@[simp] theorem setDecrypt_lockHeld (d : Bool) (s : State) : (s.setDecrypt d).lockHeld = s.lockHeld := rfl
@[simp] theorem setDecrypt_resultCode (d : Bool) (s : State) : (s.setDecrypt d).resultCode = s.resultCode := rfl
@[simp] theorem setDecrypt_faults (d : Bool) (s : State) : (s.setDecrypt d).faults = s.faults := rfl
@[simp] theorem setDecrypt_mem (d : Bool) (s : State) : (s.setDecrypt d).mem = s.mem := rfl
@[simp] theorem setDecrypt_ctx (d : Bool) (s : State) : (s.setDecrypt d).ctx = s.ctx := rfl
@[simp] theorem setDecrypt_irqMasked (d : Bool) (s : State) : (s.setDecrypt d).irqMasked = s.irqMasked := rfl
@[simp] theorem setDecrypt_irqPending (d : Bool) (s : State) : (s.setDecrypt d).irqPending = s.irqPending := rfl
@[simp] theorem setDecrypt_isrSavedMask (d : Bool) (s : State) : (s.setDecrypt d).isrSavedMask = s.isrSavedMask := rfl
@[simp] theorem setDecrypt_fg (d : Bool) (s : State) : (s.setDecrypt d).fg = s.fg := rfl
@[simp] theorem setDecrypt_isr (d : Bool) (s : State) : (s.setDecrypt d).isr = s.isr := rfl
@[simp] theorem setDecrypt_platform (d : Bool) (s : State) : (s.setDecrypt d).platform = s.platform := rfl
@[simp] theorem setDecrypt_draws (d : Bool) (s : State) : (s.setDecrypt d).draws = s.draws := rfl
@[simp] theorem setDecrypt_schedule (d : Bool) (s : State) : (s.setDecrypt d).schedule = s.schedule := rfl

end Sys2Proof.Machine
end

