-- ==== Sys2Proof/Laws/Ops.lean ====
section
/-! SUPPORT. Laws/Ops.lean: what each shared operation does, once: the fault set, the running context, the words reads return. -/

namespace Sys2Proof.Machine

/-! ### The fault set -/

/-- Adding a reason adds exactly that reason. -/
@[simp] theorem FaultSet.has_add (f : FaultSet) (r q : Fault) : (f.add r).has q = (decide (q = r) || f.has q) := by
  cases r <;> cases q <;> rfl

@[simp] theorem FaultSet.has_empty (q : Fault) : FaultSet.empty.has q = false := by cases q <;> rfl

/-- A fault set is its reasons. -/
theorem FaultSet.ext_has {f g : FaultSet} (h : ∀ q, f.has q = g.has q) : f = g := by
  have h1 := h .busWidth
  have h2 := h .busReservedOffset
  have h3 := h .reservedBits
  have h4 := h .unguardedAccess
  have h5 := h .writeReadOnly
  have h6 := h .ctrlWriteWhileBusy
  have h7 := h .startNotReady
  have h8 := h .keyWriteWhileBusy
  have h9 := h .feedNotReady
  have h10 := h .dataoutNotReady
  have h11 := h .dmaConfigWhileBusy
  have h12 := h .dmaMisaligned
  have h13 := h .dmaWrap
  have h14 := h .dmaDisableWhileBusy
  have h15 := h .dmaNotDrained
  have h16 := h .releaseMidOp
  have h17 := h .releaseNotHeld
  cases f
  cases g
  simp only [FaultSet.has] at h1 h2 h3 h4 h5 h6 h7 h8 h9 h10 h11 h12 h13 h14 h15 h16 h17
  subst_vars
  rfl

/-- The order in which reasons are added does not matter. -/
theorem FaultSet.add_comm (f : FaultSet) (r q : Fault) : (f.add r).add q = (f.add q).add r := by
  apply FaultSet.ext_has
  intro x
  simp only [FaultSet.has_add]
  cases decide (x = r) <;> cases decide (x = q) <;> rfl

/-- With the lock held the guard check does nothing. -/
theorem guardCheck_held {s : State} (h : s.lockHeld = true) : s.guardCheck = s := by
  unfold State.guardCheck
  rw [if_pos h]

/-- With the lock free the guard check records UNGUARDED_ACCESS and nothing else. -/
theorem guardCheck_free {s : State} (h : s.lockHeld = false) : s.guardCheck = s.raise .unguardedAccess := by
  simp [State.guardCheck, State.raise, h]

/-! ### The running context -/

@[simp] theorem cur_setCur (h : HostContext) (s : State) : (s.setCur h).cur = h := by
  unfold State.cur State.setCur
  cases s.ctx <;> rfl

/-- Replacing the running context by itself changes nothing. -/
@[simp] theorem setCur_cur (s : State) : s.setCur s.cur = s := by
  obtain ⟨⟩ := s
  rename_i c _ _ _ _ _ _ _ _
  cases c <;> rfl

theorem setCur_setCur (h h' : HostContext) (s : State) : (s.setCur h).setCur h' = s.setCur h' := by
  obtain ⟨⟩ := s
  rename_i c _ _ _ _ _ _ _ _
  cases c <;> rfl

@[simp] theorem returnWord_cur (w : Word) (s : State) : (s.returnWord w).cur = { s.cur with reads := w :: s.cur.reads } :=
  cur_setCur _ _

@[simp] theorem returnDrawn_cur (mask v : Word) (s : State) :
    (s.returnDrawn mask v).cur = { s.cur with reads := s.drawnWord mask v :: s.cur.reads } :=
  returnWord_cur (s.drawnWord mask v) s

@[simp] theorem setHolds_cur (b : Bool) (s : State) : (s.setHolds b).cur = { s.cur with holdsLock := b } := cur_setCur _ _

@[simp] theorem raise_cur (r : Fault) (s : State) : (s.raise r).cur = s.cur := rfl
@[simp] theorem guardCheck_cur (s : State) : s.guardCheck.cur = s.cur := rfl
@[simp] theorem teardown_cur (s : State) : s.teardown.cur = s.cur := rfl

/-! ### Words a read returns -/

/-- The defined fields of a read are what the spec says, whatever is drawn. -/
theorem drawnWord_defined (mask v : Word) (s : State) : s.drawnWord mask v &&& mask = v &&& mask := by
  ext i
  simp only [State.drawnWord, BitVec.getElem_and, BitVec.getElem_or, BitVec.getElem_not]
  cases v[i] <;> cases mask[i] <;> cases (Config.draw s.draws)[i] <;> rfl

/-- The same for a mask of defined fields only. -/
theorem drawnWord_and {m mask : Word} (h : m &&& mask = m) (v : Word) (s : State) : s.drawnWord mask v &&& m = v &&& m := by
  have := drawnWord_defined mask v s
  rw [← h, BitVec.and_comm m, ← BitVec.and_assoc, this, BitVec.and_assoc]

/-- The bits of a read outside its defined fields are the draw's, one independent bit each. -/
theorem drawnWord_free (mask v : Word) (s : State) : s.drawnWord mask v &&& ~~~mask = Config.draw s.draws &&& ~~~mask := by
  ext i
  simp only [State.drawnWord, BitVec.getElem_and, BitVec.getElem_or, BitVec.getElem_not]
  cases v[i] <;> cases mask[i] <;> cases (Config.draw s.draws)[i] <;> rfl

/-! ### Packing -/

/-- A word packed from its own bytes is that word. -/
@[simp] theorem le32_wordBytes (w : Word) : le32 (wordBytes w) = w := by
  simp only [le32, wordBytes]
  ext i hi
  simp only [BitVec.getElem_append, BitVec.getElem_extractLsb']
  split
  · simp [BitVec.getLsbD_eq_getElem hi]
  · split
    · have : 8 + (i - 8) = i := by omega
      simp [this, BitVec.getLsbD_eq_getElem hi]
    · split
      · have : 16 + (i - 8 - 8) = i := by omega
        simp [this, BitVec.getLsbD_eq_getElem hi]
      · have : 24 + (i - 8 - 8 - 8) = i := by omega
        simp [this, BitVec.getLsbD_eq_getElem hi]

/-- The bytes of a packed word are the bytes packed. -/
@[simp] theorem wordBytes_le32 (b : Quad Byte) : wordBytes (le32 b) = b := by
  obtain ⟨b0, b1, b2, b3⟩ := b
  simp only [le32, wordBytes, Quad.mk.injEq]
  refine ⟨?_, ?_, ?_, ?_⟩
  all_goals
    ext i hi
    simp only [BitVec.getElem_extractLsb', BitVec.getLsbD_append]
    rw [← BitVec.getLsbD_eq_getElem hi]
  · rw [if_pos (by omega), Nat.zero_add]
  · rw [if_neg (by omega), if_pos (by omega), show 8 + i - 8 = i by omega]
  · rw [if_neg (by omega), if_neg (by omega), if_pos (by omega), show 16 + i - 8 - 8 = i by omega]
  · rw [if_neg (by omega), if_neg (by omega), if_neg (by omega), show 24 + i - 8 - 8 - 8 = i by omega]

@[simp] theorem wordsOfBlock_blockOfWords (w : Quad Word) : wordsOfBlock (blockOfWords w) = w := by
  simp [wordsOfBlock, blockOfWords, Quad.map]

@[simp] theorem blockOfWords_wordsOfBlock (b : Block) : blockOfWords (wordsOfBlock b) = b := by
  simp [wordsOfBlock, blockOfWords, Quad.map]

/-- A 16-byte string and its block. -/
theorem blockBytes_of_blockOfBytes {l : List Byte} {b : Block} (h : blockOfBytes l = some b) : blockBytes b = l := by
  unfold blockOfBytes at h
  split at h
  · cases h
    rfl
  · cases h

/-- Only 16-byte strings are blocks. -/
theorem blockOfBytes_length {l : List Byte} {b : Block} (h : blockOfBytes l = some b) : l.length = 16 := by
  unfold blockOfBytes at h
  split at h
  · rfl
  · cases h

end Sys2Proof.Machine
end

