-- ==== Sys2Proof/Laws/Driver.lean ====
section
/-! SUPPORT. Laws/Driver.lean: what a driver's poll step does once the free bits of the word it reads are out of the way, and how a step reaches it. -/

namespace Sys2Proof.Machine

/-- The word a context has just read. -/
theorem lastRead_returnDrawn (mask v : Word) (s : State) : (s.returnDrawn mask v).lastRead = s.drawnWord mask v := by
  simp [State.lastRead]

/-- One read of a POLL depends on the defined fields of the register alone (30 R144, 47 R440). -/
theorem execPoll_drawn {i : Instr} {m mask v : Word} {s u : State} (left : Nat) (rest : List DrvOp)
    (h : issue i s = .next (u.returnDrawn mask v)) (hm : m &&& mask = m) :
    execPoll i m left rest s = .next (
      if v &&& m = m then (u.returnDrawn mask v).setOps rest
      else if left ≤ 1 then (u.returnDrawn mask v).finishCall .hardwareTimeout []
      else (u.returnDrawn mask v).setOps (.poll i m (left - 1) :: rest)) := by
  unfold execPoll
  rw [h]
  simp only [onNext, lastRead_returnDrawn, drawnWord_and hm]
  split
  · rfl
  · split <;> rfl

/-- A scheduled host step goes on with the running context's driver call (47 R430). -/
theorem step_driver {s : State} {rest : List Agent} {op : DrvOp} {more : List DrvOp} (h : s.schedule = .host :: rest)
    (ho : s.cur.ops = op :: more) : step s = execDrvOp op more { s with schedule := rest } := by
  unfold step
  rw [h]
  show State.hostStep { s with schedule := rest } = _
  unfold State.hostStep
  rw [show ({ s with schedule := rest } : State).cur.ops = op :: more from ho]

/-- The foreground issues its transactions (47 R431). -/
theorem issue_of_fg {i : Instr} {s : State} (h : s.ctx = .fg) : issue i s = exec i s := by
  unfold issue
  rw [h]

end Sys2Proof.Machine
end

