-- ==== Sys2Proof/Laws/Exec.lean ====
section
/-! SUPPORT. Laws/Exec.lean: what every register transaction leaves alone, and that each one answers a next state. -/

namespace Sys2Proof.Machine

/-- What no register transaction changes: memory, the run's parameters, the schedule, which context runs, the interrupt state,
and of the host contexts everything but the running one's returned words and its knowledge of the lock. -/
structure TransactionFrame (s t : State) : Prop where
  mem : t.mem = s.mem
  platform : t.platform = s.platform
  schedule : t.schedule = s.schedule
  ctx : t.ctx = s.ctx
  irqMasked : t.irqMasked = s.irqMasked
  irqPending : t.irqPending = s.irqPending
  isrSavedMask : t.isrSavedMask = s.isrSavedMask
  fg : t.fg = { s.fg with reads := t.fg.reads, holdsLock := t.fg.holdsLock }
  isr : t.isr = { s.isr with reads := t.isr.reads, holdsLock := t.isr.holdsLock }
  fgOther : s.ctx = .isr → t.fg = s.fg
  isrOther : s.ctx = .fg → t.isr = s.isr

/-- A next state changed from `s` only in block state, faults and draws. -/
theorem TransactionFrame.of_block {s t : State} (h1 : t.mem = s.mem) (h2 : t.platform = s.platform) (h3 : t.schedule = s.schedule)
    (h4 : t.ctx = s.ctx) (h5 : t.irqMasked = s.irqMasked) (h6 : t.irqPending = s.irqPending)
    (h7 : t.isrSavedMask = s.isrSavedMask) (hf : t.fg = s.fg) (hi : t.isr = s.isr) : TransactionFrame s t :=
  ⟨h1, h2, h3, h4, h5, h6, h7, by rw [hf], by rw [hi], fun _ => hf, fun _ => hi⟩

/-- Returning a word, or learning about the lock, keeps the frame. -/
theorem TransactionFrame.setCur {s t : State} (h : TransactionFrame s t) (reads : List Word) (holds : Bool) :
    TransactionFrame s (t.setCur { t.cur with reads := reads, holdsLock := holds }) := by
  obtain ⟨h1, h2, h3, h4, h5, h6, h7, hf, hi, hfo, hio⟩ := h
  refine ⟨h1, h2, h3, h4, h5, h6, h7, ?_, ?_, ?_, ?_⟩
  · cases hc : t.ctx
    · simp only [setCur_fg, State.cur, hc]
      rw [hf]
    · simp only [setCur_fg, hc]
      exact hf
  · cases hc : t.ctx
    · simp only [setCur_isr, hc]
      exact hi
    · simp only [setCur_isr, State.cur, hc]
      rw [hi]
  · intro hs
    rw [hs] at h4
    simp only [setCur_fg, h4]
    exact hfo hs
  · intro hs
    rw [hs] at h4
    simp only [setCur_isr, h4]
    exact hio hs

theorem TransactionFrame.returnWord {s t : State} (h : TransactionFrame s t) (w : Word) : TransactionFrame s (t.returnWord w) :=
  h.setCur _ _

theorem TransactionFrame.setHolds {s t : State} (h : TransactionFrame s t) (b : Bool) : TransactionFrame s (t.setHolds b) :=
  h.setCur _ _

theorem TransactionFrame.returnDrawn {s t : State} (h : TransactionFrame s t) (mask v : Word) :
    TransactionFrame s (t.returnDrawn mask v) := by
  obtain ⟨h1, h2, h3, h4, h5, h6, h7, hf, hi, hfo, hio⟩ := h.returnWord (t.drawnWord mask v)
  exact ⟨h1, h2, h3, h4, h5, h6, h7, hf, hi, hfo, hio⟩

theorem TransactionFrame.refl (s : State) : TransactionFrame s s := .of_block rfl rfl rfl rfl rfl rfl rfl rfl rfl

/-- A change of block state, faults or draws keeps the frame. -/
theorem TransactionFrame.block {s t u : State} (h : TransactionFrame s t) (h1 : u.mem = t.mem) (h2 : u.platform = t.platform)
    (h3 : u.schedule = t.schedule) (h4 : u.ctx = t.ctx) (h5 : u.irqMasked = t.irqMasked) (h6 : u.irqPending = t.irqPending)
    (h7 : u.isrSavedMask = t.isrSavedMask) (hf : u.fg = t.fg) (hi : u.isr = t.isr) : TransactionFrame s u :=
  ⟨h1.trans h.mem, h2.trans h.platform, h3.trans h.schedule, h4.trans h.ctx, h5.trans h.irqMasked, h6.trans h.irqPending,
   h7.trans h.isrSavedMask, by rw [hf]; exact h.fg, by rw [hi]; exact h.isr, fun e => hf.trans (h.fgOther e),
   fun e => hi.trans (h.isrOther e)⟩

theorem TransactionFrame.popResult {s t : State} (h : TransactionFrame s t) (rest : List Word) : TransactionFrame s (t.popResult rest) := by
  unfold State.popResult
  split
  · exact h.block rfl rfl rfl rfl rfl rfl rfl rfl rfl
  · exact h.block rfl rfl rfl rfl rfl rfl rfl rfl rfl

theorem TransactionFrame.endOperation {s t : State} (h : TransactionFrame s t) (dir : Bool) : TransactionFrame s (t.endOperation dir) := by
  unfold State.endOperation
  split
  · exact h.block rfl rfl rfl rfl rfl rfl rfl rfl rfl
  · exact h.block rfl rfl rfl rfl rfl rfl rfl rfl rfl

/-- Every register transaction answers a next state (the block refuses nothing, 60 R511), within the frame. -/
theorem exec_frame (i : Instr) (s : State) : ∃ t, exec i s = .next t ∧ TransactionFrame s t := by
  have hg : TransactionFrame s s.guardCheck := .of_block rfl rfl rfl rfl rfl rfl rfl rfl rfl
  cases i
  case rdCtrl => exact ⟨_, rfl, hg.returnDrawn _ _⟩
  case rdKey n => exact ⟨_, rfl, hg.returnDrawn _ _⟩
  case rdDatain => exact ⟨_, rfl, hg.returnDrawn _ _⟩
  case rdDmaSrcAddr => exact ⟨_, rfl, hg.returnWord _⟩
  case rdDmaSrcCount => exact ⟨_, rfl, hg.returnDrawn _ _⟩
  case rdDmaDstAddr => exact ⟨_, rfl, hg.returnWord _⟩
  case rdDmaDstCount => exact ⟨_, rfl, hg.returnDrawn _ _⟩
  case rdDmaCtrl => exact ⟨_, rfl, hg.returnDrawn _ _⟩
  case rdDmaStatus => exact ⟨_, rfl, hg.returnDrawn _ _⟩
  case rdResult => exact ⟨_, rfl, (TransactionFrame.refl s).returnDrawn _ _⟩
  case rdDataout =>
    simp only [exec, execRdDataout]
    split
    · exact ⟨_, rfl, (hg.popResult _).returnWord _⟩
    · exact ⟨_, rfl, (hg.block (u := s.guardCheck.raise .dataoutNotReady) rfl rfl rfl rfl rfl rfl rfl rfl rfl).returnDrawn _ _⟩
  case rdLock =>
    simp only [exec, execRdLock]
    split
    · exact ⟨_, rfl, TransactionFrame.returnWord (.of_block (s := s) (t := s.setResult .busy) rfl rfl rfl rfl rfl rfl rfl rfl rfl) _⟩
    · exact ⟨_, rfl, (TransactionFrame.setHolds (.of_block (s := s) (t := s.setLock true) rfl rfl rfl rfl rfl rfl rfl rfl rfl) _).returnWord _⟩
  case wrLock v =>
    simp only [exec, execWrLock]
    split
    · exact ⟨_, rfl, .of_block rfl rfl rfl rfl rfl rfl rfl rfl rfl⟩
    · split
      · exact ⟨_, rfl, .of_block rfl rfl rfl rfl rfl rfl rfl rfl rfl⟩
      · split
        · exact ⟨_, rfl, TransactionFrame.setHolds (.of_block (s := s) (t := s.teardown.setLock false) rfl rfl rfl rfl rfl rfl rfl rfl rfl) _⟩
        · exact ⟨_, rfl, .of_block rfl rfl rfl rfl rfl rfl rfl rfl rfl⟩
  case wrCtrl v =>
    simp only [exec, execWrCtrl]
    split
    · exact ⟨_, rfl, .of_block rfl rfl rfl rfl rfl rfl rfl rfl rfl⟩
    · split
      all_goals first
        | exact ⟨_, rfl, .of_block rfl rfl rfl rfl rfl rfl rfl rfl rfl⟩
        | exact ⟨_, rfl, hg.endOperation _⟩
  all_goals
    simp only [exec, execWrCtrlStart, execWrKey, execWrDatain, execWrDataout, execWrDmaSrcAddr, execWrDmaSrcCount,
      execWrDmaDstAddr, execWrDmaDstCount, execWrDmaCtrl, execWrDmaStatus, execWrResult]
    repeat' split
    all_goals exact ⟨_, rfl, .of_block rfl rfl rfl rfl rfl rfl rfl rfl rfl⟩

/-- Every register transaction answers a next state. -/
theorem exec_next (i : Instr) (s : State) : ∃ t, exec i s = .next t :=
  let ⟨t, h, _⟩ := exec_frame i s
  ⟨t, h⟩

/-- The frame of a transaction that answered `t`. -/
theorem frame_of_exec {i : Instr} {s t : State} (h : exec i s = .next t) : TransactionFrame s t := by
  obtain ⟨u, hu, hf⟩ := exec_frame i s
  rw [h] at hu
  cases hu
  exact hf

end Sys2Proof.Machine
end

