-- ==== Sys2Proof/Laws/Step.lean ====
section
/-! SUPPORT. Laws/Step.lean: everything one step can do, once: it runs one transaction, moves one word, computes one block, stores
one byte for the host, or changes host state only, or it is reset. -/

namespace Sys2Proof.Machine

/-- Two states that agree but in host state, faults, free values and schedule: the block and memory are the same. -/
structure SameBlock (s t : State) : Prop where
  decrypt : t.decrypt = s.decrypt
  st : t.st = s.st
  stream : t.stream = s.stream
  key : t.key = s.key
  keyValid : t.keyValid = s.keyValid
  inBuf : t.inBuf = s.inBuf
  outBuf : t.outBuf = s.outBuf
  blocksDone : t.blocksDone = s.blocksDone
  srcAddr : t.srcAddr = s.srcAddr
  srcCount : t.srcCount = s.srcCount
  dstAddr : t.dstAddr = s.dstAddr
  dstCount : t.dstCount = s.dstCount
  srcEn : t.srcEn = s.srcEn
  dstEn : t.dstEn = s.dstEn
  srcDone : t.srcDone = s.srcDone
  dstDone : t.dstDone = s.dstDone
  srcWords : t.srcWords = s.srcWords
  dstWords : t.dstWords = s.dstWords
  lockHeld : t.lockHeld = s.lockHeld
  resultCode : t.resultCode = s.resultCode
  mem : t.mem = s.mem
  platform : t.platform = s.platform

theorem SameBlock.refl (s : State) : SameBlock s s := by constructor <;> rfl

theorem SameBlock.trans {s t u : State} (h : SameBlock s t) (k : SameBlock t u) : SameBlock s u := by
  constructor
  · exact k.decrypt.trans h.decrypt
  · exact k.st.trans h.st
  · exact k.stream.trans h.stream
  · exact k.key.trans h.key
  · exact k.keyValid.trans h.keyValid
  · exact k.inBuf.trans h.inBuf
  · exact k.outBuf.trans h.outBuf
  · exact k.blocksDone.trans h.blocksDone
  · exact k.srcAddr.trans h.srcAddr
  · exact k.srcCount.trans h.srcCount
  · exact k.dstAddr.trans h.dstAddr
  · exact k.dstCount.trans h.dstCount
  · exact k.srcEn.trans h.srcEn
  · exact k.dstEn.trans h.dstEn
  · exact k.srcDone.trans h.srcDone
  · exact k.dstDone.trans h.dstDone
  · exact k.srcWords.trans h.srcWords
  · exact k.dstWords.trans h.dstWords
  · exact k.lockHeld.trans h.lockHeld
  · exact k.resultCode.trans h.resultCode
  · exact k.mem.trans h.mem
  · exact k.platform.trans h.platform

/-- Host bookkeeping before and after a transaction leaves the block alone. -/
theorem sameBlock_setCur (h : HostContext) (s : State) : SameBlock s (s.setCur h) := by constructor <;> rfl
theorem sameBlock_setOps (ops : List DrvOp) (s : State) : SameBlock s (s.setOps ops) := by constructor <;> rfl
theorem sameBlock_beginCall (ops : List DrvOp) (s : State) : SameBlock s (s.beginCall ops) := by constructor <;> rfl
theorem sameBlock_finishCall (c : ResultCode) (o : List Byte) (s : State) : SameBlock s (s.finishCall c o) := by constructor <;> rfl
theorem sameBlock_saveMask (s : State) : SameBlock s s.saveMask := by constructor <;> rfl
theorem sameBlock_restoreMask (s : State) : SameBlock s s.restoreMask := by constructor <;> rfl
theorem sameBlock_raise (r : Fault) (s : State) : SameBlock s (s.raise r) := by constructor <;> rfl
theorem sameBlock_returnWord (w : Word) (s : State) : SameBlock s (s.returnWord w) := by constructor <;> rfl
theorem sameBlock_refuseRead (r : Fault) (s : State) : SameBlock s (s.refuseRead r) := by constructor <;> rfl
theorem sameBlock_returnIsr (s : State) : SameBlock s s.returnIsr := by constructor <;> rfl

/-- A step that issued one transaction, with host bookkeeping before and after it. -/
def RanTransaction (i : Instr) (s t : State) : Prop :=
  ∃ u v, SameBlock s u ∧ exec i u = .next v ∧ SameBlock v t

/-- An issued transaction that answered ran. -/
theorem issue_ran {i : Instr} {s t : State} (h : issue i s = .next t) : exec i s = .next t := by
  unfold issue at h
  split at h
  · exact h
  · split at h
    · exact h
    · cases h

/-- A continuation after an answer. -/
theorem onNext_next {r : Result} {f : State → Result} {t : State} (h : onNext r f = .next t) : ∃ u, r = .next u ∧ f u = .next t := by
  cases r
  · exact ⟨_, rfl, h⟩
  · cases h
  · cases h

/-- A bus word either runs the transaction it decodes to, or records its rejection and leaves the block alone. -/
theorem busTransaction_cases {w : Transaction} {s t : State} (h : busTransaction w s = .next t) :
    (∃ i, decode w = .ok i ∧ exec i s = .next t) ∨
    (∃ e r, decode w = .error e ∧ (r = .busWidth ∨ r = .busReservedOffset) ∧ t = rejectTransaction r w s ∧ SameBlock s t) := by
  unfold busTransaction at h
  split at h
  · rename_i i hi
    exact .inl ⟨i, hi, issue_ran h⟩
  · rename_i e he
    right
    split at h
    · cases h
    · split at h <;> cases h
      · refine ⟨_, .busWidth, he, .inl rfl, rfl, ?_⟩
        unfold rejectTransaction
        split
        · exact sameBlock_raise _ _
        · exact sameBlock_refuseRead _ _
      · refine ⟨_, .busReservedOffset, he, .inr rfl, rfl, ?_⟩
        unfold rejectTransaction
        split
        · exact sameBlock_raise _ _
        · exact sameBlock_refuseRead _ _

/-- One step of a driver call is one transaction with host bookkeeping around it. -/
theorem execDrvOp_ran {op : DrvOp} {rest : List DrvOp} {s t : State} (h : execDrvOp op rest s = .next t) :
    ∃ i, RanTransaction i s t := by
  cases op with
  | acquire =>
    obtain ⟨u, hu, h⟩ := onNext_next h
    refine ⟨_, _, u, sameBlock_saveMask s, issue_ran hu, ?_⟩
    split at h <;> cases h
    · exact (sameBlock_restoreMask u).trans (sameBlock_finishCall _ _ _)
    · exact sameBlock_setOps _ _
  | xact i =>
    obtain ⟨u, hu, h⟩ := onNext_next h
    cases h
    exact ⟨_, _, u, .refl s, issue_ran hu, sameBlock_setOps _ _⟩
  | poll i m n =>
    obtain ⟨u, hu, h⟩ := onNext_next h
    refine ⟨_, _, u, .refl s, issue_ran hu, ?_⟩
    split at h
    · cases h
      exact sameBlock_setOps _ _
    · split at h <;> cases h
      · exact sameBlock_finishCall _ _ _
      · exact sameBlock_setOps _ _
  | checkStarted =>
    obtain ⟨u, hu, h⟩ := onNext_next h
    refine ⟨_, _, u, .refl s, issue_ran hu, ?_⟩
    split at h <;> cases h <;> exact sameBlock_setOps _ _
  | drain =>
    obtain ⟨u, hu, h⟩ := onNext_next h
    cases h
    exact ⟨_, _, u, .refl s, issue_ran hu, sameBlock_setCur _ _⟩
  | release c =>
    obtain ⟨u, hu, h⟩ := onNext_next h
    cases h
    exact ⟨_, _, u, .refl s, issue_ran hu, (sameBlock_restoreMask u).trans (sameBlock_finishCall _ _ _)⟩

/-- A call's start touches no block state (47 R437). -/
theorem startCall_sameBlock {c : ApiCall} {s t : State} (h : startCall c s = .next t) : SameBlock s t := by
  unfold startCall at h
  repeat' split at h
  all_goals first
    | (cases h; exact sameBlock_beginCall _ _)
    | (cases h; exact sameBlock_finishCall _ _ _)
    | cases h

/-- What a host step can do. -/
inductive HostStepCases (s t : State) : Prop where
  /-- One register transaction. -/
  | ran (i : Instr) (h : RanTransaction i s t)
  /-- One byte stored in system memory (20 R80(b)). -/
  | stored (a : Word) (b : Byte) (h : SameBlock { s with mem := s.mem.write8 a b } t)
  /-- Host state only. -/
  | quiet (h : SameBlock s t)

theorem hostStep_cases {s t : State} (h : s.hostStep = .next t) : HostStepCases s t := by
  unfold State.hostStep at h
  split at h
  · obtain ⟨i, hi⟩ := execDrvOp_ran h
    exact .ran i hi
  · rename_i c cs _ _
    have hp : SameBlock s (s.setCur { s.cur with prog := cs }) := sameBlock_setCur _ _
    cases c with
    | bus w =>
      rcases busTransaction_cases h with ⟨i, _, hi⟩ | ⟨_, _, _, _, _, hb⟩
      · exact .ran i ⟨_, _, hp, hi, .refl _⟩
      · exact .quiet (hp.trans hb)
    | call a => exact .quiet (hp.trans (startCall_sameBlock h))
    | setMask b =>
      cases h
      exact .quiet (by constructor <;> rfl)
    | load a =>
      simp only [execHostCmd, hostLoad] at h
      split at h
      · rcases busTransaction_cases h with ⟨i, _, hi⟩ | ⟨_, _, _, _, _, hb⟩
        · exact .ran i ⟨_, _, hp, hi, .refl _⟩
        · exact .quiet (hp.trans hb)
      · cases h
        exact .quiet (hp.trans (sameBlock_returnWord _ _))
    | store a b =>
      simp only [execHostCmd, hostStore] at h
      split at h
      · rcases busTransaction_cases h with ⟨i, _, hi⟩ | ⟨_, _, _, _, _, hb⟩
        · exact .ran i ⟨_, _, hp, hi, .refl _⟩
        · exact .quiet (hp.trans hb)
      · cases h
        exact .stored a b (by constructor <;> rfl)
    | spinLock =>
      obtain ⟨u, hu, h⟩ := onNext_next h
      refine .ran _ ⟨_, u, hp, issue_ran hu, ?_⟩
      split at h <;> cases h
      · exact sameBlock_setCur _ _
      · exact .refl _
  · split at h <;> cases h
    · exact .quiet (.refl s)
    · exact .quiet (sameBlock_returnIsr s)

/-- Everything one step can do. -/
inductive StepCases (s t : State) : Prop where
  /-- Nothing is scheduled. -/
  | idle (h : s.schedule = []) (ht : t = s)
  /-- The running host context. -/
  | host (rest : List Agent) (h : s.schedule = .host :: rest) (hh : HostStepCases { s with schedule := rest } t)
  /-- ENGINE (43 R340). -/
  | engine (rest : List Agent) (h : s.schedule = .engine :: rest) (ht : t = { s with schedule := rest }.engineStep)
  /-- DMA_SRC (44 R362). -/
  | dmaSrc (rest : List Agent) (h : s.schedule = .dmaSrc :: rest) (ht : t = { s with schedule := rest }.dmaSrcStep)
  /-- DMA_DST (44 R363). -/
  | dmaDst (rest : List Agent) (h : s.schedule = .dmaDst :: rest) (ht : t = { s with schedule := rest }.dmaDstStep)
  /-- The interrupt line or the ISR's entry (47 R431). -/
  | interrupt (rest : List Agent) (h : s.schedule = .irqRaise :: rest ∨ s.schedule = .isrEnter :: rest) (ht : SameBlock s t)
  /-- Reset (70 R540). -/
  | reset (rest : List Agent) (h : s.schedule = .reset :: rest) (ht : t = { s with schedule := rest }.afterReset)

theorem step_cases {s t : State} (h : step s = .next t) : StepCases s t := by
  unfold step at h
  split at h
  · rename_i hs
    cases h
    exact .idle hs rfl
  · rename_i a rest hs
    cases a with
    | host => exact .host rest hs (hostStep_cases h)
    | engine => cases h; exact .engine rest hs rfl
    | dmaSrc => cases h; exact .dmaSrc rest hs rfl
    | dmaDst => cases h; exact .dmaDst rest hs rfl
    | irqRaise => cases h; exact .interrupt rest (.inl hs) (by constructor <;> rfl)
    | isrEnter =>
      cases h
      refine .interrupt rest (.inr hs) ?_
      unfold State.enterIsr
      split <;> (constructor <;> rfl)
    | reset => cases h; exact .reset rest hs rfl

end Sys2Proof.Machine
end

