-- ==== Sys2Proof/Laws/Invariants.lean ====
section
/-! SUPPORT. Laws/Invariants.lean: every register transaction and every agent's step keeps the engine's invariant (10 R53, 44 R367). -/

namespace Sys2Proof.Machine

/-- The predicate EngineInv reads only block state. -/
theorem EngineInv.of_same {s t : State} (h : SameBlock s t) (k : EngineInv s) : EngineInv t := by
  simp only [EngineInv, BlockInv, NoStaleResult, StreamInv, State.countsValid, State.rangeWraps, h.st, h.stream, h.keyValid, h.inBuf,
    h.outBuf, h.blocksDone, h.srcAddr, h.srcCount, h.dstAddr, h.dstCount, h.srcDone, h.dstDone, h.srcWords, h.dstWords] at k ⊢
  exact k

theorem EngineInv.guardCheck {s : State} (k : EngineInv s) : EngineInv s.guardCheck := k.of_same (by constructor <;> rfl)
theorem EngineInv.raise {s : State} (k : EngineInv s) (r : Fault) : EngineInv (s.raise r) := k.of_same (sameBlock_raise r s)
theorem EngineInv.returnWord {s : State} (k : EngineInv s) (w : Word) : EngineInv (s.returnWord w) := k.of_same (sameBlock_returnWord w s)
theorem EngineInv.returnDrawn {s : State} (k : EngineInv s) (m v : Word) : EngineInv (s.returnDrawn m v) := k.of_same (by constructor <;> rfl)
theorem EngineInv.refuseRead {s : State} (k : EngineInv s) (r : Fault) : EngineInv (s.refuseRead r) := k.of_same (sameBlock_refuseRead r s)
theorem EngineInv.setHolds {s : State} (k : EngineInv s) (b : Bool) : EngineInv (s.setHolds b) := k.of_same (sameBlock_setCur _ s)

theorem EngineInv.setLock {s : State} (k : EngineInv s) (b : Bool) : EngineInv (s.setLock b) := k
theorem EngineInv.setResult {s : State} (k : EngineInv s) (b : ResultCode) : EngineInv (s.setResult b) := k
theorem EngineInv.setDecrypt {s : State} (k : EngineInv s) (b : Bool) : EngineInv (s.setDecrypt b) := k

theorem engineInv_teardown (s : State) : EngineInv s.teardown := by
  simp [EngineInv, BlockInv, NoStaleResult, StreamInv]

theorem EngineInv.loadKeyWord {s : State} (k : EngineInv s) (h : s.st = .idle ∨ s.st = .keyLoaded) (n : BitVec 2) (v : Word) :
    EngineInv (s.loadKeyWord n v) := by
  rcases h with h | h
  · obtain ⟨⟨-, -, -, -, -, -, hi, -, -⟩, -, -⟩ := k
    obtain ⟨a, b, c⟩ := hi h
    by_cases hk : keyComplete (s.keyValid.set n true) = true
    · simp [EngineInv, BlockInv, NoStaleResult, StreamInv, h, a, b, c, hk]
    · simp [EngineInv, BlockInv, NoStaleResult, StreamInv, h, a, b, c, hk]
  · obtain ⟨⟨-, hkl, -, -, -, hs, -, -, -⟩, hn, -⟩ := k
    obtain ⟨a, b⟩ := hkl h
    have c := hn (.inl h)
    have d : s.stream = false := by
      cases hq : s.stream
      · rfl
      · have := hs hq; simp [h] at this
    have e : keyComplete (s.keyValid.set n true) = true := by
      simp only [keyComplete, Quad.set, Bool.and_eq_true] at a ⊢
      simp [a]
    simp [EngineInv, BlockInv, NoStaleResult, StreamInv, h, b, c, d, e]

theorem EngineInv.feedWord {s : State} (k : EngineInv s) (h : s.st = .keyLoaded ∨ s.st = .feeding) (v : Word) :
    EngineInv (s.feedWord v) := by
  obtain ⟨⟨-, hkl, hf, -, -, hs, -, -, -⟩, hn, -⟩ := k
  have c := hn (by tauto)
  have d : s.stream = false := by
    cases hq : s.stream
    · rfl
    · have := hs hq
      rcases h with h | h <;> simp [h] at this
  have hlen : s.inBuf.length ≤ 3 := by
    rcases h with h | h
    · simp [(hkl h).2]
    · exact (hf h).2.1
  by_cases h4 : s.inBuf.length = 3
  · simp [EngineInv, BlockInv, NoStaleResult, StreamInv, c, d, h4]
  · simp [EngineInv, BlockInv, NoStaleResult, StreamInv, c, d, h4]
    omega

theorem EngineInv.startStream {s : State} (k : EngineInv s) (h : s.st = .keyLoaded) (hc : s.countsValid = true)
    (hw : s.rangeWraps = false) (d : Bool) : EngineInv (s.startStream d) := by
  obtain ⟨⟨-, hkl, -, -, -, hs, -, -, -⟩, hn, -⟩ := k
  have c := hn (.inl h)
  have b := (hkl h).2
  have hc' : s.srcCount ≠ 0 ∧ s.srcCount = s.dstCount := by simpa [State.countsValid] using hc
  have h0 : 0 < s.srcCount.toNat := by
    have : s.srcCount.toNat ≠ 0 := fun e => hc'.1 (BitVec.eq_of_toNat_eq (by simpa using e))
    omega
  have hw' : (s.startStream d).rangeWraps = false := hw
  have hc'' : (s.startStream d).countsValid = true := hc
  have : s.dstCount.toNat ≠ 0 := by rw [← hc'.2]; omega
  simp [EngineInv, BlockInv, NoStaleResult, StreamInv, c, b, h0, hw', hc'']
  omega

theorem EngineInv.popResult {s : State} (k : EngineInv s) (h : s.st = .finished) (hs : s.stream = false) {x : Word} {rest : List Word}
    (ho : s.outBuf = x :: rest) : EngineInv (s.popResult rest) := by
  unfold State.popResult
  split
  · exact engineInv_teardown s
  · rename_i hr
    obtain ⟨⟨⟨h1, h2⟩, -, -, -, -, -, -, -, -⟩, -, -⟩ := k
    rw [ho] at h2
    have : rest.length ≠ 0 := by simpa using hr
    simp at h2
    simp [EngineInv, BlockInv, NoStaleResult, StreamInv, h, hs, h1]
    omega

theorem exec_engineInv {i : Instr} {s t : State} (k : EngineInv s) (h : exec i s = .next t) : EngineInv t := by
  have kg := k.guardCheck
  cases i
  case rdCtrl => cases h; exact kg.returnDrawn _ _
  case rdKey n => cases h; exact kg.returnDrawn _ _
  case rdDatain => cases h; exact kg.returnDrawn _ _
  case rdDmaSrcAddr => cases h; exact kg.returnWord _
  case rdDmaSrcCount => cases h; exact kg.returnDrawn _ _
  case rdDmaDstAddr => cases h; exact kg.returnWord _
  case rdDmaDstCount => cases h; exact kg.returnDrawn _ _
  case rdDmaCtrl => cases h; exact kg.returnDrawn _ _
  case rdDmaStatus => cases h; exact kg.returnDrawn _ _
  case rdResult => cases h; exact k.returnDrawn _ _
  case wrDataout v => cases h; exact kg.raise _
  case wrDmaStatus v => cases h; exact kg.raise _
  case rdDataout =>
    simp only [exec, execRdDataout] at h
    split at h <;> cases h
    · rename_i h1 h2 h3
      exact (kg.popResult h1 h2 h3).returnWord _
    · exact kg.refuseRead _
  case rdLock =>
    simp only [exec, execRdLock] at h
    split at h <;> cases h
    · exact (k.setResult _).returnWord _
    · exact ((k.setLock _).setHolds _).returnWord _
  case wrLock v =>
    simp only [exec, execWrLock] at h
    repeat' split at h
    all_goals cases h
    · exact k.raise _
    · exact k.raise _
    · exact ((engineInv_teardown s).setLock _).setHolds _
    · exact k.raise _
  case wrResult v =>
    simp only [exec, execWrResult] at h
    split at h <;> cases h
    · exact k.raise _
    · exact k.setResult _
  case wrCtrl v =>
    simp only [exec, execWrCtrl] at h
    repeat' split at h
    all_goals cases h
    case h_3.refl =>
      unfold State.endOperation
      split
      · exact kg.raise _
      · exact (engineInv_teardown _).setDecrypt _
    all_goals first | exact kg.raise _ | exact kg.setDecrypt _
  case wrCtrlStart v =>
    simp only [exec, execWrCtrlStart] at h
    repeat' split at h
    all_goals cases h
    all_goals first
      | exact kg.raise _
      | exact kg.setResult _
      | (rename_i h1 h2 h3; exact kg.startStream h1 (by simpa using h2) (by simpa using h3) _)
  case wrKey n v =>
    simp only [exec, execWrKey] at h
    split at h <;> cases h
    all_goals first
      | exact kg.raise _
      | (rename_i h1; exact kg.loadKeyWord (by first | exact .inl h1 | exact .inr h1) _ _)
  case wrDatain v =>
    simp only [exec, execWrDatain] at h
    split at h <;> cases h
    all_goals first
      | exact kg.raise _
      | (rename_i h1; exact kg.feedWord (by first | exact .inl h1 | exact .inr h1) _)
  case wrDmaCtrl v =>
    simp only [exec, execWrDmaCtrl] at h
    repeat' split at h
    all_goals cases h
    · exact kg.raise _
    · exact kg.raise _
    · exact k
  all_goals
    simp only [exec, execWrDmaSrcAddr, execWrDmaSrcCount, execWrDmaDstAddr, execWrDmaDstCount] at h
    repeat' split at h
    all_goals cases h
    · exact kg.raise _
    · exact kg.raise _
    · rename_i h1 h2
      have hs : s.guardCheck.stream = false := by
        have h2' : s.guardCheck.configurable = true := by simpa using h2
        obtain ⟨⟨-, -, -, -, -, hs, -, -, -⟩, -, -⟩ := kg
        cases hq : s.guardCheck.stream
        · rfl
        · have := hs hq
          rcases this with h | h <;> (simp only [State.configurable, h] at h2'; cases h2')
      obtain ⟨⟨h1, h2, h3, h4, h5, h6, h7, h8, h9⟩, h10, h11⟩ := kg
      refine ⟨⟨h1, h2, h3, h4, h5, h6, h7, fun e => ?_, h9⟩, h10, fun e => ?_⟩
      all_goals exact absurd (hs.symm.trans e) (by decide)

theorem engineStep_engineInv {s : State} (k : EngineInv s) : EngineInv s.engineStep := by
  unfold State.engineStep
  split
  · rename_i he
    split
    · rename_i w0 w1 w2 w3 hin
      simp only
      split
      · rename_i hst
        obtain ⟨⟨-, -, -, hc, -, -, -, -, -⟩, -, -⟩ := k
        have d := (hc hst).2
        simp [EngineInv, BlockInv, NoStaleResult, StreamInv, d, Quad.toList]
      · rename_i hst
        have hst' : s.st = .streaming ∧ s.outBuf = [] := by
          unfold State.engineEnabled at he
          revert he hst
          cases s.st <;> simp
        obtain ⟨⟨-, -, -, -, h5, -, -, h8, -⟩, -, hst2⟩ := k
        have hs := h5 hst'.1
        obtain ⟨c1, c2, c3, c4, c5, c6, c7, c8, c9⟩ := hst2 hs
        have h8 := h8 hs
        have c6 := c6 hst'.1
        rw [hst'.2] at c4
        rw [hin] at c3
        simp at c3 c4
        have hbd : (s.blocksDone + 1).toNat = s.blocksDone.toNat + 1 := by
          have := s.srcCount.isLt
          rw [BitVec.toNat_add]; simp; omega
        have e1 : ((s.emitBlock ⟨w0,w1,w2,w3⟩).countBlock).countsValid = true := c1
        have e2 : ((s.emitBlock ⟨w0,w1,w2,w3⟩).countBlock).rangeWraps = false := c2
        have f0 : ((s.emitBlock ⟨w0, w1, w2, w3⟩).countBlock).stream = true := hs
        have f1 : ((s.emitBlock ⟨w0, w1, w2, w3⟩).countBlock).st = if s.blocksDone + 1 = s.srcCount then .finished else .streaming := rfl
        have f2 : ((s.emitBlock ⟨w0, w1, w2, w3⟩).countBlock).blocksDone = s.blocksDone + 1 := rfl
        have f3 : ((s.emitBlock ⟨w0, w1, w2, w3⟩).countBlock).inBuf = [] := rfl
        have f4 : ((s.emitBlock ⟨w0, w1, w2, w3⟩).countBlock).outBuf.length = 4 := rfl
        have f5 : ((s.emitBlock ⟨w0, w1, w2, w3⟩).countBlock).srcWords = s.srcWords := rfl
        have f6 : ((s.emitBlock ⟨w0, w1, w2, w3⟩).countBlock).dstWords = s.dstWords := rfl
        have f7 : ((s.emitBlock ⟨w0, w1, w2, w3⟩).countBlock).srcCount = s.srcCount := rfl
        have f8 : ((s.emitBlock ⟨w0, w1, w2, w3⟩).countBlock).dstCount = s.dstCount := rfl
        have f9 : ((s.emitBlock ⟨w0, w1, w2, w3⟩).countBlock).srcDone = s.srcDone := rfl
        have f10 : ((s.emitBlock ⟨w0, w1, w2, w3⟩).countBlock).dstDone = s.dstDone := rfl
        generalize (s.emitBlock ⟨w0, w1, w2, w3⟩).countBlock = t at *
        by_cases hq : s.blocksDone + 1 = s.srcCount
        · rw [if_pos hq] at f1
          rw [hq] at hbd f2
          refine ⟨⟨?_, ?_, ?_, ?_, ?_, ?_, ?_, ?_, ?_⟩, by intro e; simp [f1] at e, fun _ => ⟨e1, e2, ?_, ?_, ?_, ?_, ?_, ?_, ?_⟩⟩
          all_goals try simp only [f0, f1, f2, f3, f4, f5, f6, f7, f8, f9, f10, c8, c9, List.length_nil]
          all_goals try simp
          all_goals omega
        · have hq' : s.blocksDone.toNat + 1 ≠ s.srcCount.toNat := fun e => hq (BitVec.eq_of_toNat_eq (by rw [hbd, e]))
          rw [if_neg hq] at f1
          refine ⟨⟨?_, ?_, ?_, ?_, ?_, ?_, ?_, ?_, ?_⟩, by intro e; simp [f1] at e, fun _ => ⟨e1, e2, ?_, ?_, ?_, ?_, ?_, ?_, ?_⟩⟩
          all_goals try simp only [f0, f1, f2, f3, f4, f5, f6, f7, f8, f9, f10, c8, c9, hbd, List.length_nil]
          all_goals try simp
          all_goals omega
    · exact k
  · exact k


theorem dmaSrcStep_engineInv {s : State} (k : EngineInv s) : EngineInv s.dmaSrcStep := by
  unfold State.dmaSrcStep
  split
  · rename_i he
    simp only [State.srcEnabled, Bool.and_eq_true, decide_eq_true_eq] at he
    obtain ⟨⟨⟨⟨-, hst⟩, hlen⟩, hw⟩, -⟩ := he
    obtain ⟨⟨⟨h1, h1'⟩, h2, h3, h4, h5, h6, h7, h8, h9⟩, h10, h11⟩ := k
    have hs := h5 hst
    obtain ⟨c1, c2, c3, c4, c5, c6, c7, c8, c9⟩ := h11 hs
    have h8 := h8 hs
    have hbd : (s.srcWords + 1).toNat = s.srcWords.toNat + 1 := by
      have := s.srcCount.isLt
      rw [BitVec.toNat_add]; simp; omega
    refine ⟨⟨⟨?_, h1'⟩, ?_, ?_, ?_, ?_, ?_, ?_, ?_, ?_⟩, ?_, fun _ => ⟨c1, c2, ?_, c4, ?_, ?_, ?_, ?_, c9⟩⟩
    all_goals simp only [hst, hs, hbd, List.length_append, List.length_singleton]
    all_goals try omega
    all_goals try simp
    · intro h
      have := c8.1 h
      omega
  · exact k

theorem dmaDstStep_engineInv {s : State} (k : EngineInv s) : EngineInv s.dmaDstStep := by
  unfold State.dmaDstStep
  split
  · rename_i he
    simp only [State.dstEnabled, Bool.and_eq_true, decide_eq_true_eq] at he
    obtain ⟨⟨⟨⟨-, hs⟩, -⟩, hw⟩, -⟩ := he
    split
    · exact k
    · rename_i x rest ho
      obtain ⟨⟨⟨h1, h1'⟩, h2, h3, h4, h5, h6, h7, h8, h9⟩, h10, h11⟩ := k
      have hst := h6 hs
      obtain ⟨c1, c2, c3, c4, c5, c6, c7, c8, c9⟩ := h11 hs
      have h8 := h8 hs
      rw [ho] at h1' c4
      simp only [List.length_cons] at h1' c4
      have hbd : (s.dstWords + 1).toNat = s.dstWords.toNat + 1 := by
        have := s.dstCount.isLt
        rw [BitVec.toNat_add]; simp; omega
      refine ⟨⟨⟨h1, ?_⟩, h2, h3, h4, h5, h6, ?_, fun _ => ⟨h8.1, ?_⟩, ?_⟩, ?_, fun _ => ⟨c1, c2, c3, ?_, c5, c6, c7, c8, ?_⟩⟩
      all_goals simp only [hs, hbd]
      · omega
      · intro e; rcases hst with h | h <;> rw [e] at h <;> cases h
      · omega
      · intro _ e; cases e
      · rcases hst with h | h <;> simp [h]
      · omega
      · simp only [Bool.if_true_left, Bool.or_eq_true, decide_eq_true_eq]
        constructor
        · rintro (h | h)
          · exact h
          · have := c9.1 h; omega
        · exact .inl
  · exact k

end Sys2Proof.Machine
end

