-- ==== Sys2Proof/Laws/Memory.lean ====
section
/-! SUPPORT. Laws/Memory.lean: the laws of system memory: a read after a write, and the canonical form every write keeps. -/

namespace Sys2Proof.Machine

/-- The canonical form from a later address follows from the form at an earlier one. -/
theorem Memory.wfFrom_mono {lo lo' : Nat} (h : lo' ≤ lo) : ∀ {m : Memory}, Memory.wfFrom lo m = true → Memory.wfFrom lo' m = true
  | [], _ => rfl
  | (k, b) :: m, hm => by
    simp only [Memory.wfFrom, Bool.and_eq_true, decide_eq_true_eq] at hm ⊢
    exact ⟨⟨⟨by omega, hm.1.1.2⟩, hm.1.2⟩, hm.2⟩

/-- Below the first listed address every byte is its initial value. -/
theorem Memory.readByte_of_lt {lo a : Nat} (h : a < lo) : ∀ {m : Memory}, Memory.wfFrom lo m = true → Memory.readByte m a = Config.memInit a
  | [], _ => rfl
  | (k, b) :: m, hm => by
    simp only [Memory.wfFrom, Bool.and_eq_true, decide_eq_true_eq] at hm
    have hk : k ≠ a := by omega
    simp only [Memory.readByte, if_neg hk]
    exact Memory.readByte_of_lt (lo := k + 1) (by omega) hm.2

/-- A byte just written reads back. -/
theorem Memory.readByte_writeByte_same (a : Nat) (b : Byte) : ∀ {lo : Nat} {m : Memory}, Memory.wfFrom lo m = true →
    Memory.readByte (Memory.writeByte a b m) a = b
  | _, [], _ => by
    unfold Memory.writeByte
    split
    · rename_i h
      exact h.symm
    · simp [Memory.readByte]
  | lo, (k, c) :: m, hm => by
    have hm' := hm
    simp only [Memory.wfFrom, Bool.and_eq_true, decide_eq_true_eq] at hm'
    unfold Memory.writeByte
    split
    · rename_i hlt
      split
      · rename_i hb
        rw [hb]
        have : k ≠ a := by omega
        simp only [Memory.readByte, if_neg this]
        exact Memory.readByte_of_lt (lo := k + 1) (by omega) hm'.2
      · simp [Memory.readByte]
    · split
      · rename_i heq
        subst heq
        split
        · rename_i hb
          rw [hb]
          exact Memory.readByte_of_lt (lo := a + 1) (by omega) hm'.2
        · simp [Memory.readByte]
      · rename_i hne
        have hne' : ¬k = a := fun e => hne e.symm
        simp only [Memory.readByte, if_neg hne']
        exact Memory.readByte_writeByte_same a b hm'.2

/-- A write leaves every other byte alone, whatever the list. -/
theorem Memory.readByte_writeByte_other {a x : Nat} (h : x ≠ a) (b : Byte) : ∀ m : Memory,
    Memory.readByte (Memory.writeByte a b m) x = Memory.readByte m x
  | [] => by
    unfold Memory.writeByte
    split
    · rfl
    · simp [Memory.readByte, Ne.symm h]
  | (k, c) :: m => by
    unfold Memory.writeByte
    split
    · split
      · rfl
      · simp [Memory.readByte, Ne.symm h]
    · split
      · rename_i heq
        subst heq
        split <;> simp [Memory.readByte, Ne.symm h]
      · simp only [Memory.readByte, Memory.readByte_writeByte_other h b m]

/-- A write keeps the canonical form. -/
theorem Memory.wfFrom_writeByte {a : Nat} (ha : a < 2 ^ 32) (b : Byte) : ∀ {lo : Nat} {m : Memory}, lo ≤ a → Memory.wfFrom lo m = true →
    Memory.wfFrom lo (Memory.writeByte a b m) = true
  | lo, [], hlo, _ => by
    unfold Memory.writeByte
    split
    · rfl
    · rename_i hb
      simp only [Memory.wfFrom, Bool.and_eq_true, decide_eq_true_eq]
      exact ⟨⟨⟨hlo, ha⟩, hb⟩, trivial⟩
  | lo, (k, c) :: m, hlo, hm => by
    have hm' := hm
    simp only [Memory.wfFrom, Bool.and_eq_true, decide_eq_true_eq] at hm'
    unfold Memory.writeByte
    split
    · rename_i hlt
      split
      · exact hm
      · rename_i hb
        simp only [Memory.wfFrom, Bool.and_eq_true, decide_eq_true_eq]
        exact ⟨⟨⟨hlo, ha⟩, hb⟩, ⟨⟨by omega, hm'.1.1.2⟩, hm'.1.2⟩, hm'.2⟩
    · split
      · rename_i heq
        subst heq
        split
        · exact Memory.wfFrom_mono (by omega) hm'.2
        · rename_i hb
          simp only [Memory.wfFrom, Bool.and_eq_true, decide_eq_true_eq]
          exact ⟨⟨⟨hlo, ha⟩, hb⟩, hm'.2⟩
      · simp only [Memory.wfFrom, Bool.and_eq_true, decide_eq_true_eq]
        exact ⟨hm'.1, Memory.wfFrom_writeByte ha b (by omega) hm'.2⟩

/-! ### 32-bit addresses -/

theorem Memory.read8_write8_same {m : Memory} (hm : m.wf = true) (a : Word) (b : Byte) : (m.write8 a b).read8 a = b :=
  Memory.readByte_writeByte_same a.toNat b hm

theorem Memory.read8_write8_other {a x : Word} (h : x ≠ a) (m : Memory) (b : Byte) : (m.write8 a b).read8 x = m.read8 x :=
  Memory.readByte_writeByte_other (fun e => h (BitVec.eq_of_toNat_eq e)) b m

theorem Memory.wf_write8 {m : Memory} (hm : m.wf = true) (a : Word) (b : Byte) : (m.write8 a b).wf = true :=
  Memory.wfFrom_writeByte a.isLt b (Nat.zero_le _) hm

theorem Memory.wf_write32 {m : Memory} (hm : m.wf = true) (a w : Word) : (m.write32 a w).wf = true :=
  Memory.wf_write8 (Memory.wf_write8 (Memory.wf_write8 (Memory.wf_write8 hm _ _) _ _) _ _) _ _

/-- A word write leaves every byte outside its four bytes alone. -/
theorem Memory.read8_write32_other {a x : Word} (h0 : x ≠ a) (h1 : x ≠ a + 1) (h2 : x ≠ a + 2) (h3 : x ≠ a + 3)
    (m : Memory) (w : Word) : (m.write32 a w).read8 x = m.read8 x := by
  simp only [Memory.write32]
  rw [Memory.read8_write8_other h3, Memory.read8_write8_other h2, Memory.read8_write8_other h1, Memory.read8_write8_other h0]

/-- The four addresses of a word are distinct. -/
theorem wordAddrs_distinct (a : Word) : a ≠ a + 1 ∧ a ≠ a + 2 ∧ a ≠ a + 3 ∧ a + 1 ≠ a + 2 ∧ a + 1 ≠ a + 3 ∧ a + 2 ≠ a + 3 := by
  refine ⟨?_, ?_, ?_, ?_, ?_, ?_⟩ <;> bv_omega

/-- Byte `i` of a word just written (20 R82). -/
theorem Memory.read8_write32 {m : Memory} (hm : m.wf = true) (a w : Word) :
    (m.write32 a w).read8 a = (wordBytes w).e0 ∧ (m.write32 a w).read8 (a + 1) = (wordBytes w).e1 ∧
    (m.write32 a w).read8 (a + 2) = (wordBytes w).e2 ∧ (m.write32 a w).read8 (a + 3) = (wordBytes w).e3 := by
  obtain ⟨h01, h02, h03, h12, h13, h23⟩ := wordAddrs_distinct a
  simp only [Memory.write32]
  refine ⟨?_, ?_, ?_, ?_⟩
  · rw [Memory.read8_write8_other h03, Memory.read8_write8_other h02, Memory.read8_write8_other h01, Memory.read8_write8_same hm]
  · rw [Memory.read8_write8_other h13, Memory.read8_write8_other h12, Memory.read8_write8_same (Memory.wf_write8 hm _ _)]
  · rw [Memory.read8_write8_other h23, Memory.read8_write8_same (Memory.wf_write8 (Memory.wf_write8 hm _ _) _ _)]
  · rw [Memory.read8_write8_same (Memory.wf_write8 (Memory.wf_write8 (Memory.wf_write8 hm _ _) _ _) _ _)]

end Sys2Proof.Machine
end

