-- ==== Sys2Proof/Laws/PerInstr.lean ====
section
/-! SUPPORT. Laws/PerInstr.lean: each register transaction's word lies in its own row of the opcode map (30 R139, R143). -/

namespace Sys2Proof

/-- A row whose mask and pattern split into the upper 11 bits and DATA covers a word that matches both parts. -/
theorem OpcodeRow.covers_split {n : String} {pat mask : Transaction} {hi mHi pHi : BitVec 11} {d mLo pLo : Word}
    (hp : pat = pHi ++ pLo) (hm : mask = mHi ++ mLo) (h1 : hi &&& mHi = pHi) (h2 : d &&& mLo = pLo) :
    (OpcodeRow.mk n pat mask).covers (hi ++ d) = true := by
  subst h1 h2 hp hm
  simp only [OpcodeRow.covers, beq_iff_eq]
  exact BitVec.and_append

/-- The same for a row that does not look at DATA. -/
theorem OpcodeRow.covers_high {n : String} {pat mask : Transaction} {hi mHi pHi : BitVec 11} (d : Word)
    (hp : pat = pHi ++ 0#32) (hm : mask = mHi ++ 0#32) (h : hi &&& mHi = pHi) :
    (OpcodeRow.mk n pat mask).covers (hi ++ d) = true :=
  covers_split hp hm h (BitVec.and_zero)

/-- DATA[1] as the opcode map masks it. -/
theorem and_two_of_bit {v : Word} {b : Bool} (h : v.getLsbD 1 = b) : v &&& 2#32 = if b then 2#32 else 0#32 := by
  subst h
  ext i hi
  rcases Nat.lt_or_ge 1 i with h1 | h1
  · have h2 : (2#32)[i] = false := by
      rw [← BitVec.getLsbD_eq_getElem, BitVec.getLsbD_ofNat]
      have : Nat.testBit 2 i = false := by
        apply Nat.testBit_lt_two_pow
        calc 2 < 2 ^ 2 := by decide
          _ ≤ 2 ^ i := Nat.pow_le_pow_right (by decide) h1
      simp [this]
    split <;> simp [BitVec.getElem_and, h2]
  · have : i = 0 ∨ i = 1 := by omega
    rcases this with rfl | rfl
    · split <;> simp [BitVec.getElem_and]
    · cases hb : v.getLsbD 1 <;> simp [← BitVec.getLsbD_eq_getElem, hb]

end Sys2Proof

namespace Sys2Proof.Laws.RowCovers

/-- The word of a well-formed transaction matches a row of the opcode map that bears its mnemonic. -/
def Statement (i : Instr) : Prop :=
  i.wellFormed = true → ∃ r ∈ opcodeMap, r.mnemonic = i.mnemonic ∧ r.covers (encode i) = true

theorem rdCtrl : Statement .rdCtrl := fun _ =>
  ⟨⟨"RD_CTRL", 0x40000000000#43, 0x7FF00000000#43⟩, by decide, rfl,
    OpcodeRow.covers_high (mHi := 0x7ff#11) (pHi := 0x400#11) 0#32 rfl rfl rfl⟩

theorem wrCtrl (v : Word) : Statement (.wrCtrl v) := fun h =>
  ⟨⟨"WR_CTRL", 0x50000000000#43, 0x7FF00000002#43⟩, by decide, rfl,
    OpcodeRow.covers_split (mHi := 0x7ff#11) (pHi := 0x500#11) (mLo := 2#32) (pLo := 0#32) rfl rfl rfl
      (and_two_of_bit (v := v) (b := false) (by simpa [Instr.wellFormed] using h))⟩

theorem wrCtrlStart (v : Word) : Statement (.wrCtrlStart v) := fun h =>
  ⟨⟨"WR_CTRL_START", 0x50000000002#43, 0x7FF00000002#43⟩, by decide, rfl,
    OpcodeRow.covers_split (mHi := 0x7ff#11) (pHi := 0x500#11) (mLo := 2#32) (pLo := 2#32) rfl rfl rfl
      (and_two_of_bit (v := v) (b := true) (by simpa [Instr.wellFormed] using h))⟩

theorem rdKey (n : BitVec 2) : Statement (.rdKey n) := fun _ =>
  ⟨⟨"RD_KEY", 0x41000000000#43, 0x7F300000000#43⟩, by decide, rfl,
    OpcodeRow.covers_high (mHi := 0x7f3#11) (pHi := 0x410#11) 0#32 rfl rfl ((by decide : ∀ k : BitVec 2,
      (2#2 ++ BitVec.ofBool false ++ (Reg.key k).offset : BitVec 11) &&& 0x7f3#11 = 0x410#11) n)⟩

theorem wrKey (n : BitVec 2) (v : Word) : Statement (.wrKey n v) := fun _ =>
  ⟨⟨"WR_KEY", 0x51000000000#43, 0x7F300000000#43⟩, by decide, rfl,
    OpcodeRow.covers_high (mHi := 0x7f3#11) (pHi := 0x510#11) v rfl rfl ((by decide : ∀ k : BitVec 2,
      (2#2 ++ BitVec.ofBool true ++ (Reg.key k).offset : BitVec 11) &&& 0x7f3#11 = 0x510#11) n)⟩

theorem rdDatain : Statement .rdDatain := fun _ =>
  ⟨⟨"RD_DATAIN", 0x42000000000#43, 0x7FF00000000#43⟩, by decide, rfl,
    OpcodeRow.covers_high (mHi := 0x7ff#11) (pHi := 0x420#11) 0#32 rfl rfl rfl⟩

theorem wrDatain (v : Word) : Statement (.wrDatain v) := fun _ =>
  ⟨⟨"WR_DATAIN", 0x52000000000#43, 0x7FF00000000#43⟩, by decide, rfl,
    OpcodeRow.covers_high (mHi := 0x7ff#11) (pHi := 0x520#11) v rfl rfl rfl⟩

theorem rdDataout : Statement .rdDataout := fun _ =>
  ⟨⟨"RD_DATAOUT", 0x42400000000#43, 0x7FF00000000#43⟩, by decide, rfl,
    OpcodeRow.covers_high (mHi := 0x7ff#11) (pHi := 0x424#11) 0#32 rfl rfl rfl⟩

theorem wrDataout (v : Word) : Statement (.wrDataout v) := fun _ =>
  ⟨⟨"WR_DATAOUT", 0x52400000000#43, 0x7FF00000000#43⟩, by decide, rfl,
    OpcodeRow.covers_high (mHi := 0x7ff#11) (pHi := 0x524#11) v rfl rfl rfl⟩

theorem wrDmaSrcAddr (v : Word) : Statement (.wrDmaSrcAddr v) := fun _ =>
  ⟨⟨"WR_DMA_SRC_ADDR", 0x53000000000#43, 0x7FF00000000#43⟩, by decide, rfl,
    OpcodeRow.covers_high (mHi := 0x7ff#11) (pHi := 0x530#11) v rfl rfl rfl⟩

theorem rdDmaSrcAddr : Statement .rdDmaSrcAddr := fun _ =>
  ⟨⟨"RD_DMA_SRC_ADDR", 0x43000000000#43, 0x7FF00000000#43⟩, by decide, rfl,
    OpcodeRow.covers_high (mHi := 0x7ff#11) (pHi := 0x430#11) 0#32 rfl rfl rfl⟩

theorem wrDmaSrcCount (v : Word) : Statement (.wrDmaSrcCount v) := fun _ =>
  ⟨⟨"WR_DMA_SRC_COUNT", 0x53400000000#43, 0x7FF00000000#43⟩, by decide, rfl,
    OpcodeRow.covers_high (mHi := 0x7ff#11) (pHi := 0x534#11) v rfl rfl rfl⟩

theorem rdDmaSrcCount : Statement .rdDmaSrcCount := fun _ =>
  ⟨⟨"RD_DMA_SRC_COUNT", 0x43400000000#43, 0x7FF00000000#43⟩, by decide, rfl,
    OpcodeRow.covers_high (mHi := 0x7ff#11) (pHi := 0x434#11) 0#32 rfl rfl rfl⟩

theorem wrDmaDstAddr (v : Word) : Statement (.wrDmaDstAddr v) := fun _ =>
  ⟨⟨"WR_DMA_DST_ADDR", 0x53800000000#43, 0x7FF00000000#43⟩, by decide, rfl,
    OpcodeRow.covers_high (mHi := 0x7ff#11) (pHi := 0x538#11) v rfl rfl rfl⟩

theorem rdDmaDstAddr : Statement .rdDmaDstAddr := fun _ =>
  ⟨⟨"RD_DMA_DST_ADDR", 0x43800000000#43, 0x7FF00000000#43⟩, by decide, rfl,
    OpcodeRow.covers_high (mHi := 0x7ff#11) (pHi := 0x438#11) 0#32 rfl rfl rfl⟩

theorem wrDmaDstCount (v : Word) : Statement (.wrDmaDstCount v) := fun _ =>
  ⟨⟨"WR_DMA_DST_COUNT", 0x53C00000000#43, 0x7FF00000000#43⟩, by decide, rfl,
    OpcodeRow.covers_high (mHi := 0x7ff#11) (pHi := 0x53c#11) v rfl rfl rfl⟩

theorem rdDmaDstCount : Statement .rdDmaDstCount := fun _ =>
  ⟨⟨"RD_DMA_DST_COUNT", 0x43C00000000#43, 0x7FF00000000#43⟩, by decide, rfl,
    OpcodeRow.covers_high (mHi := 0x7ff#11) (pHi := 0x43c#11) 0#32 rfl rfl rfl⟩

theorem wrDmaCtrl (v : Word) : Statement (.wrDmaCtrl v) := fun _ =>
  ⟨⟨"WR_DMA_CTRL", 0x54000000000#43, 0x7FF00000000#43⟩, by decide, rfl,
    OpcodeRow.covers_high (mHi := 0x7ff#11) (pHi := 0x540#11) v rfl rfl rfl⟩

theorem rdDmaCtrl : Statement .rdDmaCtrl := fun _ =>
  ⟨⟨"RD_DMA_CTRL", 0x44000000000#43, 0x7FF00000000#43⟩, by decide, rfl,
    OpcodeRow.covers_high (mHi := 0x7ff#11) (pHi := 0x440#11) 0#32 rfl rfl rfl⟩

theorem rdDmaStatus : Statement .rdDmaStatus := fun _ =>
  ⟨⟨"RD_DMA_STATUS", 0x44400000000#43, 0x7FF00000000#43⟩, by decide, rfl,
    OpcodeRow.covers_high (mHi := 0x7ff#11) (pHi := 0x444#11) 0#32 rfl rfl rfl⟩

theorem wrDmaStatus (v : Word) : Statement (.wrDmaStatus v) := fun _ =>
  ⟨⟨"WR_DMA_STATUS", 0x54400000000#43, 0x7FF00000000#43⟩, by decide, rfl,
    OpcodeRow.covers_high (mHi := 0x7ff#11) (pHi := 0x544#11) v rfl rfl rfl⟩

theorem rdLock : Statement .rdLock := fun _ =>
  ⟨⟨"RD_LOCK", 0x45000000000#43, 0x7FF00000000#43⟩, by decide, rfl,
    OpcodeRow.covers_high (mHi := 0x7ff#11) (pHi := 0x450#11) 0#32 rfl rfl rfl⟩

theorem wrLock (v : Word) : Statement (.wrLock v) := fun _ =>
  ⟨⟨"WR_LOCK", 0x55000000000#43, 0x7FF00000000#43⟩, by decide, rfl,
    OpcodeRow.covers_high (mHi := 0x7ff#11) (pHi := 0x550#11) v rfl rfl rfl⟩

theorem rdResult : Statement .rdResult := fun _ =>
  ⟨⟨"RD_RESULT", 0x45400000000#43, 0x7FF00000000#43⟩, by decide, rfl,
    OpcodeRow.covers_high (mHi := 0x7ff#11) (pHi := 0x454#11) 0#32 rfl rfl rfl⟩

theorem wrResult (v : Word) : Statement (.wrResult v) := fun _ =>
  ⟨⟨"WR_RESULT", 0x55400000000#43, 0x7FF00000000#43⟩, by decide, rfl,
    OpcodeRow.covers_high (mHi := 0x7ff#11) (pHi := 0x554#11) v rfl rfl rfl⟩

end Sys2Proof.Laws.RowCovers
end

