-- ==== Sys2Proof/Tests/Slice0.lean ====
section
/-! SUPPORT. Tests/Slice0.lean: tests with expected results from spec/95_test_vectors.md and the rules' examples, and for every
statement with hypotheses a state and operands that meet them. -/

namespace Sys2Proof.Tests

open Sys2Proof.Machine

/-! ### Well-formedness (30 R139: DATA[1] tells WR_CTRL from WR_CTRL_START) -/

theorem test_wellFormed_wrCtrl : (Instr.wrCtrl 0x2#32).wellFormed = false ∧ (Instr.wrCtrl 0x5#32).wellFormed = true := by decide
theorem test_wellFormed_wrCtrlStart :
    (Instr.wrCtrlStart 0x1#32).wellFormed = false ∧ (Instr.wrCtrlStart 0x3#32).wellFormed = true := by decide

/-! ### Decoding: words of 30 R139 and 95 V40 to V47 -/

theorem test_decode_rdCtrl : decode 0x40000000000#43 = .ok .rdCtrl := rfl
theorem test_decode_wrCtrl : decode 0x50000000001#43 = .ok (.wrCtrl 1#32) := rfl
theorem test_decode_wrCtrlStart : decode 0x50000000003#43 = .ok (.wrCtrlStart 3#32) := rfl
theorem test_decode_rdKey : decode 0x41800000000#43 = .ok (.rdKey 2#2) := rfl
theorem test_decode_wrKey : decode 0x51C0F0E0D0C#43 = .ok (.wrKey 3#2 0x0f0e0d0c#32) := rfl
theorem test_decode_rdDatain : decode 0x42000000000#43 = .ok .rdDatain := rfl
theorem test_decode_wrDatain : decode 0x520FFEEDDCC#43 = .ok (.wrDatain 0xffeeddcc#32) := rfl
theorem test_decode_rdDataout : decode 0x42400000000#43 = .ok .rdDataout := rfl
theorem test_decode_wrDataout : decode 0x52400000000#43 = .ok (.wrDataout 0#32) := rfl
theorem test_decode_wrDmaSrcAddr : decode 0x53020000100#43 = .ok (.wrDmaSrcAddr 0x20000100#32) := rfl
theorem test_decode_rdDmaSrcAddr : decode 0x43000000000#43 = .ok .rdDmaSrcAddr := rfl
theorem test_decode_wrDmaSrcCount : decode 0x5340000FFFF#43 = .ok (.wrDmaSrcCount 0xFFFF#32) := rfl
theorem test_decode_rdDmaSrcCount : decode 0x43400000000#43 = .ok .rdDmaSrcCount := rfl
theorem test_decode_wrDmaDstAddr : decode 0x53820000200#43 = .ok (.wrDmaDstAddr 0x20000200#32) := rfl
theorem test_decode_rdDmaDstAddr : decode 0x43800000000#43 = .ok .rdDmaDstAddr := rfl
theorem test_decode_wrDmaDstCount : decode 0x53C00000002#43 = .ok (.wrDmaDstCount 2#32) := rfl
theorem test_decode_rdDmaDstCount : decode 0x43C00000000#43 = .ok .rdDmaDstCount := rfl
theorem test_decode_wrDmaCtrl : decode 0x54000000003#43 = .ok (.wrDmaCtrl 3#32) := rfl
theorem test_decode_rdDmaCtrl : decode 0x44000000000#43 = .ok .rdDmaCtrl := rfl
theorem test_decode_rdDmaStatus : decode 0x44400000000#43 = .ok .rdDmaStatus := rfl
theorem test_decode_wrDmaStatus : decode 0x54400000003#43 = .ok (.wrDmaStatus 3#32) := rfl
theorem test_decode_rdLock : decode 0x45000000000#43 = .ok .rdLock := rfl
theorem test_decode_wrLock : decode 0x55000000001#43 = .ok (.wrLock 1#32) := rfl
theorem test_decode_rdResult : decode 0x45400000000#43 = .ok .rdResult := rfl
theorem test_decode_wrResult : decode 0x55400000005#43 = .ok (.wrResult 5#32) := rfl

/-- 95 V47 a to g: width is decoded before the offset. -/
theorem test_decode_rejects :
    decode 0x20000000000#43 = .error .busWidth ∧ decode 0x10000000001#43 = .error .busWidth ∧
    decode 0x60000000000#43 = .error .busWidth ∧ decode 0x40200000000#43 = .error .busWidth ∧
    decode 0x40400000000#43 = .error .busReservedOffset ∧ decode 0x5FC00000000#43 = .error .busReservedOffset ∧
    decode 0x20400000000#43 = .error .busWidth := ⟨rfl, rfl, rfl, rfl, rfl, rfl, rfl⟩

/-- DATA of a read is ignored (30 R120). -/
theorem test_decode_read_ignores_data : decode 0x450FFFFFFFF#43 = .ok .rdLock := rfl

/-- The table's numbering, and a number that is no transaction word. -/
theorem test_decodeTableWord : decodeTableWord 48 0x5180B0A0908 = some (.wrKey 2#2 0x0b0a0908#32) ∧
    decodeTableWord 48 0x80000000000 = none := by decide

/-! ### The cipher (95 V1, V2, V5, V10 to V14, V20 to V23) -/

def kat : Block := blockOfHex 0x000102030405060708090a0b0c0d0e0f#128
def katPlain : Block := blockOfHex 0x00112233445566778899aabbccddeeff#128
def katCipher : Block := blockOfHex 0x69c4e0d86a7b0430d8cdb78070b4c55a#128

/-- V1, after rounds 1 and 9. -/
theorem test_cipher_rounds :
    (cipherRounds kat katPlain 1).2 = blockOfHex 0x89d810e8855ace682d1843d8cb128fe4#128 ∧
    (cipherRounds kat katPlain 9).2 = blockOfHex 0xbd6e7c3df2b5779e0b61216e8b10b689#128 := by decide +kernel

/-- V5: FIPS-197 Appendix B, and the single set bit. -/
theorem test_cipher_more :
    cipher (blockOfHex 0x2b7e151628aed2a6abf7158809cf4f3c#128) (blockOfHex 0x3243f6a8885a308d313198a2e0370734#128)
      = blockOfHex 0x3925841d02dc09fbdc118597196a0b32#128 ∧
    cipher (blockOfHex 0#128) (blockOfHex 0x80000000000000000000000000000000#128)
      = blockOfHex 0x3ad78e726c1ec02b7ebfe92b23d9ec34#128 := by decide +kernel

/-- V2, the first inverse rounds, and V6. -/
theorem test_decrypt :
    (invCipherRounds (blockOfHex 0x13111d7fe3944a17f307a78b4d2b30c5#128) katCipher 1).2
      = blockOfHex 0x54d990a16ba09ab596bbf40ea111702f#128 ∧
    decryptWithKey kat (blockOfHex 0#128) = blockOfHex 0x7b1d29a16cf8ccab84f0b8a598e42fa6#128 := by decide +kernel

/-- V10. -/
theorem test_field : xtime 0x57#8 = 0xae#8 ∧ xtime 0x80#8 = 0x1b#8 ∧ gmul 0x57#8 0x83#8 = 0xc1#8 ∧ gmul 0x57#8 0x13#8 = 0xfe#8 ∧
    ginv 0x53#8 = 0xca#8 ∧ ginv 0xff#8 = 0x1c#8 ∧ ginv 0x00#8 = 0x00#8 := by decide +kernel

/-- V11. -/
theorem test_sbox : sbox 0x53#8 = 0xed#8 ∧ sbox 0x10#8 = 0xca#8 ∧ sbox 0xff#8 = 0x16#8 ∧ invSbox 0x00#8 = 0x52#8 ∧
    invSbox 0x7c#8 = 0x01#8 ∧ invSbox 0xed#8 = 0x53#8 := by decide

/-- V12. -/
theorem test_shiftRows : shiftRows kat = blockOfHex 0x00050a0f04090e03080d02070c01060b#128 ∧
    invShiftRows kat = blockOfHex 0x000d0a0704010e0b0805020f0c090603#128 := by decide

/-- V13. -/
theorem test_mixColumn : mixColumn ⟨0xdb, 0x13, 0x53, 0x45⟩ = ⟨0x8e, 0x4d, 0xa1, 0xbc⟩ ∧
    mixColumn ⟨0x2d, 0x26, 0x31, 0x4c⟩ = ⟨0x4d, 0x7e, 0xbd, 0xf8⟩ ∧
    invMixColumn ⟨0x8e, 0x4d, 0xa1, 0xbc⟩ = ⟨0xdb, 0x13, 0x53, 0x45⟩ := by decide

/-- V4 and V14. -/
theorem test_transforms :
    subBytes (blockOfHex 0x00102030405060708090a0b0c0d0e0f0#128) = blockOfHex 0x63cab7040953d051cd60e0e7ba70e18c#128 ∧
    mixColumns (blockOfHex 0x6353e08c0960e104cd70b751bacad0e7#128) = blockOfHex 0x5f72641557f5bc92f7be3b291db9f91a#128 ∧
    addRoundKey katPlain kat = blockOfHex 0x00102030405060708090a0b0c0d0e0f0#128 := by decide +kernel

/-- V20, V21, V22: the schedule, a step back, and the word helpers. -/
theorem test_keySchedule :
    roundKey (blockOfHex 0#128) 10 = blockOfHex 0xb4ef5bcb3e92e21123e951cf6f8f188e#128 ∧
    roundKey kat 1 = blockOfHex 0xd6aa74fdd2af72fadaa678f1d6ab76fe#128 ∧
    prevRoundKey (blockOfHex 0x13111d7fe3944a17f307a78b4d2b30c5#128) 10 = blockOfHex 0x549932d1f08557681093ed9cbe2c974e#128 ∧
    rotWord ⟨0x09, 0xcf, 0x4f, 0x3c⟩ = ⟨0xcf, 0x4f, 0x3c, 0x09⟩ ∧
    subWord ⟨0xcf, 0x4f, 0x3c, 0x09⟩ = ⟨0x8a, 0x84, 0xeb, 0x01⟩ := by decide +kernel

/-- V22: rc[j] = xtime(rc[j-1]) from rc[1] = 1. -/
theorem test_rcon : ∀ j < 9, (rcon (j + 2)).e0 = xtime (rcon (j + 1)).e0 ∧ (rcon 1).e0 = 0x01#8 ∧ (rcon 9).e0 = 0x1b#8 := by decide

/-- V23: k0 in k10's place is not the plaintext. -/
theorem test_k0_k10 :
    (expandKey kat).2 = blockOfHex 0x13111d7fe3944a17f307a78b4d2b30c5#128 ∧
    softwareDecrypt kat katCipher = katPlain ∧
    decryptBlock katCipher kat = blockOfHex 0x6be7331965d2ee7712ea43cf0108dfb6#128 := by decide +kernel

/-! ### Register transactions, in small states with the lock held -/

/-- A platform whose memory is [0x20000000, 0x20001000) and, at the top, [0xFFFFF000, 2^32), with the register window elsewhere. -/
def plat : Platform where
  aesPage := 0x400000#24
  admitted := [⟨0x20000000, 0x1000⟩, ⟨0xFFFFF000, 0x1000⟩]
  pollBoundPred := 1
  interruptReentry := true
  driverMasksIrq := false
  backend := .hardware
  engineFair := true
  hostOrderBarrier := true
  hostCacheMaint := true
  isrProgram := []

/-- The block after reset with the lock held by the foreground. -/
def held : State := { State.reset with platform := plat, lockHeld := true, fg := { HostContext.fresh with holdsLock := true } }
def keyed : State := { held with st := .keyLoaded, keyValid := ⟨true, true, true, true⟩, key := wordsOfBlock kat }
def feeding3 : State := { keyed with st := .feeding, inBuf := [0x33221100, 0x77665544, 0xbbaa9988] }
def computing : State := { keyed with st := .computing, inBuf := [0x33221100, 0x77665544, 0xbbaa9988, 0xffeeddcc] }
def finished2 : State := { keyed with st := .finished, outBuf := [0x80b7cdd8, 0x5ac5b470] }

/-- One block from 0x20000100 to 0x20000200, both channels enabled, just started. -/
def streaming : State := { keyed with
  st := .streaming, stream := true, srcAddr := 0x20000100, srcCount := 1, dstAddr := 0x20000200, dstCount := 1, srcEn := true, dstEn := true }

/-- The same stream with its block computed and no word written yet. -/
def undrained : State := { streaming with
  st := .finished, srcWords := 4, srcDone := true, blocksDone := 1,
  outBuf := [0xd8e0c469, 0x30047b6a, 0x80b7cdd8, 0x5ac5b470] }

/-- The same stream drained. -/
def drained : State := { undrained with outBuf := [], dstWords := 4, dstDone := true }

/-- The state a transaction goes to. -/
def after (i : Instr) (s : State) : State :=
  match exec i s with
  | .next t => t
  | .fault _ => s
  | .refused _ => s

/-- The word the last read returned, under a mask. -/
def got (m : Word) (s : State) : Option Word := s.cur.reads.head?.map (· &&& m)

/-- A state in which only one fault reason is recorded. -/
def onlyFault (r : Fault) (s : State) : Bool := decide (s.faults = FaultSet.empty.add r)

-- V40 k. The read is built from defined fields and a draw; the mask keeps the defined fields.
theorem test_rdCtrl : (after .rdCtrl computing).cur.reads.length = 1 ∧ computing.ctrlFields = 0x3000#32 := by decide
-- the table of CTRL&M values before Part 1 of 95.
theorem test_ctrlFields : keyed.ctrlFields = 0x1100#32 ∧ feeding3.ctrlFields = 0x2100#32 ∧ finished2.ctrlFields = 0x4200#32 ∧
    streaming.ctrlFields = 0x5500#32 ∧ undrained.ctrlFields = 0x4600#32 ∧ held.ctrlFields = 0#32 := by decide
-- V40 a, c.
theorem test_wrCtrl : (after (.wrCtrl 1) held).decrypt = true ∧ onlyFault .reservedBits (after (.wrCtrl 4) held) = true := by decide
-- V40 d, g, h, i.
theorem test_wrCtrl_states : onlyFault .ctrlWriteWhileBusy (after (.wrCtrl 1) feeding3) = true ∧
    (after (.wrCtrl 0) finished2).st = .idle ∧ (after (.wrCtrl 0) finished2).outBuf = [] ∧
    onlyFault .dmaNotDrained (after (.wrCtrl 0) undrained) = true ∧
    (after (.wrCtrl 1) drained).st = .idle ∧ (after (.wrCtrl 1) drained).decrypt = true := by decide
-- V40 e, f, j and V44 a, b, e.
theorem test_wrCtrlStart_refused : onlyFault .startNotReady (after (.wrCtrlStart 2) held) = true ∧
    onlyFault .startNotReady (after (.wrCtrlStart 3) finished2) = true ∧
    onlyFault .ctrlWriteWhileBusy (after (.wrCtrlStart 2) streaming) = true ∧
    after (.wrCtrlStart 2) keyed = { keyed with resultCode := .invalidLength } ∧
    (after (.wrCtrlStart 2) { keyed with srcAddr := 0xFFFFFFF0, srcCount := 2, dstAddr := 0x20000200, dstCount := 3 }).resultCode
      = .invalidLength := by decide
-- V44 c, d, f.
theorem test_wrCtrlStart_range :
    onlyFault .dmaWrap (after (.wrCtrlStart 2) { keyed with srcAddr := 0xFFFFFFF0, srcCount := 2, dstAddr := 0x20000200, dstCount := 2 }) = true ∧
    (after (.wrCtrlStart 2) { keyed with srcAddr := 0xFFFFFFF0, srcCount := 1, dstAddr := 0x20000200, dstCount := 1 }).st = .streaming ∧
    (after (.wrCtrlStart 2) { keyed with srcAddr := 0x20000100, srcCount := 2, dstAddr := 0x20000100, dstCount := 2 }).stream = true := by
  decide
-- V41 f: no fault, no side effect, one word returned.
theorem test_rdKey : (after (.rdKey 2) keyed).faults = FaultSet.empty ∧ (after (.rdKey 2) keyed).key = keyed.key ∧
    (after (.rdKey 2) keyed).cur.reads.length = 1 := by decide
-- V41 a, and R315's example.
theorem test_wrKey : (after (.wrKey 0 0) (after (.wrKey 0 0) held)).keyValid = ⟨true, false, false, false⟩ ∧
    (after (.wrKey 0 0) (after (.wrKey 0 0) held)).st = .idle ∧
    (after (.wrKey 3 0x0f0e0d0c) { held with keyValid := ⟨true, true, true, false⟩ }).st = .keyLoaded := by decide
-- V41 c, d, e.
theorem test_wrKey_states : (after (.wrKey 2 5) keyed).key = ⟨0x03020100, 0x07060504, 5, 0x0f0e0d0c⟩ ∧
    (after (.wrKey 2 5) keyed).st = .keyLoaded ∧ onlyFault .keyWriteWhileBusy (after (.wrKey 0 0) feeding3) = true ∧
    onlyFault .keyWriteWhileBusy (after (.wrKey 0 0) finished2) = true := by decide
-- V42 k.
theorem test_rdDatain : (after .rdDatain computing).inBuf = computing.inBuf ∧ (after .rdDatain computing).faults = FaultSet.empty := by decide
-- V42 a, b, c.
theorem test_wrDatain : onlyFault .feedNotReady (after (.wrDatain 0x33221100) held) = true ∧
    (after (.wrDatain 0x33221100) keyed).st = .feeding ∧ (after (.wrDatain 0x33221100) keyed).inBuf = [0x33221100] ∧
    after (.wrDatain 0xffeeddcc) feeding3 = computing := by decide
-- V42 d, e.
theorem test_wrDatain_busy : onlyFault .feedNotReady (after (.wrDatain 0) computing) = true ∧
    onlyFault .feedNotReady (after (.wrDatain 0) streaming) = true := by decide
-- V42 g: the third and fourth reads; the fourth tears down.
theorem test_rdDataout : got 0xFFFFFFFF (after .rdDataout finished2) = some 0x80b7cdd8 ∧
    got 0xFFFFFFFF (after .rdDataout (after .rdDataout finished2)) = some 0x5ac5b470 ∧
    (after .rdDataout (after .rdDataout finished2)).st = .idle ∧
    (after .rdDataout (after .rdDataout finished2)).key = ⟨0, 0, 0, 0⟩ := by decide
-- V42 f, h, i.
theorem test_rdDataout_faults : onlyFault .dataoutNotReady (after .rdDataout computing) = true ∧
    onlyFault .dataoutNotReady (after .rdDataout held) = true ∧
    onlyFault .dataoutNotReady (after .rdDataout undrained) = true ∧ (after .rdDataout undrained).outBuf = undrained.outBuf := by decide
-- V42 j.
theorem test_wrDataout : after (.wrDataout 0) finished2 = { finished2 with faults := FaultSet.empty.add .writeReadOnly } := by decide
-- V43 a, b.
theorem test_wrDmaSrcAddr : (after (.wrDmaSrcAddr 0x20000100) held).srcAddr = 0x20000100 ∧
    onlyFault .dmaMisaligned (after (.wrDmaSrcAddr 0x20000102) held) = true := by decide
-- V43 a: the read back.
theorem test_rdDmaSrcAddr : got 0xFFFFFFFF (after .rdDmaSrcAddr (after (.wrDmaSrcAddr 0x20000100) held)) = some 0x20000100 := by decide
-- V43 c, d.
theorem test_wrDmaSrcCount : onlyFault .reservedBits (after (.wrDmaSrcCount 0x10000) held) = true ∧
    (after (.wrDmaSrcCount 0xFFFF) keyed).srcCount = 65535#16 := by decide
theorem test_rdDmaSrcCount : (after .rdDmaSrcCount streaming).srcCount = 1 ∧ (after .rdDmaSrcCount streaming).cur.reads.length = 1 := by decide
-- 43 R328's example, and a write in STREAMING (44 R370).
theorem test_wrDmaDstAddr : (after (.wrDmaDstAddr 0x20000200) held).dstAddr = 0x20000200 ∧
    onlyFault .dmaConfigWhileBusy (after (.wrDmaDstAddr 0x20000300) streaming) = true := by decide
theorem test_rdDmaDstAddr : got 0xFFFFFFFF (after .rdDmaDstAddr streaming) = some 0x20000200 := by decide
-- V43 e, and 43 R330's example.
theorem test_wrDmaDstCount : onlyFault .dmaConfigWhileBusy (after (.wrDmaDstCount 1) feeding3) = true ∧
    (after (.wrDmaDstCount 16) held).dstCount = 16 := by decide
theorem test_rdDmaDstCount : (after .rdDmaDstCount streaming).faults = FaultSet.empty ∧ (after .rdDmaDstCount streaming).draws = 1 := by decide
-- V43 f, i.
theorem test_wrDmaCtrl : (after (.wrDmaCtrl 3) held).srcEn = true ∧ (after (.wrDmaCtrl 3) held).dstEn = true ∧
    onlyFault .reservedBits (after (.wrDmaCtrl 4) held) = true := by decide
-- V43 g, h.
theorem test_wrDmaCtrl_active : onlyFault .dmaDisableWhileBusy (after (.wrDmaCtrl 1) streaming) = true ∧
    onlyFault .dmaDisableWhileBusy (after (.wrDmaCtrl 0) undrained) = true ∧ (after (.wrDmaCtrl 0) undrained).srcEn = true := by decide
-- V43 l: both enables read 0 after teardown; the descriptors stay.
theorem test_rdDmaCtrl : (after (.wrCtrl 0) drained).enableFields = 0 ∧ streaming.enableFields = 3 ∧
    (after .rdDmaCtrl (after (.wrCtrl 0) drained)).srcAddr = 0x20000100 := by decide
-- V43 k and V55 f.
theorem test_rdDmaStatus : drained.doneFields = 3 ∧ undrained.doneFields = 1 ∧ (after .rdDmaStatus drained).dstDone = true := by decide
-- V43 j.
theorem test_wrDmaStatus : after (.wrDmaStatus 3) drained = { drained with faults := FaultSet.empty.add .writeReadOnly } := by decide
-- V45 a, b.
theorem test_rdLock : got 0xFFFFFFFF (after .rdLock { held with lockHeld := false }) = some 0 ∧
    (after .rdLock { held with lockHeld := false }).lockHeld = true ∧
    got 0xFFFFFFFF (after .rdLock held) = some 3 ∧ (after .rdLock held).resultCode = .busy ∧ (after .rdLock held).faults = FaultSet.empty := by
  decide
-- V45 c, d, f, g.
theorem test_wrLock_refused : onlyFault .reservedBits (after (.wrLock 1) held) = true ∧
    onlyFault .releaseNotHeld (after (.wrLock 0) { held with lockHeld := false }) = true ∧
    onlyFault .releaseMidOp (after (.wrLock 0) feeding3) = true ∧ (after (.wrLock 0) feeding3).lockHeld = true ∧
    onlyFault .releaseMidOp (after (.wrLock 0) undrained) = true := by decide
-- V45 e, h.
theorem test_wrLock : (after (.wrLock 0) keyed).lockHeld = false ∧ (after (.wrLock 0) keyed).key = ⟨0, 0, 0, 0⟩ ∧
    (after (.wrLock 0) drained).st = .idle ∧ (after (.wrLock 0) drained).lockHeld = false := by decide
-- V45 i: two reasons, the effect refused.
theorem test_guard : (after (.wrCtrl 4) { held with lockHeld := false }).faults =
    (FaultSet.empty.add .unguardedAccess).add .reservedBits := by decide
-- V66 step 1: the effect of an unguarded write applies.
theorem test_guard_proceeds : after (.wrCtrl 1) { held with lockHeld := false } =
    { held with lockHeld := false, decrypt := true, faults := FaultSet.empty.add .unguardedAccess } := by decide
-- V46 a, e.
theorem test_rdResult : { held with resultCode := .invalidLength }.codeField = 1 ∧
    (after .rdResult { held with lockHeld := false }).faults = FaultSet.empty := by decide
-- V46 c, d.
theorem test_wrResult : (after (.wrResult 0) { held with resultCode := .invalidLength }).resultCode = .success ∧
    onlyFault .reservedBits (after (.wrResult 5) held) = true := by decide

/-! ### Agents (95 V48, V55) -/

-- V48 a, b.
theorem test_engine : computing.engineStep.outBuf = [0xd8e0c469, 0x30047b6a, 0x80b7cdd8, 0x5ac5b470] ∧
    computing.engineStep.st = .finished ∧ computing.engineStep.inBuf = [] ∧
    { computing with decrypt := true, inBuf := [0xd8e0c469, 0x30047b6a, 0x80b7cdd8, 0x5ac5b470] }.engineStep.outBuf
      = [0x33221100, 0x77665544, 0xbbaa9988, 0xffeeddcc] := by decide +kernel
-- V48 c, d.
theorem test_engine_stream : { streaming with inBuf := computing.inBuf, outBuf := [1] }.engineEnabled = false ∧
    { streaming with inBuf := computing.inBuf, blocksDone := 1, srcCount := 2 }.engineStep.st = .finished ∧
    { streaming with inBuf := computing.inBuf, blocksDone := 1, srcCount := 2 }.engineStep.blocksDone = 2 := by decide +kernel
-- V55 a, c, d, e.
theorem test_dmaSrc : { streaming with srcWords := 5 }.srcCursor = 0x20000114 ∧
    { keyed with srcEn := true, srcCount := 1 }.srcEnabled = false ∧ { streaming with srcEn := false }.srcEnabled = false ∧
    { streaming with platform := { plat with admitted := [⟨0x20000100, 8⟩] }, srcCount := 2, srcWords := 2 }.srcEnabled = false ∧
    streaming.srcEnabled = true := by decide
-- V55 f: the last source word sets SRC_DONE, the last destination word DST_DONE.
theorem test_dma_done : { streaming with srcWords := 3 }.dmaSrcStep.srcDone = true ∧
    { undrained with outBuf := [1], dstWords := 3 }.dmaDstStep.dstDone = true ∧ undrained.dmaDstStep.dstDone = false := by decide
-- V55 b, whatever memory held.
theorem test_dmaDst : undrained.dmaDstStep.mem.read8 0x20000200 = 0x69#8 ∧ undrained.dmaDstStep.mem.read8 0x20000201 = 0xc4#8 ∧
    undrained.dmaDstStep.mem.read8 0x20000202 = 0xe0#8 ∧ undrained.dmaDstStep.mem.read8 0x20000203 = 0xd8#8 :=
  Memory.read8_write32 (m := []) rfl 0x20000200 0xd8e0c469

/-! ### Steps -/

-- The first transaction after reset: V66 step 1, a write, and V50 line 2, the LOCK read.
theorem test_step_first : (match step (State.reset.withFetchWord 48 0x50000000001) with
      | .next t => t.decrypt && t.faults.has .unguardedAccess
      | .fault _ => false
      | .refused _ => false) = true ∧
    (match step (State.reset.withFetchWord 48 0x45000000000) with
      | .next t => t.lockHeld && decide (t.cur.reads = [0#32])
      | .fault _ => false
      | .refused _ => false) = true := by decide

-- V47 b: an 8-bit write; no guard check.
theorem test_step_rejected : (match step ({ held with lockHeld := false }.withFetchWord 48 0x10000000001) with
      | .next t => onlyFault .busWidth t
      | .fault _ => false
      | .refused _ => false) = true := by decide

-- V63: the ISR's entry, and its call answered BUSY while the foreground holds the lock.
theorem test_step_isr : ({ feeding3 with irqMasked := false, irqPending := true }.enterIsr).ctx = .isr ∧
    (match step { feeding3 with
        ctx := .isr, schedule := [.host], isr := { HostContext.fresh with ops := singleBlockOps 2 false kat katPlain } } with
      | .next t => decide (t.isr.returns = [⟨.busy, []⟩]) && decide (t.resultCode = .busy) && decide (t.inBuf = feeding3.inBuf)
      | .fault _ => false
      | .refused _ => false) = true := by decide

/-! ### Witnesses: a state and operands that meet each statement's hypotheses -/

/-- `s` with `c` as the foreground's next command and the host next to step. -/
def commanded (c : HostCmd) (s : State) : State := { s with schedule := [.host], fg := { s.fg with prog := [c], ops := [] } }

/-- `s` with `op` as the next step of the foreground's driver call and the host next to step. -/
def driving (op : DrvOp) (s : State) : State := { s with schedule := [.host], fg := { s.fg with ops := [op] } }

/-- `s` with one agent scheduled. -/
def scheduled (a : Agent) (s : State) : State := { s with schedule := [a] }

theorem commanded_next (c : HostCmd) (s : State) (h : s.ctx = .fg) : ∃ u, NextCommand (commanded c s) c u := by
  refine ⟨_, [], [], rfl, ?_, ?_, rfl⟩ <;> simp [commanded, State.cur, h]

theorem driving_next (op : DrvOp) (s : State) (h : s.ctx = .fg) : ∃ u, NextDriverStep (driving op s) op [] u := by
  refine ⟨_, [], rfl, ?_, rfl⟩
  simp [driving, State.cur, h]

theorem test_w_EncodedTransactionDecodesToItself : (Instr.wrCtrlStart 0xFFFFFFFF#32).wellFormed = true ∧
    (Instr.wrKey 3#2 0xFFFFFFFF#32).wellFormed = true := by decide

theorem test_w_DecodedWordKeepsItsOperands : decode 0x450FFFFFFFF#43 = .ok .rdLock ∧ decode 0x55FFFFFFFFF#43 = .error .busWidth ∧
    decode 0x550FFFFFFFF#43 = .ok (.wrLock 0xFFFFFFFF#32) := ⟨rfl, rfl, rfl⟩

theorem test_w_StepRunsTheDecodedTransaction :
    (∃ u, NextCommand (commanded (.bus 0x50000000001#43) held) (.bus 0x50000000001#43) u) ∧ MayIssue (commanded (.bus 0x50000000001#43) held) ∧
    decode 0x50000000001#43 = .ok (.wrCtrl 1) ∧
    (∃ u, NextDriverStep (driving (.xact .rdCtrl) held) (.xact .rdCtrl) [] u) ∧ MayIssue (driving (.xact .rdCtrl) held) :=
  ⟨commanded_next _ _ rfl, .inl rfl, rfl, driving_next _ _ rfl, .inl rfl⟩

theorem test_w_RejectedTransactionRecordsItsFaultOnly :
    (∃ u, NextCommand (commanded (.bus 0x20000000000#43) held) (.bus 0x20000000000#43) u) ∧
    MayIssue (commanded (.bus 0x20000000000#43) held) ∧
    (0x20000000000#43).extractLsb' 41 2 ≠ 2#2 ∧ (0x40200000000#43).extractLsb' 32 2 ≠ 0#2 ∧
    ((0x44C00000000#43).extractLsb' 41 2 = 2#2 ∧ (0x44C00000000#43).extractLsb' 32 8 = 0x4C#8) ∧
    ((0x45800000000#43).extractLsb' 32 2 = 0#2 ∧ 0x58#8 ≤ (0x45800000000#43).extractLsb' 32 8) ∧
    0x58#8 ≤ (0x5FC00000000#43).extractLsb' 32 8 :=
  ⟨commanded_next _ _ rfl, .inl rfl, by decide, by decide, by decide, by decide, by decide⟩

theorem test_w_HostLoadsAndStoresOneByte :
    (∃ u, NextCommand (commanded (.load 0x20000000) held) (.load 0x20000000) u) ∧ plat.inWindow 0x20000000 = false ∧
    (∃ u, NextCommand (commanded (.store 0x40000000 1) held) (.store 0x40000000 1) u) ∧ plat.inWindow 0x40000000 = true ∧
    plat.inWindow 0x400000FF = true ∧ plat.inWindow 0x40000100 = false ∧ plat.inWindow 0x3FFFFFFF = false ∧
    held.mem.wf = true ∧ MayIssue held :=
  ⟨commanded_next _ _ rfl, by decide, commanded_next _ _ rfl, by decide, by decide, by decide, by decide, by decide, .inl rfl⟩

theorem test_w_ResetLeavesTheListedValues : (scheduled .reset streaming).schedule = .reset :: [] ∧
    ∃ t, step (scheduled .reset streaming) = .next t := ⟨rfl, _, rfl⟩

theorem test_w_BlockInvariantsAreKept : BlockInv streaming ∧ BlockInv computing ∧ BlockInv finished2 ∧ BlockInv feeding3 ∧ BlockInv keyed ∧
    ∃ t, step (scheduled .engine computing) = .next t := ⟨by decide, by decide, by decide, by decide, by decide, _, rfl⟩

theorem test_w_StreamAccountIsKept : EngineInv streaming ∧ EngineInv undrained ∧ EngineInv drained ∧
    ∃ t, step (scheduled .dmaDst undrained) = .next t :=
  ⟨⟨by decide, by decide, by decide⟩, ⟨by decide, by decide, by decide⟩, ⟨by decide, by decide, by decide⟩, _, rfl⟩

theorem test_w_StreamDoneFlagsImplyComputation : EngineInv drained ∧ drained.stream = true ∧ drained.dstDone = true ∧
    EngineInv undrained ∧ undrained.stream = true ∧ undrained.st = .finished :=
  ⟨⟨by decide, by decide, by decide⟩, rfl, rfl, ⟨by decide, by decide, by decide⟩, rfl, rfl⟩

theorem test_w_MemoryStaysCanonical : undrained.mem.wf = true ∧ ∃ t, step (scheduled .dmaDst undrained) = .next t := ⟨rfl, _, rfl⟩

theorem test_w_DmaAddressesStayAligned : (0x20000102#32).extractLsb' 0 2 ≠ 0#2 ∧ (0xFFFFFFFF#32).extractLsb' 0 2 ≠ 0#2 ∧
    AlignedInv streaming ∧ ∃ t, step (scheduled .dmaSrc streaming) = .next t := ⟨by decide, by decide, by decide, _, rfl⟩

theorem test_w_DisciplinedLockHasOneHolder : LockInv held ∧ StepDisciplined (driving (.release .success) held) ∧
    LockInv (driving (.release .success) held) ∧ ∃ t, step (driving (.release .success) held) = .next t := by
  refine ⟨by decide, ?_, by decide, _, rfl⟩
  intro i hi
  have : i = .wrLock 0 := (Option.some.inj hi).symm
  subst this
  decide

theorem test_w_DisciplineAvoidsLockFaults : LockInv (driving (.xact .rdCtrl) held) ∧ StepDisciplined (driving (.xact .rdCtrl) held) ∧
    ∃ t, step (driving (.xact .rdCtrl) held) = .next t := by
  refine ⟨by decide, ?_, _, rfl⟩
  intro i hi
  have : i = .rdCtrl := (Option.some.inj hi).symm
  subst this
  decide

theorem test_w_FaultReasonsAreSticky : (∃ t, exec .rdDataout (after (.wrCtrl 4) held) = .next t) ∧
    (after (.wrCtrl 4) held).faults.has .reservedBits = true ∧
    (∃ t, step (scheduled .engine (after (.wrCtrl 4) held)) = .next t) ∧
    (scheduled .engine (after (.wrCtrl 4) held)).schedule.head? ≠ some .reset :=
  ⟨⟨_, rfl⟩, by decide, ⟨_, rfl⟩, by decide⟩

theorem test_w_FaultingTransactionHasNoOtherEffect :
    exec .rdDataout held = .next (after .rdDataout held) ∧ Fault.dataoutNotReady ≠ .unguardedAccess ∧
    held.faults.has .dataoutNotReady = false ∧ (after .rdDataout held).faults.has .dataoutNotReady = true ∧
    exec (.wrLock 1) held = .next (after (.wrLock 1) held) ∧ (after (.wrLock 1) held).faults.has .reservedBits = true ∧
    held.faults.has .reservedBits = false :=
  ⟨rfl, by decide, by decide, by decide, rfl, by decide, by decide⟩

theorem test_w_EngineStateMovesByTheTable : BlockInv feeding3 ∧ exec (.wrDatain 1) feeding3 = .next (after (.wrDatain 1) feeding3) ∧
    (∃ t, step (scheduled .engine computing) = .next t) ∧ computing.st = .computing := ⟨by decide, rfl, ⟨_, rfl⟩, rfl⟩

theorem test_w_ResultCodeChangesOnItsEvents : exec .rdLock held = .next (after .rdLock held) ∧
    (after .rdLock held).resultCode ≠ held.resultCode ∧
    (∃ t, step (scheduled .reset (after .rdLock held)) = .next t ∧ t.resultCode ≠ (scheduled .reset (after .rdLock held)).resultCode) :=
  ⟨rfl, by decide, _, rfl, by decide⟩

theorem test_w_KeyAndDirectionHoldWhileBusy : streaming.st = .streaming ∧ exec (.wrCtrl 1) streaming = .next (after (.wrCtrl 1) streaming) ∧
    (∃ t, step (scheduled .engine streaming) = .next t) ∧ (scheduled .engine streaming).schedule.head? ≠ some .reset :=
  ⟨rfl, rfl, ⟨_, rfl⟩, by decide⟩

theorem test_w_ActiveStreamCannotBeCancelled : streaming.dmaActive = true ∧ undrained.dmaActive = true ∧
    ((undrained.srcEn = true ∧ (2#32).getLsbD 0 = false) ∧ (undrained.dstEn = true ∧ (1#32).getLsbD 1 = false)) ∧
    EngineInv (scheduled .dmaDst undrained) ∧ ∃ t, step (scheduled .dmaDst undrained) = .next t :=
  ⟨by decide, by decide, by decide, ⟨by decide, by decide, by decide⟩, _, rfl⟩

theorem test_w_TransactionsDoNotRevealTheKey : exec (.wrKey 0 1) keyed = .next (after (.wrKey 0 1) keyed) ∧
    ∃ t, exec (.wrKey 0 1) { keyed with key := ⟨1, 2, 3, 4⟩ } = .next t := ⟨rfl, _, rfl⟩

theorem test_w_TransactionsLeaveMemoryAndHostAlone : exec .rdLock held = .next (after .rdLock held) ∧ held.ctx = .fg ∧
    ∃ t, exec .rdLock { held with ctx := .isr } = .next t := ⟨rfl, rfl, _, rfl⟩

theorem test_w_SubstitutionTables : (0xFF#8 : Byte) ≠ 0#8 := by decide

theorem test_w_EngineComputesOneBlock : (scheduled .engine computing).schedule = .engine :: [] ∧ BlockInv (scheduled .engine computing) ∧
    computing.inBuf = [0x33221100, 0x77665544, 0xbbaa9988, 0xffeeddcc] ∧
    BlockInv { streaming with schedule := [.engine], inBuf := computing.inBuf, srcWords := 4 } ∧
    ¬((scheduled .engine keyed).st = .computing ∨
      ((scheduled .engine keyed).st = .streaming ∧ (scheduled .engine keyed).inBuf.length = 4 ∧ (scheduled .engine keyed).outBuf = [])) :=
  ⟨rfl, by decide, rfl, by decide, by decide⟩

theorem test_w_DmaSrcReadsOneWord : streaming.srcEn = true ∧ streaming.st = .streaming ∧ streaming.inBuf.length < 4 ∧
    streaming.srcWords.toNat < 4 * streaming.srcCount.toNat ∧
    streaming.platform.memAdmit (streaming.srcAddr + 4 * streaming.srcWords.setWidth 32) 4 = true ∧
    (scheduled .dmaSrc streaming).schedule = .dmaSrc :: [] ∧
    ¬({ streaming with srcWords := 4 }.srcWords.toNat < 4 * streaming.srcCount.toNat) := by decide

theorem test_w_DmaDstWritesOneWord : undrained.dstEn = true ∧ undrained.stream = true ∧ undrained.outBuf ≠ [] ∧
    undrained.dstWords.toNat < 4 * undrained.dstCount.toNat ∧
    undrained.platform.memAdmit (undrained.dstAddr + 4 * undrained.dstWords.setWidth 32) 4 = true ∧
    (scheduled .dmaDst undrained).schedule = .dmaDst :: [] ∧ undrained.mem.wf = true ∧ ¬(drained.outBuf ≠ []) := by decide

/-- A stream whose first word either way is not admitted. -/
def stuck : State := { streaming with platform := { plat with admitted := [] } }

theorem test_w_UnadmittedChannelIsStuck : plat.inWindow 0x40000000 = true ∧ plat.inWindow 0x400000FC = true ∧
    EngineInv (scheduled .dmaSrc stuck) ∧ stuck.dmaActive = true ∧ (∃ t, step (scheduled .dmaSrc stuck) = .next t) ∧
    (scheduled .dmaSrc stuck).schedule.head? ≠ some .reset ∧ (scheduled .dmaSrc stuck).schedule.head? ≠ some .host ∧
    stuck.platform.memAdmit stuck.srcCursor 4 = false ∧ stuck.srcDone = false ∧ stuck.platform.memAdmit stuck.dstCursor 4 = false :=
  ⟨by decide, by decide, ⟨by decide, by decide, by decide⟩, by decide, ⟨_, rfl⟩, by decide, by decide, by decide, by decide, by decide⟩

/-- A stream just started: nothing is moved. -/
theorem streamData_streaming (a : Agent) : StreamData (fun x => Memory.read8 [] x) (scheduled a streaming) :=
  ⟨fun _ _ _ => rfl, fun _ h => absurd h (by simp [scheduled, streaming, keyed, held, State.reset]),
   fun _ h => absurd h (by simp [scheduled, streaming, keyed, held, State.reset]),
   fun _ h => absurd h (by simp [scheduled, streaming, keyed, held, State.reset])⟩

theorem test_w_StreamDataIsKept : EngineInv (scheduled .dmaSrc streaming) ∧ streaming.mem.wf = true ∧ OverlapOk (scheduled .dmaSrc streaming) ∧
    HostLeavesBuffers (scheduled .dmaSrc streaming) ∧ streaming.stream = true ∧
    StreamData (fun x => Memory.read8 [] x) (scheduled .dmaSrc streaming) ∧
    ∃ t, step (scheduled .dmaSrc streaming) = .next t ∧ t.stream = true :=
  ⟨⟨by decide, by decide, by decide⟩, rfl, by decide, fun _ h => absurd h (by simp [State.nextHostStore, scheduled]), rfl, streamData_streaming _, _, rfl, rfl⟩

/-- For every row of the opcode map a word that it covers, with every bit that the mask leaves free set (the RowDecodes clauses). -/
theorem test_w_rows : (0x400FFFFFFFF#43) &&& 0x7FF00000000#43 = 0x40000000000#43 ∧
    (0x500FFFFFFFD#43) &&& 0x7FF00000002#43 = 0x50000000000#43 ∧
    (0x500FFFFFFFF#43) &&& 0x7FF00000002#43 = 0x50000000002#43 ∧
    (0x41CFFFFFFFF#43) &&& 0x7F300000000#43 = 0x41000000000#43 ∧
    (0x51CFFFFFFFF#43) &&& 0x7F300000000#43 = 0x51000000000#43 ∧
    (0x420FFFFFFFF#43) &&& 0x7FF00000000#43 = 0x42000000000#43 ∧
    (0x520FFFFFFFF#43) &&& 0x7FF00000000#43 = 0x52000000000#43 ∧
    (0x424FFFFFFFF#43) &&& 0x7FF00000000#43 = 0x42400000000#43 ∧
    (0x524FFFFFFFF#43) &&& 0x7FF00000000#43 = 0x52400000000#43 ∧
    (0x530FFFFFFFF#43) &&& 0x7FF00000000#43 = 0x53000000000#43 ∧
    (0x430FFFFFFFF#43) &&& 0x7FF00000000#43 = 0x43000000000#43 ∧
    (0x534FFFFFFFF#43) &&& 0x7FF00000000#43 = 0x53400000000#43 ∧
    (0x434FFFFFFFF#43) &&& 0x7FF00000000#43 = 0x43400000000#43 :=
  by decide

theorem test_w_rows_rest : (0x538FFFFFFFF#43) &&& 0x7FF00000000#43 = 0x53800000000#43 ∧
    (0x438FFFFFFFF#43) &&& 0x7FF00000000#43 = 0x43800000000#43 ∧
    (0x53CFFFFFFFF#43) &&& 0x7FF00000000#43 = 0x53C00000000#43 ∧
    (0x43CFFFFFFFF#43) &&& 0x7FF00000000#43 = 0x43C00000000#43 ∧
    (0x540FFFFFFFF#43) &&& 0x7FF00000000#43 = 0x54000000000#43 ∧
    (0x440FFFFFFFF#43) &&& 0x7FF00000000#43 = 0x44000000000#43 ∧
    (0x444FFFFFFFF#43) &&& 0x7FF00000000#43 = 0x44400000000#43 ∧
    (0x544FFFFFFFF#43) &&& 0x7FF00000000#43 = 0x54400000000#43 ∧
    (0x450FFFFFFFF#43) &&& 0x7FF00000000#43 = 0x45000000000#43 ∧
    (0x550FFFFFFFF#43) &&& 0x7FF00000000#43 = 0x55000000000#43 ∧
    (0x454FFFFFFFF#43) &&& 0x7FF00000000#43 = 0x45400000000#43 ∧
    (0x554FFFFFFFF#43) &&& 0x7FF00000000#43 = 0x55400000000#43 :=
  by decide

/-! The run of a whole one-block stream, for bulk equivalence. -/

/-- KEY_LOADED with the one-block descriptors set, both channels enabled and the stream's agent steps scheduled. -/
def ready : State := { keyed with
  srcAddr := 0x20000100, srcCount := 1, dstAddr := 0x20000200, dstCount := 1, srcEn := true, dstEn := true,
  schedule := List.replicate 4 .dmaSrc ++ [.engine] ++ List.replicate 4 .dmaDst }

/-- The states of the run from the accepted START on. -/
def bulkRun : Nat → State
  | 0 => after (.wrCtrlStart 2) ready
  | k + 1 =>
    match step (bulkRun k) with
    | .next t => t
    | .fault _ => bulkRun k
    | .refused _ => bulkRun k

/-- One agent step of the run, with what the next one needs. -/
theorem bulkRun_agent {k : Nat} {a : Agent} {rest : List Agent} (h : (bulkRun k).schedule = a :: rest)
    (ha : a = .dmaSrc ∨ a = .engine ∨ a = .dmaDst) : HostLeavesBuffers (bulkRun k) ∧ step (bulkRun k) = .next (bulkRun (k + 1)) := by
  refine ⟨?_, ?_⟩
  · intro x hx
    unfold State.nextHostStore at hx
    rw [h] at hx
    rcases ha with rfl | rfl | rfl <;> cases hx
  · have : ∃ t, step (bulkRun k) = .next t := by
      unfold step
      rw [h]
      rcases ha with rfl | rfl | rfl <;> exact ⟨_, rfl⟩
    obtain ⟨t, ht⟩ := this
    rw [ht]
    simp only [bulkRun, ht]

theorem test_w_BulkEquivalence : HostMeetsOrderingDuty ready ∧ EngineInv ready ∧ ready.mem.wf = true ∧ OverlapOk ready ∧ ready.st = .keyLoaded ∧
    exec (.wrCtrlStart 2) ready = .next (bulkRun 0) ∧ (bulkRun 0).st = .streaming ∧
    (∀ k, k < 9 → HostLeavesBuffers (bulkRun k) ∧ step (bulkRun k) = .next (bulkRun (k + 1)) ∧ (bulkRun (k + 1)).stream = true) ∧
    (bulkRun 9).dstDone = true ∧ 0 < ready.srcCount.toNat := by
  refine ⟨by decide, ⟨by decide, by decide, by decide⟩, rfl, by decide, rfl, rfl, rfl, ?_, by decide +kernel, by decide⟩
  intro k hk
  have hs : ∀ j < 9, ∃ a, (bulkRun j).schedule.head? = some a ∧ (a = .dmaSrc ∨ a = .engine ∨ a = .dmaDst) ∧
      (bulkRun (j + 1)).stream = true := by
    intro j hj
    have : j = 0 ∨ j = 1 ∨ j = 2 ∨ j = 3 ∨ j = 4 ∨ j = 5 ∨ j = 6 ∨ j = 7 ∨ j = 8 := by omega
    rcases this with rfl | rfl | rfl | rfl | rfl | rfl | rfl | rfl | rfl
    all_goals first
      | exact ⟨.dmaSrc, by decide +kernel, .inl rfl, by decide +kernel⟩
      | exact ⟨.engine, by decide +kernel, .inr (.inl rfl), by decide +kernel⟩
      | exact ⟨.dmaDst, by decide +kernel, .inr (.inr rfl), by decide +kernel⟩
  obtain ⟨a, h1, h2, h3⟩ := hs k hk
  cases h4 : (bulkRun k).schedule with
  | nil => rw [h4] at h1; cases h1
  | cons b rest =>
    rw [h4] at h1
    cases h1
    obtain ⟨h5, h6⟩ := bulkRun_agent h4 h2
    exact ⟨h5, h6, h3⟩

/-! Operands for each clause of the register transactions' statements. -/

theorem test_w_GuardCheckRecordsAndProceeds : isGuarded .rdCtrl = true ∧ { held with lockHeld := false }.lockHeld = false ∧
    isGuarded .rdResult = false ∧ held.lockHeld = true ∧ exec .rdCtrl held = .next (after .rdCtrl held) := ⟨rfl, rfl, rfl, rfl, rfl⟩

theorem test_w_WrCtrlSetsDirectionOrEndsOperation :
    (0x4#32).extractLsb' 2 30 ≠ 0#30 ∧ (0x80000000#32).extractLsb' 2 30 ≠ 0#30 ∧ (0x3#32).extractLsb' 2 30 = 0#30 ∧
    held.st = .idle ∧ feeding3.st = .feeding ∧ undrained.st = .finished ∧ undrained.stream = true ∧ undrained.dstDone = false ∧
    finished2.st = .finished ∧ finished2.stream = false ∧ drained.st = .finished ∧ drained.dstDone = true := by decide

theorem test_w_StartValidatesAndStarts :
    (0x6#32).extractLsb' 2 30 ≠ 0#30 ∧ (0x2#32).extractLsb' 2 30 = 0#30 ∧ keyed.st = .keyLoaded ∧
    ¬(keyed.srcCount ≠ 0#16 ∧ keyed.srcCount = keyed.dstCount) ∧
    (ready.srcCount ≠ 0#16 ∧ ready.srcCount = ready.dstCount) ∧
    ¬(2 ^ 32 < (0xFFFFFFF0#32).toNat + 16 * (1#16).toNat) ∧ 2 ^ 32 < (0xFFFFFFF4#32).toNat + 16 * (1#16).toNat ∧
    ¬(2 ^ 32 < ready.srcAddr.toNat + 16 * ready.srcCount.toNat ∨ 2 ^ 32 < ready.dstAddr.toNat + 16 * ready.dstCount.toNat) ∧
    finished2.st = .finished ∧ computing.st = .computing := by decide

theorem test_w_WrKeyLoadsOneWord : held.st = .idle ∧ keyed.st = .keyLoaded ∧
    (∀ m : BitVec 2, m ≠ 3#2 → (⟨true, true, true, false⟩ : Quad Bool).get m = true) ∧
    (1#2 ≠ 3#2 ∧ held.keyValid.get 1#2 = false) ∧ ¬(streaming.st = .idle ∨ streaming.st = .keyLoaded) := by decide

theorem test_w_WrDatainFeedsOneWord : keyed.st = .keyLoaded ∧ feeding3.st = .feeding ∧
    ¬(computing.st = .keyLoaded ∨ computing.st = .feeding) := by decide

theorem test_w_RdDataoutPopsOneWord : finished2.st = .finished ∧ finished2.stream = false ∧ finished2.outBuf = 0x80b7cdd8 :: [0x5ac5b470] ∧
    { finished2 with outBuf := [0x5ac5b470] }.outBuf = 0x5ac5b470 :: [] ∧
    ¬(undrained.st = .finished ∧ undrained.stream = false ∧ undrained.outBuf ≠ []) := by decide

theorem test_w_WrDmaAddrSetsTheAddress : (0x20000102#32).extractLsb' 0 2 ≠ 0#2 ∧ (0xFFFFFFFC#32).extractLsb' 0 2 = 0#2 ∧
    (0#32).extractLsb' 0 2 = 0#2 ∧ held.st = .idle ∧ ¬(streaming.st = .idle ∨ streaming.st = .keyLoaded) := by decide

theorem test_w_WrDmaCountSetsTheCount : (0x10000#32).extractLsb' 16 16 ≠ 0#16 ∧ (0xFFFF#32).extractLsb' 16 16 = 0#16 ∧
    keyed.st = .keyLoaded ∧ ¬(feeding3.st = .idle ∨ feeding3.st = .keyLoaded) := by decide

theorem test_w_DmaReadsReturnTheirFields : AlignedInv streaming := by decide

theorem test_w_WrDmaCtrlSetsTheEnables : (0x4#32).extractLsb' 2 30 ≠ 0#30 ∧ (0x3#32).extractLsb' 2 30 = 0#30 ∧
    streaming.st = .streaming ∧ (undrained.st = .finished ∧ undrained.stream = true ∧ undrained.dstDone = false) ∧
    (streaming.srcEn = true ∧ (0x2#32).getLsbD 0 = false) ∧ (streaming.dstEn = true ∧ (0x1#32).getLsbD 1 = false) ∧
    ¬(drained.st = .streaming ∨ (drained.st = .finished ∧ drained.stream = true ∧ drained.dstDone = false)) := by decide

theorem test_w_LockIsTestAndSet : { held with lockHeld := false }.lockHeld = false ∧ held.lockHeld = true ∧ (1#32) ≠ 0#32 ∧
    (held.st = .idle ∨ held.st = .keyLoaded ∨ (held.st = .finished ∧ ¬(held.stream = true ∧ held.dstDone = false))) ∧
    (drained.st = .finished ∧ ¬(drained.stream = true ∧ drained.dstDone = false)) ∧
    ¬(undrained.st = .idle ∨ undrained.st = .keyLoaded ∨
      (undrained.st = .finished ∧ ¬(undrained.stream = true ∧ undrained.dstDone = false))) ∧
    undrained.lockHeld = true := by decide

theorem test_w_ResultIsReadAndCleared : (0x80000000#32) ≠ 0#32 ∧ (1#32) ≠ 0#32 := by decide

/-! Driver calls. -/

def bytes16 : List Byte := blockBytes kat
def soft : State := { held with platform := { plat with backend := .software } }

theorem test_w_BadArgumentsTouchNoRegister :
    (∃ u, NextCommand (commanded (.call (.single false [] bytes16)) held) (.call (.single false [] bytes16)) u) ∧
    (commanded (.call (.single false [] bytes16)) held).platform.backend = .hardware ∧ ([] : List Byte).length ≠ 16 ∧
    (∃ u, NextCommand (commanded (.call (.stream true bytes16 0xFFFFFFF4 16 0 16)) held) (.call (.stream true bytes16 0xFFFFFFF4 16 0 16)) u) ∧
    2 ^ 32 < (0xFFFFFFF4#32).toNat + 16 ∧ 65535 < 1048576 / 16 ∧ 17 % 16 ≠ 0 ∧ (0x2#32).extractLsb' 0 2 ≠ 0#2 :=
  ⟨commanded_next _ _ rfl, rfl, by decide, commanded_next _ _ rfl, by decide, by decide, by decide, by decide⟩

theorem test_w_SoftwareBackendComputesTheSame :
    (∃ u, NextCommand (commanded (.call (.single true bytes16 bytes16)) soft) (.call (.single true bytes16 bytes16)) u) ∧
    soft.platform.backend = .software ∧ bytes16.length = 16 ∧ (0x00#8 :: bytes16).length ≠ 16 ∧
    (∃ u, NextCommand (commanded (.call (.stream true bytes16 0 16 0 16)) soft) (.call (.stream true bytes16 0 16 0 16)) u) :=
  ⟨commanded_next _ _ rfl, rfl, rfl, by decide, commanded_next _ _ rfl⟩

theorem test_w_DriverCallsIssueTheirSequences :
    (∃ u, NextCommand (commanded (.call (.single true bytes16 bytes16)) held) (.call (.single true bytes16 bytes16)) u) ∧
    held.platform.backend = .hardware ∧ bytes16.length = 16 ∧
    (∃ u, NextCommand (commanded (.call (.stream true bytes16 0xFFF00010 1048560 0xFFF00010 1048560)) held)
      (.call (.stream true bytes16 0xFFF00010 1048560 0xFFF00010 1048560)) u) ∧
    1048560 ≠ 0 ∧ 1048560 % 16 = 0 ∧ 1048560 / 16 ≤ 65535 ∧ (0xFFF00010#32).extractLsb' 0 2 = 0#2 ∧
    (0xFFF00010#32).toNat + 1048560 ≤ 2 ^ 32 :=
  ⟨commanded_next _ _ rfl, rfl, rfl, commanded_next _ _ rfl, by decide, by decide, by decide, by decide, by decide⟩

theorem test_w_AcquireAndRelease : (∃ u, NextDriverStep (driving .acquire held) .acquire [] u) ∧ MayIssue (driving .acquire held) ∧
    (driving .acquire held).lockHeld = true ∧ (driving .acquire { held with lockHeld := false }).lockHeld = false ∧
    (∃ u, NextDriverStep (driving (.release .success) keyed) (.release .success) [] u) :=
  ⟨driving_next _ _ rfl, .inl rfl, rfl, rfl, driving_next _ _ rfl⟩

theorem test_w_PollSucceedsGoesOnOrTimesOut :
    (∃ u, NextDriverStep (driving (.poll .rdCtrl 0x200 1) computing) (.poll .rdCtrl 0x200 1) [] u) ∧
    (∃ u, NextDriverStep (driving (.poll .rdDmaStatus 0x2 2) drained) (.poll .rdDmaStatus 0x2 2) [] u) ∧
    (∃ u, NextDriverStep (driving (.poll .rdCtrl 0x200 2) computing) (.poll .rdCtrl 0x200 2) [] u) ∧
    (∃ u, NextDriverStep (driving .checkStarted keyed) .checkStarted [] u) ∧ (driving .checkStarted keyed).st = .keyLoaded ∧
    (∃ u, NextDriverStep (driving .checkStarted streaming) .checkStarted [] u) ∧ (driving .checkStarted streaming).st ≠ .keyLoaded ∧
    (∃ u, NextDriverStep (driving .drain finished2) .drain [] u) ∧
    MayIssue (driving (.poll .rdCtrl 0x200 1) computing) ∧
    computing.ctrlFields &&& 0x200#32 ≠ 0x200#32 ∧ finished2.ctrlFields &&& 0x200#32 = 0x200#32 :=
  ⟨driving_next _ _ rfl, driving_next _ _ rfl, driving_next _ _ rfl, driving_next _ _ rfl, rfl, driving_next _ _ rfl,
    by decide, driving_next _ _ rfl, .inl rfl, by decide, by decide⟩

theorem test_w_DriverCallsAreBounded :
    (∃ u, NextDriverStep (driving .drain finished2) .drain [] u) ∧ (∃ t, step (driving .drain finished2) = .next t) ∧
    (∃ u, NextCommand (commanded (.call (.single true bytes16 bytes16)) held) (.call (.single true bytes16 bytes16)) u) ∧
    (∃ t, step (commanded (.call (.single true bytes16 bytes16)) held) = .next t) ∧
    (∃ t, step (scheduled .engine computing) = .next t) ∧ (scheduled .engine computing).schedule.head? ≠ some .host ∧
    (scheduled .engine computing).schedule.head? ≠ some .reset ∧ (scheduled .engine computing).schedule.head? ≠ some .isrEnter :=
  ⟨driving_next _ _ rfl, ⟨_, rfl⟩, commanded_next _ _ rfl, ⟨_, rfl⟩, ⟨_, rfl⟩, by decide, by decide, by decide⟩

/-! Runs without end, for the waits of 47 R441. -/

/-- A step answers a next state. -/
def answers : Result → Bool
  | .next _ => true
  | .fault _ => false
  | .refused _ => false

/-- What a foreground poll of CTRL or DMA_STATUS leaves, by its register's defined fields. -/
def afterPoll (i : Instr) (m mask v : Word) (left : Nat) (more : List DrvOp) (s : State) : State :=
  if v &&& m = m then (s.returnDrawn mask v).setOps more
  else if left ≤ 1 then (s.returnDrawn mask v).finishCall .hardwareTimeout []
  else (s.returnDrawn mask v).setOps (.poll i m (left - 1) :: more)

/-- The next state of `s`, and whether it is one: a foreground poll by `afterPoll`, all else by evaluation. -/
def stepOf (s : State) : State × Bool :=
  match s.schedule, s.ctx, s.fg.ops with
  | .host :: rest, .fg, .poll .rdCtrl m left :: more =>
    (afterPoll .rdCtrl m ctrlReadMask s.ctrlFields left more { s with schedule := rest }, s.lockHeld && decide (m &&& ctrlReadMask = m))
  | .host :: rest, .fg, .poll .rdDmaStatus m left :: more =>
    (afterPoll .rdDmaStatus m enableReadMask s.doneFields left more { s with schedule := rest },
      s.lockHeld && decide (m &&& enableReadMask = m))
  | _, _, _ => (match step s with | .next t => t | .fault _ => s | .refused _ => s, answers (step s))

theorem step_stepOf {s : State} (h : (stepOf s).2 = true) : step s = .next (stepOf s).1 := by
  unfold stepOf at h ⊢
  split at h
  · rename_i rest m left more h1 h2 h3
    simp only [Bool.and_eq_true, decide_eq_true_eq] at h
    rw [step_driver h1 (show s.cur.ops = _ by rw [State.cur, h2]; exact h3)]
    refine execPoll_drawn (u := { s with schedule := rest }) left more ?_ h.2
    rw [issue_of_fg (s := { s with schedule := rest }) h2, exec, execRdCtrl, guardCheck_held (s := { s with schedule := rest }) h.1]
    rfl
  · rename_i rest m left more h1 h2 h3
    simp only [Bool.and_eq_true, decide_eq_true_eq] at h
    rw [step_driver h1 (show s.cur.ops = _ by rw [State.cur, h2]; exact h3)]
    refine execPoll_drawn (u := { s with schedule := rest }) left more ?_ h.2
    rw [issue_of_fg (s := { s with schedule := rest }) h2, exec, execRdDmaStatus, guardCheck_held (s := { s with schedule := rest }) h.1]
    rfl
  · revert h
    cases step s <;> simp [answers]

/-- The states of the run from `s`. -/
def runFrom (s : State) : Nat → State
  | 0 => s
  | k + 1 => (stepOf (runFrom s k)).1

/-- The step of `s` answers a next state, keeps the lock discipline, and is no reset: by evaluation. -/
def goodStep (s : State) : Bool :=
  (stepOf s).2 &&
  (match s.nextTransaction with
    | none => true
    | some i => (!isGuarded i || s.cur.holdsLock) && (!isLockWrite i || s.cur.holdsLock) && (decide (i ≠ .rdLock) || !s.cur.holdsLock)) &&
  decide (s.schedule.head? ≠ some .reset)

/-- A run whose schedule is empty from state `n` on stays there, so what holds of its first states holds of all. -/
theorem runFrom_all {s : State} {n : Nat} {P : State → Prop} (h : (runFrom s n).schedule = []) (hp : ∀ k, k < n + 1 → P (runFrom s k)) :
    ∀ k, P (runFrom s k) := by
  have hs : ∀ d, runFrom s (n + d) = runFrom s n := by
    intro d
    induction d with
    | zero => rfl
    | succ d ih => rw [← Nat.add_assoc, runFrom, ih]; simp [stepOf, step, h]
  intro k
  by_cases hk : k < n + 1
  · exact hp k hk
  · obtain ⟨d, rfl⟩ := Nat.exists_eq_add_of_le (show n ≤ k by omega)
    rw [hs]
    exact hp n (by omega)

theorem disciplinedRun_runFrom {s : State} {n : Nat} (h : (runFrom s n).schedule = []) (hg : ∀ k, k < n + 1 → goodStep (runFrom s k) = true) :
    DisciplinedRun (runFrom s) := by
  have hall := runFrom_all (P := fun u => goodStep u = true) h hg
  simp only [goodStep, Bool.and_eq_true, decide_eq_true_eq] at hall
  refine ⟨fun k => step_stepOf (hall k).1.1, fun k i hi => ?_, fun k => (hall k).2⟩
  obtain ⟨⟨-, h1⟩, -⟩ := hall k
  rw [hi] at h1
  simp only [Bool.and_eq_true] at h1
  refine ⟨fun hi => ?_, fun hi => ?_, fun hi => ?_⟩
  · simpa [hi] using h1.1.1
  · simpa [hi] using h1.1.2
  · simpa [hi] using h1.2

/-- Where an agent's step is enabled only in states in which it is next, no host step ever waits for it. -/
theorem latencyBound_of_prompt {s : State} {n bound : Nat} {a : Agent} {enabled : State → Bool} (hb : 0 < bound)
    (h : (runFrom s n).schedule = [])
    (hp : ∀ k, k < n + 1 → (enabled (runFrom s k) = true → (runFrom s k).schedule.head? = some a)) :
    AgentLatencyBound a enabled bound (runFrom s) := by
  intro k m hm
  cases m with
  | zero => exact hb
  | succ m =>
    obtain ⟨h1, h2⟩ := hm 0 (by omega)
    exact absurd (runFrom_all (P := fun u => enabled u = true → u.schedule.head? = some a) h hp _ h1) h2

/-- A single-block call at its FINISHED poll: the ENGINE step comes, then the host's reads. -/
def waiting : State := { computing with
  schedule := [.engine, .host, .host], fg := { computing.fg with ops := [.poll .rdCtrl 0x200 2] } }

/-- The same call without the ENGINE step. -/
def stalled : State := { waiting with schedule := [.host, .host] }

/-- A drained-but-for-four-words stream at its last poll, with POLL_BOUND = 9. -/
def draining : State := { undrained with
  platform := { plat with pollBoundPred := 8 },
  schedule := List.replicate 4 .dmaDst ++ List.replicate 9 .host, fg := { undrained.fg with ops := [.poll .rdDmaStatus 0x2 9] } }

theorem test_w_DriverCallsAreBounded_finished :
    DisciplinedRun (runFrom waiting) ∧ LockInv (runFrom waiting 0) ∧ BlockInv (runFrom waiting 0) ∧
    waiting.fg.holdsLock = true ∧ waiting.st = .computing ∧ waiting.fg.ops = .poll .rdCtrl 0x200 waiting.platform.pollBound :: [] ∧
    waiting.schedule.head? = some .engine ∧ fgStepsIn (runFrom waiting) 0 0 < 2 ∧ fgStepsIn (runFrom waiting) 0 1 = 0 ∧
    (runFrom waiting 1).schedule.head? = some .host ∧ (runFrom waiting 1).ctx = .fg ∧
    EngineLatencyBound waiting.platform.pollBound (runFrom waiting) ∧ fgStepsIn (runFrom waiting) 0 3 = 2 :=
  ⟨disciplinedRun_runFrom (n := 3) (by decide +kernel) (by decide +kernel), by decide, by decide, rfl, rfl, rfl, rfl, by decide, by decide +kernel,
    by decide +kernel, by decide +kernel, latencyBound_of_prompt (n := 3) (by decide) (by decide +kernel) (by decide +kernel), by decide +kernel⟩

theorem test_w_DriverCallsAreBounded_stalled :
    DisciplinedRun (runFrom stalled) ∧ LockInv (runFrom stalled 0) ∧ BlockInv (runFrom stalled 0) ∧
    stalled.fg.holdsLock = true ∧ stalled.st = .computing ∧ stalled.fg.ops = .poll .rdCtrl 0x200 stalled.platform.pollBound :: [] ∧
    (∀ j, j < 1 → (runFrom stalled j).schedule.head? ≠ some .engine) ∧ fgStepsIn (runFrom stalled) 0 1 + 1 = 2 ∧
    (runFrom stalled 1).schedule.head? = some .host ∧ (runFrom stalled 1).ctx = .fg ∧
    (runFrom stalled 2).fg.returns = [⟨.hardwareTimeout, []⟩] :=
  ⟨disciplinedRun_runFrom (n := 2) (by decide +kernel) (by decide +kernel), by decide, by decide, rfl, rfl, rfl, by decide +kernel,
    by decide +kernel, by decide +kernel, by decide +kernel, by decide +kernel⟩

theorem test_w_DriverCallsAreBounded_stream :
    DisciplinedRun (runFrom draining) ∧ LockInv (runFrom draining 0) ∧ EngineInv (runFrom draining 0) ∧
    draining.fg.holdsLock = true ∧ draining.dmaActive = true ∧ draining.srcEn = true ∧ draining.dstEn = true ∧
    BuffersAdmitted (runFrom draining 0) ∧ LatencyBound 1 (runFrom draining) ∧
    9 * draining.srcCount.toNat * 1 ≤ draining.platform.pollBound ∧ fgStepsIn (runFrom draining) 0 13 = draining.platform.pollBound ∧
    draining.fg.ops = .poll .rdDmaStatus 0x2 draining.platform.pollBound :: [] :=
  ⟨disciplinedRun_runFrom (n := 13) (by decide +kernel) (by decide +kernel), by decide, ⟨by decide, by decide, by decide⟩, rfl, rfl, rfl, rfl,
    ⟨by decide, by decide⟩, ⟨latencyBound_of_prompt (n := 13) (by decide) (by decide +kernel) (by decide +kernel),
      latencyBound_of_prompt (n := 13) (by decide) (by decide +kernel) (by decide +kernel),
      latencyBound_of_prompt (n := 13) (by decide) (by decide +kernel) (by decide +kernel)⟩, by decide, by decide +kernel, rfl⟩

/-- The ISR runs, and its program is `cs`. -/
def inIsr (cs : List HostCmd) (s : State) : State :=
  { s with schedule := [.host], ctx := .isr, isr := { HostContext.fresh with prog := cs } }

theorem test_w_InterruptEntryAndReturn :
    (scheduled .isrEnter { held with irqMasked := false, irqPending := true }).schedule = .isrEnter :: [] ∧
    held.ctx = .fg ∧ { held with irqMasked := false, irqPending := true }.irqMasked = false ∧
    ¬(held.ctx = .fg ∧ held.irqMasked = false ∧ held.irqPending = true) ∧
    (scheduled .irqRaise held).schedule = .irqRaise :: [] ∧
    (inIsr [] held).schedule = .host :: [] ∧ (inIsr [] held).ctx = .isr ∧ (inIsr [] held).isr.ops = [] ∧ (inIsr [] held).isr.prog = [] ∧
    (∃ t, step (inIsr [] held) = .next t) ∧ (inIsr [] held).schedule.head? ≠ some .reset ∧
    (∃ u, NextCommand (inIsr [.bus 0#43] { held with platform := { plat with interruptReentry := false } }) (.bus 0#43) u) ∧
    { plat with interruptReentry := false }.interruptReentry = false ∧
    (∃ u, NextCommand (commanded (.setMask false) held) (.setMask false) u) ∧
    (match step (commanded (.setMask false) held) with
      | .next t => !t.irqMasked
      | .fault _ => false
      | .refused _ => false) = true :=
  ⟨rfl, rfl, rfl, by decide, rfl, rfl, rfl, rfl, rfl, ⟨_, rfl⟩, by decide, ⟨_, [], [], rfl, rfl, rfl, rfl⟩, rfl, commanded_next _ _ rfl, by decide⟩

theorem test_w_SpinningIsrHangs : (inIsr [.spinLock] held).ctx = .isr ∧ (inIsr [.spinLock] held).lockHeld = true ∧
    (inIsr [.spinLock] held).isr.ops = [] ∧ (inIsr [.spinLock] held).isr.prog = .spinLock :: [] ∧
    (∃ t, step (inIsr [.spinLock] held) = .next t) ∧ (inIsr [.spinLock] held).schedule.head? ≠ some .reset :=
  ⟨rfl, rfl, rfl, rfl, ⟨_, rfl⟩, by decide⟩

/-- The KAT call from reset, with its steps scheduled. -/
def katCall : State := { State.reset with
  platform := plat,
  schedule := List.replicate 15 .host ++ [.engine] ++ List.replicate 6 .host,
  fg := { HostContext.fresh with prog := [.call (.single false (blockBytes kat) (blockBytes katPlain))] } }

theorem test_w_SingleBlockCallReturnsTheCipher :
    katCall.schedule = List.replicate 15 .host ++ [.engine] ++ List.replicate 6 .host ++ [] ∧ katCall.ctx = .fg ∧
    katCall.platform.backend = .hardware ∧ katCall.fg.ops = [] ∧
    katCall.fg.prog = .call (.single false (blockBytes kat) (blockBytes katPlain)) :: [] ∧
    BlockInv katCall ∧ katCall.st = .idle ∧ katCall.lockHeld = false :=
  ⟨rfl, rfl, rfl, rfl, rfl, by decide, rfl, rfl⟩

end Sys2Proof.Tests
end

/-! What the key may reveal: no transaction and no DMA channel step lets anything but key[0..3] depend on key[0..3]
(30 R127, 43 R314, 44 R362, R363). -/

namespace Sys2Proof.Machine

/-- The state with other key words and nothing else changed. -/
def State.withKey (k : Quad Word) (s : State) : State := { s with key := k }

@[simp] theorem withKey_st (k : Quad Word) (s : State) : (s.withKey k).st = s.st := rfl
@[simp] theorem withKey_stream (k : Quad Word) (s : State) : (s.withKey k).stream = s.stream := rfl
@[simp] theorem withKey_outBuf (k : Quad Word) (s : State) : (s.withKey k).outBuf = s.outBuf := rfl

/-- Both runs answer a next state, and the two states differ at most in key[0..3]. -/
def AgreeButKey (r r' : Result) : Prop := ∃ t k, r = .next t ∧ r' = .next (t.withKey k)

theorem AgreeButKey.next (t : State) (k : Quad Word) : AgreeButKey (.next t) (.next (t.withKey k)) := ⟨t, k, rfl, rfl⟩

/-- Both runs branch alike on a condition that does not depend on the key. -/
theorem AgreeButKey.ite {c : Prop} [Decidable c] {a b a' b' : Result} (ht : AgreeButKey a a') (hf : AgreeButKey b b') :
    AgreeButKey (if c then a else b) (if c then a' else b') := by
  split
  · exact ht
  · exact hf

/-- The same, where the branch lies inside the answer. -/
theorem AgreeButKey.next_ite {c : Prop} [Decidable c] {t u t' u' : State} (ht : AgreeButKey (.next t) (.next t'))
    (hf : AgreeButKey (.next u) (.next u')) : AgreeButKey (.next (if c then t else u)) (.next (if c then t' else u')) := by
  split
  · exact ht
  · exact hf

/-- The states that two agreeing runs answered. -/
theorem AgreeButKey.eq_of_next {t t' : State} (h : AgreeButKey (.next t) (.next t')) : t' = t.withKey t'.key := by
  obtain ⟨u, k, hu, hk⟩ := h
  cases hu
  cases hk
  rfl

/-- The last result word (43 R322) tears down, key included; a word before it leaves the key alone. -/
theorem popResult_agreeButKey (rest : List Word) (x : Word) (s : State) (k : Quad Word) :
    AgreeButKey (.next ((s.popResult rest).returnWord x)) (.next (((s.withKey k).popResult rest).returnWord x)) := by
  unfold State.popResult
  split
  · exact .next _ ⟨0, 0, 0, 0⟩
  · exact .next _ k

/-- No transaction reads key[0..3]: WR_KEY replaces one word of it, a teardown clears it, and every other effect carries it along. -/
theorem exec_agreeButKey (i : Instr) (s : State) (k : Quad Word) : AgreeButKey (exec i s) (exec i (s.withKey k)) := by
  cases i
  case rdCtrl | rdKey | rdDatain | rdDmaSrcAddr | rdDmaSrcCount | rdDmaDstAddr | rdDmaDstCount | rdDmaCtrl | rdDmaStatus | rdResult
      | wrDataout | wrDmaStatus =>
    exact .next _ k
  case wrDmaSrcAddr | wrDmaSrcCount | wrDmaDstAddr | wrDmaDstCount | wrDmaCtrl =>
    exact .ite (.next _ k) (.ite (.next _ k) (.next _ k))
  case rdLock | wrResult => exact .ite (.next _ k) (.next _ k)
  case wrLock => exact .ite (.next _ k) (.ite (.next _ k) (.ite (.next _ ⟨0, 0, 0, 0⟩) (.next _ k)))
  case wrCtrl v =>
    refine .ite (.next _ k) ?_
    simp only [guardCheck_st, withKey_st]
    cases s.st
    case idle | keyLoaded | feeding | computing | streaming => exact .next _ k
    case finished => exact .next_ite (.next _ k) (.next _ ⟨0, 0, 0, 0⟩)
  case wrCtrlStart v =>
    refine .ite (.next _ k) ?_
    simp only [guardCheck_st, withKey_st]
    cases s.st
    case keyLoaded => exact .ite (.next _ k) (.ite (.next _ k) (.next _ k))
    case idle | feeding | computing | finished | streaming => exact .next _ k
  case wrKey n v =>
    simp only [exec, execWrKey, guardCheck_st, withKey_st]
    cases s.st
    case idle | keyLoaded => exact .next _ (k.set n v)
    case feeding | computing | finished | streaming => exact .next _ k
  case wrDatain v =>
    simp only [exec, execWrDatain, guardCheck_st, withKey_st]
    cases s.st <;> exact .next _ k
  case rdDataout =>
    simp only [exec, execRdDataout, guardCheck_st, guardCheck_stream, guardCheck_outBuf, withKey_st, withKey_stream, withKey_outBuf]
    split
    · exact popResult_agreeButKey _ _ s.guardCheck k
    · exact .next _ k

/-- DMA_SRC reads memory and its descriptor, and no word of the key (44 R362). -/
theorem dmaSrcStep_withKey (s : State) (k : Quad Word) : (s.withKey k).dmaSrcStep = s.dmaSrcStep.withKey k := by
  refine Eq.trans ?_ (apply_ite (State.withKey k) (s.srcEnabled = true) _ _).symm
  rfl

/-- DMA_DST reads outBuf and its descriptor, and no word of the key (44 R363). -/
theorem dmaDstStep_withKey (s : State) (k : Quad Word) : (s.withKey k).dmaDstStep = s.dmaDstStep.withKey k := by
  refine Eq.trans ?_ (apply_ite (State.withKey k) (s.dstEnabled = true) _ _).symm
  refine if_congr Iff.rfl ?_ rfl
  simp only [withKey_outBuf]
  cases s.outBuf
  case nil => rfl
  case cons x rest => rfl

/-- Settles O23, by the branches of each transaction and of the two channel steps: no condition and no returned word is made from
key[0..3]. -/
theorem transactionsDoNotRevealTheKey : Obligations.TransactionsDoNotRevealTheKey := by
  refine ⟨fun i s t t' k h h' => ?_, fun s k => ⟨dmaSrcStep_withKey s k, dmaDstStep_withKey s k⟩⟩
  have agree : AgreeButKey (exec i s) (exec i (s.withKey k)) := exec_agreeButKey i s k
  rw [h, State.withKey, h'] at agree
  exact agree.eq_of_next

end Sys2Proof.Machine

/-! What the family of state invariants needs of a step: a property kept by each of the few things a step can do (StepCases) is kept by
every step. -/

namespace Sys2Proof.Machine

/-- A property of block and memory that each of the things a step can do keeps (the constructors of StepCases). -/
structure KeptByMoves (P : State → Prop) : Prop where
  same : ∀ {s t}, SameBlock s t → P s → P t
  exec : ∀ {i s t}, P s → exec i s = .next t → P t
  store : ∀ {s} (a : Word) (b : Byte), P s → P { s with mem := s.mem.write8 a b }
  engine : ∀ {s}, P s → P s.engineStep
  dmaSrc : ∀ {s}, P s → P s.dmaSrcStep
  dmaDst : ∀ {s}, P s → P s.dmaDstStep
  reset : ∀ s : State, P s.afterReset

theorem KeptByMoves.hostStep {P : State → Prop} (k : KeptByMoves P) {s t : State} (hs : P s) (h : HostStepCases s t) : P t := by
  cases h with
  | ran i h =>
    obtain ⟨u, v, hu, he, hv⟩ := h
    exact k.same hv (k.exec (k.same hu hs) he)
  | stored a b h => exact k.same h (k.store a b hs)
  | quiet h => exact k.same h hs

theorem KeptByMoves.step {P : State → Prop} (k : KeptByMoves P) {s t : State} (hs : P s) (h : step s = .next t) : P t := by
  have taken : ∀ rest, P { s with schedule := rest } := fun rest => k.same (by constructor <;> rfl) hs
  cases step_cases h with
  | idle _ ht => exact ht ▸ hs
  | host rest _ hh => exact k.hostStep (taken rest) hh
  | engine rest _ ht => exact ht ▸ k.engine (taken rest)
  | dmaSrc rest _ ht => exact ht ▸ k.dmaSrc (taken rest)
  | dmaDst rest _ ht => exact ht ▸ k.dmaDst (taken rest)
  | interrupt _ _ ht => exact k.same ht hs
  | reset rest _ ht => exact ht ▸ k.reset _

/-- After reset the block is as a teardown leaves it: there is nothing left to tear down (70 R540, 10 R52). -/
theorem sameBlock_teardown_reset : SameBlock State.reset.teardown State.reset := by constructor <;> rfl
theorem sameBlock_teardown_afterReset (s : State) : SameBlock s.afterReset.teardown s.afterReset := by constructor <;> rfl

/-! ### The whole invariant of the engine -/

theorem engineInv_reset : EngineInv State.reset := (engineInv_teardown _).of_same sameBlock_teardown_reset

theorem engineInv_keptByMoves : KeptByMoves EngineInv where
  same := .of_same
  exec := exec_engineInv
  store _ _ k := k
  engine := engineStep_engineInv
  dmaSrc := dmaSrcStep_engineInv
  dmaDst := dmaDstStep_engineInv
  reset s := (engineInv_teardown _).of_same (sameBlock_teardown_afterReset s)

/-- Settles O11, by the moves a step can make: a transaction, an agent's step and reset each keep the account. -/
theorem streamAccountIsKept : Obligations.StreamAccountIsKept := fun _ _ => engineInv_keptByMoves.step

/-- Settles O9: the engine is as torn down, no context holds the free lock, and memory lists nothing. -/
theorem resetStateMeetsTheInvariants : Obligations.ResetStateMeetsTheInvariants :=
  ⟨engineInv_reset, by decide, by decide, rfl⟩

end Sys2Proof.Machine

/-! What one register transaction can do to the engine: it leaves it alone, or it is one of six moves, each with its condition
(10 R54, 43 R311 to R330, 45 R402). -/

namespace Sys2Proof.Machine

/-- Two states that agree in every field that 10 R53 or R54 speaks of. -/
structure SameEngine (s t : State) : Prop where
  st : t.st = s.st
  stream : t.stream = s.stream
  keyValid : t.keyValid = s.keyValid
  inBuf : t.inBuf = s.inBuf
  outBuf : t.outBuf = s.outBuf
  srcWords : t.srcWords = s.srcWords
  dstWords : t.dstWords = s.dstWords
  srcCount : t.srcCount = s.srcCount
  dstCount : t.dstCount = s.dstCount

theorem SameEngine.trans {s t u : State} (h : SameEngine s t) (k : SameEngine t u) : SameEngine s u :=
  ⟨k.st.trans h.st, k.stream.trans h.stream, k.keyValid.trans h.keyValid, k.inBuf.trans h.inBuf, k.outBuf.trans h.outBuf,
   k.srcWords.trans h.srcWords, k.dstWords.trans h.dstWords, k.srcCount.trans h.srcCount, k.dstCount.trans h.dstCount⟩

theorem SameBlock.sameEngine {s t : State} (h : SameBlock s t) : SameEngine s t :=
  ⟨h.st, h.stream, h.keyValid, h.inBuf, h.outBuf, h.srcWords, h.dstWords, h.srcCount, h.dstCount⟩

/-- A transaction that ends an operation: WR_CTRL of a finished and drained one, or an accepted release (43 R312, 45 R402). -/
def EndsOperation (i : Instr) (s : State) : Prop :=
  (s.st = .finished ∧ s.dmaActive = false ∧ ∃ v, i = .wrCtrl v) ∨
  (s.lockHeld = true ∧ s.releasable = true ∧ i = .wrLock 0#32)

/-- Everything a register transaction can do to the engine. -/
inductive EngineMove (i : Instr) (s t : State) : Prop where
  /-- A read, a fault, or a register that 10 R53 does not speak of. -/
  | kept (h : SameEngine s t)
  /-- A descriptor count (43 R326, R330). -/
  | counted (hc : s.configurable = true) (h : SameEngine { s with srcCount := t.srcCount, dstCount := t.dstCount } t)
  /-- A key word (43 R315). -/
  | keyed (n : BitVec 2) (v : Word) (hi : i = .wrKey n v) (hs : s.st = .idle ∨ s.st = .keyLoaded)
    (h : SameEngine (s.loadKeyWord n v) t)
  /-- A data word (43 R318). -/
  | fed (v : Word) (hi : i = .wrDatain v) (hs : s.st = .keyLoaded ∨ s.st = .feeding) (h : SameEngine (s.feedWord v) t)
  /-- A result word of a single block (43 R322). -/
  | popped (x : Word) (rest : List Word) (hi : i = .rdDataout) (hs : s.st = .finished) (hf : s.stream = false)
    (ho : s.outBuf = x :: rest) (h : SameEngine (s.popResult rest) t)
  /-- An accepted START (43 R311). -/
  | started (v : Word) (hi : i = .wrCtrlStart v) (hs : s.st = .keyLoaded) (hc : s.countsValid = true)
    (h : SameEngine (s.startStream (v.getLsbD 0)) t)
  /-- The end of an operation, which is a teardown. -/
  | ended (he : EndsOperation i s) (h : SameEngine s.teardown t)

/-- The guard check touches the fault set only. -/
theorem sameBlock_guardCheck (s : State) : SameBlock s s.guardCheck := by constructor <;> rfl
@[simp] theorem guardCheck_configurable (s : State) : s.guardCheck.configurable = s.configurable := rfl
@[simp] theorem guardCheck_countsValid (s : State) : s.guardCheck.countsValid = s.countsValid := rfl

/-- Popping a result word leaves the same engine with the guard check or without it. -/
theorem sameEngine_popResult_guardCheck (rest : List Word) (s : State) :
    SameEngine (s.popResult rest) (s.guardCheck.popResult rest) := by
  unfold State.popResult
  split <;> (constructor <;> rfl)

theorem exec_engineMove {i : Instr} {s t : State} (h : exec i s = .next t) : EngineMove i s t := by
  cases i
  case rdCtrl | rdKey | rdDatain | rdDmaSrcAddr | rdDmaSrcCount | rdDmaDstAddr | rdDmaDstCount | rdDmaCtrl | rdDmaStatus | rdResult
      | wrDataout | wrDmaStatus =>
    cases h
    exact .kept (by constructor <;> rfl)
  case wrDmaSrcAddr | wrDmaDstAddr | wrDmaCtrl | rdLock | wrResult =>
    simp only [exec, execWrDmaSrcAddr, execWrDmaDstAddr, execWrDmaCtrl, execRdLock, execWrResult] at h
    repeat' split at h
    all_goals
      cases h
      exact .kept (by constructor <;> rfl)
  case wrDmaSrcCount | wrDmaDstCount =>
    simp only [exec, execWrDmaSrcCount, execWrDmaDstCount] at h
    repeat' split at h
    all_goals cases h
    · exact .kept (by constructor <;> rfl)
    · exact .kept (by constructor <;> rfl)
    · rename_i hc
      exact .counted (by simpa using hc) (by constructor <;> rfl)
  case wrKey n v =>
    simp only [exec, execWrKey, guardCheck_st] at h
    cases hs : s.st <;> rw [hs] at h <;> cases h
    case idle => exact .keyed n v rfl (.inl hs) (by constructor <;> rfl)
    case keyLoaded => exact .keyed n v rfl (.inr hs) (by constructor <;> rfl)
    all_goals exact .kept (by constructor <;> rfl)
  case wrDatain v =>
    simp only [exec, execWrDatain, guardCheck_st] at h
    cases hs : s.st <;> rw [hs] at h <;> cases h
    case keyLoaded => exact .fed v rfl (.inl hs) (by constructor <;> rfl)
    case feeding => exact .fed v rfl (.inr hs) (by constructor <;> rfl)
    all_goals exact .kept (by constructor <;> rfl)
  case rdDataout =>
    simp only [exec, execRdDataout] at h
    split at h <;> cases h
    · rename_i x rest hs hf ho
      exact .popped x rest rfl hs hf ho
        ((sameEngine_popResult_guardCheck rest s).trans (sameBlock_returnWord x _).sameEngine)
    · exact .kept ((sameBlock_guardCheck s).trans (sameBlock_refuseRead _ _)).sameEngine
  case wrCtrlStart v =>
    simp only [exec, execWrCtrlStart] at h
    repeat' split at h
    all_goals cases h
    case h_1.isFalse.isFalse.refl hs hc _ =>
      exact .started v rfl hs (by simpa using hc) (by constructor <;> rfl)
    all_goals exact .kept (by constructor <;> rfl)
  case wrCtrl v =>
    simp only [exec, execWrCtrl, State.endOperation, guardCheck_st] at h
    split at h
    · cases h
      exact .kept (by constructor <;> rfl)
    cases hs : s.st <;> rw [hs] at h
    case finished =>
      simp only at h
      split at h <;> cases h
      · exact .kept (by constructor <;> rfl)
      · rename_i hd
        exact .ended (.inl ⟨hs, by simpa [State.dmaActive, hs] using hd, v, rfl⟩) (by constructor <;> rfl)
    all_goals
      cases h
      exact .kept (by constructor <;> rfl)
  case wrLock v =>
    simp only [exec, execWrLock] at h
    repeat' split at h
    all_goals cases h
    case isFalse.isFalse.isTrue.refl hv hl hr =>
      have hv : v = 0#32 := by simpa using hv
      exact .ended (.inr ⟨by simpa using hl, hr, by rw [hv]⟩) (by constructor <;> rfl)
    all_goals exact .kept (by constructor <;> rfl)

end Sys2Proof.Machine

/-! The block invariants (a) to (i) of 10 R53 by themselves, without the account of a stream. -/

namespace Sys2Proof.Machine

theorem BlockInv.of_same {s t : State} (h : SameEngine s t) (k : BlockInv s) : BlockInv t := by
  simp only [BlockInv, h.st, h.stream, h.keyValid, h.inBuf, h.outBuf, h.srcWords, h.dstWords, h.srcCount, h.dstCount] at k ⊢
  exact k

theorem blockInv_teardown (s : State) : BlockInv s.teardown := (engineInv_teardown s).1

/-- The engine's step is enabled in COMPUTING and STREAMING only (43 R340). -/
theorem engineEnabled_st {s : State} (h : s.engineEnabled = true) : s.st = .computing ∨ s.st = .streaming := by
  unfold State.engineEnabled at h
  cases hs : s.st <;> simp [hs] at h ⊢

/-- Clause (f): a stream is in STREAMING or FINISHED only. -/
theorem BlockInv.no_stream {s : State} (k : BlockInv s) (hs : s.st ≠ .streaming) (hf : s.st ≠ .finished) : s.stream = false := by
  obtain ⟨-, -, -, -, -, h, -, -, -⟩ := k
  by_contra hq
  exact (h (by simpa using hq)).elim hs hf

/-- The words in inBuf that a data word finds: none in KEY_LOADED, one to three in FEEDING (clauses (b) and (c)). -/
theorem BlockInv.fed_length {s : State} (k : BlockInv s) (h : s.st = .keyLoaded ∨ s.st = .feeding) : s.inBuf.length ≤ 3 := by
  obtain ⟨-, hkey, hfeed, -⟩ := k
  rcases h with h | h
  · simp [(hkey h).2]
  · exact (hfeed h).2.1

/-- A descriptor count changes only while there is no stream, and clause (h) is about a stream. -/
theorem BlockInv.setCounts {s : State} (k : BlockInv s) (h : s.configurable = true) (n m : BitVec 16) :
    BlockInv { s with srcCount := n, dstCount := m } := by
  have hn : s.stream = false := k.no_stream (fun e => by simp [State.configurable, e] at h) (fun e => by simp [State.configurable, e] at h)
  obtain ⟨ha, hb, hc, hd, he, hf, hg, -, hi⟩ := k
  exact ⟨ha, hb, hc, hd, he, hf, hg, fun e => absurd (hn.symm.trans e) (by decide), hi⟩

theorem keyComplete_set {kv : Quad Bool} (h : keyComplete kv = true) (n : BitVec 2) : keyComplete (kv.set n true) = true := by
  simp only [keyComplete, Quad.set, Bool.and_eq_true] at h ⊢
  simp [h]

/-- A key word: from IDLE to KEY_LOADED if it completes the key, and KEY_LOADED stays complete (43 R315). -/
theorem BlockInv.loadKeyWord {s : State} (k : BlockInv s) (h : s.st = .idle ∨ s.st = .keyLoaded) (n : BitVec 2) (v : Word) :
    BlockInv (s.loadKeyWord n v) := by
  have hn := k.no_stream
  obtain ⟨⟨-, ha⟩, hkey, -, -, -, -, hidle, -, -⟩ := k
  rcases h with h | h
  · obtain ⟨hin, hout, hs⟩ := hidle h
    by_cases hk : keyComplete (s.keyValid.set n true) = true
    · simp [BlockInv, h, hin, hout, hs, hk]
    · simp [BlockInv, h, hin, hout, hs, hk]
  · obtain ⟨hk, hin⟩ := hkey h
    have hs : s.stream = false := hn (by simp [h]) (by simp [h])
    simp [BlockInv, h, hin, hs, keyComplete_set hk, ha]

/-- A data word: the fourth makes COMPUTING, one to three are FEEDING (43 R318). -/
theorem BlockInv.feedWord {s : State} (k : BlockInv s) (h : s.st = .keyLoaded ∨ s.st = .feeding) (v : Word) :
    BlockInv (s.feedWord v) := by
  have hs : s.stream = false := k.no_stream (by rcases h with h | h <;> simp [h]) (by rcases h with h | h <;> simp [h])
  have hlen : s.inBuf.length ≤ 3 := k.fed_length h
  obtain ⟨⟨-, ha⟩, -⟩ := k
  by_cases h4 : s.inBuf.length = 3
  · simp [BlockInv, hs, h4, ha]
  · simp [BlockInv, hs, h4, ha]
    omega

/-- An accepted START begins with both counters at 0 (43 R311). -/
theorem BlockInv.startStream {s : State} (k : BlockInv s) (dir : Bool) : BlockInv (s.startStream dir) := by
  obtain ⟨ha, -⟩ := k
  simp [BlockInv, ha]

/-- A result word that is not the last leaves one to three (43 R322). -/
theorem BlockInv.popResult {s : State} (k : BlockInv s) (hs : s.st = .finished) (hf : s.stream = false) {x : Word} {rest : List Word}
    (ho : s.outBuf = x :: rest) : BlockInv (s.popResult rest) := by
  unfold State.popResult
  split
  · exact blockInv_teardown s
  · rename_i hr
    obtain ⟨⟨ha, ha'⟩, -⟩ := k
    have hpos : rest.length ≠ 0 := by simpa using hr
    rw [ho, List.length_cons] at ha'
    simp [BlockInv, hs, hf, ha]
    omega

/-- Every register transaction keeps clauses (a) to (i). -/
theorem exec_blockInv {i : Instr} {s t : State} (k : BlockInv s) (h : exec i s = .next t) : BlockInv t := by
  cases exec_engineMove h with
  | kept h => exact k.of_same h
  | counted hc h => exact (k.setCounts hc _ _).of_same h
  | keyed n v _ hs h => exact (k.loadKeyWord hs n v).of_same h
  | fed v _ hs h => exact (k.feedWord hs v).of_same h
  | popped x rest _ hs hf ho h => exact (k.popResult hs hf ho).of_same h
  | started v _ _ _ h => exact (k.startStream _).of_same h
  | ended _ h => exact (blockInv_teardown s).of_same h

/-- The ENGINE step empties inBuf and leaves the four words of the block in outBuf (43 R340). -/
theorem engineStep_blockInv {s : State} (k : BlockInv s) : BlockInv s.engineStep := by
  unfold State.engineStep
  split
  · rename_i he
    split
    · obtain ⟨-, -, -, hcomp, hstr, -, -, hw, -⟩ := k
      simp only
      split
      · rename_i hst
        simp [BlockInv, (hcomp hst).2, Quad.toList]
      · rename_i hst
        have hs : s.stream = true := hstr ((engineEnabled_st he).resolve_left hst)
        by_cases hq : s.blocksDone + 1#16 = s.srcCount
        · simp [BlockInv, hs, hq, Quad.toList, hw hs]
        · simp [BlockInv, hs, hq, Quad.toList, hw hs]
    · exact k
  · exact k

/-- DMA_SRC takes a word only where inBuf has room and the range has a word left (44 R362). -/
theorem dmaSrcStep_blockInv {s : State} (k : BlockInv s) : BlockInv s.dmaSrcStep := by
  unfold State.dmaSrcStep
  split
  · rename_i he
    simp only [State.srcEnabled, Bool.and_eq_true, decide_eq_true_eq] at he
    obtain ⟨⟨⟨⟨-, hst⟩, hlen⟩, hw⟩, -⟩ := he
    obtain ⟨⟨-, ha⟩, -, -, -, hstr, -, -, hcount, -⟩ := k
    simp [BlockInv, hst, hstr hst, ha, hcount (hstr hst)]
    omega
  · exact k

/-- DMA_DST takes a word off outBuf only in a stream that has a word left to write (44 R363). -/
theorem dmaDstStep_blockInv {s : State} (k : BlockInv s) : BlockInv s.dmaDstStep := by
  unfold State.dmaDstStep
  split
  · rename_i he
    simp only [State.dstEnabled, Bool.and_eq_true, decide_eq_true_eq] at he
    obtain ⟨⟨⟨⟨-, hs⟩, -⟩, hw⟩, -⟩ := he
    split
    · exact k
    · rename_i x rest ho
      obtain ⟨⟨ha, ha'⟩, hb, hc, hd, he, hf, hg, hcount, -⟩ := k
      rw [ho, List.length_cons] at ha'
      refine ⟨⟨ha, Nat.le_of_succ_le ha'⟩, hb, hc, hd, he, hf, fun e => ?_, fun _ => ⟨(hcount hs).1, ?_⟩, fun _ e => ?_⟩
      · simp [hs] at hg
        exact absurd e hg
      · show (s.dstWords + 1#18).toNat ≤ 4 * s.dstCount.toNat
        rw [BitVec.toNat_add, BitVec.toNat_ofNat]
        omega
      · simp [hs] at e
  · exact k

theorem blockInv_keptByMoves : KeptByMoves BlockInv where
  same h := .of_same h.sameEngine
  exec := exec_blockInv
  store _ _ k := k
  engine := engineStep_blockInv
  dmaSrc := dmaSrcStep_blockInv
  dmaDst := dmaDstStep_blockInv
  reset s := (blockInv_teardown _).of_same (sameBlock_teardown_afterReset s).sameEngine

/-- Settles O10, by the moves a step can make: each keeps clauses (a) to (i) without the account of a stream. -/
theorem blockInvariantsAreKept : Obligations.BlockInvariantsAreKept :=
  ⟨fun _ _ => blockInv_keptByMoves.step, engineInv_reset.1⟩

end Sys2Proof.Machine

/-! The arrows of 10 R54: which transaction and which agent's step moves the engine state, and from where. -/

namespace Sys2Proof.Machine

theorem Quad.get_set_of_ne {α : Type} {m n : BitVec 2} (h : m ≠ n) (q : Quad α) (v : α) : (q.set n v).get m = q.get m := by
  have hm : m = 0#2 ∨ m = 1#2 ∨ m = 2#2 ∨ m = 3#2 := by
    clear h
    revert m
    decide
  rcases hm with rfl | rfl | rfl | rfl <;> simp [Quad.get, Quad.set, h.symm]

/-- A complete key has each of its four words (10 R36). -/
theorem get_of_keyComplete {kv : Quad Bool} (h : keyComplete kv = true) (m : BitVec 2) : kv.get m = true := by
  simp only [keyComplete, Bool.and_eq_true] at h
  simp [Quad.get, h]

/-- Where a transaction takes the engine state, and from where (10 R54). -/
theorem exec_st {i : Instr} {s t : State} (k : BlockInv s) (h : exec i s = .next t) :
    t.st = s.st ∨
    (s.st = .idle ∧ t.st = .keyLoaded ∧ ∃ n v, i = .wrKey n v ∧ ∀ m, m ≠ n → s.keyValid.get m = true) ∨
    (s.st = .keyLoaded ∧ t.st = .feeding ∧ ∃ v, i = .wrDatain v) ∨
    (s.st = .feeding ∧ t.st = .computing ∧ s.inBuf.length = 3 ∧ ∃ v, i = .wrDatain v) ∨
    (s.st = .finished ∧ t.st = .idle ∧ s.stream = false ∧ s.outBuf.length = 1 ∧ i = .rdDataout) ∨
    (s.st = .keyLoaded ∧ t.st = .streaming ∧ s.countsValid = true ∧ ∃ v, i = .wrCtrlStart v) ∨
    (s.st = .finished ∧ t.st = .idle ∧ s.dmaActive = false ∧ ∃ v, i = .wrCtrl v) ∨
    ((s.st = .keyLoaded ∨ s.st = .finished) ∧ t.st = .idle ∧ s.dmaActive = false ∧ s.lockHeld = true ∧ i = .wrLock 0#32) := by
  cases exec_engineMove h with
  | kept h => exact .inl h.st
  | counted _ h => exact .inl h.st
  | keyed n v hi hs h =>
    by_cases hk : s.st = .idle ∧ keyComplete (s.keyValid.set n true) = true
    · refine .inr <| .inl ⟨hk.1, by simp [h.st, hk], n, v, hi, fun m hm => ?_⟩
      rw [← Quad.get_set_of_ne hm s.keyValid true]
      exact get_of_keyComplete hk.2 m
    · exact .inl (by simp [h.st, hk])
  | fed v hi hs h =>
    rcases hs with hs | hs
    · obtain ⟨-, hkey, -⟩ := k
      have hin : s.inBuf = [] := (hkey hs).2
      exact .inr <| .inr <| .inl ⟨hs, by simp [h.st, hin], v, hi⟩
    · by_cases h3 : s.inBuf.length = 3
      · exact .inr <| .inr <| .inr <| .inl ⟨hs, by simp [h.st, h3], h3, v, hi⟩
      · exact .inl (by simp [h.st, h3, hs])
  | popped x rest hi hs hf ho h =>
    by_cases hr : rest = []
    · exact .inr <| .inr <| .inr <| .inr <| .inl ⟨hs, by simp [h.st, State.popResult, hr], hf, by simp [ho, hr], hi⟩
    · exact .inl (by simp [h.st, State.popResult, hr])
  | started v hi hs hc h => exact .inr <| .inr <| .inr <| .inr <| .inr <| .inl ⟨hs, h.st, hc, v, hi⟩
  | ended he h =>
    rcases he with ⟨hs, hd, hi⟩ | ⟨hl, hr, hi⟩
    · exact .inr <| .inr <| .inr <| .inr <| .inr <| .inr <| .inl ⟨hs, h.st, hd, hi⟩
    · cases hs : s.st <;> simp only [State.releasable, hs] at hr
      case idle => exact .inl h.st
      case keyLoaded =>
        exact .inr <| .inr <| .inr <| .inr <| .inr <| .inr <| .inr ⟨.inl rfl, h.st, by simp [State.dmaActive, hs], hl, hi⟩
      case finished =>
        exact .inr <| .inr <| .inr <| .inr <| .inr <| .inr <| .inr ⟨.inr rfl, h.st, by simpa using hr, hl, hi⟩
      all_goals cases hr

/-- No transaction leaves COMPUTING or STREAMING, whatever the other fields hold (10 R54). -/
theorem exec_st_of_busy {i : Instr} {s t : State} (hb : s.st = .computing ∨ s.st = .streaming) (h : exec i s = .next t) :
    t.st = s.st := by
  cases exec_engineMove h with
  | kept h => exact h.st
  | counted _ h => exact h.st
  | keyed n v _ hs _ | fed v _ hs _ => rcases hs with hs | hs <;> simp [hs] at hb
  | popped x rest _ hs _ _ _ | started v _ hs _ _ => simp [hs] at hb
  | ended he _ =>
    rcases he with ⟨hs, _⟩ | ⟨_, hr, _⟩
    · simp [hs] at hb
    · rcases hb with hb | hb <;> simp [State.releasable, hb] at hr

/-- The ENGINE step ends a single block, and the last block of a stream (43 R340). -/
theorem engineStep_st (s : State) : s.engineStep.st = s.st ∨ (s.st = .computing ∧ s.engineStep.st = .finished) ∨
    (s.st = .streaming ∧ s.engineStep.st = .finished ∧ s.engineStep.blocksDone = s.srcCount) := by
  unfold State.engineStep
  split
  · rename_i he
    split
    · simp only
      split
      · rename_i hst
        exact .inr <| .inl ⟨hst, rfl⟩
      · rename_i hst
        have hst : s.st = .streaming := (engineEnabled_st he).resolve_left hst
        by_cases hq : s.blocksDone + 1#16 = s.srcCount
        · exact .inr <| .inr ⟨hst, by simp [hq], by simp [hq]⟩
        · exact .inl (by simp [hq, hst])
    · exact .inl rfl
  · exact .inl rfl

theorem dmaSrcStep_st (s : State) : s.dmaSrcStep.st = s.st := by
  unfold State.dmaSrcStep
  split <;> rfl

theorem dmaDstStep_st (s : State) : s.dmaDstStep.st = s.st := by
  unfold State.dmaDstStep
  split
  · split <;> rfl
  · rfl

/-- No host step leaves COMPUTING or STREAMING. -/
theorem hostStepCases_st_of_busy {s t : State} (hb : s.st = .computing ∨ s.st = .streaming) (h : HostStepCases s t) : t.st = s.st := by
  cases h with
  | ran i h =>
    obtain ⟨u, v, hu, he, hv⟩ := h
    calc t.st = v.st := hv.st
      _ = u.st := exec_st_of_busy (by rwa [hu.st]) he
      _ = s.st := hu.st
  | stored a b h => exact h.st
  | quiet h => exact h.st

/-- COMPUTING and STREAMING are left by the ENGINE step, to FINISHED, and by reset, to IDLE. -/
theorem step_st_of_busy {s t : State} (h : step s = .next t) (hb : s.st = .computing ∨ s.st = .streaming) :
    t.st = s.st ∨ (t.st = .finished ∧ s.schedule.head? = some .engine) ∨ (t.st = .idle ∧ s.schedule.head? = some .reset) := by
  cases step_cases h with
  | idle _ ht => exact .inl (by rw [ht])
  | host rest _ hh => exact .inl (hostStepCases_st_of_busy (s := { s with schedule := rest }) hb hh)
  | engine rest hs ht =>
    rw [ht]
    rcases engineStep_st { s with schedule := rest } with h | ⟨_, h⟩ | ⟨_, h, _⟩
    · exact .inl h
    · exact .inr <| .inl ⟨h, by simp [hs]⟩
    · exact .inr <| .inl ⟨h, by simp [hs]⟩
  | dmaSrc rest _ ht => exact .inl (ht ▸ dmaSrcStep_st _)
  | dmaDst rest _ ht => exact .inl (ht ▸ dmaDstStep_st _)
  | interrupt _ _ ht => exact .inl ht.st
  | reset rest hs ht => exact .inr <| .inr ⟨by rw [ht]; rfl, by simp [hs]⟩

/-- Settles O19, by the moves a transaction can make of the engine and by the branches of the agents' steps. -/
theorem engineStateMovesByTheTable : Obligations.EngineStateMovesByTheTable :=
  ⟨fun _ _ _ => exec_st, engineStep_st, fun s => ⟨dmaSrcStep_st s, dmaDstStep_st s⟩, fun _ _ => step_st_of_busy⟩

end Sys2Proof.Machine

/-! The fault set only grows, but for reset (10 R46): what a transaction records, and what a step does. -/

namespace Sys2Proof.Machine

/-- The fault set after the guard check of a transaction, if it has one (43 R301). -/
def checkedFaults (i : Instr) (s : State) : FaultSet := if isGuarded i then s.guardFaults else s.faults

/-- An answer whose fault set is `f`, or `f` and one reason more. -/
inductive Records (f : FaultSet) : Result → Prop where
  | checked {t : State} (h : t.faults = f) : Records f (.next t)
  | reason {t : State} (r : Fault) (h : t.faults = f.add r) : Records f (.next t)

theorem Records.ite {f : FaultSet} {c : Prop} [Decidable c] {a b : Result} (ha : Records f a) (hb : Records f b) :
    Records f (if c then a else b) := by
  split
  · exact ha
  · exact hb

/-- The same, where the branch lies inside the answer. -/
theorem Records.next_ite {f : FaultSet} {c : Prop} [Decidable c] {t u : State} (ht : Records f (.next t)) (hu : Records f (.next u)) :
    Records f (.next (if c then t else u)) := by
  split
  · exact ht
  · exact hu

theorem popResult_faults (rest : List Word) (s : State) : (s.popResult rest).faults = s.faults := by
  unfold State.popResult
  split <;> rfl

/-- A transaction records what its guard check finds, and at most one reason more (43 R301, R302). -/
theorem exec_records (i : Instr) (s : State) : Records (checkedFaults i s) (exec i s) := by
  cases i
  case rdCtrl | rdKey | rdDatain | rdDmaSrcAddr | rdDmaSrcCount | rdDmaDstAddr | rdDmaDstCount | rdDmaCtrl | rdDmaStatus | rdResult =>
    exact .checked rfl
  case wrDataout | wrDmaStatus => exact .reason .writeReadOnly rfl
  case wrDmaSrcAddr | wrDmaDstAddr => exact .ite (.reason .dmaMisaligned rfl) (.ite (.reason .dmaConfigWhileBusy rfl) (.checked rfl))
  case wrDmaSrcCount | wrDmaDstCount => exact .ite (.reason .reservedBits rfl) (.ite (.reason .dmaConfigWhileBusy rfl) (.checked rfl))
  case wrDmaCtrl => exact .ite (.reason .reservedBits rfl) (.ite (.reason .dmaDisableWhileBusy rfl) (.checked rfl))
  case rdLock => exact .ite (.checked rfl) (.checked rfl)
  case wrResult => exact .ite (.reason .reservedBits rfl) (.checked rfl)
  case wrLock =>
    exact .ite (.reason .reservedBits rfl) (.ite (.reason .releaseNotHeld rfl) (.ite (.checked rfl) (.reason .releaseMidOp rfl)))
  case wrCtrl v =>
    refine .ite (.reason .reservedBits rfl) ?_
    simp only [guardCheck_st]
    cases s.st
    case idle | keyLoaded => exact .checked rfl
    case feeding | computing | streaming => exact .reason .ctrlWriteWhileBusy rfl
    case finished => exact .next_ite (.reason .dmaNotDrained rfl) (.checked rfl)
  case wrCtrlStart v =>
    refine .ite (.reason .reservedBits rfl) ?_
    simp only [guardCheck_st]
    cases s.st
    case keyLoaded => exact .ite (.checked rfl) (.ite (.reason .dmaWrap rfl) (.checked rfl))
    case idle | finished => exact .reason .startNotReady rfl
    case feeding | computing | streaming => exact .reason .ctrlWriteWhileBusy rfl
  case wrKey n v =>
    simp only [exec, execWrKey, guardCheck_st]
    cases s.st
    case idle | keyLoaded => exact .checked rfl
    case feeding | computing | finished | streaming => exact .reason .keyWriteWhileBusy rfl
  case wrDatain v =>
    simp only [exec, execWrDatain, guardCheck_st]
    cases s.st
    case keyLoaded | feeding => exact .checked rfl
    case idle | computing | finished | streaming => exact .reason .feedNotReady rfl
  case rdDataout =>
    simp only [exec, execRdDataout]
    split
    · exact .checked (popResult_faults _ s.guardCheck)
    · exact .reason .dataoutNotReady rfl

/-- Every reason recorded in `s` is recorded in `t`. -/
def FaultsKept (s t : State) : Prop := ∀ r, s.faults.has r = true → t.faults.has r = true

theorem FaultsKept.of_eq {s t : State} (h : t.faults = s.faults) : FaultsKept s t := fun r hr => by rwa [h]

theorem FaultsKept.trans {s t u : State} (h : FaultsKept s t) (k : FaultsKept t u) : FaultsKept s u := fun r hr => k r (h r hr)

theorem FaultSet.has_add_of_has {f : FaultSet} {r : Fault} (h : f.has r = true) (q : Fault) : (f.add q).has r = true := by simp [h]

theorem has_checkedFaults {s : State} {r : Fault} (h : s.faults.has r = true) (i : Instr) : (checkedFaults i s).has r = true := by
  unfold checkedFaults State.guardFaults
  split
  · split
    · exact h
    · exact FaultSet.has_add_of_has h _
  · exact h

theorem exec_faultsKept {i : Instr} {s t : State} (h : exec i s = .next t) : FaultsKept s t := by
  intro r hr
  have hc := has_checkedFaults hr i
  have hrec : Records (checkedFaults i s) (.next t) := h ▸ exec_records i s
  cases hrec with
  | checked ht => rwa [ht]
  | reason q ht =>
    rw [ht]
    exact FaultSet.has_add_of_has hc q

theorem busTransaction_faultsKept {w : Transaction} {s t : State} (h : busTransaction w s = .next t) : FaultsKept s t := by
  rcases busTransaction_cases h with ⟨i, _, hi⟩ | ⟨_, q, _, _, rfl, _⟩
  · exact exec_faultsKept hi
  · intro r hr
    unfold rejectTransaction
    split
    · exact FaultSet.has_add_of_has hr q
    · exact FaultSet.has_add_of_has hr q

/-- What a driver step does after its transaction leaves the fault set alone. -/
theorem onNext_faultsKept {i : Instr} {s u t : State} {f : State → Result} (hu : u.faults = s.faults)
    (hf : ∀ v t, f v = .next t → t.faults = v.faults) (h : onNext (issue i u) f = .next t) : FaultsKept s t := by
  obtain ⟨v, hv, ht⟩ := onNext_next h
  exact ((FaultsKept.of_eq hu).trans (exec_faultsKept (issue_ran hv))).trans (.of_eq (hf v t ht))

theorem execDrvOp_faultsKept {op : DrvOp} {rest : List DrvOp} {s t : State} (h : execDrvOp op rest s = .next t) : FaultsKept s t := by
  cases op with
  | acquire =>
    refine onNext_faultsKept (u := s.saveMask) rfl (fun v t h => ?_) h
    split at h <;> cases h <;> rfl
  | poll i m n =>
    refine onNext_faultsKept (u := s) rfl (fun v t h => ?_) h
    split at h
    · cases h; rfl
    · split at h <;> cases h <;> rfl
  | checkStarted =>
    refine onNext_faultsKept (u := s) rfl (fun v t h => ?_) h
    split at h <;> cases h <;> rfl
  | xact _ | drain | release _ => exact onNext_faultsKept (u := s) rfl (fun v t h => by cases h; rfl) h

theorem startCall_faults {c : ApiCall} {s t : State} (h : startCall c s = .next t) : t.faults = s.faults := by
  unfold startCall at h
  repeat' split at h
  all_goals cases h
  all_goals rfl

theorem execHostCmd_faultsKept {c : HostCmd} {s t : State} (h : execHostCmd c s = .next t) : FaultsKept s t := by
  cases c with
  | bus w => exact busTransaction_faultsKept h
  | call a => exact .of_eq (startCall_faults h)
  | setMask b => cases h; exact .of_eq rfl
  | load a =>
    simp only [execHostCmd, hostLoad] at h
    split at h
    · exact busTransaction_faultsKept h
    · cases h; exact .of_eq rfl
  | store a b =>
    simp only [execHostCmd, hostStore] at h
    split at h
    · exact busTransaction_faultsKept h
    · cases h; exact .of_eq rfl
  | spinLock =>
    refine onNext_faultsKept (u := s) rfl (fun v t h => ?_) h
    split at h <;> cases h <;> rfl

theorem hostStep_faultsKept {s t : State} (h : s.hostStep = .next t) : FaultsKept s t := by
  unfold State.hostStep at h
  split at h
  · exact execDrvOp_faultsKept h
  · exact execHostCmd_faultsKept (s := s.setCur _) h
  · split at h <;> cases h <;> exact .of_eq rfl

theorem engineStep_faults (s : State) : s.engineStep.faults = s.faults := by
  unfold State.engineStep
  repeat' split
  all_goals rfl

theorem dmaSrcStep_faults (s : State) : s.dmaSrcStep.faults = s.faults := by
  unfold State.dmaSrcStep
  split <;> rfl

theorem dmaDstStep_faults (s : State) : s.dmaDstStep.faults = s.faults := by
  unfold State.dmaDstStep
  repeat' split
  all_goals rfl

theorem enterIsr_faults (s : State) : s.enterIsr.faults = s.faults := by
  unfold State.enterIsr
  split <;> rfl

/-- A step of any agent but reset keeps every recorded reason. -/
theorem agentStep_faultsKept {a : Agent} (ha : a ≠ .reset) {s t : State} (h : s.agentStep a = .next t) : FaultsKept s t := by
  cases a with
  | host => exact hostStep_faultsKept h
  | engine => cases h; exact .of_eq (engineStep_faults s)
  | dmaSrc => cases h; exact .of_eq (dmaSrcStep_faults s)
  | dmaDst => cases h; exact .of_eq (dmaDstStep_faults s)
  | irqRaise => cases h; exact .of_eq rfl
  | isrEnter => cases h; exact .of_eq (enterIsr_faults s)
  | reset => exact absurd rfl ha

theorem step_faultsKept {s t : State} (h : step s = .next t) (hr : s.schedule.head? ≠ some .reset) : FaultsKept s t := by
  unfold step at h
  split at h
  · cases h; exact .of_eq rfl
  · rename_i a rest hs
    have ha : a ≠ .reset := fun e => hr (by rw [hs, e]; rfl)
    exact (FaultsKept.of_eq (t := { s with schedule := rest }) rfl).trans (agentStep_faultsKept ha h)

/-- Settles O17: a transaction records its guard check and at most one reason more, and the other steps record nothing. -/
theorem faultReasonsAreSticky : Obligations.FaultReasonsAreSticky :=
  ⟨fun _ _ _ r h => exec_faultsKept h r, fun _ _ r h hr => step_faultsKept h hr r⟩

end Sys2Proof.Machine

/-! System memory under a step: which steps write it, and that every write keeps its canonical form (20 R81, R96). -/

namespace Sys2Proof.Machine

theorem RanTransaction.mem {i : Instr} {s t : State} (h : RanTransaction i s t) : t.mem = s.mem := by
  obtain ⟨u, v, hu, he, hv⟩ := h
  calc t.mem = v.mem := hv.mem
    _ = u.mem := (frame_of_exec he).mem
    _ = s.mem := hu.mem

theorem engineStep_mem (s : State) : s.engineStep.mem = s.mem := by
  unfold State.engineStep
  repeat' split
  all_goals rfl

theorem dmaSrcStep_mem (s : State) : s.dmaSrcStep.mem = s.mem := by
  unfold State.dmaSrcStep
  split <;> rfl

theorem hostStepCases_wf {s t : State} (hm : s.mem.wf = true) (h : HostStepCases s t) : t.mem.wf = true := by
  cases h with
  | ran i h => rwa [h.mem]
  | stored a b h => rw [h.mem]; exact Memory.wf_write8 hm a b
  | quiet h => rwa [h.mem]

theorem dmaDstStep_wf {s : State} (hm : s.mem.wf = true) : s.dmaDstStep.mem.wf = true := by
  unfold State.dmaDstStep
  split
  · split
    · exact hm
    · exact Memory.wf_write32 hm _ _
  · exact hm

/-- Settles O13: a step writes memory by a host store or by the word of DMA_DST, and both keep the form. -/
theorem memoryStaysCanonical : Obligations.MemoryStaysCanonical := by
  intro s t hm h
  cases step_cases h with
  | idle _ ht => rwa [ht]
  | host rest _ hh => exact hostStepCases_wf (s := { s with schedule := rest }) hm hh
  | engine rest _ ht => rw [ht, engineStep_mem]; exact hm
  | dmaSrc rest _ ht => rw [ht, dmaSrcStep_mem]; exact hm
  | dmaDst rest _ ht => rw [ht]; exact dmaDstStep_wf hm
  | interrupt _ _ ht => rwa [ht.mem]
  | reset rest _ ht => rw [ht]; exact hm

/-! ### Which byte a host step writes -/

/-- The scheduled agent takes its step (20 R91). -/
theorem step_scheduled {s : State} {a : Agent} {rest : List Agent} (h : s.schedule = a :: rest) :
    step s = State.agentStep a { s with schedule := rest } := by
  unfold step
  rw [h]

theorem busTransaction_mem {w : Transaction} {s t : State} (h : busTransaction w s = .next t) : t.mem = s.mem := by
  rcases busTransaction_cases h with ⟨i, _, hi⟩ | ⟨_, _, _, _, _, hb⟩
  · exact (frame_of_exec hi).mem
  · exact hb.mem

/-- Memory is as before, or the byte of the host store that comes next is written (20 R96). -/
def HostWrote (s t : State) : Prop := t.mem = s.mem ∨ ∃ a b, s.nextHostStore = some a ∧ t.mem = s.mem.write8 a b

theorem execHostCmd_mem {c : HostCmd} {s t : State} (h : execHostCmd c s = .next t) :
    t.mem = s.mem ∨ ∃ a b, c = .store a b ∧ s.platform.inWindow a = false ∧ t.mem = s.mem.write8 a b := by
  cases c with
  | bus w => exact .inl (busTransaction_mem h)
  | call a => exact .inl (startCall_sameBlock h).mem
  | setMask b => cases h; exact .inl rfl
  | load a =>
    simp only [execHostCmd, hostLoad] at h
    split at h
    · exact .inl (busTransaction_mem h)
    · cases h; exact .inl rfl
  | store a b =>
    simp only [execHostCmd, hostStore] at h
    split at h
    · exact .inl (busTransaction_mem h)
    · rename_i hw
      cases h
      exact .inr ⟨a, b, rfl, by simpa using hw, rfl⟩
  | spinLock =>
    obtain ⟨u, hu, h⟩ := onNext_next h
    have hm : u.mem = s.mem := (frame_of_exec (issue_ran hu)).mem
    split at h <;> cases h <;> exact .inl hm

/-- The host's step writes memory by its own store alone. -/
theorem hostStep_wrote {s t : State} {rest : List Agent} (hs : s.schedule = .host :: rest)
    (h : State.hostStep { s with schedule := rest } = .next t) : HostWrote s t := by
  unfold State.hostStep at h
  split at h
  · obtain ⟨i, hi⟩ := execDrvOp_ran h
    exact .inl hi.mem
  · rename_i c cs ho hp
    rcases execHostCmd_mem h with hm | ⟨a, b, rfl, hw, hm⟩
    · exact .inl hm
    · refine .inr ⟨a, b, ?_, hm⟩
      have ho : s.cur.ops = [] := ho
      have hp : s.cur.prog = .store a b :: cs := hp
      have hw : s.platform.inWindow a = false := hw
      simp only [State.nextHostStore, hs, ho, hp, hw]
      rfl
  · split at h <;> cases h <;> exact .inl rfl

end Sys2Proof.Machine

/-! What a step does to a stream: the host and the interrupt leave its data path alone, ENGINE and the two channels each make one move
(43 R340, 44 R362, R363), and only a teardown or reset ends it (44 R370). -/

namespace Sys2Proof.Machine

/-- Two states that agree in everything a stream's data path consists of, the channel enables left out. -/
structure SameStream (s t : State) : Prop where
  decrypt : t.decrypt = s.decrypt
  st : t.st = s.st
  stream : t.stream = s.stream
  key : t.key = s.key
  inBuf : t.inBuf = s.inBuf
  outBuf : t.outBuf = s.outBuf
  blocksDone : t.blocksDone = s.blocksDone
  srcAddr : t.srcAddr = s.srcAddr
  srcCount : t.srcCount = s.srcCount
  dstAddr : t.dstAddr = s.dstAddr
  dstCount : t.dstCount = s.dstCount
  srcDone : t.srcDone = s.srcDone
  dstDone : t.dstDone = s.dstDone
  srcWords : t.srcWords = s.srcWords
  dstWords : t.dstWords = s.dstWords
  mem : t.mem = s.mem
  platform : t.platform = s.platform

theorem SameStream.trans {s t u : State} (h : SameStream s t) (k : SameStream t u) : SameStream s u :=
  ⟨k.decrypt.trans h.decrypt, k.st.trans h.st, k.stream.trans h.stream, k.key.trans h.key, k.inBuf.trans h.inBuf,
   k.outBuf.trans h.outBuf, k.blocksDone.trans h.blocksDone, k.srcAddr.trans h.srcAddr, k.srcCount.trans h.srcCount,
   k.dstAddr.trans h.dstAddr, k.dstCount.trans h.dstCount, k.srcDone.trans h.srcDone, k.dstDone.trans h.dstDone,
   k.srcWords.trans h.srcWords, k.dstWords.trans h.dstWords, k.mem.trans h.mem, k.platform.trans h.platform⟩

theorem SameBlock.sameStream {s t : State} (h : SameBlock s t) : SameStream s t :=
  ⟨h.decrypt, h.st, h.stream, h.key, h.inBuf, h.outBuf, h.blocksDone, h.srcAddr, h.srcCount, h.dstAddr, h.dstCount, h.srcDone,
   h.dstDone, h.srcWords, h.dstWords, h.mem, h.platform⟩

theorem SameStream.dmaActive {s t : State} (h : SameStream s t) : t.dmaActive = s.dmaActive := by
  simp only [State.dmaActive, h.st, h.stream, h.dstDone]

theorem SameStream.srcCursor {s t : State} (h : SameStream s t) : t.srcCursor = s.srcCursor := by
  simp only [State.srcCursor, h.srcAddr, h.srcWords]

theorem SameStream.dstCursor {s t : State} (h : SameStream s t) : t.dstCursor = s.dstCursor := by
  simp only [State.dstCursor, h.dstAddr, h.dstWords]

/-- Descriptors are written in IDLE and KEY_LOADED only (43 R324 to R330). -/
theorem configurable_of_stream {s : State} (h : s.st = .streaming ∨ s.st = .finished) : s.configurable = false := by
  rcases h with h | h <;> simp [State.configurable, h]

/-- The guard check and what a read returns or a fault records leave a stream alone. -/
theorem sameStream_checkedRaise (r : Fault) (s : State) : SameStream s (s.guardCheck.raise r) :=
  ((sameBlock_guardCheck s).trans (sameBlock_raise r _)).sameStream

theorem sameBlock_returnDrawn (mask v : Word) (s : State) : SameBlock s (s.returnDrawn mask v) := by constructor <;> rfl

theorem sameStream_checkedDrawn (mask v : Word) (s : State) : SameStream s (s.guardCheck.returnDrawn mask v) :=
  ((sameBlock_guardCheck s).trans (sameBlock_returnDrawn mask v _)).sameStream

theorem sameStream_checkedWord (w : Word) (s : State) : SameStream s (s.guardCheck.returnWord w) :=
  ((sameBlock_guardCheck s).trans (sameBlock_returnWord w _)).sameStream

/-- A transaction leaves a stream as it is, unless it ends one whose words are all moved (44 R370). -/
theorem exec_sameStream_or_ended {i : Instr} {s t : State} (k : BlockInv s) (hs : s.stream = true) (h : exec i s = .next t) :
    SameStream s t ∨ (t.stream = false ∧ s.dmaActive = false) := by
  have hst : s.st = .streaming ∨ s.st = .finished := by
    obtain ⟨-, -, -, -, -, hf, -⟩ := k
    exact hf hs
  have hc : s.guardCheck.configurable = false := configurable_of_stream hst
  cases i
  case rdCtrl | rdKey | rdDatain | rdDmaSrcCount | rdDmaDstCount | rdDmaCtrl | rdDmaStatus =>
    cases h
    exact .inl (sameStream_checkedDrawn _ _ s)
  case rdDmaSrcAddr | rdDmaDstAddr =>
    cases h
    exact .inl (sameStream_checkedWord _ s)
  case rdResult =>
    cases h
    exact .inl (sameBlock_returnDrawn _ _ s).sameStream
  case wrDataout | wrDmaStatus =>
    cases h
    exact .inl (sameStream_checkedRaise _ s)
  case wrDmaCtrl | rdLock | wrResult =>
    simp only [exec, execWrDmaCtrl, execRdLock, execWrResult] at h
    repeat' split at h
    all_goals
      cases h
      exact .inl (by constructor <;> rfl)
  case wrDmaSrcAddr | wrDmaDstAddr | wrDmaSrcCount | wrDmaDstCount =>
    simp only [exec, execWrDmaSrcAddr, execWrDmaDstAddr, execWrDmaSrcCount, execWrDmaDstCount, hc, Bool.not_false, if_true] at h
    split at h
    all_goals
      cases h
      exact .inl (sameStream_checkedRaise _ s)
  case wrKey | wrDatain =>
    rcases hst with e | e
    all_goals
      simp only [exec, execWrKey, execWrDatain, guardCheck_st, e] at h
      cases h
      exact .inl (sameStream_checkedRaise _ s)
  case wrCtrlStart v =>
    simp only [exec, execWrCtrlStart, guardCheck_st] at h
    split at h
    · cases h
      exact .inl (sameStream_checkedRaise _ s)
    rcases hst with e | e
    all_goals
      simp only [e] at h
      cases h
      exact .inl (sameStream_checkedRaise _ s)
  case rdDataout =>
    simp only [exec, execRdDataout, guardCheck_stream, hs] at h
    split at h
    · contradiction
    · cases h
      exact .inl ((sameBlock_guardCheck s).trans (sameBlock_refuseRead _ _)).sameStream
  case wrCtrl v =>
    simp only [exec, execWrCtrl, guardCheck_st, State.endOperation] at h
    split at h
    · cases h
      exact .inl (sameStream_checkedRaise _ s)
    rcases hst with e | e <;> simp only [e] at h
    · cases h
      exact .inl (sameStream_checkedRaise _ s)
    · split at h <;> cases h
      · exact .inl (sameStream_checkedRaise _ s)
      · rename_i hd
        exact .inr ⟨rfl, by simpa [State.dmaActive, e] using hd⟩
  case wrLock v =>
    simp only [exec, execWrLock] at h
    repeat' split at h
    all_goals cases h
    case isFalse.isFalse.isTrue.refl _ _ hr =>
      refine .inr ⟨rfl, ?_⟩
      rcases hst with e | e
      · simp [State.releasable, e] at hr
      · simpa [State.releasable, e] using hr
    all_goals exact .inl (sameBlock_raise _ s).sameStream

/-! ### The moves -/

/-- Everything a step other than reset can do to a stream. -/
inductive StreamMove (s t : State) : Prop where
  /-- Nothing. -/
  | kept (h : SameStream s t)
  /-- A host step: at most a byte of memory. -/
  | host (hs : s.schedule.head? = some .host) (hm : HostWrote s t) (h : SameStream { s with mem := t.mem } t)
  /-- A teardown, which finds every word moved (44 R370). -/
  | ended (ht : t.stream = false) (hs : s.dmaActive = false)
  /-- ENGINE computes the block in inBuf (43 R340). -/
  | computed (w0 w1 w2 w3 : Word) (hs : s.st = .streaming) (hi : s.inBuf = [w0, w1, w2, w3]) (ho : s.outBuf = [])
    (h : SameStream (s.emitBlock ⟨w0, w1, w2, w3⟩).countBlock t)
  /-- DMA_SRC reads a word (44 R362). -/
  | read (he : s.srcEnabled = true)
      (h : SameStream { s with
        inBuf := s.inBuf ++ [s.mem.read32 s.srcCursor]
        srcWords := s.srcWords + 1
        srcDone := if (s.srcWords + 1).toNat = 4 * s.srcCount.toNat then true else s.srcDone } t)
  /-- DMA_DST writes a word (44 R363). -/
  | wrote (x : Word) (rest : List Word) (he : s.dstEnabled = true) (ho : s.outBuf = x :: rest)
      (h : SameStream { s with
        mem := s.mem.write32 s.dstCursor x
        outBuf := rest
        dstWords := s.dstWords + 1
        dstDone := if (s.dstWords + 1).toNat = 4 * s.dstCount.toNat then true else s.dstDone } t)

theorem hostStepCases_sameStream_or_ended {s t : State} (k : BlockInv s) (hs : s.stream = true) (h : HostStepCases s t) :
    SameStream { s with mem := t.mem } t ∨ (t.stream = false ∧ s.dmaActive = false) := by
  cases h with
  | ran i h =>
    have hm : t.mem = s.mem := h.mem
    obtain ⟨u, v, hu, he, hv⟩ := h
    rcases exec_sameStream_or_ended (k.of_same hu.sameEngine) (hu.stream.trans hs) he with h | ⟨h, hd⟩
    · rw [hm]
      exact .inl ((hu.sameStream.trans h).trans hv.sameStream)
    · exact .inr ⟨hv.stream.trans h, hu.sameStream.dmaActive.symm.trans hd⟩
  | stored a b h =>
    rw [h.mem]
    exact .inl h.sameStream
  | quiet h =>
    rw [h.mem]
    exact .inl h.sameStream

/-- What an agent finds when its step is taken off the schedule. -/
theorem sameStream_taken (s : State) (rest : List Agent) : SameStream s { s with schedule := rest } := by constructor <;> rfl

/-- A single block is computed outside a stream, and a stream's block where outBuf is empty (43 R340, 10 R53 d). -/
theorem engineStep_streamMove {s : State} (k : BlockInv s) (hs : s.stream = true) (rest : List Agent) :
    StreamMove s (State.engineStep { s with schedule := rest }) := by
  unfold State.engineStep
  split
  · rename_i he
    have hst : s.st = .streaming := by
      obtain ⟨-, -, -, hcomp, -⟩ := k
      refine (engineEnabled_st he).resolve_left fun e => ?_
      rw [(hcomp e).2] at hs
      cases hs
    simp only [State.engineEnabled, hst, Bool.and_eq_true, decide_eq_true_eq] at he
    obtain ⟨hlen, hout⟩ := he
    obtain ⟨w0, w1, w2, w3, hin⟩ := List.length_eq_four.mp hlen
    refine .computed w0 w1 w2 w3 hst hin hout ?_
    simp only [hin, hst, reduceCtorEq, if_false]
    constructor <;> rfl
  · exact .kept (sameStream_taken s rest)

theorem dmaSrcStep_streamMove (s : State) (rest : List Agent) : StreamMove s (State.dmaSrcStep { s with schedule := rest }) := by
  unfold State.dmaSrcStep
  split
  · rename_i he
    exact .read he (sameStream_taken _ rest)
  · exact .kept (sameStream_taken s rest)

theorem dmaDstStep_streamMove (s : State) (rest : List Agent) : StreamMove s (State.dmaDstStep { s with schedule := rest }) := by
  unfold State.dmaDstStep
  split
  · rename_i he
    split
    · exact .kept (sameStream_taken s rest)
    · rename_i x tail ho
      exact .wrote x tail he ho (sameStream_taken _ rest)
  · exact .kept (sameStream_taken s rest)

theorem step_streamMove {s t : State} (k : BlockInv s) (hs : s.stream = true) (hr : s.schedule.head? ≠ some .reset)
    (h : step s = .next t) : StreamMove s t := by
  cases step_cases h with
  | idle _ ht => rw [ht]; exact .kept (SameBlock.refl s).sameStream
  | host rest hsch hh =>
    have hm : HostWrote s t := hostStep_wrote hsch ((step_scheduled hsch).symm.trans h)
    rcases hostStepCases_sameStream_or_ended (s := { s with schedule := rest }) k hs hh with h | ⟨ht, hd⟩
    · exact .host (by rw [hsch]; rfl) hm ((sameStream_taken { s with mem := t.mem } rest).trans h)
    · exact .ended ht hd
  | engine rest _ ht => exact ht ▸ engineStep_streamMove k hs rest
  | dmaSrc rest _ ht => exact ht ▸ dmaSrcStep_streamMove s rest
  | dmaDst rest _ ht => exact ht ▸ dmaDstStep_streamMove s rest
  | interrupt _ _ ht => exact .kept ht.sameStream
  | reset rest hsch _ => exact absurd (by rw [hsch]; rfl) hr

end Sys2Proof.Machine

/-! A channel whose next word is not admitted stands still (44 R365). -/

namespace Sys2Proof.Machine

/-- No word of the register window is admitted: its first byte is not (44 R365). -/
theorem memAdmit_of_inWindow {p : Platform} {a : Word} (h : p.inWindow a = true) : p.memAdmit a 4 = false := by
  have first : p.admitsByte a = false := by simp [Platform.admitsByte, h]
  exact List.all_eq_false.mpr ⟨0, by simp, by simpa using first⟩

/-- DMA words are moved by a stream only (10 R49). -/
theorem BlockInv.stream_of_dmaActive {s : State} (k : BlockInv s) (h : s.dmaActive = true) : s.stream = true := by
  obtain ⟨-, -, -, -, hstr, -⟩ := k
  cases hs : s.st <;> simp [State.dmaActive, hs] at h
  case streaming => exact hstr hs
  case finished => exact h.1

/-- An active stream has destination words left: while it computes, not every block is done. -/
theorem EngineInv.dstDone_of_dmaActive {s : State} (k : EngineInv s) (h : s.dmaActive = true) : s.dstDone = false := by
  have hs : s.stream = true := k.1.stream_of_dmaActive h
  obtain ⟨⟨-, -, -, -, -, hf, -⟩, -, hacc⟩ := k
  obtain ⟨hcount, -, -, hout, -, hleft, -, -, hdst⟩ := hacc hs
  rcases hf hs with e | e
  · have hcount : s.srcCount = s.dstCount := by simp [State.countsValid] at hcount; exact hcount.2
    have hleft := hleft e
    rw [hcount] at hleft
    by_contra hd
    have := hdst.mp (by simpa using hd)
    omega
  · simpa [State.dmaActive, e, hs] using h

/-- A stream with source words left to read has not finished. -/
theorem EngineInv.streaming_of_srcDone {s : State} (k : EngineInv s) (hs : s.stream = true) (h : s.srcDone = false) :
    s.st = .streaming := by
  obtain ⟨⟨-, -, -, -, -, hf, -⟩, -, hacc⟩ := k
  obtain ⟨-, -, hin, -, hle, -, hfin, hsrc, -⟩ := hacc hs
  refine (hf hs).resolve_right fun e => ?_
  have hall : s.srcWords.toNat = 4 * s.srcCount.toNat := by
    rw [hfin e] at hin
    omega
  rw [hsrc.mpr hall] at h
  cases h

theorem dmaActive_of_streaming {s : State} (h : s.st = .streaming) : s.dmaActive = true := by simp [State.dmaActive, h]

/-- A computed block leaves a stream active that has destination words left. -/
theorem dmaActive_countBlock {s : State} (hs : s.stream = true) (hd : s.dstDone = false) : s.countBlock.dmaActive = true := by
  by_cases hq : s.blocksDone + 1#16 = s.srcCount
  · simp [State.dmaActive, State.countBlock, hq, hs, hd]
  · simp [State.dmaActive, State.countBlock, hq]

/-- The source channel is at the same word in an active stream, which is not its last. -/
def SourceStands (s t : State) : Prop :=
  t.srcCursor = s.srcCursor ∧ t.srcWords = s.srcWords ∧ t.srcDone = false ∧ t.platform = s.platform ∧ t.dmaActive = true

/-- The destination channel is at the same word in an active stream, which is not its last. -/
def DestinationStands (s t : State) : Prop :=
  t.dstCursor = s.dstCursor ∧ t.dstWords = s.dstWords ∧ t.dstDone = false ∧ t.platform = s.platform ∧ t.dmaActive = true

theorem SourceStands.of_same {s t u : State} (h : SameStream t u) (k : SourceStands s t) : SourceStands s u := by
  simpa only [SourceStands, h.srcCursor, h.srcWords, h.srcDone, h.platform, h.dmaActive] using k

theorem DestinationStands.of_same {s t u : State} (h : SameStream t u) (k : DestinationStands s t) : DestinationStands s u := by
  simpa only [DestinationStands, h.dstCursor, h.dstWords, h.dstDone, h.platform, h.dmaActive] using k

theorem sourceStands_of_move {s t : State} (k : EngineInv s) (ha : s.dmaActive = true)
    (hm : s.platform.memAdmit s.srcCursor 4 = false) (hd : s.srcDone = false) (h : StreamMove s t) : SourceStands s t := by
  have hs : s.stream = true := k.1.stream_of_dmaActive ha
  cases h with
  | kept h => exact .of_same h ⟨rfl, rfl, hd, rfl, ha⟩
  | host _ _ h => exact .of_same h ⟨rfl, rfl, hd, rfl, ha⟩
  | ended _ hn => simp [ha] at hn
  | computed w0 w1 w2 w3 _ _ _ h =>
    exact .of_same h ⟨rfl, rfl, hd, rfl, dmaActive_countBlock (s := s.emitBlock ⟨w0, w1, w2, w3⟩) hs (k.dstDone_of_dmaActive ha)⟩
  | read he => simp [State.srcEnabled, hm] at he
  | wrote x rest _ _ h => exact .of_same h ⟨rfl, rfl, hd, rfl, dmaActive_of_streaming (k.streaming_of_srcDone hs hd)⟩

theorem destinationStands_of_move {s t : State} (k : EngineInv s) (ha : s.dmaActive = true)
    (hm : s.platform.memAdmit s.dstCursor 4 = false) (h : StreamMove s t) : DestinationStands s t := by
  have hs : s.stream = true := k.1.stream_of_dmaActive ha
  have hd : s.dstDone = false := k.dstDone_of_dmaActive ha
  cases h with
  | kept h => exact .of_same h ⟨rfl, rfl, hd, rfl, ha⟩
  | host _ _ h => exact .of_same h ⟨rfl, rfl, hd, rfl, ha⟩
  | ended _ hn => simp [ha] at hn
  | computed w0 w1 w2 w3 _ _ _ h =>
    exact .of_same h ⟨rfl, rfl, hd, rfl, dmaActive_countBlock (s := s.emitBlock ⟨w0, w1, w2, w3⟩) hs hd⟩
  | read _ h => exact .of_same h ⟨rfl, rfl, hd, rfl, ha⟩
  | wrote _ _ he => simp [State.dstEnabled, hm] at he

/-- Only a host store and a word of DMA_DST change memory. -/
theorem mem_of_move {s t : State} (ha : s.dmaActive = true) (hm : s.platform.memAdmit s.dstCursor 4 = false)
    (hh : s.schedule.head? ≠ some .host) (h : StreamMove s t) : t.mem = s.mem := by
  cases h with
  | kept h => exact h.mem
  | host hs => exact absurd hs hh
  | ended _ hn => simp [ha] at hn
  | computed _ _ _ _ _ _ _ h => exact h.mem
  | read _ h => exact h.mem
  | wrote _ _ he => simp [State.dstEnabled, hm] at he

/-- Settles O34, by the moves a step can make of a stream: the only one that would take the channel on needs the word admitted. -/
theorem unadmittedChannelIsStuck : Obligations.UnadmittedChannelIsStuck := by
  refine ⟨fun p a => memAdmit_of_inWindow, fun s t k ha h hr => ?_⟩
  have hmove : StreamMove s t := step_streamMove k.1 (k.1.stream_of_dmaActive ha) hr h
  refine ⟨fun hm hd => sourceStands_of_move k ha hm hd hmove, fun hm => ?_⟩
  obtain ⟨hc, hw, hd, hp, hact⟩ := destinationStands_of_move k ha hm hmove
  exact ⟨hc, hw, hd, hp, hact, fun hh a => by rw [mem_of_move ha hm hh hmove]⟩

end Sys2Proof.Machine

/-! Where a stream's data stands (44 R368, R369): the addresses of its words, and what each move does to the data. -/

namespace Sys2Proof.Machine

/-! ### Words of a buffer -/

/-- Address addition wraps at 2^32 only (00 R9). -/
theorem toNat_word {a : Word} {k : Nat} (h : a.toNat + 4 * k < 2 ^ 32) : (a + BitVec.ofNat 32 (4 * k)).toNat = a.toNat + 4 * k := by
  rw [BitVec.toNat_add, BitVec.toNat_ofNat, Nat.add_mod_mod, Nat.mod_eq_of_lt h]

theorem four_mul_setWidth (w : BitVec 18) : 4 * w.setWidth 32 = BitVec.ofNat 32 (4 * w.toNat) := by
  apply BitVec.eq_of_toNat_eq
  simp [BitVec.toNat_mul]

/-- A channel's cursor is its buffer's word at the channel's count (10 R43). -/
theorem srcCursor_eq (s : State) : s.srcCursor = s.srcAddr + BitVec.ofNat 32 (4 * s.srcWords.toNat) := by
  rw [State.srcCursor, four_mul_setWidth]

theorem dstCursor_eq (s : State) : s.dstCursor = s.dstAddr + BitVec.ofNat 32 (4 * s.dstWords.toNat) := by
  rw [State.dstCursor, four_mul_setWidth]

/-- A word just written reads back (20 R82). -/
theorem Memory.read32_write32_same {m : Memory} (hm : m.wf = true) (a w : Word) : (m.write32 a w).read32 a = w := by
  obtain ⟨h0, h1, h2, h3⟩ := Memory.read8_write32 hm a w
  rw [Memory.read32, h0, h1, h2, h3]
  exact le32_wordBytes w

/-- A word read depends on its four bytes alone. -/
theorem Memory.read32_congr {m m' : Memory} {c : Word}
    (h : ∀ x : Word, x = c ∨ x = c + 1 ∨ x = c + 2 ∨ x = c + 3 → m'.read8 x = m.read8 x) : m'.read32 c = m.read32 c := by
  simp only [Memory.read32, h c (by simp), h (c + 1) (by simp), h (c + 2) (by simp), h (c + 3) (by simp)]

/-- A word write leaves a word apart from it alone, where neither wraps. -/
theorem Memory.read32_write32_other {a c : Word} (ha : a.toNat + 4 ≤ 2 ^ 32) (hc : c.toNat + 4 ≤ 2 ^ 32)
    (h : a.toNat + 4 ≤ c.toNat ∨ c.toNat + 4 ≤ a.toNat) (m : Memory) (w : Word) : (m.write32 a w).read32 c = m.read32 c := by
  refine Memory.read32_congr fun x hx => ?_
  refine Memory.read8_write32_other ?_ ?_ ?_ ?_ m w <;> rcases hx with rfl | rfl | rfl | rfl <;> bv_omega

/-- A byte write leaves a word without that byte alone. -/
theorem Memory.read32_write8_other {a c : Word} (hc : c.toNat + 4 ≤ 2 ^ 32) (h : a.toNat < c.toNat ∨ c.toNat + 4 ≤ a.toNat)
    (m : Memory) (b : Byte) : (m.write8 a b).read32 c = m.read32 c := by
  refine Memory.read32_congr fun x hx => Memory.read8_write8_other ?_ m b
  rcases hx with rfl | rfl | rfl | rfl <;> bv_omega

/-! ### What each move does to the data -/

/-- StreamData speaks of the data path alone. -/
theorem StreamData.of_same {orig : Word → Byte} {s t : State} (h : SameStream s t) (k : StreamData orig s) : StreamData orig t := by
  simpa only [StreamData, resultWord, resultBlock, sourceBlock, sourceWord, h.decrypt, h.key, h.inBuf, h.outBuf,
    h.blocksDone, h.srcAddr, h.srcCount, h.dstAddr, h.srcWords, h.dstWords, h.mem] using k

/-- A change of memory that leaves the source words still to be read, and the words written, as they were. -/
theorem StreamData.setMem {orig : Word → Byte} {s : State} (k : StreamData orig s) {m : Memory}
    (hsrc : ∀ j, s.srcWords.toNat ≤ j → j < 4 * s.srcCount.toNat →
      m.read32 (s.srcAddr + BitVec.ofNat 32 (4 * j)) = s.mem.read32 (s.srcAddr + BitVec.ofNat 32 (4 * j)))
    (hdst : ∀ j, j < s.dstWords.toNat →
      m.read32 (s.dstAddr + BitVec.ofNat 32 (4 * j)) = s.mem.read32 (s.dstAddr + BitVec.ofNat 32 (4 * j))) :
    StreamData orig { s with mem := m } := by
  obtain ⟨hunread, hin, hout, hwritten⟩ := k
  exact ⟨fun j h1 h2 => (hsrc j h1 h2).trans (hunread j h1 h2), hin, hout, fun j h => (hdst j h).trans (hwritten j h)⟩

/-- Clause (h): no more words are written than the destination has. -/
theorem BlockInv.dstWords_le {s : State} (k : BlockInv s) (hs : s.stream = true) : s.dstWords.toNat ≤ 4 * s.dstCount.toNat := by
  obtain ⟨-, -, -, -, -, -, -, hcount, -⟩ := k
  exact (hcount hs).2

theorem ranges_of_not_wraps {s : State} (h : s.rangeWraps = false) :
    s.srcAddr.toNat + 16 * s.srcCount.toNat ≤ 2 ^ 32 ∧ s.dstAddr.toNat + 16 * s.dstCount.toNat ≤ 2 ^ 32 := by
  simpa [State.rangeWraps] using h

/-- The word of a block's result at place `k` (43 R340). -/
theorem Quad.getElem_toList {α : Type} (q : Quad α) (k : Nat) (h : k < q.toList.length) : q.toList[k] = q.get (BitVec.ofNat 2 k) := by
  have h4 : k < 4 := h
  match k, h4 with
  | 0, _ | 1, _ | 2, _ | 3, _ => rfl

/-- Result word `4 j + k` is word `k` of the result of block `j`. -/
theorem resultWord_block (orig : Word → Byte) (s : State) {j k : Nat} (h : k < 4) :
    resultWord orig s (4 * j + k) = (wordsOfBlock (resultBlock orig s j)).get (BitVec.ofNat 2 k) := by
  have hj : (4 * j + k) / 4 = j := by omega
  have hk : BitVec.ofNat 2 (4 * j + k) = BitVec.ofNat 2 k := by
    apply BitVec.eq_of_toNat_eq
    simp only [BitVec.toNat_ofNat]
    omega
  rw [resultWord, hj, hk]

/-- ENGINE turns the words of block `blocksDone` in inBuf into the words of its result (43 R340). -/
theorem StreamData.computed {orig : Word → Byte} {s : State} (k : StreamData orig s) {w0 w1 w2 w3 : Word}
    (hi : s.inBuf = [w0, w1, w2, w3]) (hw : s.dstWords.toNat = 4 * s.blocksDone.toNat) :
    StreamData orig (s.emitBlock ⟨w0, w1, w2, w3⟩).countBlock := by
  obtain ⟨hunread, hin, -, hwritten⟩ := k
  have word : ∀ j x, s.inBuf[j]? = some x → x = sourceWord orig s (4 * s.blocksDone.toNat + j) := by
    intro j x hx
    obtain ⟨h, rfl⟩ := List.getElem?_eq_some_iff.mp hx
    exact hin j h
  have hblock : s.compute ⟨w0, w1, w2, w3⟩ = wordsOfBlock (resultBlock orig s s.blocksDone.toNat) := by
    rw [word 0 w0 (by simp [hi]), word 1 w1 (by simp [hi]), word 2 w2 (by simp [hi]), word 3 w3 (by simp [hi])]
    rfl
  refine ⟨hunread, fun j h => absurd h (Nat.not_lt_zero j), fun j h => ?_, hwritten⟩
  have h4 : j < 4 := h
  calc (s.compute ⟨w0, w1, w2, w3⟩).toList[j] = (s.compute ⟨w0, w1, w2, w3⟩).get (BitVec.ofNat 2 j) := Quad.getElem_toList _ j h
    _ = (wordsOfBlock (resultBlock orig s s.blocksDone.toNat)).get (BitVec.ofNat 2 j) := by rw [hblock]
    _ = resultWord orig s (4 * s.blocksDone.toNat + j) := (resultWord_block orig s h4).symm
    _ = resultWord orig s (s.dstWords.toNat + j) := by rw [hw]

/-- A channel's count of words stays within its 18 bits (10 R43). -/
theorem toNat_succ_of_lt {w : BitVec 18} {c : BitVec 16} (h : w.toNat < 4 * c.toNat) : (w + 1).toNat = w.toNat + 1 := by
  have := c.isLt
  bv_omega

/-- DMA_SRC takes the next source word, which is still in memory (44 R362). -/
theorem StreamData.read {orig : Word → Byte} {s : State} (k : StreamData orig s) (hw : s.srcWords.toNat < 4 * s.srcCount.toNat)
    (hin : s.srcWords.toNat = 4 * s.blocksDone.toNat + s.inBuf.length) (done : Bool) :
    StreamData orig { s with
      inBuf := s.inBuf ++ [s.mem.read32 s.srcCursor]
      srcWords := s.srcWords + 1
      srcDone := done } := by
  obtain ⟨hunread, hbuf, hout, hwritten⟩ := k
  refine ⟨fun j h1 h2 => hunread j ?_ h2, fun j h => ?_, hout, hwritten⟩
  · have h1 : (s.srcWords + 1).toNat ≤ j := h1
    rw [toNat_succ_of_lt hw] at h1
    omega
  · show (s.inBuf ++ [s.mem.read32 s.srcCursor])[j] = sourceWord orig s (4 * s.blocksDone.toNat + j)
    rcases Nat.lt_or_ge j s.inBuf.length with hj | hj
    · rw [List.getElem_append_left hj]
      exact hbuf j hj
    · have hlen : j < (s.inBuf ++ [s.mem.read32 s.srcCursor]).length := h
      have hj : j = s.inBuf.length := by
        rw [List.length_append, List.length_singleton] at hlen
        omega
      rw [List.getElem_concat_length hj, srcCursor_eq, hunread _ (Nat.le_refl _) hw, hin, hj]

/-- A host store outside both buffers (20 R96). -/
theorem StreamData.hostStore {orig : Word → Byte} {s : State} (k : StreamData orig s) (hr : s.rangeWraps = false)
    (hw : s.dstWords.toNat ≤ 4 * s.dstCount.toNat) {a : Word} (ha : ¬InStreamRanges s a) (b : Byte) :
    StreamData orig { s with mem := s.mem.write8 a b } := by
  obtain ⟨hsr, hdr⟩ := ranges_of_not_wraps hr
  refine k.setMem (fun j _ h => ?_) (fun j h => ?_)
  · have hj := toNat_word (a := s.srcAddr) (k := j) (by omega)
    exact Memory.read32_write8_other (by omega) (by omega) _ b
  · have hj := toNat_word (a := s.dstAddr) (k := j) (by omega)
    exact Memory.read32_write8_other (by omega) (by omega) _ b

/-- DMA_DST writes the next result word: the destination word is none of those written before it, and none of the source words still
to be read, because the destination is apart from the source or no further ahead than the word just read (44 R363, R368). -/
theorem StreamData.wrote {orig : Word → Byte} {s : State} (k : StreamData orig s) (hm : s.mem.wf = true) (hr : s.rangeWraps = false)
    (hov : OverlapOk s) (hw : s.dstWords.toNat < 4 * s.dstCount.toNat) (hbehind : s.dstWords.toNat < s.srcWords.toNat)
    {x : Word} {rest : List Word} (ho : s.outBuf = x :: rest) (done : Bool) :
    StreamData orig { s with
      mem := s.mem.write32 s.dstCursor x
      outBuf := rest
      dstWords := s.dstWords + 1
      dstDone := done } := by
  obtain ⟨hsr, hdr⟩ := ranges_of_not_wraps hr
  have hcur : s.dstCursor.toNat = s.dstAddr.toNat + 4 * s.dstWords.toNat := by rw [dstCursor_eq, toNat_word (by omega)]
  have kept : StreamData orig { s with mem := s.mem.write32 s.dstCursor x } := by
    refine k.setMem (fun j h1 h2 => ?_) (fun j h => ?_)
    · have hj := toNat_word (a := s.srcAddr) (k := j) (by omega)
      exact Memory.read32_write32_other (by omega) (by omega) (by omega) _ x
    · have hj := toNat_word (a := s.dstAddr) (k := j) (by omega)
      exact Memory.read32_write32_other (by omega) (by omega) (by omega) _ x
  have next : ∀ j y, s.outBuf[j]? = some y → y = resultWord orig s (s.dstWords.toNat + j) := by
    intro j y hy
    obtain ⟨-, -, hout, -⟩ := k
    obtain ⟨h, rfl⟩ := List.getElem?_eq_some_iff.mp hy
    exact hout j h
  obtain ⟨hunread, hin, -, hwritten⟩ := kept
  refine ⟨hunread, hin, fun j h => ?_, fun j h => ?_⟩
  · show rest[j] = resultWord orig s ((s.dstWords + 1).toNat + j)
    have h : j < rest.length := h
    rw [next (j + 1) rest[j] (by simp [ho, h]), toNat_succ_of_lt hw, Nat.add_right_comm, Nat.add_assoc]
  · have h : j < (s.dstWords + 1).toNat := h
    rw [toNat_succ_of_lt hw] at h
    rcases Nat.lt_succ_iff_lt_or_eq.mp h with h | rfl
    · exact hwritten j h
    · show (s.mem.write32 s.dstCursor x).read32 (s.dstAddr + BitVec.ofNat 32 (4 * s.dstWords.toNat)) = resultWord orig s s.dstWords.toNat
      rw [← dstCursor_eq, Memory.read32_write32_same hm]
      exact next 0 x (by simp [ho])

/-- Reset ends a stream (70 R540). -/
theorem stream_of_reset {s t : State} (hr : s.schedule.head? = some .reset) (h : step s = .next t) : t.stream = false := by
  obtain ⟨rest, hs⟩ := List.head?_eq_some_iff.mp hr
  rw [step_scheduled hs] at h
  cases h
  rfl

/-- Settles O35, by the moves a step can make of a stream: ENGINE turns source words into result words, DMA_SRC and DMA_DST each carry
one word on, and the host's store falls outside both buffers. -/
theorem streamDataIsKept : Obligations.StreamDataIsKept := by
  intro orig s t k hm hov hleaves hs hdata h ht
  have hr : s.schedule.head? ≠ some .reset := by
    intro hr
    simp [stream_of_reset hr h] at ht
  obtain ⟨hblock, -, hacc⟩ := k
  obtain ⟨-, hwrap, hin, hout, hle, -, -, -, -⟩ := hacc hs
  cases step_streamMove hblock hs hr h with
  | kept h => exact .of_same h hdata
  | host _ hw h =>
    refine .of_same h ?_
    rcases hw with hmem | ⟨a, b, ha, hmem⟩
    · rw [hmem]; exact hdata
    · rw [hmem]; exact hdata.hostStore hwrap (hblock.dstWords_le hs) (hleaves a ha) b
  | ended hn _ => simp [ht] at hn
  | computed w0 w1 w2 w3 _ hi ho h => exact .of_same h (hdata.computed hi (by simpa [ho] using hout))
  | read he h =>
    simp only [State.srcEnabled, Bool.and_eq_true, decide_eq_true_eq] at he
    obtain ⟨⟨-, hleft⟩, -⟩ := he
    exact .of_same h (hdata.read hleft hin _)
  | wrote x rest he ho h =>
    simp only [State.dstEnabled, Bool.and_eq_true, decide_eq_true_eq] at he
    obtain ⟨⟨-, hleft⟩, -⟩ := he
    rw [ho, List.length_cons] at hout
    exact .of_same h (hdata.wrote hm hwrap hov hleft (by omega) ho _)

end Sys2Proof.Machine

/-! The frame of a transaction on memory and the host, and the alignment of DMA addresses (20 R86, 43 R300). -/

namespace Sys2Proof.Machine

/-- Of the running context a transaction changes the words it read and what it knows of the lock. -/
theorem TransactionFrame.cur {s t : State} (h : TransactionFrame s t) :
    t.cur = { s.cur with reads := t.cur.reads, holdsLock := t.cur.holdsLock } := by
  cases hc : s.ctx
  · have ht : t.ctx = .fg := h.ctx.trans hc
    simp only [State.cur, hc, ht]
    exact h.fg
  · have ht : t.ctx = .isr := h.ctx.trans hc
    simp only [State.cur, hc, ht]
    exact h.isr

/-- Settles O24: the frame that every transaction keeps. -/
theorem transactionsLeaveMemoryAndHostAlone : Obligations.TransactionsLeaveMemoryAndHostAlone := by
  intro i s t h
  have f : TransactionFrame s t := frame_of_exec h
  exact ⟨fun a => by rw [f.mem], f.ctx, f.irqMasked, f.irqPending, f.isrSavedMask, f.platform, f.schedule, f.isrOther, f.fgOther, f.cur⟩

/-! ### Alignment -/

/-- A word is aligned exactly if its address is a multiple of four. -/
theorem wordAligned_iff (a : Word) : wordAligned a = true ↔ a.toNat % 4 = 0 := by
  rw [wordAligned, beq_iff_eq, ← BitVec.toNat_inj]
  simp [BitVec.extractLsb'_toNat]

theorem wordAligned_eq_false {v : Word} (h : v.extractLsb' 0 2 ≠ 0#2) : wordAligned v = false := by
  simp [wordAligned, h]

/-- The words of an aligned buffer are aligned. -/
theorem wordAligned_add_four_mul {a : Word} (h : wordAligned a = true) (w : Word) : wordAligned (a + 4 * w) = true := by
  rw [wordAligned_iff] at h ⊢
  bv_omega

theorem AlignedInv.of_same {s t : State} (h : SameBlock s t) (k : AlignedInv s) : AlignedInv t := by
  simpa only [AlignedInv, h.srcAddr, h.dstAddr] using k

theorem AlignedInv.popResult {s : State} (k : AlignedInv s) (rest : List Word) : AlignedInv (s.popResult rest) := by
  unfold State.popResult
  split <;> exact k

theorem AlignedInv.endOperation {s : State} (k : AlignedInv s) (dir : Bool) : AlignedInv (s.endOperation dir) := by
  unfold State.endOperation
  split <;> exact k

/-- An answer whose descriptor addresses are aligned. -/
inductive AnswersAligned : Result → Prop where
  | next {t : State} (k : AlignedInv t) : AnswersAligned (.next t)

theorem AnswersAligned.ite {c : Prop} [Decidable c] {a b : Result} (ha : AnswersAligned a) (hb : ¬c → AnswersAligned b) :
    AnswersAligned (if c then a else b) := by
  split
  · exact ha
  · exact hb ‹_›

/-- A descriptor address is written by its own row only, and only aligned (43 R324, R328). -/
theorem exec_answersAligned (i : Instr) {s : State} (k : AlignedInv s) : AnswersAligned (exec i s) := by
  have kg : AlignedInv s.guardCheck := k.of_same (sameBlock_guardCheck s)
  have raised : ∀ r, AnswersAligned (.next (s.guardCheck.raise r)) := fun r => .next (kg.of_same (sameBlock_raise r _))
  have drawn : ∀ m v, AnswersAligned (.next (s.guardCheck.returnDrawn m v)) := fun m v => .next (kg.of_same (sameBlock_returnDrawn m v _))
  have word : ∀ w, AnswersAligned (.next (s.guardCheck.returnWord w)) := fun w => .next (kg.of_same (sameBlock_returnWord w _))
  cases i
  case rdCtrl | rdKey | rdDatain | rdDmaSrcCount | rdDmaDstCount | rdDmaCtrl | rdDmaStatus => exact drawn _ _
  case rdDmaSrcAddr | rdDmaDstAddr => exact word _
  case wrDataout | wrDmaStatus => exact raised _
  case rdResult => exact .next (k.of_same (sameBlock_returnDrawn _ _ s))
  case wrDmaSrcAddr v => exact .ite (raised _) fun hv => .ite (raised _) fun _ => .next ⟨by simpa using hv, k.2⟩
  case wrDmaDstAddr v => exact .ite (raised _) fun hv => .ite (raised _) fun _ => .next ⟨k.1, by simpa using hv⟩
  case wrDmaSrcCount | wrDmaDstCount | wrDmaCtrl => exact .ite (raised _) fun _ => .ite (raised _) fun _ => .next k
  case rdLock => exact .ite (.next k) fun _ => .next k
  case wrResult => exact .ite (.next k) fun _ => .next k
  case wrLock => exact .ite (.next k) fun _ => .ite (.next k) fun _ => .ite (.next k) fun _ => .next k
  case wrCtrl v =>
    refine .ite (raised _) fun _ => ?_
    simp only [guardCheck_st]
    cases s.st
    case idle | keyLoaded => exact .next k
    case feeding | computing | streaming => exact raised _
    case finished => exact .next (kg.endOperation _)
  case wrCtrlStart v =>
    refine .ite (raised _) fun _ => ?_
    simp only [guardCheck_st]
    cases s.st
    case keyLoaded => exact .ite (.next k) fun _ => .ite (raised _) fun _ => .next k
    case idle | feeding | computing | finished | streaming => exact raised _
  case wrKey n v =>
    simp only [exec, execWrKey, guardCheck_st]
    cases s.st
    case idle | keyLoaded => exact .next k
    case feeding | computing | finished | streaming => exact raised _
  case wrDatain v =>
    simp only [exec, execWrDatain, guardCheck_st]
    cases s.st
    case keyLoaded | feeding => exact .next k
    case idle | computing | finished | streaming => exact raised _
  case rdDataout =>
    simp only [exec, execRdDataout]
    split
    · exact .next ((kg.popResult _).of_same (sameBlock_returnWord _ _))
    · exact .next (kg.of_same (sameBlock_refuseRead _ _))

theorem exec_alignedInv {i : Instr} {s t : State} (k : AlignedInv s) (h : exec i s = .next t) : AlignedInv t := by
  have answer : AnswersAligned (.next t) := h ▸ exec_answersAligned i k
  cases answer with
  | next kt => exact kt

theorem alignedInv_keptByMoves : KeptByMoves AlignedInv where
  same := .of_same
  exec := exec_alignedInv
  store _ _ k := k
  engine {s} k := by
    unfold State.engineStep
    repeat' split
    all_goals exact k
  dmaSrc {s} k := by
    unfold State.dmaSrcStep
    split <;> exact k
  dmaDst {s} k := by
    unfold State.dmaDstStep
    repeat' split
    all_goals exact k
  reset _ := ⟨rfl, rfl⟩

theorem exec_misaligned {v : Word} (h : v.extractLsb' 0 2 ≠ 0#2) (s : State) :
    exec (.wrDmaSrcAddr v) s = .next (s.guardCheck.raise .dmaMisaligned) ∧
    exec (.wrDmaDstAddr v) s = .next (s.guardCheck.raise .dmaMisaligned) := by
  simp [exec, execWrDmaSrcAddr, execWrDmaDstAddr, wordAligned_eq_false h]

/-- Settles O14: an address is written aligned or not at all, and a channel moves by four bytes. -/
theorem dmaAddressesStayAligned : Obligations.DmaAddressesStayAligned :=
  ⟨fun s _ h => exec_misaligned h s, fun _ _ => alignedInv_keptByMoves.step,
   fun _ k => ⟨wordAligned_add_four_mul k.1 _, wordAligned_add_four_mul k.2 _⟩⟩

end Sys2Proof.Machine

/-! Rejected bus words and the host's own byte accesses (20 R80, R85, R91, 30 R121, R123). -/

namespace Sys2Proof.Machine

/-! ### What a read returns -/

theorem readReturns_returnWord (w : Word) (s : State) : ReadReturns s (s.returnWord w) w s.faults := by
  refine ⟨rfl, returnWord_cur w s, fun h => ?_, fun h => ?_⟩ <;> simp [State.returnWord, h]

theorem drawnRead_returnDrawn (mask v : Word) (s : State) :
    DrawnRead s (s.returnDrawn mask v) (s.drawnWord mask v) mask s.faults := by
  obtain ⟨-, -, hf, hi⟩ := readReturns_returnWord (s.drawnWord mask v) s
  exact ⟨⟨rfl, returnDrawn_cur mask v s, hf, hi⟩, rfl, drawnWord_free mask v s⟩

/-! ### Rejected words -/

/-- The reason that a word's rejection records (30 R121). -/
def rejectionReason : DecodeError → Fault
  | .busWidth => .busWidth
  | .busReservedOffset => .busReservedOffset

/-- `v` is `u` after the rejection of a write, or of a read that returned a free word (30 R121, 43 R302). -/
def Rejected (write : Bool) (r : Fault) (u v : State) : Prop :=
  (write = true → v = { u with faults := u.faults.add r }) ∧
  (write = false → ∃ w, DrawnRead u v w 0#32 (u.faults.add r))

theorem rejected_rejectTransaction (r : Fault) (t : Transaction) (u : State) :
    Rejected (t.getLsbD 40) r u (rejectTransaction r t u) := by
  refine ⟨fun h => ?_, fun h => ?_⟩
  · rw [rejectTransaction, Transaction.isWrite, if_pos h]
    rfl
  · rw [rejectTransaction, Transaction.isWrite, if_neg (ne_true_of_eq_false h)]
    exact ⟨_, drawnRead_returnDrawn noReadMask 0 (u.raise r)⟩

/-- A word that the decoder rejects records the reason and is not guarded, in a context that may issue transactions (47 R431). -/
theorem busTransaction_rejected {t : Transaction} {e : DecodeError} {u : State} (hd : decode t = .error e) (hm : MayIssue u) :
    ∃ v, busTransaction t u = .next v ∧ Rejected (t.getLsbD 40) (rejectionReason e) u v := by
  refine ⟨rejectTransaction (rejectionReason e) t u, ?_, rejected_rejectTransaction _ t u⟩
  simp only [busTransaction, hd]
  split
  · rename_i hc hp
    rcases hm with h | h
    · simp [h] at hc
    · simp [h] at hp
  · cases e <;> rfl

/-- Width comes before the offset (30 R121). -/
theorem decode_busWidth {t : Transaction} (h : t.extractLsb' 41 2 ≠ 2#2 ∨ t.extractLsb' 32 2 ≠ 0#2) : decode t = .error .busWidth := by
  rw [decode_fields, if_pos h]

/-- The reserved word offsets (30 R123). -/
def ReservedOffset (o : BitVec 8) : Prop :=
  o ∈ [0x04#8, 0x08#8, 0x0C#8, 0x28#8, 0x2C#8, 0x48#8, 0x4C#8] ∨ (o.extractLsb' 0 2 = 0#2 ∧ 0x58#8 ≤ o)

theorem regAt_reserved : ∀ o : BitVec 8, ReservedOffset o → o.extractLsb' 0 2 = 0#2 ∧ regAt o = none := by
  unfold ReservedOffset
  decide

/-- OFF[1:0] of a word. -/
theorem off_low (t : Transaction) : (t.extractLsb' 32 8).extractLsb' 0 2 = t.extractLsb' 32 2 := by
  ext i hi
  simp [BitVec.getElem_extractLsb', BitVec.getLsbD_extractLsb']
  omega

theorem decode_busReservedOffset {t : Transaction} (hs : t.extractLsb' 41 2 = 2#2) (ho : ReservedOffset (t.extractLsb' 32 8)) :
    decode t = .error .busReservedOffset := by
  obtain ⟨hlow, hreg⟩ := regAt_reserved _ ho
  rw [off_low] at hlow
  rw [decode_fields, if_neg (by simp [hs, hlow]), hreg]

/-! ### The host's next command -/

theorem step_of_nextCommand {s u : State} {c : HostCmd} (h : NextCommand s c u) : step s = execHostCmd c u := by
  obtain ⟨rest, cs, hs, ho, hp, rfl⟩ := h
  rw [step_scheduled hs]
  show State.hostStep { s with schedule := rest } = _
  unfold State.hostStep
  rw [show ({ s with schedule := rest } : State).cur.ops = [] from ho,
    show ({ s with schedule := rest } : State).cur.prog = c :: cs from hp]
  rfl

theorem mayIssue_of_nextCommand {s u : State} {c : HostCmd} (h : NextCommand s c u) (hm : MayIssue s) : MayIssue u := by
  obtain ⟨_, _, -, -, -, rfl⟩ := h
  exact hm

/-- Settles O6: the host's step puts the word on the bus, the decoder rejects it, and the rejection records its reason. -/
theorem rejectedTransactionRecordsItsFaultOnly : Obligations.RejectedTransactionRecordsItsFaultOnly := by
  intro s u t h hm
  have hu : MayIssue u := mayIssue_of_nextCommand h hm
  rw [step_of_nextCommand h]
  refine ⟨fun hw => busTransaction_rejected (decode_busWidth hw) hu, fun hs ho => ?_⟩
  refine busTransaction_rejected (decode_busReservedOffset hs ?_) hu
  rwa [ReservedOffset, off_low]

/-! ### Byte accesses -/

/-- A byte access to the register window is an 8-bit transaction (20 R85). -/
theorem make_byte_fields (write : Bool) (o : BitVec 8) (d : Word) :
    (Transaction.make 0#2 write o d).extractLsb' 41 2 = 0#2 ∧ (Transaction.make 0#2 write o d).getLsbD 40 = write := by
  have upper : ∀ k, 40 ≤ k → (Transaction.make 0#2 write o d).getLsbD k = (0#2 ++ BitVec.ofBool write).getLsbD (k - 40) := by
    intro k hk
    simp only [Transaction.make, BitVec.getLsbD_append]
    rw [if_neg (by omega), if_neg (by omega), Nat.sub_sub]
  refine ⟨?_, ?_⟩
  · ext i hi
    rw [BitVec.getElem_extractLsb', upper _ (by omega), BitVec.getLsbD_append, if_neg (by omega)]
    simp
  · rw [upper 40 (Nat.le_refl _)]
    cases write <;> rfl

theorem busTransaction_byte (write : Bool) (o : BitVec 8) (d : Word) {u : State} (hm : MayIssue u) :
    ∃ v, busTransaction (Transaction.make 0#2 write o d) u = .next v ∧ Rejected write .busWidth u v := by
  obtain ⟨hsize, hwrite⟩ := make_byte_fields write o d
  have := busTransaction_rejected (decode_busWidth (.inl (by rw [hsize]; decide))) hm
  rwa [hwrite] at this

/-- Settles O7: outside the window by the laws of memory, inside it as a rejected 8-bit transaction. -/
theorem hostLoadsAndStoresOneByte : Obligations.HostLoadsAndStoresOneByte := by
  refine ⟨fun s u a h => ?_, fun s u a b h => ?_⟩
  · rw [step_of_nextCommand h]
    simp only [execHostCmd, hostLoad]
    refine ⟨fun hw => ?_, fun hw hm => ?_⟩
    · rw [if_neg (by simp [hw])]
      exact ⟨_, rfl, readReturns_returnWord _ u, rfl⟩
    · rw [if_pos hw]
      obtain ⟨v, hv, -, hread⟩ := busTransaction_byte false (a.extractLsb' 0 8) 0 (mayIssue_of_nextCommand h hm)
      obtain ⟨w, hw⟩ := hread rfl
      exact ⟨v, w, hv, hw⟩
  · rw [step_of_nextCommand h]
    simp only [execHostCmd, hostStore]
    refine ⟨fun hw hwf => ?_, fun hw hm => ?_⟩
    · rw [if_neg (by simp [hw])]
      exact ⟨_, rfl, rfl, Memory.read8_write8_same hwf a b, fun x hx => Memory.read8_write8_other hx u.mem b⟩
    · rw [if_pos hw]
      obtain ⟨v, hv, hwrite, -⟩ := busTransaction_byte true (a.extractLsb' 0 8) (b.setWidth 32) (mayIssue_of_nextCommand h hm)
      rw [hv, hwrite rfl]

end Sys2Proof.Machine

/-! The encoder and the decoder: a word is made of its fields, each register's offset selects that register and no other does, so decode
and encode undo each other up to a read's ignored DATA (30 R120, R138, R139, R143). -/

namespace Sys2Proof

/-- A word is made of its four fields (30 R120). -/
theorem make_of_fields (t : Transaction) :
    Transaction.make (t.extractLsb' 41 2) (t.getLsbD 40) (t.extractLsb' 32 8) (t.extractLsb' 0 32) = t := by
  have bit : BitVec.ofBool (t.getLsbD 40) = t.extractLsb' 40 1 := by
    ext i hi
    obtain rfl : i = 0 := by omega
    simp
  rw [Transaction.make, bit, BitVec.extractLsb'_append_extractLsb'_eq_extractLsb' (start₁ := 40) (len₁ := 1) rfl,
    BitVec.extractLsb'_append_extractLsb'_eq_extractLsb' (start₁ := 32) (len₁ := 8) rfl,
    BitVec.extractLsb'_append_extractLsb'_eq_extractLsb' (start₁ := 0) (len₁ := 32) rfl]
  exact BitVec.extractLsb'_eq_self

/-- The row of a register that a word's W bit selects (30 R139). -/
def rowOf (write : Bool) (r : Reg) (d : Word) : Instr := if write then writeRow r d else readRow r

/-! ### Registers and offsets (30 R122) -/

theorem regAt_offset (r : Reg) : regAt r.offset = some r ∧ r.offset.extractLsb' 0 2 = 0#2 := by
  cases r
  case key n =>
    revert n
    decide
  all_goals decide

theorem offset_of_regAt {o : BitVec 8} {r : Reg} (h : regAt o = some r) : r.offset = o := by
  have each : ∀ o : BitVec 8, (regAt o).all (fun r => r.offset == o) = true := by decide
  simpa [h] using each o

/-! ### Decoding -/

/-- A word of width 2 at a register's offset decodes to that register's row. -/
theorem decode_make (write : Bool) (r : Reg) (d : Word) : decode (Transaction.make 2#2 write r.offset d) = .ok (rowOf write r d) := by
  obtain ⟨hsize, hlow, hoff, hwrite, hdata⟩ := make_fields write r.offset d
  obtain ⟨hreg, haligned⟩ := regAt_offset r
  rw [decode_fields, hsize, hlow, hoff, hwrite, hdata, haligned, hreg, if_neg (by decide)]
  rfl

/-- The decoder accepts words of width 2 at a register's offset only, and answers that register's row (30 R121). -/
theorem fields_of_decode {t : Transaction} {i : Instr} (h : decode t = .ok i) :
    ∃ r : Reg, t.extractLsb' 41 2 = 2#2 ∧ t.extractLsb' 32 8 = r.offset ∧ i = rowOf (t.getLsbD 40) r (t.extractLsb' 0 32) := by
  rw [decode_fields] at h
  split at h
  · cases h
  · rename_i hwidth
    split at h
    · cases h
    · rename_i r hr
      cases h
      exact ⟨r, by tauto, (offset_of_regAt hr).symm, rfl⟩

/-! ### Encoding -/

theorem encode_readRow (r : Reg) : encode (readRow r) = encodeRead r := by cases r <;> rfl

theorem encode_writeRow (r : Reg) (v : Word) : encode (writeRow r v) = encodeWrite r v := by
  cases r
  case ctrl => exact (apply_ite encode _ _ _).trans (ite_self _)
  all_goals rfl

theorem wellFormed_readRow (r : Reg) : (readRow r).wellFormed = true := by cases r <;> rfl

/-- CTRL's write row goes by DATA[1] (30 R139). -/
theorem writeRow_ctrl {v : Word} {b : Bool} (h : v.getLsbD 1 = b) :
    writeRow .ctrl v = if b then .wrCtrlStart v else .wrCtrl v := by rw [writeRow, h]

theorem wellFormed_writeRow (r : Reg) (v : Word) : (writeRow r v).wellFormed = true := by
  cases r
  case ctrl =>
    cases h : v.getLsbD 1
    · exact (congrArg Instr.wellFormed (writeRow_ctrl h)).trans (congrArg not h)
    · exact (congrArg Instr.wellFormed (writeRow_ctrl h)).trans h
  all_goals rfl

theorem decode_encodeRead (r : Reg) : decode (encodeRead r) = .ok (readRow r) := decode_make false r 0#32

theorem decode_encodeWrite (r : Reg) (v : Word) : decode (encodeWrite r v) = .ok (writeRow r v) := decode_make true r v

/-- Settles O1: each transaction is its register's read row or write row, and the write rows of CTRL are told apart by DATA[1]. -/
theorem encodedTransactionDecodesToItself : Obligations.EncodedTransactionDecodesToItself := by
  intro i hwf
  cases i
  case rdCtrl | rdKey | rdDatain | rdDataout | rdDmaSrcAddr | rdDmaSrcCount | rdDmaDstAddr | rdDmaDstCount | rdDmaCtrl | rdDmaStatus
      | rdLock | rdResult =>
    exact decode_encodeRead _
  case wrKey | wrDatain | wrDataout | wrDmaSrcAddr | wrDmaSrcCount | wrDmaDstAddr | wrDmaDstCount | wrDmaCtrl | wrDmaStatus
      | wrLock | wrResult =>
    exact decode_encodeWrite _ _
  case wrCtrl v =>
    have hbit : v.getLsbD 1 = false := by simpa [Instr.wellFormed] using hwf
    exact (decode_encodeWrite .ctrl v).trans (congrArg _ (writeRow_ctrl hbit))
  case wrCtrlStart v =>
    have hbit : v.getLsbD 1 = true := hwf
    exact (decode_encodeWrite .ctrl v).trans (congrArg _ (writeRow_ctrl hbit))

/-- The bits of a word that a read's row looks at: SIZE, W and OFF. -/
def headMask : Transaction := 0x7FF00000000#43

/-- A word with its DATA field zeroed (30 R120). -/
theorem make_and_headMask (size : BitVec 2) (write : Bool) (o : BitVec 8) (d : Word) :
    Transaction.make size write o d &&& headMask = Transaction.make size write o 0#32 := by
  have hmask : headMask = BitVec.allOnes 11 ++ 0#32 := by decide
  rw [hmask, Transaction.make, BitVec.and_append, BitVec.and_allOnes, BitVec.and_zero]
  rfl

/-- A row's word is the word it was decoded from, but for a read's DATA. -/
theorem encode_rowOf (write : Bool) (r : Reg) (d : Word) :
    encode (rowOf write r d) =
      if write then Transaction.make 2#2 write r.offset d else Transaction.make 2#2 write r.offset d &&& headMask := by
  cases write
  case true => exact encode_writeRow r d
  case false => exact (encode_readRow r).trans (make_and_headMask _ _ _ _).symm

theorem wellFormed_rowOf (write : Bool) (r : Reg) (d : Word) : (rowOf write r d).wellFormed = true := by
  cases write
  case true => exact wellFormed_writeRow r d
  case false => exact wellFormed_readRow r

/-- Settles O2: an accepted word is made of width 2, its W bit, its register's offset and its DATA, and so is the row's word. -/
theorem decodedWordKeepsItsOperands : Obligations.DecodedWordKeepsItsOperands := by
  intro t i h
  obtain ⟨r, hsize, hoff, rfl⟩ := fields_of_decode h
  have hmake : Transaction.make 2#2 (t.getLsbD 40) r.offset (t.extractLsb' 0 32) = t := by rw [← hsize, ← hoff, make_of_fields]
  refine ⟨wellFormed_rowOf _ _ _, ?_⟩
  rw [encode_rowOf, hmake]
  rfl

end Sys2Proof

/-! The opcode map of 30 R139 and the decoder: what a row's mask fixes, that rows are disjoint and bear different mnemonics, and that the
words the rows cover are those the decoder accepts. -/

namespace Sys2Proof

/-- A multiple of four at which 30 R122 lists a register. -/
def ListedOffset (o : BitVec 8) : Bool := o.extractLsb' 0 2 == 0#2 && (regAt o).isSome

/-- A word of width 2 at a listed offset is accepted (30 R121). -/
theorem decode_of_listed {t : Transaction} (hs : t.extractLsb' 41 2 = 2#2) (ho : ListedOffset (t.extractLsb' 32 8) = true) :
    ∃ i, decode t = .ok i := by
  simp only [ListedOffset, Bool.and_eq_true, beq_iff_eq] at ho
  obtain ⟨hlow, hreg⟩ := ho
  obtain ⟨r, hr⟩ := Option.isSome_iff_exists.mp hreg
  rw [Machine.off_low] at hlow
  refine ⟨rowOf (t.getLsbD 40) r (t.extractLsb' 0 32), ?_⟩
  rw [decode_fields, if_neg (by simp [hs, hlow]), hr]
  rfl

/-! ### What a row fixes -/

theorem OpcodeRow.covers_iff {r : OpcodeRow} {t : Transaction} : r.covers t = true ↔ t &&& r.mask = r.pattern := beq_iff_eq

/-- A row fixes SIZE to 2, and OFF to a listed offset, or all of it but OFF[3:2], to a KEYn. -/
theorem row_fixes_size_and_offset : ∀ r ∈ opcodeMap,
    (r.mask.extractLsb' 41 2 = BitVec.allOnes 2 ∧ r.pattern.extractLsb' 41 2 = 2#2) ∧
    ((r.mask.extractLsb' 32 8 = BitVec.allOnes 8 ∧ ListedOffset (r.pattern.extractLsb' 32 8) = true) ∨
      (r.mask.extractLsb' 32 8 = 0xF3#8 ∧ r.pattern.extractLsb' 32 8 = 0x10#8)) := by decide

/-- A read row looks at SIZE, W and OFF only. -/
theorem read_row_ignores_data : ∀ r ∈ opcodeMap,
    r.mask.getLsbD 40 = true ∧ (r.pattern.getLsbD 40 = false → headMask &&& r.mask = r.mask) := by decide

theorem listedOffset_key : ∀ o : BitVec 8, o &&& 0xF3#8 = 0x10#8 → ListedOffset o = true := by decide

/-- The decoder accepts the words that a row covers. -/
theorem decode_of_covers {r : OpcodeRow} (hr : r ∈ opcodeMap) {t : Transaction} (h : r.covers t = true) : ∃ i, decode t = .ok i := by
  have field (start len : Nat) : t.extractLsb' start len &&& r.mask.extractLsb' start len = r.pattern.extractLsb' start len := by
    rw [← BitVec.extractLsb'_and, OpcodeRow.covers_iff.mp h]
  obtain ⟨⟨hsm, hsp⟩, ho⟩ := row_fixes_size_and_offset r hr
  have hsize : t.extractLsb' 41 2 = 2#2 := by
    rw [← hsp, ← field 41 2, hsm, BitVec.and_allOnes]
  refine decode_of_listed hsize ?_
  rcases ho with ⟨hm, hp⟩ | ⟨hm, hp⟩
  · rwa [← field 32 8, hm, BitVec.and_allOnes] at hp
  · exact listedOffset_key _ (by rw [← hm, field 32 8, hp])

/-! ### Rows differ -/

/-- Two rows disagree on a bit that both of them look at (30 R139, "the rows are disjoint"). -/
theorem rows_disagree : ∀ r ∈ opcodeMap, ∀ q ∈ opcodeMap, r.pattern &&& q.mask = q.pattern &&& r.mask → r = q := by decide

theorem row_unique {r q : OpcodeRow} (hr : r ∈ opcodeMap) (hq : q ∈ opcodeMap) {t : Transaction} (hrt : r.covers t = true)
    (hqt : q.covers t = true) : r = q := by
  refine rows_disagree r hr q hq ?_
  rw [← OpcodeRow.covers_iff.mp hrt, ← OpcodeRow.covers_iff.mp hqt, BitVec.and_assoc, BitVec.and_assoc, BitVec.and_comm r.mask]

theorem mnemonics_nodup : (opcodeMap.map OpcodeRow.mnemonic).Nodup := by decide

/-! ### The row of a decoded word -/

open Laws.RowCovers in
/-- The word of each well-formed transaction lies in a row that bears its mnemonic. -/
theorem encode_covered (i : Instr) : Statement i := by
  cases i with
  | rdCtrl => exact rdCtrl
  | wrCtrl v => exact wrCtrl v
  | wrCtrlStart v => exact wrCtrlStart v
  | rdKey n => exact rdKey n
  | wrKey n v => exact wrKey n v
  | rdDatain => exact rdDatain
  | wrDatain v => exact wrDatain v
  | rdDataout => exact rdDataout
  | wrDataout v => exact wrDataout v
  | wrDmaSrcAddr v => exact wrDmaSrcAddr v
  | rdDmaSrcAddr => exact rdDmaSrcAddr
  | wrDmaSrcCount v => exact wrDmaSrcCount v
  | rdDmaSrcCount => exact rdDmaSrcCount
  | wrDmaDstAddr v => exact wrDmaDstAddr v
  | rdDmaDstAddr => exact rdDmaDstAddr
  | wrDmaDstCount v => exact wrDmaDstCount v
  | rdDmaDstCount => exact rdDmaDstCount
  | wrDmaCtrl v => exact wrDmaCtrl v
  | rdDmaCtrl => exact rdDmaCtrl
  | rdDmaStatus => exact rdDmaStatus
  | wrDmaStatus v => exact wrDmaStatus v
  | rdLock => exact rdLock
  | wrLock v => exact wrLock v
  | rdResult => exact rdResult
  | wrResult v => exact wrResult v

/-- A row that covers a read with its DATA zeroed covers the read. -/
theorem covers_of_covers_head {r : OpcodeRow} (hr : r ∈ opcodeMap) {t : Transaction} (hw : t.getLsbD 40 = false)
    (h : r.covers (t &&& headMask) = true) : r.covers t = true := by
  obtain ⟨hmask, hread⟩ := read_row_ignores_data r hr
  have hpat : r.pattern.getLsbD 40 = false := by
    rw [← getLsbD_of_masked (OpcodeRow.covers_iff.mp h) 40 hmask, BitVec.getLsbD_and, hw, Bool.false_and]
  rw [OpcodeRow.covers_iff] at h ⊢
  rwa [BitVec.and_assoc, hread hpat] at h

/-- A decoded word lies in the row of its transaction. -/
theorem covers_of_decode {t : Transaction} {i : Instr} (h : decode t = .ok i) :
    ∃ r ∈ opcodeMap, r.mnemonic = i.mnemonic ∧ r.covers t = true := by
  obtain ⟨hwf, henc⟩ := decodedWordKeepsItsOperands t i h
  obtain ⟨r, hr, hname, hcov⟩ := encode_covered i hwf
  refine ⟨r, hr, hname, ?_⟩
  rw [henc] at hcov
  cases hw : t.isWrite
  · exact covers_of_covers_head hr hw (by rwa [hw] at hcov)
  · rwa [hw] at hcov

/-- A row covers exactly the words that decode to a transaction with its mnemonic. -/
theorem covers_iff_decode {r : OpcodeRow} (hr : r ∈ opcodeMap) (t : Transaction) :
    r.covers t = true ↔ ∃ i, decode t = .ok i ∧ i.mnemonic = r.mnemonic := by
  constructor
  · intro hcov
    obtain ⟨i, hi⟩ := decode_of_covers hr hcov
    obtain ⟨q, hq, hname, hqcov⟩ := covers_of_decode hi
    exact ⟨i, hi, by rw [← hname, row_unique hr hq hcov hqcov]⟩
  · rintro ⟨i, hi, hname⟩
    obtain ⟨q, hq, hqname, hqcov⟩ := covers_of_decode hi
    rwa [List.inj_on_of_nodup_map mnemonics_nodup hr hq (hname.symm.trans hqname.symm)]

/-- No row covers exactly the words that the decoder rejects. -/
theorem uncovered_iff_rejected (t : Transaction) :
    (∀ r ∈ opcodeMap, r.covers t = false) ↔ decode t = .error .busWidth ∨ decode t = .error .busReservedOffset := by
  cases hd : decode t with
  | ok i =>
    obtain ⟨r, hr, -, hcov⟩ := covers_of_decode hd
    simpa using ⟨r, hr, hcov⟩
  | error e =>
    have none_covers : ∀ r ∈ opcodeMap, r.covers t = false := fun r hr => by
      by_contra hc
      obtain ⟨i, hi⟩ := decode_of_covers hr (by simpa using hc)
      simp [hd] at hi
    cases e <;> simpa using none_covers

/-! ### The operands of the KEY rows (30 R138) -/

theorem extract_key_offset (n : BitVec 2) : (Reg.offset (.key n)).extractLsb' 2 2 = n := by
  revert n
  decide

/-- OFF[3:2] of a word. -/
theorem off_index (t : Transaction) : (t.extractLsb' 32 8).extractLsb' 2 2 = t.extractLsb' 34 2 := by
  ext i hi
  rw [BitVec.getElem_extractLsb', BitVec.getLsbD_extractLsb', BitVec.getElem_extractLsb', decide_eq_true (by omega), Bool.true_and,
    ← Nat.add_assoc]

/-- Only the read row of KEYn is RD_KEY n. -/
theorem rowOf_eq_rdKey {w : Bool} {r : Reg} {d : Word} {n : BitVec 2} (h : rowOf w r d = .rdKey n) : r = .key n := by
  cases w with
  | false =>
    cases r <;> cases h
    rfl
  | true =>
    cases r
    case ctrl =>
      simp only [rowOf, writeRow, if_true] at h
      split at h <;> cases h
    all_goals cases h

/-- Only the write row of KEYn is WR_KEY n, and its value is DATA. -/
theorem rowOf_eq_wrKey {w : Bool} {r : Reg} {d v : Word} {n : BitVec 2} (h : rowOf w r d = .wrKey n v) : r = .key n ∧ v = d := by
  cases w with
  | false => cases r <;> cases h
  | true =>
    cases r
    case ctrl =>
      simp only [rowOf, writeRow, if_true] at h
      split at h <;> cases h
    all_goals cases h
    exact ⟨rfl, rfl⟩

theorem index_of_key_offset {t : Transaction} {n : BitVec 2} (h : t.extractLsb' 32 8 = (Reg.key n).offset) : n = t.extractLsb' 34 2 := by
  rw [← off_index, h, extract_key_offset]

/-- Settles O3: a row covers the words that the decoder accepts with its mnemonic, by the fields that its mask fixes one way and by the
row of the encoded transaction the other way. -/
theorem opcodeMapIsTheDecoder : Obligations.OpcodeMapIsTheDecoder := by
  intro t
  refine ⟨fun r hr => covers_iff_decode hr t, fun r hr q hq => row_unique hr hq, uncovered_iff_rejected t, fun n h => ?_, fun n v h => ?_⟩
  · obtain ⟨r, -, hoff, hrow⟩ := fields_of_decode h
    rw [rowOf_eq_rdKey hrow.symm] at hoff
    exact index_of_key_offset hoff
  · obtain ⟨r, -, hoff, hrow⟩ := fields_of_decode h
    obtain ⟨hreg, hv⟩ := rowOf_eq_wrKey hrow.symm
    rw [hreg] at hoff
    exact ⟨index_of_key_offset hoff, hv⟩

end Sys2Proof

/-! What a host step runs: the transaction that a bus word decodes to, the driver's transaction, the list of steps that a call sets up,
and the driver's reading steps (43 R300, 47 R430, R435, R436, R440). -/

namespace Sys2Proof.Machine

/-- Settles O4, by evaluating the decoder on each of the fifteen words. -/
theorem specWordsDecode : Obligations.SpecWordsDecode :=
  ⟨rfl, rfl, rfl, rfl, rfl, rfl, rfl, rfl, rfl, rfl, rfl, rfl, rfl, rfl, rfl⟩

/-! ### Issued transactions -/

/-- A context that may issue transactions issues them to the block (47 R431). -/
theorem issue_of_mayIssue {s : State} (h : MayIssue s) (i : Instr) : issue i s = exec i s := by
  unfold issue
  split
  · rfl
  · rename_i hc
    exact if_pos (h.resolve_left (by simp [hc]))

theorem busTransaction_of_decode {s : State} (h : MayIssue s) {t : Transaction} {i : Instr} (hd : decode t = .ok i) :
    busTransaction t s = exec i s := by
  rw [busTransaction, hd]
  exact issue_of_mayIssue h i

/-- What a driver step's transaction answers goes to the step's continuation. -/
theorem onNext_issue {s v : State} (h : MayIssue s) {i : Instr} (hv : exec i s = .next v) (f : State → Result) :
    onNext (issue i s) f = f v := by
  rw [issue_of_mayIssue h, hv]
  rfl

theorem step_of_nextDriverStep {s u : State} {op : DrvOp} {more : List DrvOp} (h : NextDriverStep s op more u) :
    step s = execDrvOp op more u := by
  obtain ⟨rest, hs, ho, rfl⟩ := h
  exact step_driver hs ho

theorem mayIssue_of_nextDriverStep {s u : State} {op : DrvOp} {more : List DrvOp} (h : NextDriverStep s op more u) (hm : MayIssue s) :
    MayIssue u := by
  obtain ⟨_, -, -, rfl⟩ := h
  exact hm

/-- Replacing the running context's host state changes no other (47 R430). -/
theorem hostOnly_setCur (h : HostContext) (s : State) : HostOnly s (s.setCur h) h := by
  refine ⟨rfl, cur_setCur h s, fun hc => ?_, fun hc => ?_⟩ <;> simp [hc]

/-- Settles O5: a bus word and a driver's transaction are both issued to the block, the driver's in front of what is left of its call. -/
theorem stepRunsTheDecodedTransaction : Obligations.StepRunsTheDecodedTransaction := by
  refine ⟨fun s u t i h hm hd => ?_, fun s u i more h hm => ?_⟩
  · rw [step_of_nextCommand h]
    exact busTransaction_of_decode (mayIssue_of_nextCommand h hm) hd
  · obtain ⟨v, hv⟩ := exec_next i u
    refine ⟨v, v.setOps more, hv, ?_, hostOnly_setCur _ v⟩
    rw [step_of_nextDriverStep h]
    exact onNext_issue (mayIssue_of_nextDriverStep h hm) hv _

/-! ### The start of a driver call (47 R435, R436) -/

/-- Every 16-byte string is a block. -/
theorem exists_block {l : List Byte} (h : l.length = 16) : ∃ b, blockOfBytes l = some b := by
  match l, h with
  | [_, _, _, _, _, _, _, _, _, _, _, _, _, _, _, _], _ => exact ⟨_, rfl⟩

theorem platform_of_nextCommand {s u : State} {c : HostCmd} (h : NextCommand s c u) : u.platform = s.platform := by
  obtain ⟨_, _, -, -, -, rfl⟩ := h
  rfl

theorem startCall_single {u : State} (hb : u.platform.backend = .hardware) {key block : List Byte} {K B : Block}
    (hK : blockOfBytes key = some K) (hB : blockOfBytes block = some B) (d : Bool) :
    startCall (.single d key block) u = .next (u.beginCall (singleBlockOps u.platform.pollBound d K B)) := by
  simp only [startCall, hb, hK, hB]

theorem startCall_stream {u : State} (hb : u.platform.backend = .hardware) {key : List Byte} {K : Block}
    (hK : blockOfBytes key = some K) {src dst : Word} {n m : Nat} (hgood : streamArgsBad key src n dst m = false) (d : Bool) :
    startCall (.stream d key src n dst m) u = .next (u.beginCall (streamingOps u.platform.pollBound d K src n dst m)) := by
  simp only [startCall, hb, hK, hgood]

/-- The arguments that streamingOp accepts (47 R436). -/
theorem streamArgsBad_eq_false {key : List Byte} {src dst : Word} {n : Nat} (hk : key.length = 16) (h0 : n ≠ 0) (h16 : n % 16 = 0)
    (hmax : n / 16 ≤ 65535) (hs : src.extractLsb' 0 2 = 0#2) (hd : dst.extractLsb' 0 2 = 0#2) (hsw : src.toNat + n ≤ 2 ^ 32)
    (hdw : dst.toNat + n ≤ 2 ^ 32) : streamArgsBad key src n dst n = false := by
  have hs : wordAligned src = true := by simp [wordAligned, hs]
  have hd : wordAligned dst = true := by simp [wordAligned, hd]
  simp [streamArgsBad, hk, h0, h16, hs, hd]
  omega

/-- The words that a direction bit is written as. -/
theorem dirWord_eq (d : Bool) : dirWord d = if d then 1#32 else 0#32 := by cases d <;> rfl

theorem startWord_eq (d : Bool) : 0x2#32 ||| dirWord d = if d then 3#32 else 2#32 := by cases d <;> rfl

/-- Settles O54: the call's arguments pass their checks, and the list that the call sets up is R435's or R436's. -/
theorem driverCallsIssueTheirSequences : Obligations.DriverCallsIssueTheirSequences := by
  intro s u d key hb hk
  obtain ⟨K, hK⟩ := exists_block hk
  have hkey : blockBytes K = key := blockBytes_of_blockOfBytes hK
  refine ⟨fun block hl h => ?_, fun src dst n h0 h16 hmax hs hd hsw hdw h => ?_⟩
  · obtain ⟨B, hB⟩ := exists_block hl
    have hu : u.platform.backend = .hardware := by rwa [platform_of_nextCommand h]
    refine ⟨K, B, _, hkey, blockBytes_of_blockOfBytes hB, (step_of_nextCommand h).trans (startCall_single hu hK hB d), ?_⟩
    rw [← dirWord_eq]
    exact hostOnly_setCur _ u
  · have hu : u.platform.backend = .hardware := by rwa [platform_of_nextCommand h]
    have hgood : streamArgsBad key src n dst n = false := streamArgsBad_eq_false hk h0 h16 hmax hs hd hsw hdw
    refine ⟨K, _, hkey, (step_of_nextCommand h).trans (startCall_stream hu hK hgood d), ?_⟩
    rw [← startWord_eq]
    exact hostOnly_setCur _ u

/-! ### The driver's reading steps (30 R144, 47 R435, R436, R440) -/

/-- STATE is a defined field of a CTRL read: no bit of it is free (30 R124, 43 R303). -/
theorem drawnWord_state (v : Word) (s : State) : (s.drawnWord ctrlReadMask v).extractLsb' 12 3 = v.extractLsb' 12 3 := by
  have hm : ctrlReadMask.extractLsb' 12 3 = BitVec.allOnes 3 := by decide
  have hn : (~~~ctrlReadMask).extractLsb' 12 3 = 0#3 := by decide
  rw [State.drawnWord, BitVec.extractLsb'_or, BitVec.extractLsb'_and, BitVec.extractLsb'_and, hm, hn, BitVec.and_allOnes,
    BitVec.and_zero, BitVec.or_zero]

/-- A flag below bit 12 is no part of STATE. -/
theorem bitAt_state (b : Bool) : (bitAt 0 b).extractLsb' 12 3 = 0#3 ∧ (bitAt 8 b).extractLsb' 12 3 = 0#3 ∧
    (bitAt 9 b).extractLsb' 12 3 = 0#3 ∧ (bitAt 10 b).extractLsb' 12 3 = 0#3 := by
  cases b <;> decide

theorem shifted_code_state (e : EngineState) : (e.code.setWidth 32 <<< 12).extractLsb' 12 3 = e.code := by cases e <;> decide

/-- CTRL.STATE of the defined fields is the engine state's code (30 R126). -/
theorem ctrlFields_state (s : State) : s.ctrlFields.extractLsb' 12 3 = s.st.code := by
  obtain ⟨h0, -⟩ := bitAt_state s.decrypt
  obtain ⟨-, h8, -⟩ := bitAt_state s.dataFeedReady
  obtain ⟨-, -, h9, -⟩ := bitAt_state s.finishedFlag
  obtain ⟨-, -, -, h10⟩ := bitAt_state s.stream
  simp only [State.ctrlFields, BitVec.extractLsb'_or, h0, h8, h9, h10, shifted_code_state, BitVec.zero_or]

theorem code_eq_one_iff (e : EngineState) : e.code = 1#3 ↔ e = .keyLoaded := by cases e <;> decide

theorem sameBlock_of_nextDriverStep {s u : State} {op : DrvOp} {more : List DrvOp} (h : NextDriverStep s op more u) :
    SameBlock s u := by
  obtain ⟨_, -, -, rfl⟩ := h
  constructor <;> rfl

/-- Both registers that a driver polls return their defined fields and change nothing of the block (43 R309, R334). -/
theorem exec_polled {i : Instr} (hi : i = .rdCtrl ∨ i = .rdDmaStatus) (s : State) :
    ∃ mask v, exec i s = .next (s.guardCheck.returnDrawn mask v) := by
  rcases hi with rfl | rfl <;> exact ⟨_, _, rfl⟩

/-- What one read of a POLL leaves of the state `v` after the read (30 R144, 47 R440). -/
def State.polled (i : Instr) (mask : Word) (left : Nat) (more : List DrvOp) (v : State) : State :=
  if v.lastRead &&& mask = mask then v.setOps more
  else if left ≤ 1 then v.finishCall .hardwareTimeout []
  else v.setOps (.poll i mask (left - 1) :: more)

theorem execPoll_eq {i : Instr} {s v : State} (h : MayIssue s) (hv : exec i s = .next v) (mask : Word) (left : Nat)
    (more : List DrvOp) : execPoll i mask left more s = .next (v.polled i mask left more) := by
  rw [execPoll, onNext_issue h hv, State.polled]
  split
  · rfl
  · split <;> rfl

theorem sameBlock_polled (i : Instr) (mask : Word) (left : Nat) (more : List DrvOp) (v : State) :
    SameBlock v (v.polled i mask left more) := by
  unfold State.polled
  split
  · exact sameBlock_setOps _ v
  · split
    · exact sameBlock_finishCall _ _ v
    · exact sameBlock_setOps _ v

theorem hostOnly_polled (i : Instr) (mask : Word) (left : Nat) (more : List DrvOp) (v : State) :
    (v.lastRead &&& mask = mask → HostOnly v (v.polled i mask left more) { v.cur with ops := more }) ∧
    (v.lastRead &&& mask ≠ mask → 1 < left →
      HostOnly v (v.polled i mask left more) { v.cur with ops := .poll i mask (left - 1) :: more }) ∧
    (v.lastRead &&& mask ≠ mask → left ≤ 1 → HostOnly v (v.polled i mask left more)
      { v.cur with ops := [], out := [], returns := ⟨.hardwareTimeout, []⟩ :: v.cur.returns }) := by
  refine ⟨fun hw => ?_, fun hw hl => ?_, fun hw hl => ?_⟩
  · rw [State.polled, if_pos hw]
    exact hostOnly_setCur _ v
  · rw [State.polled, if_neg hw, if_neg (Nat.not_le.mpr hl)]
    exact hostOnly_setCur _ v
  · rw [State.polled, if_neg hw, if_pos hl]
    exact hostOnly_setCur _ v

/-- What the refusal check leaves of the state `v` after its read of CTRL (47 R436). -/
theorem execCheckStarted_eq {s v : State} (h : MayIssue s) (hv : exec .rdCtrl s = .next v) (more : List DrvOp) :
    execCheckStarted more s = .next (v.setOps (if s.st = .keyLoaded then [.release .invalidLength] else more)) := by
  have hstate : v.lastRead.extractLsb' 12 3 = s.st.code := by
    cases hv
    rw [lastRead_returnDrawn, drawnWord_state, ctrlFields_state]
  rw [execCheckStarted, onNext_issue h hv, hstate]
  simp only [code_eq_one_iff]
  split <;> rfl

theorem popResult_cur (rest : List Word) (s : State) : (s.popResult rest).cur = s.cur := by
  unfold State.popResult
  split <;> rfl

/-- A read of DATAOUT returns one word, whether it is a result word or a free one (43 R322). -/
theorem reads_of_rdDataout {s v : State} (h : exec .rdDataout s = .next v) : ∃ w, v.cur.reads = w :: s.cur.reads := by
  simp only [exec, execRdDataout] at h
  split at h
  · rename_i x rest _ _ _
    cases h
    exact ⟨x, by rw [returnWord_cur, popResult_cur, guardCheck_cur]⟩
  · cases h
    exact ⟨_, by rw [State.refuseRead, returnDrawn_cur, raise_cur, guardCheck_cur]⟩

/-- The word just read is the head of the words read. -/
theorem lastRead_of_reads {s : State} {w : Word} {ws : List Word} (h : s.cur.reads = w :: ws) : s.lastRead = w := by
  rw [State.lastRead, h]
  rfl

theorem out_of_exec {i : Instr} {s v : State} (h : exec i s = .next v) : v.cur.out = s.cur.out := by
  rw [(frame_of_exec h).cur]

/-- Settles O56: each reading step issues its read, which returns one word, and the word alone decides what is left of the call. -/
theorem pollSucceedsGoesOnOrTimesOut : Obligations.PollSucceedsGoesOnOrTimesOut := by
  refine ⟨fun s u i mask left more h hm hi => ?_, fun s u more h hm => ?_, fun s u more h hm => ?_⟩
  all_goals
    have hu : MayIssue u := mayIssue_of_nextDriverStep h hm
    have hsu : SameBlock s u := sameBlock_of_nextDriverStep h
    rw [step_of_nextDriverStep h]
  · obtain ⟨fields, x, hv⟩ := exec_polled hi u
    have hb : SameBlock s ((u.guardCheck.returnDrawn fields x).polled i mask left more) :=
      ((hsu.trans (sameBlock_guardCheck u)).trans (sameBlock_returnDrawn _ _ _)).trans (sameBlock_polled ..)
    refine ⟨_, u.guardCheck.drawnWord fields x, _, hv, by rw [returnDrawn_cur, guardCheck_cur], execPoll_eq hu hv mask left more,
      hb.lockHeld, hb.st, ?_⟩
    rw [← lastRead_returnDrawn]
    exact hostOnly_polled i mask left more _
  · obtain ⟨v, hv⟩ := exec_next .rdCtrl u
    refine ⟨v, _, hv, execCheckStarted_eq hu hv more, fun hs => ?_, fun hs => ?_⟩
    · rw [if_pos (hsu.st.trans hs)]
      exact hostOnly_setCur _ v
    · rw [if_neg (by rwa [hsu.st])]
      exact hostOnly_setCur _ v
  · obtain ⟨v, hv⟩ := exec_next .rdDataout u
    obtain ⟨w, hw⟩ := reads_of_rdDataout hv
    refine ⟨v, w, _, hv, hw, onNext_issue hu hv _, ?_⟩
    rw [out_of_exec hv, lastRead_of_reads hw]
    exact hostOnly_setCur _ v

end Sys2Proof.Machine

/-! The byte field (40 R200 to R203): additive maps that commute with xtime commute with the field product, and the field's laws follow
from that one fact. -/

namespace Sys2Proof

/-! ### The loop of 40 R202 -/

/-- From any start value the loop adds xtime^i(a) for every set bit i of b. -/
theorem gmulLoop_eq_foldl (n : Nat) (a b r : Byte) :
    gmulLoop n a b r = (List.range n).foldl (fun r i => if b.getLsbD i then r ^^^ Nat.iterate xtime i a else r) r := by
  induction n generalizing a b r with
  | zero => rfl
  | succ n ih => simp [gmulLoop, ih, List.range_succ_eq_map, List.foldl_map, Nat.add_comm 1]

theorem gmulLoop_zero_right (n : Nat) (a r : Byte) : gmulLoop n a 0#8 r = r := by
  induction n generalizing a with
  | zero => rfl
  | succ n ih => exact ih (xtime a)

@[simp] theorem gmul_zero (a : Byte) : gmul a 0#8 = 0#8 := gmulLoop_zero_right 8 a 0#8

@[simp] theorem gmul_one (a : Byte) : gmul a 1#8 = a :=
  calc gmul a 1#8 = gmulLoop 7 (xtime a) 0#8 (0#8 ^^^ a) := rfl
    _ = a := by rw [gmulLoop_zero_right, BitVec.zero_xor]

@[simp] theorem one_gmul : ∀ b : Byte, gmul 1#8 b = b := by decide

/-! ### Linear maps -/

/-- Additive over exclusive-or, and commuting with multiplication by x (40 R201). -/
structure XtimeLinear (f : Byte → Byte) : Prop where
  map_xor : ∀ a b, f (a ^^^ b) = f a ^^^ f b
  map_xtime : ∀ a, f (xtime a) = xtime (f a)

theorem XtimeLinear.map_zero {f : Byte → Byte} (hf : XtimeLinear f) : f 0#8 = 0#8 := by
  have h := hf.map_xor 0#8 0#8
  rwa [BitVec.xor_self, BitVec.xor_self] at h

theorem XtimeLinear.map_gmulLoop {f : Byte → Byte} (hf : XtimeLinear f) (n : Nat) (a b r : Byte) :
    f (gmulLoop n a b r) = gmulLoop n (f a) b (f r) := by
  induction n generalizing a b r with
  | zero => rfl
  | succ n ih => rw [gmulLoop, gmulLoop, ih, hf.map_xtime, apply_ite f, hf.map_xor]

/-- The key to the field's laws: such a map commutes with multiplication by any b. -/
theorem XtimeLinear.map_gmul {f : Byte → Byte} (hf : XtimeLinear f) (a b : Byte) : f (gmul a b) = gmul (f a) b := by
  rw [gmul, gmul, hf.map_gmulLoop, hf.map_zero]

theorem xtime_xor (a b : Byte) : xtime (a ^^^ b) = xtime a ^^^ xtime b := by
  have hreduce : ∀ p q : Bool,
      (if p ^^ q then 0x1B#8 else 0#8) = (if p then 0x1B#8 else 0#8) ^^^ (if q then 0x1B#8 else 0#8) := by decide
  rw [xtime, BitVec.shiftLeft_xor_distrib, BitVec.msb_xor, hreduce, xtime, xtime]
  ac_rfl

theorem xtimeLinear_xtime : XtimeLinear xtime := ⟨xtime_xor, fun _ => rfl⟩

theorem gmulLoop_xor (n : Nat) (a a' b r r' : Byte) :
    gmulLoop n (a ^^^ a') b (r ^^^ r') = gmulLoop n a b r ^^^ gmulLoop n a' b r' := by
  induction n generalizing a a' b r r' with
  | zero => rfl
  | succ n ih =>
    simp only [gmulLoop, xtime_xor, ← ih]
    split
    · congr 1
      ac_rfl
    · rfl

theorem xor_gmul (a a' b : Byte) : gmul (a ^^^ a') b = gmul a b ^^^ gmul a' b := gmulLoop_xor 8 a a' b 0#8 0#8

/-- Multiplication by b is linear. -/
theorem xtimeLinear_gmul (b : Byte) : XtimeLinear (gmul · b) :=
  ⟨fun a a' => xor_gmul a a' b, fun a => (xtimeLinear_xtime.map_gmul a b).symm⟩

/-! ### The laws of 40 R202 -/

theorem gmul_right_comm (a b c : Byte) : gmul (gmul a b) c = gmul (gmul a c) b := (xtimeLinear_gmul c).map_gmul a b

theorem gmul_comm (a b : Byte) : gmul a b = gmul b a := by
  have h := gmul_right_comm 1#8 a b
  rwa [one_gmul, one_gmul] at h

theorem gmul_assoc (a b c : Byte) : gmul (gmul a b) c = gmul a (gmul b c) := by
  rw [gmul_comm a b, gmul_right_comm, gmul_comm]

theorem gmul_xor (a b c : Byte) : gmul a (b ^^^ c) = gmul a b ^^^ gmul a c := by
  rw [gmul_comm, xor_gmul, gmul_comm b, gmul_comm c]

/-- Settles O29: the loop is an induction on its rounds; the laws follow from the linearity of multiplication by a byte. -/
theorem fieldProductLaws : Obligations.FieldProductLaws :=
  ⟨fun a b => gmulLoop_eq_foldl 8 a b 0#8, gmul_comm, gmul_assoc, gmul_xor, fun a => ⟨gmul_one a, gmul_zero a⟩⟩

end Sys2Proof

/-! The substitution tables (40 R203 to R205), by evaluation at each of the 256 bytes. -/

namespace Sys2Proof

/-- One evaluation for both facts, since the 254th power is what costs. -/
theorem sbox_eq_affine_ginv_and_gmul_ginv :
    ∀ x : Byte, sbox x = affine (ginv x) ∧ (x ≠ 0#8 → gmul x (ginv x) = 1#8) := by decide +kernel

theorem sbox_ne_self_and_ne_opposite : ∀ x : Byte, sbox x ≠ x ∧ sbox x ≠ x ^^^ 0xFF#8 := by decide

@[simp] theorem invSbox_sbox : ∀ x : Byte, invSbox (sbox x) = x := by decide

/-- Settles O28: what 40 R203 to R205 print is checked byte by byte. -/
theorem substitutionTables : Obligations.SubstitutionTables := fun x =>
  have ⟨haffine, hinverse⟩ := sbox_eq_affine_ginv_and_gmul_ginv x
  have ⟨hfixed, hopposite⟩ := sbox_ne_self_and_ne_opposite x
  ⟨haffine, hfixed, hopposite, invSbox_sbox x, hinverse⟩

/-- A left inverse on a finite type is a right inverse. -/
@[simp] theorem sbox_invSbox (y : Byte) : sbox (invSbox y) = y :=
  have hleft : Function.LeftInverse invSbox sbox := invSbox_sbox
  hleft.rightInverse_of_surjective (Finite.surjective_of_injective hleft.injective) y

end Sys2Proof

/-! The round transforms (40 R206 to R213): SubBytes and ShiftRows byte by byte, MixColumns as the product of a column with a matrix over
the byte field. -/

namespace Sys2Proof

/-! ### Four like things -/

theorem Quad.map_map {α β γ : Type} (g : β → γ) (f : α → β) (q : Quad α) : (q.map f).map g = q.map (g ∘ f) := rfl

/-- Maps that undo each other on the parts do so on the whole. -/
theorem Quad.map_leftInverse {α β : Type} {g : β → α} {f : α → β} (h : Function.LeftInverse g f) :
    Function.LeftInverse (Quad.map g) (Quad.map f) := fun q => by
  rw [Quad.map_map, h.comp_eq_id]
  rfl

/-- A map that passes through an operation on the parts passes through it on the whole. -/
theorem Quad.map_zip {α β : Type} {f : α → β} {g : α → α → α} {g' : β → β → β}
    (h : ∀ a b, f (g a b) = g' (f a) (f b)) (p q : Quad α) :
    (p.zip g q).map f = (p.map f).zip g' (q.map f) := by
  simp only [Quad.map, Quad.zip, h]

/-! ### Products of a column with a matrix -/

/-- One row of a product: the exclusive-or of the bytes of `a`, each times its coefficient in `c`. -/
def dot (a c : Quad Byte) : Byte := gmul a.e0 c.e0 ^^^ gmul a.e1 c.e1 ^^^ gmul a.e2 c.e2 ^^^ gmul a.e3 c.e3

/-- A matrix, row by row, times a column. -/
def mulColumn (m : Quad (Quad Byte)) (a : Quad Byte) : Quad Byte := m.map (dot a)

/-- Every byte of a row times `k`. -/
def scaleRow (k : Byte) (c : Quad Byte) : Quad Byte := c.map (gmul · k)

/-- The combination of the rows of `n` with the coefficients `c`. -/
def combineRows (n : Quad (Quad Byte)) (c : Quad Byte) : Quad Byte :=
  xorWord (xorWord (xorWord (scaleRow c.e0 n.e0) (scaleRow c.e1 n.e1)) (scaleRow c.e2 n.e2)) (scaleRow c.e3 n.e3)

/-- The product of two matrices. -/
def mulMatrix (m n : Quad (Quad Byte)) : Quad (Quad Byte) := m.map (combineRows n)

/-- The unit matrix. -/
def unitMatrix : Quad (Quad Byte) := ⟨⟨1, 0, 0, 0⟩, ⟨0, 1, 0, 0⟩, ⟨0, 0, 1, 0⟩, ⟨0, 0, 0, 1⟩⟩

theorem dot_xorWord_left (a b c : Quad Byte) : dot (xorWord a b) c = dot a c ^^^ dot b c := by
  simp only [dot, xorWord, Quad.zip, xor_gmul]
  ac_rfl

theorem dot_xorWord_right (a c d : Quad Byte) : dot a (xorWord c d) = dot a c ^^^ dot a d := by
  simp only [dot, xorWord, Quad.zip, gmul_xor]
  ac_rfl

theorem dot_scaleRow (a c : Quad Byte) (k : Byte) : dot a (scaleRow k c) = gmul (dot a c) k := by
  simp only [dot, scaleRow, Quad.map, xor_gmul, gmul_assoc]

theorem dot_mulColumn (n : Quad (Quad Byte)) (a c : Quad Byte) : dot (mulColumn n a) c = dot a (combineRows n c) := by
  simp only [combineRows, dot_xorWord_right, dot_scaleRow]
  rfl

theorem mulColumn_mulColumn (m n : Quad (Quad Byte)) (a : Quad Byte) : mulColumn m (mulColumn n a) = mulColumn (mulMatrix m n) a := by
  simp only [mulColumn, mulMatrix, Quad.map_map]
  exact congrArg (Quad.map · m) (funext (dot_mulColumn n a))

@[simp] theorem mulColumn_unitMatrix (a : Quad Byte) : mulColumn unitMatrix a = a := by
  simp [mulColumn, unitMatrix, Quad.map, dot]

/-- Matrices whose product is the unit undo each other. -/
theorem mulColumn_leftInverse {m n : Quad (Quad Byte)} (h : mulMatrix m n = unitMatrix) :
    Function.LeftInverse (mulColumn m) (mulColumn n) := fun a => by
  rw [mulColumn_mulColumn, h, mulColumn_unitMatrix]

theorem mulColumn_xorWord (m : Quad (Quad Byte)) (a b : Quad Byte) :
    mulColumn m (xorWord a b) = xorWord (mulColumn m a) (mulColumn m b) := by
  simp only [mulColumn, Quad.map, dot_xorWord_left]
  rfl

/-! ### MixColumns -/

/-- The coefficients of 40 R210. -/
def mixMatrix : Quad (Quad Byte) := ⟨⟨2, 3, 1, 1⟩, ⟨1, 2, 3, 1⟩, ⟨1, 1, 2, 3⟩, ⟨3, 1, 1, 2⟩⟩

/-- The coefficients of 40 R211. -/
def invMixMatrix : Quad (Quad Byte) :=
  ⟨⟨0x0e, 0x0b, 0x0d, 0x09⟩, ⟨0x09, 0x0e, 0x0b, 0x0d⟩, ⟨0x0d, 0x09, 0x0e, 0x0b⟩, ⟨0x0b, 0x0d, 0x09, 0x0e⟩⟩

theorem mixColumn_eq_mulColumn : mixColumn = mulColumn mixMatrix := by
  funext a
  simp [mixColumn, mulColumn, mixMatrix, Quad.map, dot]

theorem invMixColumn_eq_mulColumn : invMixColumn = mulColumn invMixMatrix := rfl

theorem invMixMatrix_mul_mixMatrix : mulMatrix invMixMatrix mixMatrix = unitMatrix := by decide

theorem mixMatrix_mul_invMixMatrix : mulMatrix mixMatrix invMixMatrix = unitMatrix := by decide

theorem invMixColumn_mixColumn : Function.LeftInverse invMixColumn mixColumn := by
  rw [mixColumn_eq_mulColumn, invMixColumn_eq_mulColumn]
  exact mulColumn_leftInverse invMixMatrix_mul_mixMatrix

theorem mixColumn_invMixColumn : Function.LeftInverse mixColumn invMixColumn := by
  rw [mixColumn_eq_mulColumn, invMixColumn_eq_mulColumn]
  exact mulColumn_leftInverse mixMatrix_mul_invMixMatrix

/-! ### The laws of 40 R213 -/

@[simp] theorem invSubBytes_subBytes (s : Block) : invSubBytes (subBytes s) = s :=
  Quad.map_leftInverse (Quad.map_leftInverse invSbox_sbox) s

@[simp] theorem subBytes_invSubBytes (s : Block) : subBytes (invSubBytes s) = s :=
  Quad.map_leftInverse (Quad.map_leftInverse sbox_invSbox) s

@[simp] theorem invShiftRows_shiftRows (s : Block) : invShiftRows (shiftRows s) = s := rfl

@[simp] theorem shiftRows_invShiftRows (s : Block) : shiftRows (invShiftRows s) = s := rfl

@[simp] theorem invMixColumns_mixColumns (s : Block) : invMixColumns (mixColumns s) = s := Quad.map_leftInverse invMixColumn_mixColumn s

@[simp] theorem mixColumns_invMixColumns (s : Block) : mixColumns (invMixColumns s) = s := Quad.map_leftInverse mixColumn_invMixColumn s

theorem subBytes_shiftRows (s : Block) : subBytes (shiftRows s) = shiftRows (subBytes s) := rfl

theorem invSubBytes_invShiftRows (s : Block) : invSubBytes (invShiftRows s) = invShiftRows (invSubBytes s) := rfl

theorem invMixColumns_addRoundKey (s k : Block) :
    invMixColumns (addRoundKey s k) = addRoundKey (invMixColumns s) (invMixColumns k) :=
  Quad.map_zip (mulColumn_xorWord invMixMatrix) s k

/-- Settles O27: the tables invert each other, the shifts only move bytes, and the matrices of 40 R210 and R211 have product one. -/
theorem roundTransformLaws : Obligations.RoundTransformLaws :=
  ⟨fun s => ⟨invSubBytes_subBytes s, subBytes_invSubBytes s⟩, fun s => ⟨invShiftRows_shiftRows s, shiftRows_invShiftRows s⟩,
   fun s => ⟨invMixColumns_mixColumns s, mixColumns_invMixColumns s⟩, subBytes_shiftRows, invSubBytes_invShiftRows,
   invMixColumns_addRoundKey⟩

end Sys2Proof

/-! The key schedule (41 R243 to R245): exclusive-or with a word undoes itself, so each word a round adds can be taken off again. -/

namespace Sys2Proof

/-! ### Exclusive-or of words -/

/-- An operation that undoes itself on the parts undoes itself on the whole. -/
theorem Quad.zip_zip_cancel_right {α : Type} {g : α → α → α} (h : ∀ a b, g (g a b) b = a) (p q : Quad α) :
    (p.zip g q).zip g q = p := by
  simp only [Quad.zip, h]

@[simp] theorem xorWord_xorWord_cancel_right (a b : Quad Byte) : xorWord (xorWord a b) b = a :=
  Quad.zip_zip_cancel_right xor_cancel_right a b

theorem xorWord_assoc (a b c : Quad Byte) : xorWord (xorWord a b) c = xorWord a (xorWord b c) := by
  simp only [xorWord, Quad.zip, BitVec.xor_assoc]

/-- The first word of a round key is masked with two words in turn, and masking it again takes both off. -/
theorem xorWord_mask_twice (a s c : Quad Byte) : xorWord (xorWord (xorWord (xorWord a s) c) s) c = a := by
  rw [xorWord_assoc (xorWord (xorWord a s) c), xorWord_assoc a, xorWord_xorWord_cancel_right]

/-! ### One round, forward and back -/

@[simp] theorem prevRoundKey_nextRoundKey (rk : Block) (r : Nat) : prevRoundKey (nextRoundKey rk r) r = rk := by
  simp only [prevRoundKey, nextRoundKey, xorWord_xorWord_cancel_right, xorWord_mask_twice]

@[simp] theorem nextRoundKey_prevRoundKey (rk : Block) (r : Nat) : nextRoundKey (prevRoundKey rk r) r = rk := by
  simp only [prevRoundKey, nextRoundKey, xorWord_xorWord_cancel_right, xorWord_mask_twice]

/-! ### The expanded key (41 R243) -/

/-- The first word of a round: SubWord, RotWord and the round constant. -/
theorem expandStep_four_mul (r : Nat) (w4 w1 : Quad Byte) :
    expandStep (4 * r) w4 w1 = xorWord (xorWord w4 (subWord (rotWord w1))) (rcon r) := by
  rw [expandStep, if_pos (Nat.mul_mod_right 4 r), Nat.mul_div_cancel_left r four_pos, xorWord_assoc]

/-- The other three words of a round. -/
theorem expandStep_of_mod_ne_zero {i : Nat} (h : i % 4 ≠ 0) (w4 w1 : Quad Byte) : expandStep i w4 w1 = xorWord w4 w1 := by
  rw [expandStep, if_neg h]

/-- Four words of the expansion are one round on the fly. -/
theorem expandWindow_four_mul_succ (k : Block) (r : Nat) :
    expandWindow k (4 * (r + 1)) = nextRoundKey (expandWindow k (4 * r)) (r + 1) := by
  have h0 := expandStep_four_mul (r + 1)
  have h1 := expandStep_of_mod_ne_zero (i := 4 * r + 1 + 4) (by omega)
  have h2 := expandStep_of_mod_ne_zero (i := 4 * r + 2 + 4) (by omega)
  have h3 := expandStep_of_mod_ne_zero (i := 4 * r + 3 + 4) (by omega)
  simp only [Nat.mul_succ] at h0 ⊢
  simp only [expandWindow, nextRoundKey, h0, h1, h2, h3]

theorem roundKey_eq_expandWindow (k : Block) (r : Nat) : roundKey k r = expandWindow k (4 * r) := by
  induction r with
  | zero => rfl
  | succ r ih => rw [roundKey, ih, expandWindow_four_mul_succ]

/-- Settles O26: the two steps take off what they add, and a round on the fly is four words of the expansion. -/
theorem keyScheduleRunsBothWays : Obligations.KeyScheduleRunsBothWays :=
  ⟨fun rk r => ⟨prevRoundKey_nextRoundKey rk r, nextRoundKey_prevRoundKey rk r⟩, roundKey_eq_expandWindow⟩

end Sys2Proof

/-! The ciphers (42 R271 to R277): the inverse cipher meets the states of the forward one, last round first, and takes each round off. -/

namespace Sys2Proof

/-! ### Blocks -/

@[simp] theorem addRoundKey_addRoundKey_cancel_right (s k : Block) : addRoundKey (addRoundKey s k) k = s :=
  Quad.zip_zip_cancel_right xorWord_xorWord_cancel_right s k

/-- There are finitely many blocks, so a left inverse of a map on them is a right inverse. -/
theorem Quad.finite {α : Type} (h : Finite α) : Finite (Quad α) :=
  Finite.of_injective (fun q : Quad α => (q.e0, q.e1, q.e2, q.e3)) fun p q => by
    cases p
    cases q
    simp

/-! ### The forward cipher, round by round (42 R271) -/

@[simp] theorem cipherRounds_key (k p : Block) (r : Nat) : (cipherRounds k p r).1 = roundKey k r := by
  induction r with
  | zero => rfl
  | succ r ih => exact congrArg (nextRoundKey · (r + 1)) ih

theorem cipherRounds_state_succ (k p : Block) (r : Nat) :
    (cipherRounds k p (r + 1)).2 = addRoundKey (mixColumns (shiftRows (subBytes (cipherRounds k p r).2))) (roundKey k (r + 1)) := by
  rw [← cipherRounds_key k p]
  rfl

theorem cipher_eq_final_round (k p : Block) :
    cipher k p = addRoundKey (shiftRows (subBytes (cipherRounds k p 9).2)) (roundKey k 10) := by
  rw [← cipherRounds_key k p]
  rfl

/-! ### The round trip (42 R277) -/

/-- After `n` inverse rounds `r = 9 - n` forward rounds are left to undo, and of the round after them the two byte steps. -/
theorem invCipherRounds_cipher (k p : Block) {n r : Nat} (h : n + r = 9) :
    invCipherRounds (roundKey k 10) (cipher k p) n = (roundKey k (r + 1), shiftRows (subBytes (cipherRounds k p r).2)) := by
  induction n generalizing r with
  | zero =>
    obtain rfl : r = 9 := by omega
    rw [invCipherRounds, cipher_eq_final_round, addRoundKey_addRoundKey_cancel_right]
  | succ n ih =>
    have hkey : prevRoundKey (roundKey k (r + 2)) (10 - n) = roundKey k (r + 1) := by
      rw [show 10 - n = r + 2 by omega]
      exact prevRoundKey_nextRoundKey _ _
    simp [invCipherRounds, ih (r := r + 1) (by omega), hkey, cipherRounds_state_succ]

theorem decryptWithKey_cipher (k p : Block) : decryptWithKey k (cipher k p) = p := by
  have hkey : prevRoundKey (roundKey k 1) 1 = k := prevRoundKey_nextRoundKey k 1
  simp [decryptWithKey, expandKey, invCipherFromK10, invCipherRounds_cipher k p (n := 9) (r := 0) rfl, hkey, cipherRounds]

theorem cipher_decryptWithKey (k c : Block) : cipher k (decryptWithKey k c) = c :=
  have hleft : Function.LeftInverse (decryptWithKey k) (cipher k) := decryptWithKey_cipher k
  have : Finite Block := Quad.finite (Quad.finite inferInstance)
  hleft.rightInverse_of_surjective (Finite.surjective_of_injective hleft.injective) c

/-- Settles O25: the inverse rounds take the forward rounds off one by one, and on the finite set of blocks that suffices for both. -/
theorem cipherRoundTrip : Obligations.CipherRoundTrip := fun k b => ⟨decryptWithKey_cipher k b, cipher_decryptWithKey k b⟩

/-! ### The known answer (42 R279) -/

theorem cipher_known_answer :
    cipher (blockOfHex 0x000102030405060708090a0b0c0d0e0f#128) (blockOfHex 0x00112233445566778899aabbccddeeff#128)
      = blockOfHex 0x69c4e0d86a7b0430d8cdb78070b4c55a#128 := by decide +kernel

/-- Settles O30: the encryption is computed, and the decryption follows by the round trip. -/
theorem knownAnswer : Obligations.KnownAnswer :=
  ⟨cipher_known_answer, by rw [← cipher_known_answer, decryptWithKey_cipher]⟩

end Sys2Proof

/-! The rows of the opcode map as the register statements name them: a row's words decode to its transaction, with n and v read off the
word (30 R138, R139). -/

namespace Sys2Proof.Machine

/-- A word is decoded by its SIZE, W and OFF. -/
theorem decode_of_fields {t : Transaction} {write : Bool} {r : Reg} (hs : t.extractLsb' 41 2 = 2#2) (hw : t.getLsbD 40 = write)
    (ho : t.extractLsb' 32 8 = r.offset) : decode t = .ok (rowOf write r (t.extractLsb' 0 32)) := by
  calc decode t = decode (Transaction.make 2#2 write r.offset (t.extractLsb' 0 32)) := by rw [← hs, ← hw, ← ho, make_of_fields]
    _ = _ := decode_make ..

/-- A row whose mask has all of SIZE, W and OFF, its pattern being a word of width 2 at a register's offset. -/
theorem decode_of_masked {m p t : Transaction} {write : Bool} {r : Reg} {d : Word} (hp : p = Transaction.make 2#2 write r.offset d)
    (hm : m.extractLsb' 32 11 = BitVec.allOnes 11) (h : t &&& m = p) : decode t = .ok (rowOf write r (t.extractLsb' 0 32)) := by
  obtain ⟨hs, -, ho, hw⟩ := fields_of_masked h hm
  obtain ⟨ps, -, po, pw, -⟩ := make_fields write r.offset d
  rw [← hp] at ps po pw
  exact decode_of_fields (hs.trans ps) (hw.trans pw) (ho.trans po)

theorem rowDecodes_read {p : Transaction} (r : Reg) (hp : p = encodeRead r) : RowDecodes p headMask (fun _ => readRow r) :=
  fun _ => decode_of_masked hp (by decide)

theorem rowDecodes_write {p : Transaction} (r : Reg) (hp : p = encodeWrite r 0#32) :
    RowDecodes p headMask (fun t => writeRow r (t.extractLsb' 0 32)) :=
  fun _ => decode_of_masked hp (by decide)

/-- CTRL's two write rows look at DATA[1] besides (30 R139). -/
theorem decode_ctrl_write {t : Transaction} {d : Word} (h : t &&& 0x7FF00000002#43 = encodeWrite .ctrl d) :
    decode t = .ok (if (encodeWrite .ctrl d).getLsbD 1 then .wrCtrlStart (t.extractLsb' 0 32) else .wrCtrl (t.extractLsb' 0 32)) := by
  have hbit : (t.extractLsb' 0 32).getLsbD 1 = (encodeWrite .ctrl d).getLsbD 1 := by
    rw [BitVec.getLsbD_extractLsb']
    exact getLsbD_of_masked h 1 (by decide)
  exact (decode_of_masked rfl (by decide) h).trans (congrArg _ (writeRow_ctrl hbit))

/-- OFF of a KEYn, by OFF[3:2]. -/
theorem offset_key : ∀ o : BitVec 8, o &&& 0xF3#8 = 0x10#8 → o = (Reg.key (o.extractLsb' 2 2)).offset := by decide

/-- A KEY row leaves OFF[3:2] out of its mask (30 R138). -/
theorem decode_key {t : Transaction} {write : Bool} (h : t &&& 0x7F300000000#43 = Transaction.make 2#2 write 0x10#8 0#32) :
    decode t = .ok (rowOf write (.key (t.extractLsb' 34 2)) (t.extractLsb' 0 32)) := by
  obtain ⟨ps, -, po, pw, -⟩ := make_fields write 0x10#8 0#32
  have field (start len : Nat) : t.extractLsb' start len &&& (0x7F300000000#43).extractLsb' start len =
      (Transaction.make 2#2 write 0x10#8 0#32).extractLsb' start len := by rw [← BitVec.extractLsb'_and, h]
  refine decode_of_fields ?_ ?_ ?_
  · rw [← ps, ← field 41 2]
    exact (BitVec.and_allOnes).symm
  · rw [← pw]
    exact getLsbD_of_masked h 40 (by decide)
  · rw [← off_index]
    exact offset_key _ ((field 32 8).trans po)

end Sys2Proof.Machine

/-! What the register transactions answer, one by one (43 R309 to R335): the words that reads return, the reserved bits of written words,
and each branch of each transaction. -/

namespace Sys2Proof.Machine

/-! ### Written words -/

/-- The reserved bits of a written word are its bits from `k` up. -/
theorem hasBitsFrom_eq_false_iff {k n : Nat} (h : k + n = 32) (v : Word) : hasBitsFrom k v = false ↔ v.extractLsb' k n = 0#n := by
  have hlt : v.toNat >>> k < 2 ^ n := by
    rw [Nat.shiftRight_eq_div_pow]
    exact Nat.div_lt_of_lt_mul (by rw [← Nat.pow_add, h]; exact v.isLt)
  rw [hasBitsFrom, bne_eq_false_iff_eq, ← BitVec.toNat_inj, ← BitVec.toNat_inj, BitVec.extractLsb'_toNat, Nat.mod_eq_of_lt hlt]
  simp

theorem hasBitsFrom_eq_true {k n : Nat} (h : k + n = 32) {v : Word} (hv : v.extractLsb' k n ≠ 0#n) : hasBitsFrom k v = true := by
  rwa [← Bool.not_eq_false, hasBitsFrom_eq_false_iff h]

theorem wordAligned_eq_true {v : Word} (h : v.extractLsb' 0 2 = 0#2) : wordAligned v = true := by simp [wordAligned, h]

theorem configurable_iff (s : State) : s.configurable = true ↔ s.st = .idle ∨ s.st = .keyLoaded := by
  cases hs : s.st <;> simp [State.configurable, hs]

theorem configurable_eq_false {s : State} (h : ¬(s.st = .idle ∨ s.st = .keyLoaded)) : s.configurable = false := by
  rwa [← Bool.not_eq_true, configurable_iff]

/-! ### Returned words -/

/-- A bit that is a defined field of a read is the field's, whatever is drawn. -/
theorem drawnWord_getLsbD {mask : Word} {i : Nat} (h : mask.getLsbD i = true) (v : Word) (s : State) :
    (s.drawnWord mask v).getLsbD i = v.getLsbD i := by
  rw [State.drawnWord, BitVec.getLsbD_or, BitVec.getLsbD_and, BitVec.getLsbD_and, BitVec.getLsbD_not, h]
  simp

/-- The same for a field of several bits. -/
theorem drawnWord_extractLsb' {mask : Word} {start len : Nat} (h : mask.extractLsb' start len = BitVec.allOnes len) (v : Word) (s : State) :
    (s.drawnWord mask v).extractLsb' start len = v.extractLsb' start len := by
  ext i hi
  have hbit : mask.getLsbD (start + i) = true := by
    rw [← BitVec.getElem_extractLsb' hi, h, BitVec.getElem_allOnes]
  rw [BitVec.getElem_extractLsb', BitVec.getElem_extractLsb', drawnWord_getLsbD hbit]

theorem bitAt_getLsbD (k i : Nat) (b : Bool) : (bitAt k b).getLsbD i = (decide (i < 32) && decide (i = k) && b) := by
  simp only [bitAt, BitVec.getLsbD_shiftLeft, BitVec.getLsbD_setWidth, BitVec.getLsbD_ofBool]
  by_cases hk : i = k
  · subst hk
    simp
  · by_cases hlt : i < k
    · simp [hk, hlt]
    · simp [hk, show i - k ≠ 0 by omega]

/-- CTRL.STATE lies above the flags (30 R124). -/
theorem shifted_code_getLsbD (e : EngineState) {i : Nat} (h : i < 12) : (e.code.setWidth 32 <<< 12).getLsbD i = false := by
  simp [BitVec.getLsbD_shiftLeft, h]

/-- The flags of a CTRL read (30 R124). -/
theorem ctrlFields_flags (s : State) : s.ctrlFields.getLsbD 0 = s.decrypt ∧ s.ctrlFields.getLsbD 8 = s.dataFeedReady ∧
    s.ctrlFields.getLsbD 9 = s.finishedFlag ∧ s.ctrlFields.getLsbD 10 = s.stream := by
  simp only [State.ctrlFields, BitVec.getLsbD_or, bitAt_getLsbD, shifted_code_getLsbD _ (show 0 < 12 by decide),
    shifted_code_getLsbD _ (show 8 < 12 by decide), shifted_code_getLsbD _ (show 9 < 12 by decide),
    shifted_code_getLsbD _ (show 10 < 12 by decide)]
  simp

theorem enableFields_bits (s : State) : s.enableFields.getLsbD 0 = s.srcEn ∧ s.enableFields.getLsbD 1 = s.dstEn := by
  simp only [State.enableFields, BitVec.getLsbD_or, bitAt_getLsbD]
  simp

theorem doneFields_bits (s : State) : s.doneFields.getLsbD 0 = s.srcDone ∧ s.doneFields.getLsbD 1 = s.dstDone := by
  simp only [State.doneFields, BitVec.getLsbD_or, bitAt_getLsbD]
  simp

theorem dataFeedReady_iff (s : State) : s.dataFeedReady = true ↔ s.st = .keyLoaded ∨ s.st = .feeding ∨
    (s.st = .streaming ∧ s.inBuf.length < 4 ∧ s.srcWords.toNat < 4 * s.srcCount.toNat) := by
  cases hs : s.st <;> simp [State.dataFeedReady, hs]

/-- A guarded read of a register with free bits (43 R301, R303). -/
theorem drawnRead_checked (mask v : Word) (s : State) :
    DrawnRead s (s.guardCheck.returnDrawn mask v) (s.drawnWord mask v) mask s.guardFaults := drawnRead_returnDrawn mask v s.guardCheck

theorem exactRead_checked (w : Word) (s : State) : ExactRead s (s.guardCheck.returnWord w) w s.guardFaults :=
  ⟨readReturns_returnWord w s.guardCheck, rfl⟩

/-- Settles O38: the bits that CTRL defines are outside what is drawn, and each is its flag's. -/
theorem rdCtrlReturnsTheStatus : Obligations.RdCtrlReturnsTheStatus := by
  refine ⟨rowDecodes_read .ctrl (by decide), fun s => ⟨_, _, rfl, drawnRead_checked ctrlReadMask s.ctrlFields s, ?_⟩⟩
  obtain ⟨hdec, hfeed, hfin, hstr⟩ := ctrlFields_flags s
  rw [drawnWord_getLsbD (by decide), drawnWord_getLsbD (by decide), drawnWord_getLsbD (by decide), drawnWord_getLsbD (by decide),
    drawnWord_state, ctrlFields_state, hdec, hfeed, hfin, hstr]
  refine ⟨rfl, dataFeedReady_iff s, decide_eq_true_iff, rfl, ?_⟩
  cases s.st <;> rfl

/-- Settles O41: no bit of the two reads is defined. -/
theorem rdKeyAndRdDatainReturnDraws : Obligations.RdKeyAndRdDatainReturnDraws :=
  ⟨fun _ => decode_key (write := false), rowDecodes_read .datain (by decide), fun s =>
    ⟨fun _ => ⟨_, _, rfl, drawnRead_checked noReadMask 0 s⟩, ⟨_, _, rfl, drawnRead_checked noReadMask 0 s⟩⟩⟩

/-- A count is the low half of the word its read is made of. -/
theorem setWidth_count (n : BitVec 16) : (n.setWidth 32).extractLsb' 0 16 = n := by
  rw [BitVec.extractLsb'_setWidth_of_le (by decide)]
  exact BitVec.extractLsb'_eq_self

/-- Settles O48: the fields lie where the masks define them. -/
theorem dmaReadsReturnTheirFields : Obligations.DmaReadsReturnTheirFields := by
  refine ⟨⟨rowDecodes_read .dmaSrcAddr (by decide), rowDecodes_read .dmaSrcCount (by decide), rowDecodes_read .dmaDstAddr (by decide),
    rowDecodes_read .dmaDstCount (by decide), rowDecodes_read .dmaCtrl (by decide), rowDecodes_read .dmaStatus (by decide)⟩, fun s => ?_⟩
  obtain ⟨hsrcEn, hdstEn⟩ := enableFields_bits s
  obtain ⟨hsrcDone, hdstDone⟩ := doneFields_bits s
  refine ⟨⟨_, rfl, exactRead_checked s.srcAddr s⟩, ⟨_, rfl, exactRead_checked s.dstAddr s⟩, fun k => ⟨eq_of_beq k.1, eq_of_beq k.2⟩,
    ⟨_, _, rfl, drawnRead_checked countReadMask (s.srcCount.setWidth 32) s, ?_⟩,
    ⟨_, _, rfl, drawnRead_checked countReadMask (s.dstCount.setWidth 32) s, ?_⟩,
    ⟨_, _, rfl, drawnRead_checked enableReadMask s.enableFields s, ?_⟩,
    ⟨_, _, rfl, drawnRead_checked enableReadMask s.doneFields s, ?_⟩⟩
  · rw [drawnWord_extractLsb' (by decide), setWidth_count]
  · rw [drawnWord_extractLsb' (by decide), setWidth_count]
  · rw [drawnWord_getLsbD (by decide), drawnWord_getLsbD (by decide), hsrcEn, hdstEn]
    exact ⟨rfl, rfl⟩
  · rw [drawnWord_getLsbD (by decide), drawnWord_getLsbD (by decide), hsrcDone, hdstDone]
    exact ⟨rfl, rfl⟩

/-! ### CTRL -/

theorem rowDecodes_wrCtrl : RowDecodes 0x50000000000#43 0x7FF00000002#43 (fun t => .wrCtrl (t.extractLsb' 0 32)) :=
  fun _ => decode_ctrl_write (d := 0#32)

theorem rowDecodes_wrCtrlStart : RowDecodes 0x50000000002#43 0x7FF00000002#43 (fun t => .wrCtrlStart (t.extractLsb' 0 32)) :=
  fun _ => decode_ctrl_write (d := 2#32)

/-- WR_CTRL with no reserved bit set, by the engine state (43 R310, R312). -/
theorem execWrCtrl_configurable {s : State} {v : Word} (hv : ¬hasBitsFrom 2 v = true) (h : s.st = .idle ∨ s.st = .keyLoaded) :
    execWrCtrl v s = .next (s.guardCheck.setDecrypt (v.getLsbD 0)) := by
  rcases h with h | h <;> simp only [execWrCtrl, if_neg hv, guardCheck_st, h]

theorem execWrCtrl_busy {s : State} {v : Word} (hv : ¬hasBitsFrom 2 v = true)
    (h : s.st = .feeding ∨ s.st = .computing ∨ s.st = .streaming) :
    execWrCtrl v s = .next (s.guardCheck.raise .ctrlWriteWhileBusy) := by
  rcases h with h | h | h <;> simp only [execWrCtrl, if_neg hv, guardCheck_st, h]

theorem execWrCtrl_finished {s : State} {v : Word} (hv : ¬hasBitsFrom 2 v = true) (h : s.st = .finished) :
    execWrCtrl v s = .next (s.guardCheck.endOperation (v.getLsbD 0)) := by
  simp only [execWrCtrl, if_neg hv, guardCheck_st, h]

/-- Settles O39, by the branches of the transaction: the reserved bits, then the engine state, then in FINISHED the stream. -/
theorem wrCtrlSetsDirectionOrEndsOperation : Obligations.WrCtrlSetsDirectionOrEndsOperation := by
  refine ⟨rowDecodes_wrCtrl, fun s v => ⟨fun hv => if_pos (hasBitsFrom_eq_true rfl hv), fun hv => ?_⟩⟩
  have hv : ¬hasBitsFrom 2 v = true := by simpa using (hasBitsFrom_eq_false_iff rfl v).mpr hv
  refine ⟨execWrCtrl_configurable hv, execWrCtrl_busy hv, fun h hd => (execWrCtrl_finished hv h).trans ?_,
    fun h hd => (execWrCtrl_finished hv h).trans ?_⟩
  · have hd : (s.guardCheck.stream && !s.guardCheck.dstDone) = true := by simp [hd]
    rw [State.endOperation, if_pos hd]
    rfl
  · have hd : (s.guardCheck.stream && !s.guardCheck.dstDone) = false := by rcases hd with hd | hd <;> simp [hd]
    rw [State.endOperation, hd]
    rfl

/-- CountsValid() and RangeWraps() as 44 R361 writes them. -/
theorem countsValid_iff (s : State) : s.countsValid = true ↔ s.srcCount ≠ 0#16 ∧ s.srcCount = s.dstCount := by
  simp [State.countsValid]

theorem rangeWraps_iff (s : State) : s.rangeWraps = true ↔
    2 ^ 32 < s.srcAddr.toNat + 16 * s.srcCount.toNat ∨ 2 ^ 32 < s.dstAddr.toNat + 16 * s.dstCount.toNat := by
  simp [State.rangeWraps]

/-- START in KEY_LOADED with no reserved bit set: the counts, then the ranges (43 R311). -/
theorem execWrCtrlStart_keyLoaded {s : State} {v : Word} (hv : ¬hasBitsFrom 2 v = true) (h : s.st = .keyLoaded) :
    execWrCtrlStart v s =
      if !s.countsValid then .next (s.guardCheck.setResult .invalidLength)
      else if s.rangeWraps then .next (s.guardCheck.raise .dmaWrap)
      else .next (s.guardCheck.startStream (v.getLsbD 0)) := by
  rw [execWrCtrlStart, if_neg hv, guardCheck_st, h]
  rfl

theorem execWrCtrlStart_notReady {s : State} {v : Word} (hv : ¬hasBitsFrom 2 v = true) (h : s.st = .idle ∨ s.st = .finished) :
    execWrCtrlStart v s = .next (s.guardCheck.raise .startNotReady) := by
  rcases h with h | h <;> simp only [execWrCtrlStart, if_neg hv, guardCheck_st, h]

theorem execWrCtrlStart_busy {s : State} {v : Word} (hv : ¬hasBitsFrom 2 v = true)
    (h : s.st = .feeding ∨ s.st = .computing ∨ s.st = .streaming) :
    execWrCtrlStart v s = .next (s.guardCheck.raise .ctrlWriteWhileBusy) := by
  rcases h with h | h | h <;> simp only [execWrCtrlStart, if_neg hv, guardCheck_st, h]

/-- Settles O40, by the branches of the transaction: the reserved bits, then the engine state, then in KEY_LOADED the descriptors. -/
theorem startValidatesAndStarts : Obligations.StartValidatesAndStarts := by
  refine ⟨rowDecodes_wrCtrlStart, fun s v => ⟨fun hv => if_pos (hasBitsFrom_eq_true rfl hv), fun hv => ?_⟩⟩
  have hv : ¬hasBitsFrom 2 v = true := by simpa using (hasBitsFrom_eq_false_iff rfl v).mpr hv
  refine ⟨fun h => ?_, execWrCtrlStart_notReady hv, execWrCtrlStart_busy hv⟩
  rw [exec, execWrCtrlStart_keyLoaded hv h, ← countsValid_iff, ← rangeWraps_iff]
  refine ⟨fun hc => ?_, fun hc hw => ?_, fun hc hw => ?_⟩
  · rw [if_pos (by simpa using hc)]
    rfl
  · rw [hc, hw]
    rfl
  · rw [hc, if_neg hw]
    rfl

/-! ### KEY and DATA -/

theorem Quad.get_set_same {α : Type} (n : BitVec 2) (q : Quad α) (v : α) : (q.set n v).get n = v := by
  have hn : n = 0#2 ∨ n = 1#2 ∨ n = 2#2 ∨ n = 3#2 := by
    revert n
    decide
  rcases hn with rfl | rfl | rfl | rfl <;> rfl

/-- The key is complete exactly when each of its four words is written (10 R36). -/
theorem keyComplete_iff (kv : Quad Bool) : keyComplete kv = true ↔ ∀ m, kv.get m = true := by
  refine ⟨get_of_keyComplete, fun h => ?_⟩
  simp only [keyComplete, Bool.and_eq_true]
  exact ⟨⟨⟨h 0#2, h 1#2⟩, h 2#2⟩, h 3#2⟩

/-- Writing word `n` completes the key exactly when the other three are written (43 R315). -/
theorem keyComplete_set_iff (kv : Quad Bool) (n : BitVec 2) :
    keyComplete (kv.set n true) = true ↔ ∀ m, m ≠ n → kv.get m = true := by
  rw [keyComplete_iff]
  refine ⟨fun h m hm => Quad.get_set_of_ne hm kv true ▸ h m, fun h m => ?_⟩
  by_cases hm : m = n
  · rw [hm, Quad.get_set_same]
  · rw [Quad.get_set_of_ne hm]
    exact h m hm

theorem execWrKey_accepted {s : State} (h : s.st = .idle ∨ s.st = .keyLoaded) (n : BitVec 2) (v : Word) :
    execWrKey n v s = .next (s.guardCheck.loadKeyWord n v) := by
  rcases h with h | h <;> simp only [execWrKey, guardCheck_st, h]

theorem execWrKey_refused {s : State} (h : ¬(s.st = .idle ∨ s.st = .keyLoaded)) (n : BitVec 2) (v : Word) :
    execWrKey n v s = .next (s.guardCheck.raise .keyWriteWhileBusy) := by
  cases hs : s.st <;> simp [execWrKey, hs] at h ⊢

/-- Settles O42: one key word and its valid bit are set, and the valid bits decide the state. -/
theorem wrKeyLoadsOneWord : Obligations.WrKeyLoadsOneWord := by
  refine ⟨fun _ => decode_key (write := true), fun s n v => ⟨fun h => ?_, fun h => execWrKey_refused h n v⟩⟩
  refine ⟨_, execWrKey_accepted h n v, rfl, Quad.get_set_same n s.key v, fun m hm => Quad.get_set_of_ne hm s.key v,
    Quad.get_set_same n s.keyValid true, fun m hm => Quad.get_set_of_ne hm s.keyValid true, fun hk => ?_, fun hi hall => ?_,
    fun hi hmiss => ?_⟩
  · exact (if_neg (by simp [hk])).trans hk
  · exact if_pos ⟨hi, (keyComplete_set_iff s.keyValid n).mpr hall⟩
  · obtain ⟨m, hm, hf⟩ := hmiss
    refine (if_neg fun hc => ?_).trans hi
    have ht : s.keyValid.get m = true := (keyComplete_set_iff s.keyValid n).mp hc.2 m hm
    rw [hf] at ht
    cases ht

theorem execWrDatain_accepted {s : State} (h : s.st = .keyLoaded ∨ s.st = .feeding) (v : Word) :
    execWrDatain v s = .next (s.guardCheck.feedWord v) := by
  rcases h with h | h <;> simp only [execWrDatain, guardCheck_st, h]

theorem execWrDatain_refused {s : State} (h : ¬(s.st = .keyLoaded ∨ s.st = .feeding)) (v : Word) :
    execWrDatain v s = .next (s.guardCheck.raise .feedNotReady) := by
  cases hs : s.st <;> simp [execWrDatain, hs] at h ⊢

/-- Settles O43, by the engine state. -/
theorem wrDatainFeedsOneWord : Obligations.WrDatainFeedsOneWord := by
  refine ⟨rowDecodes_write .datain (by decide), fun s v => ⟨fun h => ?_, fun h => execWrDatain_refused h v⟩⟩
  have hlen : (s.inBuf ++ [v]).length = s.inBuf.length + 1 := List.length_append
  rw [← hlen]
  exact execWrDatain_accepted h v

theorem execRdDataout_popped {s : State} {x : Word} {rest : List Word} (hs : s.st = .finished) (hf : s.stream = false)
    (ho : s.outBuf = x :: rest) : execRdDataout s = .next ((s.guardCheck.popResult rest).returnWord x) := by
  simp only [execRdDataout, guardCheck_st, guardCheck_stream, guardCheck_outBuf, hs, hf, ho]

theorem execRdDataout_refused {s : State} (h : ¬(s.st = .finished ∧ s.stream = false ∧ s.outBuf ≠ [])) :
    execRdDataout s = .next (s.guardCheck.refuseRead .dataoutNotReady) := by
  unfold execRdDataout
  simp only
  split
  · rename_i hs hf ho
    exact absurd ⟨hs, hf, by rw [← guardCheck_outBuf, ho]; simp⟩ h
  · rfl

/-- Settles O44: the head of outBuf is returned, and popping the last word is a teardown. -/
theorem rdDataoutPopsOneWord : Obligations.RdDataoutPopsOneWord := by
  refine ⟨rowDecodes_read .dataout (by decide), fun s => ⟨fun x rest hs hf ho => ⟨_, execRdDataout_popped hs hf ho, ?_⟩, fun h => ?_⟩⟩
  · unfold State.popResult
    split
    · exact ⟨readReturns_returnWord x s.guardCheck.teardown, rfl⟩
    · exact ⟨readReturns_returnWord x { s.guardCheck with outBuf := rest }, rfl⟩
  · exact ⟨_, _, execRdDataout_refused h, drawnRead_returnDrawn noReadMask 0 (s.guardCheck.raise .dataoutNotReady)⟩

/-- Settles O45: neither transaction looks at its value or at the state. -/
theorem readOnlyWritesRecordTheirFault : Obligations.ReadOnlyWritesRecordTheirFault :=
  ⟨rowDecodes_write .dataout (by decide), rowDecodes_write .dmaStatus (by decide), fun _ _ => ⟨rfl, rfl⟩⟩

/-! ### The DMA registers -/

/-- Settles O46, by the order of checks: the alignment, then the engine state. -/
theorem wrDmaAddrSetsTheAddress : Obligations.WrDmaAddrSetsTheAddress := by
  refine ⟨rowDecodes_write .dmaSrcAddr (by decide), rowDecodes_write .dmaDstAddr (by decide), fun s v =>
    ⟨fun hv => exec_misaligned hv s, fun hv h => ?_, fun hv h => ?_⟩⟩
  · simp only [exec, execWrDmaSrcAddr, execWrDmaDstAddr, wordAligned_eq_true hv, guardCheck_configurable, configurable_eq_false h]
    exact ⟨rfl, rfl⟩
  · simp only [exec, execWrDmaSrcAddr, execWrDmaDstAddr, wordAligned_eq_true hv, guardCheck_configurable, (configurable_iff s).mpr h]
    exact ⟨rfl, rfl⟩

/-- Settles O47, by the order of checks: the reserved bits, then the engine state. -/
theorem wrDmaCountSetsTheCount : Obligations.WrDmaCountSetsTheCount := by
  refine ⟨rowDecodes_write .dmaSrcCount (by decide), rowDecodes_write .dmaDstCount (by decide), fun s v =>
    ⟨fun hv => ?_, fun hv h => ?_, fun hv h => ?_⟩⟩
  · simp only [exec, execWrDmaSrcCount, execWrDmaDstCount, hasBitsFrom_eq_true rfl hv]
    exact ⟨rfl, rfl⟩
  · simp only [exec, execWrDmaSrcCount, execWrDmaDstCount, (hasBitsFrom_eq_false_iff rfl v).mpr hv, guardCheck_configurable,
      configurable_eq_false h]
    exact ⟨rfl, rfl⟩
  · simp only [exec, execWrDmaSrcCount, execWrDmaDstCount, (hasBitsFrom_eq_false_iff rfl v).mpr hv, guardCheck_configurable,
      (configurable_iff s).mpr h]
    exact ⟨rfl, rfl⟩

/-- `dmaActive` as 10 R49 writes it. -/
theorem dmaActive_iff (s : State) : s.dmaActive = true ↔ s.st = .streaming ∨ (s.st = .finished ∧ s.stream = true ∧ s.dstDone = false) := by
  cases hs : s.st <;> simp [State.dmaActive, hs]

theorem disablesChannel_iff (v : Word) (s : State) : s.disablesChannel v = true ↔
    (s.srcEn = true ∧ v.getLsbD 0 = false) ∨ (s.dstEn = true ∧ v.getLsbD 1 = false) := by
  simp [State.disablesChannel]

/-- Settles O49, by the order of checks: the reserved bits, then an active stream's enables. -/
theorem wrDmaCtrlSetsTheEnables : Obligations.WrDmaCtrlSetsTheEnables := by
  refine ⟨rowDecodes_write .dmaCtrl (by decide), fun s v => ?_⟩
  intro active clears
  have hcond : (s.guardCheck.dmaActive && s.guardCheck.disablesChannel v) = true ↔ active ∧ clears := by
    rw [Bool.and_eq_true, dmaActive_iff, disablesChannel_iff]
    rfl
  refine ⟨fun hv => ?_, fun hv => ?_⟩
  · rw [exec, execWrDmaCtrl, if_pos (hasBitsFrom_eq_true rfl hv)]
    rfl
  · rw [exec, execWrDmaCtrl, if_neg (by simpa using (hasBitsFrom_eq_false_iff rfl v).mpr hv)]
    refine ⟨fun h => ?_, fun h => ?_⟩
    · rw [if_pos (hcond.mpr h)]
      rfl
    · rw [if_neg (mt hcond.mp h)]
      rfl

/-! ### ENGINE -/

theorem step_engine {s : State} {rest : List Agent} (h : s.schedule = .engine :: rest) :
    step s = .next (State.engineStep { s with schedule := rest }) := step_scheduled h

/-- Where the ENGINE step is not enabled (43 R340). -/
theorem engineEnabled_eq_false {s : State} (h : ¬(s.st = .computing ∨ (s.st = .streaming ∧ s.inBuf.length = 4 ∧ s.outBuf = []))) :
    s.engineEnabled = false := by
  cases hs : s.st <;> simp [State.engineEnabled, hs] at h ⊢
  exact h

theorem engineStep_computing {s : State} (hs : s.st = .computing) {w0 w1 w2 w3 : Word} (hi : s.inBuf = [w0, w1, w2, w3]) :
    s.engineStep = { s.emitBlock ⟨w0, w1, w2, w3⟩ with st := .finished } := by
  have he : s.engineEnabled = true := by simp [State.engineEnabled, hs, hi]
  simp only [State.engineStep, if_pos he, hi, if_pos hs]

theorem engineStep_streaming {s : State} (hs : s.st = .streaming) (ho : s.outBuf = []) {w0 w1 w2 w3 : Word}
    (hi : s.inBuf = [w0, w1, w2, w3]) : s.engineStep = (s.emitBlock ⟨w0, w1, w2, w3⟩).countBlock := by
  have he : s.engineEnabled = true := by simp [State.engineEnabled, hs, hi, ho]
  simp only [State.engineStep, if_pos he, hi, hs, reduceCtorEq, if_false]

theorem engineStep_disabled {s : State} (h : s.engineEnabled = false) : s.engineStep = s := by
  rw [State.engineStep, h]
  rfl

/-- Settles O31, by the two states in which the step is enabled. -/
theorem engineComputesOneBlock : Obligations.EngineComputesOneBlock := by
  intro s rest hsch k
  rw [step_engine hsch]
  refine ⟨fun w0 w1 w2 w3 hi => ⟨fun hs => ?_, fun hs ho => ?_⟩, fun h => ?_⟩
  · rw [engineStep_computing (s := { s with schedule := rest }) hs hi]
    rfl
  · rw [engineStep_streaming (s := { s with schedule := rest }) hs ho hi]
    rfl
  · rw [engineStep_disabled (s := { s with schedule := rest }) (engineEnabled_eq_false h)]

end Sys2Proof.Machine

/-! Everything a register transaction can do, once: each branch of each row, with the condition under which it is taken. What the
transactions keep and what they record follows from it (43 R301, R302, R342). -/

namespace Sys2Proof.Machine

/-- The state in which a row's own rule runs: behind the guard check, if the row has one (43 R301). -/
def State.checked (i : Instr) (s : State) : State := if isGuarded i then s.guardCheck else s

theorem sameBlock_checked (i : Instr) (s : State) : SameBlock s (s.checked i) := by
  unfold State.checked
  split
  · exact sameBlock_guardCheck s
  · exact .refl s

theorem checked_faults (i : Instr) (s : State) : (s.checked i).faults = checkedFaults i s := by
  unfold State.checked checkedFaults
  split <;> rfl

/-- Everything a register transaction can answer (43, 45). -/
inductive TransactionEffect (i : Instr) (s : State) : State → Prop
  /-- A fault without any other effect (43 R302). -/
  | refused (q : Fault) (hq : q ≠ .unguardedAccess) (hfree : q = .releaseNotHeld → isLockWrite i = true ∧ s.lockHeld = false) :
    TransactionEffect i s ((s.checked i).raise q)
  /-- A read of DATAOUT with no result word to return (43 R322). -/
  | refusedRead (hi : i = .rdDataout) : TransactionEffect i s ((s.checked i).refuseRead .dataoutNotReady)
  /-- A read of a register all of whose bits are defined. -/
  | returned (w : Word) : TransactionEffect i s ((s.checked i).returnWord w)
  /-- A read of a register with free bits (43 R303). -/
  | drawn (mask v : Word) : TransactionEffect i s ((s.checked i).returnDrawn mask v)
  /-- A result word (43 R322). -/
  | popped (x : Word) (rest : List Word) (hs : s.st = .finished) :
    TransactionEffect i s (((s.checked i).popResult rest).returnWord x)
  /-- The direction (43 R310). -/
  | directed (d : Bool) (hs : s.st = .idle ∨ s.st = .keyLoaded) : TransactionEffect i s ((s.checked i).setDecrypt d)
  /-- The end of a finished operation (43 R312). -/
  | ended (d : Bool) (hs : s.st = .finished) : TransactionEffect i s ((s.checked i).teardown.setDecrypt d)
  /-- A START with bad counts (44 R361). -/
  | startRefused : TransactionEffect i s ((s.checked i).setResult .invalidLength)
  /-- An accepted START (43 R311). -/
  | started (d : Bool) (hs : s.st = .keyLoaded) : TransactionEffect i s ((s.checked i).startStream d)
  /-- A key word (43 R315). -/
  | keyed (n : BitVec 2) (v : Word) (hs : s.st = .idle ∨ s.st = .keyLoaded) : TransactionEffect i s ((s.checked i).loadKeyWord n v)
  /-- A data word (43 R318). -/
  | fed (v : Word) (hs : s.st = .keyLoaded ∨ s.st = .feeding) : TransactionEffect i s ((s.checked i).feedWord v)
  /-- The descriptors (43 R324 to R330). -/
  | described (a b : Word) (m n : BitVec 16) :
    TransactionEffect i s { s.checked i with srcAddr := a, srcCount := m, dstAddr := b, dstCount := n }
  /-- The channel enables (43 R332). -/
  | enabled (a b : Bool) : TransactionEffect i s { s.checked i with srcEn := a, dstEn := b }
  /-- A LOCK read while the lock is held (45 R400). -/
  | busy (hl : s.lockHeld = true) : TransactionEffect i s (((s.checked i).setResult .busy).returnWord lockBusy)
  /-- A LOCK read that acquires the lock (45 R400). -/
  | granted (hi : i = .rdLock) (hl : s.lockHeld = false) :
    TransactionEffect i s ((((s.checked i).setLock true).setHolds true).returnWord lockGranted)
  /-- An accepted release (45 R402). -/
  | released (v : Word) (hi : i = .wrLock v) (hl : s.lockHeld = true) (hr : s.releasable = true) :
    TransactionEffect i s (((s.checked i).teardown.setLock false).setHolds false)
  /-- A write that clears the result code (45 R406). -/
  | cleared : TransactionEffect i s ((s.checked i).setResult .success)

/-- A fault that is neither of the lock's. -/
theorem TransactionEffect.fault {i : Instr} {s : State} (q : Fault) (hq : q ≠ .unguardedAccess) (hn : q ≠ .releaseNotHeld) :
    TransactionEffect i s ((s.checked i).raise q) := .refused q hq fun e => absurd e hn

theorem exec_effect {i : Instr} {s t : State} (h : exec i s = .next t) : TransactionEffect i s t := by
  cases i
  case rdCtrl | rdKey | rdDatain | rdDmaSrcCount | rdDmaDstCount | rdDmaCtrl | rdDmaStatus | rdResult =>
    cases h
    exact .drawn _ _
  case rdDmaSrcAddr | rdDmaDstAddr =>
    cases h
    exact .returned _
  case wrDataout | wrDmaStatus =>
    cases h
    exact .fault .writeReadOnly (by decide) (by decide)
  case wrDmaSrcAddr v | wrDmaDstAddr v =>
    simp only [exec, execWrDmaSrcAddr, execWrDmaDstAddr] at h
    repeat' split at h
    all_goals cases h
    · exact .fault .dmaMisaligned (by decide) (by decide)
    · exact .fault .dmaConfigWhileBusy (by decide) (by decide)
    · exact .described _ _ _ _
  case wrDmaSrcCount v | wrDmaDstCount v =>
    simp only [exec, execWrDmaSrcCount, execWrDmaDstCount] at h
    repeat' split at h
    all_goals cases h
    · exact .fault .reservedBits (by decide) (by decide)
    · exact .fault .dmaConfigWhileBusy (by decide) (by decide)
    · exact .described _ _ _ _
  case wrDmaCtrl v =>
    simp only [exec, execWrDmaCtrl] at h
    repeat' split at h
    all_goals cases h
    · exact .fault .reservedBits (by decide) (by decide)
    · exact .fault .dmaDisableWhileBusy (by decide) (by decide)
    · exact .enabled _ _
  case wrCtrl v =>
    by_cases hv : hasBitsFrom 2 v = true
    · rw [exec, execWrCtrl, if_pos hv] at h
      cases h
      exact .fault .reservedBits (by decide) (by decide)
    rw [exec] at h
    cases hs : s.st
    case idle | keyLoaded =>
      rw [execWrCtrl_configurable hv (by simp [hs])] at h
      cases h
      exact .directed _ (by simp [hs])
    case feeding | computing | streaming =>
      rw [execWrCtrl_busy hv (by simp [hs])] at h
      cases h
      exact .fault .ctrlWriteWhileBusy (by decide) (by decide)
    case finished =>
      rw [execWrCtrl_finished hv hs, State.endOperation] at h
      split at h <;> cases h
      · exact .fault .dmaNotDrained (by decide) (by decide)
      · exact .ended _ hs
  case wrCtrlStart v =>
    by_cases hv : hasBitsFrom 2 v = true
    · rw [exec, execWrCtrlStart, if_pos hv] at h
      cases h
      exact .fault .reservedBits (by decide) (by decide)
    rw [exec] at h
    cases hs : s.st
    case keyLoaded =>
      rw [execWrCtrlStart_keyLoaded hv hs] at h
      repeat' split at h
      all_goals cases h
      · exact .startRefused
      · exact .fault .dmaWrap (by decide) (by decide)
      · exact .started _ hs
    case idle | finished =>
      rw [execWrCtrlStart_notReady hv (by simp [hs])] at h
      cases h
      exact .fault .startNotReady (by decide) (by decide)
    case feeding | computing | streaming =>
      rw [execWrCtrlStart_busy hv (by simp [hs])] at h
      cases h
      exact .fault .ctrlWriteWhileBusy (by decide) (by decide)
  case wrKey n v =>
    by_cases hs : s.st = .idle ∨ s.st = .keyLoaded
    · rw [exec, execWrKey_accepted hs] at h
      cases h
      exact .keyed n v hs
    · rw [exec, execWrKey_refused hs] at h
      cases h
      exact .fault .keyWriteWhileBusy (by decide) (by decide)
  case wrDatain v =>
    by_cases hs : s.st = .keyLoaded ∨ s.st = .feeding
    · rw [exec, execWrDatain_accepted hs] at h
      cases h
      exact .fed v hs
    · rw [exec, execWrDatain_refused hs] at h
      cases h
      exact .fault .feedNotReady (by decide) (by decide)
  case rdDataout =>
    simp only [exec, execRdDataout] at h
    split at h <;> cases h
    · rename_i hs _ _
      exact .popped _ _ hs
    · exact .refusedRead rfl
  case rdLock =>
    simp only [exec, execRdLock] at h
    split at h <;> cases h
    · rename_i hl
      exact .busy hl
    · rename_i hl
      exact .granted rfl (by simpa using hl)
  case wrLock v =>
    simp only [exec, execWrLock] at h
    repeat' split at h
    all_goals cases h
    · exact .fault .reservedBits (by decide) (by decide)
    · rename_i hl
      exact .refused .releaseNotHeld (by decide) fun _ => ⟨rfl, by simpa using hl⟩
    · rename_i hl hr
      exact .released v rfl (by simpa using hl) hr
    · exact .fault .releaseMidOp (by decide) (by decide)
  case wrResult v =>
    simp only [exec, execWrResult] at h
    split at h <;> cases h
    · exact .fault .reservedBits (by decide) (by decide)
    · exact .cleared

/-! ### What a transaction records -/

/-- The two ways a transaction records a reason of its own; else it leaves the faults of its guard check. -/
theorem TransactionEffect.faults {i : Instr} {s t : State} (h : TransactionEffect i s t) :
    t.faults = checkedFaults i s ∨
    (∃ q, q ≠ .unguardedAccess ∧ (q = .releaseNotHeld → isLockWrite i = true ∧ s.lockHeld = false) ∧ t = (s.checked i).raise q) ∨
    (i = .rdDataout ∧ t = (s.checked i).refuseRead .dataoutNotReady) := by
  rw [← checked_faults]
  cases h with
  | refused q hq hfree => exact .inr <| .inl ⟨q, hq, hfree, rfl⟩
  | refusedRead hi => exact .inr <| .inr ⟨hi, rfl⟩
  | popped x rest _ => exact .inl (popResult_faults rest _)
  | returned | drawn | directed | ended | startRefused | started | keyed | fed | described | enabled | busy | granted | released
      | cleared => exact .inl rfl

/-- Of the reasons a guard check leaves, only UNGUARDED_ACCESS is new. -/
theorem has_of_checkedFaults {i : Instr} {s : State} {r : Fault} (h : (checkedFaults i s).has r = true) :
    s.faults.has r = true ∨ r = .unguardedAccess := by
  unfold checkedFaults State.guardFaults at h
  split at h
  · split at h
    · exact .inl h
    · simpa [or_comm] using h
  · exact .inl h

/-- A guard check that finds the lock held, or that the row does not have, records nothing. -/
theorem checkedFaults_eq {i : Instr} {s : State} (h : isGuarded i = false ∨ s.lockHeld = true) : checkedFaults i s = s.faults := by
  rcases h with h | h <;> simp [checkedFaults, State.guardFaults, h]

/-- A fault is the guard check's, with one reason added. -/
theorem checked_raise (i : Instr) (q : Fault) (s : State) :
    (s.checked i).raise q = { s with faults := (checkedFaults i s).add q } := by
  unfold State.checked checkedFaults
  split <;> rfl

/-- What holds of a fault set that gains the reason `r` and at most UNGUARDED_ACCESS besides. -/
theorem reasons_of_add {i : Instr} {s : State} {q r : Fault} (hr : r ≠ .unguardedAccess) (hs : s.faults.has r = false)
    (h : ((checkedFaults i s).add q).has r = true) :
    q = r ∧ ∀ p, ((checkedFaults i s).add q).has p = true → s.faults.has p = true ∨ p = .unguardedAccess ∨ p = r := by
  simp only [FaultSet.has_add, Bool.or_eq_true, decide_eq_true_eq] at h ⊢
  have hq : r = q := h.resolve_right fun hc => by
    rcases has_of_checkedFaults hc with h | h
    · simp [hs] at h
    · exact hr h
  refine ⟨hq.symm, fun p hp => ?_⟩
  rcases hp with hp | hp
  · exact .inr <| .inr (hp.trans hq.symm)
  · exact (has_of_checkedFaults hp).imp_right .inl

/-- Settles O18: a transaction that records a reason of its own does nothing else, or is a refused read of DATAOUT. -/
theorem faultingTransactionHasNoOtherEffect : Obligations.FaultingTransactionHasNoOtherEffect := by
  intro i s t r h hr hs ht
  rcases (exec_effect h).faults with hf | ⟨q, -, -, rfl⟩ | ⟨rfl, rfl⟩
  · rw [hf] at ht
    rcases has_of_checkedFaults ht with h | h
    · simp [hs] at h
    · exact absurd h hr
  · rw [checked_raise] at ht ⊢
    obtain ⟨rfl, hall⟩ := reasons_of_add hr hs ht
    exact ⟨.inl rfl, hall⟩
  · obtain ⟨rfl, hall⟩ := reasons_of_add (i := .rdDataout) hr hs ht
    exact ⟨.inr ⟨rfl, _, drawnRead_returnDrawn noReadMask 0 (s.guardCheck.raise .dataoutNotReady)⟩, hall⟩

/-! ### The guard check -/

/-- What an access with the lock free leaves, where one with the lock held leaves `t` (43 R301). -/
def State.unguarded (t : State) : State := { t with lockHeld := false, faults := t.faults.add .unguardedAccess }

/-- The second answer is the first one's, unguarded. -/
def ProceedsUnguarded (r r' : Result) : Prop := ∃ t, r = .next t ∧ r' = .next t.unguarded

theorem ProceedsUnguarded.next (t : State) : ProceedsUnguarded (.next t) (.next t.unguarded) := ⟨t, rfl, rfl⟩

theorem ProceedsUnguarded.ite {c : Prop} [Decidable c] {a b a' b' : Result} (ht : ProceedsUnguarded a a')
    (hf : ProceedsUnguarded b b') : ProceedsUnguarded (if c then a else b) (if c then a' else b') := by
  split
  · exact ht
  · exact hf

/-- The same, where the branch lies inside the answer. -/
theorem ProceedsUnguarded.next_ite {c : Prop} [Decidable c] {t u t' u' : State} (ht : ProceedsUnguarded (.next t) (.next t'))
    (hf : ProceedsUnguarded (.next u) (.next u')) : ProceedsUnguarded (.next (if c then t else u)) (.next (if c then t' else u')) := by
  split
  · exact ht
  · exact hf

theorem popResult_proceedsUnguarded (x : Word) (rest : List Word) (s : State) :
    ProceedsUnguarded (.next ((s.popResult rest).returnWord x)) (.next ((s.unguarded.popResult rest).returnWord x)) := by
  unfold State.popResult
  split <;> exact .next _

/-- No guarded row reads the lock but by its guard check. -/
theorem exec_proceedsUnguarded {i : Instr} (hi : isGuarded i = true) (s : State) :
    ProceedsUnguarded (exec i (s.setLock true)) (exec i (s.setLock false)) := by
  cases i
  case rdLock | wrLock | rdResult | wrResult => cases hi
  case rdCtrl | rdKey | rdDatain | rdDmaSrcAddr | rdDmaSrcCount | rdDmaDstAddr | rdDmaDstCount | rdDmaCtrl | rdDmaStatus | wrDataout
      | wrDmaStatus => exact .next _
  case wrDmaSrcAddr | wrDmaSrcCount | wrDmaDstAddr | wrDmaDstCount | wrDmaCtrl => exact .ite (.next _) (.ite (.next _) (.next _))
  case wrCtrl v =>
    refine .ite (.next _) ?_
    simp only [guardCheck_st, setLock_st]
    cases s.st
    case idle | keyLoaded | feeding | computing | streaming => exact .next _
    case finished => exact .next_ite (.next _) (.next _)
  case wrCtrlStart v =>
    refine .ite (.next _) ?_
    simp only [guardCheck_st, setLock_st]
    cases s.st
    case keyLoaded => exact .ite (.next _) (.ite (.next _) (.next _))
    case idle | feeding | computing | finished | streaming => exact .next _
  case wrKey n v =>
    simp only [exec, execWrKey, guardCheck_st, setLock_st]
    cases s.st <;> exact .next _
  case wrDatain v =>
    simp only [exec, execWrDatain, guardCheck_st, setLock_st]
    cases s.st <;> exact .next _
  case rdDataout =>
    simp only [exec, execRdDataout, guardCheck_st, guardCheck_stream, guardCheck_outBuf, setLock_st, setLock_stream, setLock_outBuf]
    split
    · exact popResult_proceedsUnguarded _ _ (s.setLock true).guardCheck
    · exact .next _

/-- Settles O37: the guarded rows by comparing the two runs, the others by what a transaction records. -/
theorem guardCheckRecordsAndProceeds : Obligations.GuardCheckRecordsAndProceeds := by
  refine ⟨fun i s hi hl => ?_, fun i s t hi h => ?_⟩
  · have hs : s.setLock false = s := by rw [← hl]; rfl
    have := exec_proceedsUnguarded hi s
    rwa [hs] at this
  · have hc : checkedFaults i s = s.faults := checkedFaults_eq hi
    rcases (exec_effect h).faults with hf | ⟨q, hq, -, rfl⟩ | ⟨rfl, rfl⟩
    · rw [hf, hc]
    · rw [checked_raise, hc]
      simp [hq.symm]
    · show (((s.checked .rdDataout).faults).add .dataoutNotReady).has _ = _
      rw [checked_faults, hc]
      simp

/-! ### The key and the direction (43 R342) -/

/-- FEEDING, COMPUTING or STREAMING. -/
def State.inOperation (s : State) : Prop := s.st = .feeding ∨ s.st = .computing ∨ s.st = .streaming

/-- The key and the direction are as before. -/
def SameCipher (s t : State) : Prop := t.key = s.key ∧ t.decrypt = s.decrypt

theorem SameBlock.sameCipher {s t : State} (h : SameBlock s t) : SameCipher s t := ⟨h.key, h.decrypt⟩

theorem SameCipher.trans {s t u : State} (h : SameCipher s t) (k : SameCipher t u) : SameCipher s u :=
  ⟨k.1.trans h.1, k.2.trans h.2⟩

/-- The branches that write the key or the direction are not taken in mid-operation. -/
theorem TransactionEffect.sameCipher {i : Instr} {s t : State} (hb : s.inOperation) (h : TransactionEffect i s t) : SameCipher s t := by
  have hc : SameCipher s (s.checked i) := (sameBlock_checked i s).sameCipher
  unfold State.inOperation at hb
  cases h with
  | refused | refusedRead | returned | drawn | startRefused | fed | described | enabled | busy | granted | cleared =>
    simpa [SameCipher] using hc
  | popped _ _ hs | ended _ hs | started _ hs => simp [hs] at hb
  | directed _ hs | keyed _ _ hs => rcases hs with hs | hs <;> simp [hs] at hb
  | released _ _ _ hr => rcases hb with e | e | e <;> simp [State.releasable, e] at hr

theorem hostStepCases_sameCipher {s t : State} (hb : s.inOperation) (h : HostStepCases s t) : SameCipher s t := by
  cases h with
  | ran i h =>
    obtain ⟨u, v, hu, he, hv⟩ := h
    have hbu : u.inOperation := by rwa [State.inOperation, hu.st]
    exact (hu.sameCipher.trans ((exec_effect he).sameCipher hbu)).trans hv.sameCipher
  | stored a b h => exact h.sameCipher
  | quiet h => exact h.sameCipher

theorem engineStep_sameCipher (s : State) : SameCipher s s.engineStep := by
  unfold State.engineStep
  repeat' split
  all_goals exact ⟨rfl, rfl⟩

theorem dmaSrcStep_sameCipher (s : State) : SameCipher s s.dmaSrcStep := by
  unfold State.dmaSrcStep
  split <;> exact ⟨rfl, rfl⟩

theorem dmaDstStep_sameCipher (s : State) : SameCipher s s.dmaDstStep := by
  unfold State.dmaDstStep
  repeat' split
  all_goals exact ⟨rfl, rfl⟩

/-- Settles O21: the transactions by their branches, and no other agent but reset writes the key or the direction. -/
theorem keyAndDirectionHoldWhileBusy : Obligations.KeyAndDirectionHoldWhileBusy := by
  refine ⟨fun i s t hb h => (exec_effect h).sameCipher hb, fun s t hb h hr => ?_⟩
  cases step_cases h with
  | idle _ ht => exact ht ▸ ⟨rfl, rfl⟩
  | host rest _ hh => exact hostStepCases_sameCipher (s := { s with schedule := rest }) hb hh
  | engine rest _ ht => exact ht ▸ engineStep_sameCipher { s with schedule := rest }
  | dmaSrc rest _ ht => exact ht ▸ dmaSrcStep_sameCipher { s with schedule := rest }
  | dmaDst rest _ ht => exact ht ▸ dmaDstStep_sameCipher { s with schedule := rest }
  | interrupt _ _ ht => exact ht.sameCipher
  | reset rest hs _ => exact absurd (by rw [hs]; rfl) hr

end Sys2Proof.Machine

/-! What a host step does with the transaction that comes next: the host's own work around it, and what the lock discipline keeps
(47 R431 to R433, 45 R408). -/

namespace Sys2Proof.Machine

/-! ### Host work around a transaction -/

/-- `t` is `s` after work of the running context that touches neither the block nor what a context knows of the lock. -/
structure HostWork (s t : State) : Prop where
  block : SameBlock s t
  ctx : t.ctx = s.ctx
  faults : t.faults = s.faults
  fgHolds : t.fg.holdsLock = s.fg.holdsLock
  isrHolds : t.isr.holdsLock = s.isr.holdsLock
  fgOther : s.ctx = .isr → t.fg = s.fg

theorem HostWork.refl (s : State) : HostWork s s := ⟨.refl s, rfl, rfl, rfl, rfl, fun _ => rfl⟩

theorem HostWork.trans {s t u : State} (h : HostWork s t) (k : HostWork t u) : HostWork s u :=
  ⟨h.block.trans k.block, k.ctx.trans h.ctx, k.faults.trans h.faults, k.fgHolds.trans h.fgHolds, k.isrHolds.trans h.isrHolds,
   fun e => (k.fgOther (h.ctx.trans e)).trans (h.fgOther e)⟩

theorem hostWork_setCur {h : HostContext} {s : State} (hh : h.holdsLock = s.cur.holdsLock) : HostWork s (s.setCur h) := by
  cases hc : s.ctx
  all_goals
    simp only [State.cur, hc] at hh
    exact ⟨sameBlock_setCur h s, rfl, rfl, by simp [hc, hh], by simp [hc, hh], fun e => by simp [e]⟩

theorem hostWork_setOps (ops : List DrvOp) (s : State) : HostWork s (s.setOps ops) := hostWork_setCur rfl
theorem hostWork_finishCall (c : ResultCode) (o : List Byte) (s : State) : HostWork s (s.finishCall c o) := hostWork_setCur rfl
theorem hostWork_returnWord (w : Word) (s : State) : HostWork s (s.returnWord w) := hostWork_setCur rfl

theorem hostWork_setMask (b : Bool) (s : State) : HostWork s { s with irqMasked := b } :=
  ⟨by constructor <;> rfl, rfl, rfl, rfl, rfl, fun _ => rfl⟩

theorem hostWork_saveMask (s : State) : HostWork s s.saveMask :=
  (hostWork_setCur (h := { s.cur with savedMask := s.irqMasked }) rfl).trans (hostWork_setMask _ _)

theorem hostWork_restoreMask (s : State) : HostWork s s.restoreMask := hostWork_setMask _ _

/-- What an agent finds when its step is taken off the schedule. -/
theorem hostWork_taken (s : State) (rest : List Agent) : HostWork s { s with schedule := rest } :=
  ⟨by constructor <;> rfl, rfl, rfl, rfl, rfl, fun _ => rfl⟩

/-- The transaction `i` ran, with host work before and after it. -/
def RanInWork (i : Instr) (s t : State) : Prop := ∃ u v, HostWork s u ∧ exec i u = .next v ∧ HostWork v t

/-- The same work beside another memory and other faults. -/
theorem HostWork.update {s t : State} (h : HostWork s t) (m : Memory) (f : FaultSet) :
    HostWork { s with mem := m, faults := f } { t with mem := m, faults := f } :=
  ⟨{ h.block with mem := rfl }, h.ctx, rfl, h.fgHolds, h.isrHolds, h.fgOther⟩

/-- The faults of `s`, or those and a rejected bus word's (30 R121). -/
def BusFaults (s : State) (f : FaultSet) : Prop :=
  f = s.faults ∨ ∃ r, (r = .busWidth ∨ r = .busReservedOffset) ∧ f = s.faults.add r

/-- Everything a host step can do, with the transaction it issues. -/
inductive HostMove (s t : State) : Prop where
  /-- The next transaction. -/
  | ran (i : Instr) (hi : s.nextTransaction = some i) (h : RanInWork i s t)
  /-- Host state, a byte of memory, or a rejected bus word. -/
  | quiet (m : Memory) (f : FaultSet) (hf : BusFaults s f) (h : HostWork { s with mem := m, faults := f } t)
  /-- The ISR's return (60 R512). -/
  | returned (hc : s.ctx = .isr) (ht : t = State.returnIsr { s with schedule := t.schedule })

/-- A driver step runs its transaction. -/
theorem execDrvOp_ranInWork {op : DrvOp} {rest : List DrvOp} {s t : State} (h : execDrvOp op rest s = .next t) :
    RanInWork op.transaction s t := by
  cases op with
  | acquire =>
    obtain ⟨v, hv, h⟩ := onNext_next h
    refine ⟨_, v, hostWork_saveMask s, issue_ran hv, ?_⟩
    split at h <;> cases h
    · exact (hostWork_restoreMask v).trans (hostWork_finishCall _ _ _)
    · exact hostWork_setOps _ v
  | xact i =>
    obtain ⟨v, hv, h⟩ := onNext_next h
    cases h
    exact ⟨s, v, .refl s, issue_ran hv, hostWork_setOps _ v⟩
  | poll i m n =>
    obtain ⟨v, hv, h⟩ := onNext_next h
    refine ⟨s, v, .refl s, issue_ran hv, ?_⟩
    repeat' split at h
    all_goals cases h
    · exact hostWork_setOps _ v
    · exact hostWork_finishCall _ _ v
    · exact hostWork_setOps _ v
  | checkStarted =>
    obtain ⟨v, hv, h⟩ := onNext_next h
    refine ⟨s, v, .refl s, issue_ran hv, ?_⟩
    split at h <;> cases h <;> exact hostWork_setOps _ v
  | drain =>
    obtain ⟨v, hv, h⟩ := onNext_next h
    cases h
    exact ⟨s, v, .refl s, issue_ran hv, hostWork_setCur rfl⟩
  | release c =>
    obtain ⟨v, hv, h⟩ := onNext_next h
    cases h
    exact ⟨s, v, .refl s, issue_ran hv, (hostWork_restoreMask v).trans (hostWork_finishCall _ _ _)⟩

theorem startCall_hostWork {c : ApiCall} {s t : State} (h : startCall c s = .next t) : HostWork s t := by
  unfold startCall at h
  repeat' split at h
  all_goals cases h
  all_goals exact hostWork_setCur rfl

/-- A rejected bus word records its reason, and a read returns a word. -/
theorem rejectTransaction_hostWork (r : Fault) (w : Transaction) (s : State) :
    HostWork { s with faults := s.faults.add r } (rejectTransaction r w s) := by
  unfold rejectTransaction
  split
  · exact .refl _
  · obtain ⟨hb, hc, hf, hfg, hisr, ho⟩ := hostWork_returnWord ((s.raise r).drawnWord noReadMask 0) (s.raise r)
    exact ⟨hb.trans (by constructor <;> rfl), hc, hf, hfg, hisr, ho⟩

/-- A bus word runs the transaction it decodes to, or is rejected. -/
theorem busTransaction_move {w : Transaction} {s t : State} (h : busTransaction w s = .next t) :
    (∃ i, decode w = .ok i ∧ exec i s = .next t) ∨ ∃ f, BusFaults s f ∧ HostWork { s with faults := f } t := by
  rcases busTransaction_cases h with hi | ⟨-, r, -, hr, rfl, -⟩
  · exact .inl hi
  · exact .inr ⟨_, .inr ⟨r, hr, rfl⟩, rejectTransaction_hostWork r w s⟩

/-- A byte access to the register window is rejected (20 R85). -/
theorem busTransaction_byte_move {write : Bool} {o : BitVec 8} {d : Word} {s t : State}
    (h : busTransaction (Transaction.make 0#2 write o d) s = .next t) : ∃ f, BusFaults s f ∧ HostWork { s with faults := f } t := by
  refine (busTransaction_move h).resolve_left ?_
  rintro ⟨i, hd, -⟩
  rw [decode_busWidth (.inl (by rw [(make_byte_fields write o d).1]; decide))] at hd
  cases hd

/-- What a host command does, `u` being the state in which it was taken off the program. -/
theorem execHostCmd_move {c : HostCmd} {cs : List HostCmd} {s u t : State} {rest : List Agent} (hs : s.schedule = .host :: rest)
    (ho : s.cur.ops = []) (hp : s.cur.prog = c :: cs) (hu : HostWork s u) (h : execHostCmd c u = .next t) : HostMove s t := by
  have quiet : ∀ {m f}, BusFaults u f → HostWork { u with mem := m, faults := f } t → HostMove s t := fun hf hw =>
    .quiet _ _ (by rwa [BusFaults, hu.faults] at hf) ((hu.update _ _).trans hw)
  cases c with
  | bus w =>
    rcases busTransaction_move h with ⟨i, hd, hi⟩ | ⟨f, hf, hw⟩
    · exact .ran i (by simp only [State.nextTransaction, hs, ho, hp, hd]) ⟨u, t, hu, hi, .refl t⟩
    · exact quiet hf hw
  | call a => exact quiet (.inl rfl) (startCall_hostWork h)
  | setMask b =>
    cases h
    exact quiet (.inl rfl) (hostWork_setMask b u)
  | load a =>
    simp only [execHostCmd, hostLoad] at h
    split at h
    · obtain ⟨f, hf, hw⟩ := busTransaction_byte_move h
      exact quiet hf hw
    · cases h
      exact quiet (.inl rfl) (hostWork_returnWord _ u)
  | store a b =>
    simp only [execHostCmd, hostStore] at h
    split at h
    · obtain ⟨f, hf, hw⟩ := busTransaction_byte_move h
      exact quiet hf hw
    · cases h
      exact quiet (.inl rfl) (.refl _)
  | spinLock =>
    obtain ⟨v, hv, h⟩ := onNext_next h
    refine .ran .rdLock (by simp only [State.nextTransaction, hs, ho, hp]) ⟨u, v, hu, issue_ran hv, ?_⟩
    split at h <;> cases h
    · exact hostWork_setCur rfl
    · exact .refl _

theorem step_hostMove {s t : State} {rest : List Agent} (hs : s.schedule = .host :: rest) (h : step s = .next t) : HostMove s t := by
  rw [step_scheduled hs] at h
  replace h : State.hostStep { s with schedule := rest } = .next t := h
  have taken : HostWork s { s with schedule := rest } := hostWork_taken s rest
  unfold State.hostStep at h
  split at h
  · rename_i op more ho
    obtain ⟨u, v, hu, he, hv⟩ := execDrvOp_ranInWork h
    have ho : s.cur.ops = op :: more := ho
    exact .ran _ (by simp only [State.nextTransaction, hs, ho]) ⟨u, v, taken.trans hu, he, hv⟩
  · rename_i c cs ho hp
    refine execHostCmd_move hs ho hp (taken.trans ?_) h
    exact hostWork_setCur rfl
  · split at h <;> cases h
    · exact .quiet s.mem s.faults (.inl rfl) taken
    · rename_i hc
      exact .returned hc rfl

/-- Everything one step can do, with the transaction it issues and what the interrupt does to the host. -/
inductive StepMove (s t : State) : Prop where
  | idle (hs : s.schedule = []) (ht : t = s)
  | host (hs : s.schedule.head? = some .host) (h : HostMove s t)
  | engine (hs : s.schedule.head? = some .engine) (ht : t = State.engineStep { s with schedule := s.schedule.tail })
  | dmaSrc (hs : s.schedule.head? = some .dmaSrc) (ht : t = State.dmaSrcStep { s with schedule := s.schedule.tail })
  | dmaDst (hs : s.schedule.head? = some .dmaDst) (ht : t = State.dmaDstStep { s with schedule := s.schedule.tail })
  | irqRaise (hs : s.schedule.head? = some .irqRaise) (ht : t = { s with schedule := s.schedule.tail, irqPending := true })
  | isrEnter (hs : s.schedule.head? = some .isrEnter) (ht : t = State.enterIsr { s with schedule := s.schedule.tail })
  | reset (hs : s.schedule.head? = some .reset) (ht : t = State.afterReset { s with schedule := s.schedule.tail })

theorem step_move {s t : State} (h : step s = .next t) : StepMove s t := by
  cases hs : s.schedule with
  | nil =>
    rw [step, hs] at h
    cases h
    exact .idle hs rfl
  | cons a rest =>
    have ha : State.agentStep a { s with schedule := rest } = .next t := (step_scheduled hs).symm.trans h
    have hhead : s.schedule.head? = some a := by rw [hs]; rfl
    obtain rfl : s.schedule.tail = rest := by rw [hs]; rfl
    cases a with
    | host => exact .host hhead (step_hostMove hs h)
    | engine => cases ha; exact .engine hhead rfl
    | dmaSrc => cases ha; exact .dmaSrc hhead rfl
    | dmaDst => cases ha; exact .dmaDst hhead rfl
    | irqRaise => cases ha; exact .irqRaise hhead rfl
    | isrEnter => cases ha; exact .isrEnter hhead rfl
    | reset => cases ha; exact .reset hhead rfl

/-! ### The lock (45 R400 to R402, R408) -/

/-- The lock, and what the contexts know of it, are as before. -/
structure SameLock (s t : State) : Prop where
  held : t.lockHeld = s.lockHeld
  fg : t.fg.holdsLock = s.fg.holdsLock
  isr : t.isr.holdsLock = s.isr.holdsLock

theorem SameLock.trans {s t u : State} (h : SameLock s t) (k : SameLock t u) : SameLock s u :=
  ⟨k.held.trans h.held, k.fg.trans h.fg, k.isr.trans h.isr⟩

theorem HostWork.sameLock {s t : State} (h : HostWork s t) : SameLock s t := ⟨h.block.lockHeld, h.fgHolds, h.isrHolds⟩

theorem LockInv.of_same {s t : State} (h : SameLock s t) (k : LockInv s) : LockInv t := by
  simpa only [LockInv, h.held, h.fg, h.isr] using k

theorem HostWork.disciplined {s t : State} (h : HostWork s t) {i : Instr} (d : Disciplined i s) : Disciplined i t := by
  have hcur : t.cur.holdsLock = s.cur.holdsLock := by
    cases hc : s.ctx <;> simp only [State.cur, h.ctx, hc, h.fgHolds, h.isrHolds]
  simpa only [Disciplined, hcur] using d

/-- A context that holds the lock finds it held. -/
theorem LockInv.held_of_cur {s : State} (k : LockInv s) (h : s.cur.holdsLock = true) : s.lockHeld = true := by
  refine k.1.mpr ?_
  cases hc : s.ctx
  · exact .inl (by simpa only [State.cur, hc] using h)
  · exact .inr (by simpa only [State.cur, hc] using h)

theorem sameLock_checked (i : Instr) (s : State) : SameLock s (s.checked i) := by
  unfold State.checked
  split <;> exact ⟨rfl, rfl, rfl⟩

theorem sameLock_raise (r : Fault) (s : State) : SameLock s (s.raise r) := ⟨rfl, rfl, rfl⟩

theorem sameLock_returnDrawn (mask v : Word) (s : State) : SameLock s (s.returnDrawn mask v) := by
  obtain ⟨hl, hf, hi⟩ := (hostWork_returnWord (s.drawnWord mask v) s).sameLock
  exact ⟨hl, hf, hi⟩

theorem sameLock_popResult (rest : List Word) (s : State) : SameLock s (s.popResult rest) := by
  unfold State.popResult
  split <;> exact ⟨rfl, rfl, rfl⟩

/-- What a transaction does to the lock: the two LOCK rows alone move it, and the context that issues them knows. -/
theorem exec_lock {i : Instr} {s t : State} (h : exec i s = .next t) :
    SameLock s t ∨
    (i = .rdLock ∧ s.lockHeld = false ∧ SameLock ((s.setLock true).setHolds true) t) ∨
    (isLockWrite i = true ∧ s.lockHeld = true ∧ SameLock ((s.setLock false).setHolds false) t) := by
  have hc : SameLock s (s.checked i) := sameLock_checked i s
  cases exec_effect h with
  | refused q => exact .inl (hc.trans (sameLock_raise q _))
  | refusedRead => exact .inl ((hc.trans (sameLock_raise _ _)).trans (sameLock_returnDrawn _ _ _))
  | returned w => exact .inl (hc.trans (hostWork_returnWord w _).sameLock)
  | drawn mask v => exact .inl (hc.trans (sameLock_returnDrawn mask v _))
  | popped x rest => exact .inl ((hc.trans (sameLock_popResult rest _)).trans (hostWork_returnWord x _).sameLock)
  | busy => 
    have hb : SameLock s ((s.checked i).setResult .busy) := ⟨hc.held, hc.fg, hc.isr⟩
    exact .inl (hb.trans (hostWork_returnWord lockBusy _).sameLock)
  | directed | ended | startRefused | started | keyed | fed | described | enabled | cleared => exact .inl ⟨hc.held, hc.fg, hc.isr⟩
  | granted hi hl =>
    subst hi
    exact .inr <| .inl ⟨rfl, hl, (hostWork_returnWord lockGranted _).sameLock⟩
  | released v hi hl =>
    subst hi
    exact .inr <| .inr ⟨rfl, hl, rfl, rfl, rfl⟩

/-- An acquire finds the lock free, so no context holds it, and makes the running context its holder. -/
theorem LockInv.acquire {s : State} (k : LockInv s) (hl : s.lockHeld = false) : LockInv ((s.setLock true).setHolds true) := by
  obtain ⟨hiff, -⟩ := k
  have hfree : s.fg.holdsLock = false ∧ s.isr.holdsLock = false := by simpa [hl] using hiff
  cases hc : s.ctx <;> simp [LockInv, State.setHolds, State.cur, hc, hfree]

/-- A release is its holder's, and leaves no holder. -/
theorem LockInv.release {s : State} (k : LockInv s) (h : s.cur.holdsLock = true) : LockInv ((s.setLock false).setHolds false) := by
  obtain ⟨-, hone⟩ := k
  cases hc : s.ctx
  all_goals
    simp only [State.cur, hc] at h
    simp only [h] at hone
    simpa [LockInv, State.setHolds, State.cur, hc] using hone

theorem exec_lockInv {i : Instr} {s t : State} (k : LockInv s) (d : Disciplined i s) (h : exec i s = .next t) : LockInv t := by
  obtain ⟨-, hwrite, -⟩ := d
  rcases exec_lock h with h | ⟨-, hl, h⟩ | ⟨hi, -, h⟩
  · exact k.of_same h
  · exact (k.acquire hl).of_same h
  · exact (k.release (hwrite hi)).of_same h

/-- Between the contexts' acquires and releases, one context at most holds the lock (45 R408). -/
theorem hostMove_lockInv {s t : State} (k : LockInv s) (d : StepDisciplined s) (h : HostMove s t) : LockInv t := by
  cases h with
  | ran i hi h =>
    obtain ⟨u, v, hu, he, hv⟩ := h
    exact (exec_lockInv (k.of_same hu.sameLock) (hu.disciplined (d i hi)) he).of_same hv.sameLock
  | quiet m f _ h => exact LockInv.of_same (s := { s with mem := m, faults := f }) h.sameLock k
  | returned _ ht => rw [ht]; exact k

/-- The agents of the block leave the lock and the host alone. -/
structure SameHost (s t : State) : Prop where
  held : t.lockHeld = s.lockHeld
  ctx : t.ctx = s.ctx
  fg : t.fg = s.fg
  isr : t.isr = s.isr

theorem SameHost.sameLock {s t : State} (h : SameHost s t) : SameLock s t := ⟨h.held, by rw [h.fg], by rw [h.isr]⟩

theorem sameHost_engineStep (s : State) : SameHost s s.engineStep := by
  unfold State.engineStep
  repeat' split
  all_goals exact ⟨rfl, rfl, rfl, rfl⟩

theorem sameHost_dmaSrcStep (s : State) : SameHost s s.dmaSrcStep := by
  unfold State.dmaSrcStep
  split <;> exact ⟨rfl, rfl, rfl, rfl⟩

theorem sameHost_dmaDstStep (s : State) : SameHost s s.dmaDstStep := by
  unfold State.dmaDstStep
  repeat' split
  all_goals exact ⟨rfl, rfl, rfl, rfl⟩

theorem sameLock_enterIsr (s : State) : SameLock s s.enterIsr := by
  unfold State.enterIsr
  split <;> exact ⟨rfl, rfl, rfl⟩

theorem step_lockInv {s t : State} (k : LockInv s) (d : StepDisciplined s) (h : step s = .next t) : LockInv t := by
  cases step_move h with
  | idle _ ht => exact ht ▸ k
  | host _ h => exact hostMove_lockInv k d h
  | engine _ ht => exact ht ▸ LockInv.of_same (sameHost_engineStep { s with schedule := s.schedule.tail }).sameLock k
  | dmaSrc _ ht => exact ht ▸ LockInv.of_same (sameHost_dmaSrcStep { s with schedule := s.schedule.tail }).sameLock k
  | dmaDst _ ht => exact ht ▸ LockInv.of_same (sameHost_dmaDstStep { s with schedule := s.schedule.tail }).sameLock k
  | irqRaise _ ht => exact ht ▸ k
  | isrEnter _ ht => exact ht ▸ LockInv.of_same (sameLock_enterIsr { s with schedule := s.schedule.tail }) k
  | reset _ ht =>
    rw [ht]
    simp [LockInv, State.afterReset, HostContext.afterReset, State.reset, HostContext.fresh]

/-! ### The lock's faults (43 R301, 45 R401) -/

/-- The two reasons that a breach of the lock discipline records. -/
def LockFault (r : Fault) : Prop := r = .unguardedAccess ∨ r = .releaseNotHeld

/-- Under the discipline a guarded row and a LOCK write find the lock held. -/
theorem exec_no_lockFault {i : Instr} {s t : State} (k : LockInv s) (d : Disciplined i s) (h : exec i s = .next t) {r : Fault}
    (hr : LockFault r) (ht : t.faults.has r = true) : s.faults.has r = true := by
  obtain ⟨hguard, hwrite, -⟩ := d
  have hc : checkedFaults i s = s.faults := by
    refine checkedFaults_eq ?_
    cases hi : isGuarded i
    · exact .inl rfl
    · exact .inr (k.held_of_cur (hguard hi))
  rcases (exec_effect h).faults with hf | ⟨q, hq, hfree, rfl⟩ | ⟨rfl, rfl⟩
  · rwa [hf, hc] at ht
  · rw [checked_raise, hc, FaultSet.has_add, Bool.or_eq_true, decide_eq_true_eq] at ht
    refine ht.resolve_left ?_
    rintro rfl
    obtain ⟨hw, hl⟩ := hfree (hr.resolve_left hq)
    rw [k.held_of_cur (hwrite hw)] at hl
    cases hl
  · replace ht : ((checkedFaults .rdDataout s).add .dataoutNotReady).has r = true := by rwa [← checked_faults]
    rw [hc, FaultSet.has_add, Bool.or_eq_true, decide_eq_true_eq] at ht
    refine ht.resolve_left ?_
    rintro rfl
    rcases hr with h | h <;> cases h

theorem BusFaults.no_lockFault {s : State} {f : FaultSet} (h : BusFaults s f) {r : Fault} (hr : LockFault r) (hf : f.has r = true) :
    s.faults.has r = true := by
  rcases h with rfl | ⟨q, hq, rfl⟩
  · exact hf
  · rw [FaultSet.has_add, Bool.or_eq_true, decide_eq_true_eq] at hf
    refine hf.resolve_left ?_
    rintro rfl
    rcases hq with rfl | rfl <;> rcases hr with h | h <;> cases h

theorem hostMove_no_lockFault {s t : State} (k : LockInv s) (d : StepDisciplined s) (h : HostMove s t) {r : Fault} (hr : LockFault r)
    (ht : t.faults.has r = true) : s.faults.has r = true := by
  cases h with
  | ran i hi h =>
    obtain ⟨u, v, hu, he, hv⟩ := h
    rw [hv.faults] at ht
    rw [← hu.faults]
    exact exec_no_lockFault (k.of_same hu.sameLock) (hu.disciplined (d i hi)) he hr ht
  | quiet m f hf h =>
    rw [h.faults] at ht
    exact hf.no_lockFault hr ht
  | returned _ h => rwa [h] at ht

theorem step_no_lockFault {s t : State} (k : LockInv s) (d : StepDisciplined s) (h : step s = .next t) {r : Fault} (hr : LockFault r)
    (ht : t.faults.has r = true) : s.faults.has r = true := by
  cases step_move h with
  | host _ h => exact hostMove_no_lockFault k d h hr ht
  | idle _ h | irqRaise _ h => rwa [h] at ht
  | engine _ h => rwa [h, engineStep_faults] at ht
  | dmaSrc _ h => rwa [h, dmaSrcStep_faults] at ht
  | dmaDst _ h => rwa [h, dmaDstStep_faults] at ht
  | isrEnter _ h => rwa [h, enterIsr_faults] at ht
  | reset _ h =>
    rw [h] at ht
    exact absurd ((FaultSet.has_empty r).symm.trans ht) (by decide)

/-- Settles O16: the transaction that comes next finds the lock held if it is guarded or a release, and nothing else records the two
reasons. -/
theorem disciplineAvoidsLockFaults : Obligations.DisciplineAvoidsLockFaults :=
  fun _ _ k d h => ⟨step_no_lockFault k d h (.inl rfl), step_no_lockFault k d h (.inr rfl)⟩

end Sys2Proof.Machine

/-! The transactions that a driver call can still issue (47 R441 a): a bounded number at its start, and each of its steps takes from it. -/

namespace Sys2Proof.Machine

/-- The transactions that a list of driver steps can still issue. -/
def opsCost (ops : List DrvOp) : Nat := (ops.map DrvOp.cost).sum

@[simp] theorem opsCost_nil : opsCost [] = 0 := rfl
@[simp] theorem opsCost_cons (op : DrvOp) (ops : List DrvOp) : opsCost (op :: ops) = op.cost + opsCost ops := rfl

theorem callCost_setCur (h : HostContext) (s : State) : (s.setCur h).callCost = opsCost h.ops := by
  rw [State.callCost, cur_setCur]
  rfl

@[simp] theorem callCost_setOps (ops : List DrvOp) (s : State) : (s.setOps ops).callCost = opsCost ops := callCost_setCur _ s
@[simp] theorem callCost_beginCall (ops : List DrvOp) (s : State) : (s.beginCall ops).callCost = opsCost ops := callCost_setCur _ s
@[simp] theorem callCost_finishCall (c : ResultCode) (o : List Byte) (s : State) : (s.finishCall c o).callCost = 0 :=
  callCost_setCur _ s

/-- A driver step leaves fewer transactions than it found (30 R144, 47 R435, R436). -/
theorem execDrvOp_callCost {op : DrvOp} {more : List DrvOp} {u t : State} (h : execDrvOp op more u = .next t) :
    t.callCost < op.cost + opsCost more := by
  cases op with
  | acquire =>
    obtain ⟨v, -, h⟩ := onNext_next h
    split at h <;> cases h <;> simp [DrvOp.cost]
  | xact i =>
    obtain ⟨v, -, h⟩ := onNext_next h
    cases h
    simp [DrvOp.cost]
  | poll i m left =>
    obtain ⟨v, -, h⟩ := onNext_next h
    repeat' split at h
    all_goals
      cases h
      simp [DrvOp.cost]
    omega
  | checkStarted =>
    obtain ⟨v, -, h⟩ := onNext_next h
    split at h <;> cases h <;> simp [DrvOp.cost]
    omega
  | drain =>
    obtain ⟨v, -, h⟩ := onNext_next h
    cases h
    simp [DrvOp.cost, callCost_setCur]
  | release c =>
    obtain ⟨v, -, h⟩ := onNext_next h
    cases h
    simp [DrvOp.cost]

theorem RanInWork.ctx {i : Instr} {s t : State} (h : RanInWork i s t) : t.ctx = s.ctx := by
  obtain ⟨u, v, hu, he, hv⟩ := h
  calc t.ctx = v.ctx := hv.ctx
    _ = u.ctx := (frame_of_exec he).ctx
    _ = s.ctx := hu.ctx

theorem driverStep_lowers_callCost {s u t : State} {op : DrvOp} {more : List DrvOp} (h : NextDriverStep s op more u)
    (ht : step s = .next t) : t.ctx = s.ctx ∧ t.callCost < s.callCost := by
  rw [step_of_nextDriverStep h] at ht
  obtain ⟨rest, -, ho, rfl⟩ := h
  have hcost : s.callCost = op.cost + opsCost more := by
    rw [State.callCost, ho]
    rfl
  exact ⟨(execDrvOp_ranInWork ht).ctx, hcost ▸ execDrvOp_callCost ht⟩

/-- singleBlockOp makes five polls of POLL_BOUND reads at most, and 15 transactions besides (47 R435). -/
theorem opsCost_singleBlockOps {p : Nat} (hp : 1 ≤ p) (d : Bool) (k b : Block) : opsCost (singleBlockOps p d k b) = 15 + 5 * p := by
  simp [singleBlockOps, pseudoSetDir, pseudoLoadKey, pseudoFeed, pseudoDrain, Quad.toList, DrvOp.cost, Nat.max_eq_right hp]
  omega

/-- streamingOp makes two polls, and 14 transactions besides (47 R436). -/
theorem opsCost_streamingOps {p : Nat} (hp : 1 ≤ p) (d : Bool) (k : Block) (src : Word) (n : Nat) (dst : Word) (m : Nat) :
    opsCost (streamingOps p d k src n dst m) = 14 + 2 * p := by
  simp [streamingOps, pseudoLoadKey, pseudoStart, pseudoDmaEn, DrvOp.cost, Nat.max_eq_right hp]
  omega

theorem one_le_pollBound (p : Platform) : 1 ≤ p.pollBound := Nat.le_add_left 1 _

theorem startCall_callCost {c : ApiCall} {u t : State} (h : startCall c u = .next t) : t.callCost ≤ 15 + 5 * u.platform.pollBound := by
  have hp : 1 ≤ u.platform.pollBound := one_le_pollBound _
  unfold startCall at h
  repeat' split at h
  all_goals cases h
  · simp [opsCost_singleBlockOps hp]
  · simp
  · simp
  · simp
  · simp [opsCost_streamingOps hp]
    omega
  · simp

theorem SameHost.callCost {s t : State} (h : SameHost s t) : t.callCost = s.callCost := by
  simp only [State.callCost, State.cur, h.ctx, h.fg, h.isr]

/-- No agent but the host, the ISR's entry and reset touches a driver call. -/
theorem step_keeps_callCost {s t : State} (h : step s = .next t) (hh : s.schedule.head? ≠ some .host)
    (hr : s.schedule.head? ≠ some .reset) (he : s.schedule.head? ≠ some .isrEnter) : t.callCost = s.callCost := by
  cases step_move h with
  | host hs | reset hs | isrEnter hs => contradiction
  | idle _ ht => rw [ht]
  | engine _ ht => exact ht ▸ (sameHost_engineStep { s with schedule := s.schedule.tail }).callCost
  | dmaSrc _ ht => exact ht ▸ (sameHost_dmaSrcStep { s with schedule := s.schedule.tail }).callCost
  | dmaDst _ ht => exact ht ▸ (sameHost_dmaDstStep { s with schedule := s.schedule.tail }).callCost
  | irqRaise _ ht => exact ht ▸ rfl

end Sys2Proof.Machine

/-! A poll of the foreground in a run (47 R440, R441 b, c): while its flag is clear each read takes one from those left, and meanwhile
the ISR, which does not hold the lock, leaves the block alone. -/

namespace Sys2Proof.Machine

/-! ### Steps of a run -/

/-- The next step is the foreground's. -/
def State.fgNext (s : State) : Bool := decide (s.schedule.head? = some .host) && decide (s.ctx = .fg)

theorem fgNext_iff (s : State) : s.fgNext = true ↔ s.schedule.head? = some .host ∧ s.ctx = .fg := by simp [State.fgNext]

theorem hostStepsIn_eq_count (r : Nat → State) (k n : Nat) :
    hostStepsIn r k n = Nat.count (fun d => (r (k + d)).schedule.head? = some .host) n := List.countP_eq_length_filter.symm

theorem fgStepsIn_eq_count (r : Nat → State) (k n : Nat) : fgStepsIn r k n = Nat.count (fun d => (r (k + d)).fgNext = true) n := by
  rw [fgStepsIn, ← List.countP_eq_length_filter, Nat.count]
  exact List.countP_congr fun d _ => by simp [State.fgNext]

theorem fgStepsIn_succ (r : Nat → State) (k n : Nat) :
    fgStepsIn r k (n + 1) = fgStepsIn r k n + if (r (k + n)).fgNext = true then 1 else 0 := by
  rw [fgStepsIn_eq_count, fgStepsIn_eq_count, Nat.count_succ]

theorem fgStepsIn_mono (r : Nat → State) (k : Nat) {n m : Nat} (h : n ≤ m) : fgStepsIn r k n ≤ fgStepsIn r k m := by
  rw [fgStepsIn_eq_count, fgStepsIn_eq_count]
  exact Nat.count_monotone _ h

theorem not_fgNext_of_fgStepsIn {r : Nat → State} {k n : Nat} (h : fgStepsIn r k n = 0) {d : Nat} (hd : d < n) :
    ¬(r (k + d)).fgNext = true := by
  rw [fgStepsIn_eq_count, Nat.count_iff_forall_not] at h
  exact h d hd

theorem fgStepsIn_le_hostStepsIn (r : Nat → State) (k n : Nat) : fgStepsIn r k n ≤ hostStepsIn r k n := by
  rw [fgStepsIn_eq_count, hostStepsIn_eq_count]
  exact Nat.count_mono_left fun d _ h => ((fgNext_iff _).mp h).1

theorem hostStepsIn_add (r : Nat → State) (k a b : Nat) :
    hostStepsIn r k (a + b) = hostStepsIn r k a + hostStepsIn r (k + a) b := by
  simp only [hostStepsIn_eq_count, Nat.count_add, Nat.add_assoc]

/-- A run reaches its `p`-th foreground step by a first state. -/
theorem exists_first_fgStepsIn {r : Nat → State} {n p : Nat} (h : fgStepsIn r 0 n = p) :
    ∃ m, m ≤ n ∧ fgStepsIn r 0 m = p ∧ ∀ k, k < m → fgStepsIn r 0 k < p := by
  have hex : ∃ m, fgStepsIn r 0 m = p := ⟨n, h⟩
  refine ⟨Nat.find hex, Nat.find_min' hex h, Nat.find_spec hex, fun k hk => ?_⟩
  have hle : fgStepsIn r 0 k ≤ p := Nat.find_spec hex ▸ fgStepsIn_mono r 0 hk.le
  exact lt_of_le_of_ne hle (Nat.find_min hex hk)

/-- A step that is neither the foreground's nor reset leaves the foreground's host state alone. -/
theorem step_fg {s t : State} (h : step s = .next t) (hr : s.schedule.head? ≠ some .reset) (hf : ¬s.fgNext = true) : t.fg = s.fg := by
  rw [fgNext_iff] at hf
  cases step_move h with
  | reset hs => contradiction
  | idle _ ht => rw [ht]
  | engine _ ht => exact ht ▸ (sameHost_engineStep { s with schedule := s.schedule.tail }).fg
  | dmaSrc _ ht => exact ht ▸ (sameHost_dmaSrcStep { s with schedule := s.schedule.tail }).fg
  | dmaDst _ ht => exact ht ▸ (sameHost_dmaDstStep { s with schedule := s.schedule.tail }).fg
  | irqRaise _ ht => rw [ht]
  | isrEnter _ ht =>
    rw [ht]
    unfold State.enterIsr
    split <;> rfl
  | host hs hm =>
    have hc : s.ctx = .isr := by
      cases hc : s.ctx
      · exact absurd ⟨hs, hc⟩ hf
      · rfl
    cases hm with
    | ran i _ hran =>
      obtain ⟨u, v, hu, he, hv⟩ := hran
      have hcu : u.ctx = .isr := hu.ctx.trans hc
      have hcv : v.ctx = .isr := (frame_of_exec he).ctx.trans hcu
      calc t.fg = v.fg := hv.fgOther hcv
        _ = u.fg := (frame_of_exec he).fgOther hcu
        _ = s.fg := hu.fgOther hc
    | quiet m f _ hw => exact hw.fgOther hc
    | returned _ ht => rw [ht]; rfl

/-! ### What the ISR may do while the foreground holds the lock -/

/-- Two states that agree in the engine and its streams, memory left out. -/
structure SameFlow (s t : State) : Prop where
  path : SameStream { s with mem := t.mem } t
  srcEn : t.srcEn = s.srcEn
  dstEn : t.dstEn = s.dstEn

theorem SameFlow.trans {s t u : State} (h : SameFlow s t) (k : SameFlow t u) : SameFlow s u :=
  ⟨SameStream.trans (t := { t with mem := u.mem }) { h.path with mem := rfl } k.path, k.srcEn.trans h.srcEn, k.dstEn.trans h.dstEn⟩

theorem SameBlock.sameFlow {s t : State} (h : SameBlock s t) : SameFlow s t :=
  ⟨{ h.sameStream with mem := rfl }, h.srcEn, h.dstEn⟩

theorem SameFlow.st {s t : State} (h : SameFlow s t) : t.st = s.st := h.path.st

/-- The rows that a context without the lock may issue leave the engine alone: LOCK and RESULT reads, and RESULT writes (47 R432). -/
theorem exec_sameFlow_of_unlocked {i : Instr} {s t : State} (hg : isGuarded i = false) (hw : isLockWrite i = false)
    (h : exec i s = .next t) : SameFlow s t := by
  cases i
  case rdLock | rdResult | wrResult =>
    simp only [exec, execRdLock, execRdResult, execWrResult] at h
    repeat' split at h
    all_goals
      cases h
      exact ⟨by constructor <;> rfl, rfl, rfl⟩
  case wrLock => cases hw
  all_goals cases hg

/-- While the foreground holds the lock, an ISR that keeps the discipline leaves the engine alone. -/
theorem hostMove_sameFlow {s t : State} (k : LockInv s) (hf : s.fg.holdsLock = true) (d : StepDisciplined s) (hc : s.ctx = .isr)
    (h : HostMove s t) : SameFlow s t := by
  cases h with
  | ran i hi h =>
    obtain ⟨u, v, hu, he, hv⟩ := h
    have hcur : s.cur.holdsLock = false := by
      simpa only [State.cur, hc, hf, true_and, Bool.not_eq_true] using k.2
    obtain ⟨hguard, hwrite, -⟩ := d i hi
    have hg : isGuarded i = false := by
      by_contra hg
      simp [hguard (by simpa using hg)] at hcur
    have hw : isLockWrite i = false := by
      by_contra hw
      simp [hwrite (by simpa using hw)] at hcur
    exact (hu.block.sameFlow.trans (exec_sameFlow_of_unlocked hg hw he)).trans hv.block.sameFlow
  | quiet m f _ h =>
    exact ⟨{ h.block.sameStream with mem := rfl }, h.block.srcEn, h.block.dstEn⟩
  | returned _ ht =>
    rw [ht]
    exact ⟨by constructor <;> rfl, rfl, rfl⟩

/-! ### One read of a poll -/

/-- The two polls that a driver makes for a result: the read, its mask, and the flag that the mask picks (30 R124, R133). -/
inductive Polls : Instr → Word → (State → Bool) → Prop where
  | finished : Polls .rdCtrl 0x200#32 State.finishedFlag
  | drained : Polls .rdDmaStatus 0x2#32 State.dstDone

theorem and_bit_iff {k : Nat} (hk : k < 32) (v : Word) : v &&& BitVec.twoPow 32 k = BitVec.twoPow 32 k ↔ v.getLsbD k = true := by
  rw [BitVec.and_twoPow]
  cases hv : v.getLsbD k
  · have hne : (0#32 : Word) ≠ BitVec.twoPow 32 k := fun e => by
      have := congrArg (fun w => w.getLsbD k) e
      simp [hk] at this
    simpa using hne
  · simp

/-- The word of such a read passes the poll's test exactly when the flag is set. -/
theorem Polls.exec_eq {i : Instr} {m : Word} {flag : State → Bool} (p : Polls i m flag) (s : State) :
    ∃ mask v, exec i s = .next (s.guardCheck.returnDrawn mask v) ∧ m &&& mask = m ∧ (v &&& m = m ↔ flag s = true) := by
  cases p with
  | finished =>
    obtain ⟨-, -, hf, -⟩ := ctrlFields_flags s
    exact ⟨ctrlReadMask, s.ctrlFields, rfl, by decide, by rw [← hf]; exact and_bit_iff (k := 9) (by decide) _⟩
  | drained =>
    obtain ⟨-, hd⟩ := doneFields_bits s
    exact ⟨enableReadMask, s.doneFields, rfl, by decide, by rw [← hd]; exact and_bit_iff (k := 1) (by decide) _⟩

/-- The foreground's poll is at its next read, with `left` reads left, and the foreground holds the lock. -/
structure Waits (i : Instr) (m : Word) (left : Nat) (more : List DrvOp) (rets : List CallResult) (s : State) : Prop where
  lock : LockInv s
  holds : s.fg.holdsLock = true
  ops : s.fg.ops = .poll i m left :: more
  returns : s.fg.returns = rets

/-- What one read of the foreground's poll leaves. -/
structure PollRead (i : Instr) (m : Word) (flag : State → Bool) (left : Nat) (more : List DrvOp) (s t : State) : Prop where
  block : SameBlock s t
  holds : t.fg.holdsLock = s.fg.holdsLock
  passed : flag s = true → t.fg.ops = more ∧ t.fg.returns = s.fg.returns
  goesOn : flag s = false → 1 < left → t.fg.ops = .poll i m (left - 1) :: more ∧ t.fg.returns = s.fg.returns
  timeout : flag s = false → left ≤ 1 → t.fg.ops = [] ∧ t.fg.returns = ⟨.hardwareTimeout, []⟩ :: s.fg.returns

theorem cur_of_fg {s : State} (h : s.ctx = .fg) : s.cur = s.fg := by rw [State.cur, h]

theorem polled_ctx (i : Instr) (m : Word) (left : Nat) (more : List DrvOp) (v : State) : (v.polled i m left more).ctx = v.ctx := by
  unfold State.polled
  repeat' split
  all_goals rfl

theorem polled_holdsLock (i : Instr) (m : Word) (left : Nat) (more : List DrvOp) (v : State) :
    (v.polled i m left more).cur.holdsLock = v.cur.holdsLock := by
  unfold State.polled
  repeat' split
  all_goals
    simp only [State.setOps, State.finishCall, cur_setCur]

/-- One read of a poll in the state `u` in which the foreground acts. -/
theorem pollRead_polled {i : Instr} {m : Word} {flag : State → Bool} {u : State} (hc : u.ctx = .fg) {mask x : Word}
    (hm : m &&& mask = m) (hflag : x &&& m = m ↔ flag u = true) (left : Nat) (more : List DrvOp) :
    PollRead i m flag left more u ((u.guardCheck.returnDrawn mask x).polled i m left more) := by
  have hcur : (u.guardCheck.returnDrawn mask x).cur = { u.fg with reads := (u.guardCheck.returnDrawn mask x).cur.reads } := by
    rw [returnDrawn_cur, guardCheck_cur, cur_of_fg hc]
  have htest : (u.guardCheck.returnDrawn mask x).lastRead &&& m = m ↔ flag u = true := by
    rw [lastRead_returnDrawn, drawnWord_and hm, hflag]
  have hblock : SameBlock u (u.guardCheck.returnDrawn mask x) := (sameBlock_guardCheck u).trans (sameBlock_returnDrawn _ _ _)
  have hctx : (u.guardCheck.returnDrawn mask x).ctx = .fg := hc
  generalize u.guardCheck.returnDrawn mask x = v at *
  have hfg : (v.polled i m left more).fg = (v.polled i m left more).cur := (cur_of_fg ((polled_ctx ..).trans hctx)).symm
  obtain ⟨hpass, hgo, hout⟩ := hostOnly_polled i m left more v
  refine ⟨hblock.trans (sameBlock_polled i m left more v), ?_, fun hf => ?_, fun hf hl => ?_, fun hf hl => ?_⟩
  · rw [hfg, polled_holdsLock, hcur]
  · obtain ⟨-, ht, -⟩ := hpass (htest.mpr hf)
    rw [hfg, ht, hcur]
    exact ⟨rfl, rfl⟩
  · obtain ⟨-, ht, -⟩ := hgo (by rw [Ne, htest, hf]; decide) hl
    rw [hfg, ht, hcur]
    exact ⟨rfl, rfl⟩
  · obtain ⟨-, ht, -⟩ := hout (by rw [Ne, htest, hf]; decide) hl
    rw [hfg, ht, hcur]
    exact ⟨rfl, rfl⟩

theorem poll_read {i : Instr} {m : Word} {flag : State → Bool} (p : Polls i m flag) {s t : State} {left : Nat} {more : List DrvOp}
    (hs : s.fgNext = true) (ho : s.fg.ops = .poll i m left :: more) (h : step s = .next t) : PollRead i m flag left more s t := by
  obtain ⟨hhost, hc⟩ := (fgNext_iff s).mp hs
  obtain ⟨rest, hsch⟩ := List.head?_eq_some_iff.mp hhost
  obtain ⟨mask, x, hx, hm, hflag⟩ := p.exec_eq { s with schedule := rest }
  have hsame : flag { s with schedule := rest } = flag s := by cases p <;> rfl
  rw [step_driver hsch (by rw [cur_of_fg hc, ho])] at h
  obtain rfl := Host.Outcome.next.inj ((execPoll_eq (s := { s with schedule := rest }) (.inl hc) hx m left more).symm.trans h)
  have hread := pollRead_polled (i := i) (u := { s with schedule := rest }) hc hm hflag left more
  exact ⟨(hostWork_taken s rest).block.trans hread.block, hread.holds, hsame ▸ hread.passed, hsame ▸ hread.goesOn,
    hsame ▸ hread.timeout⟩

/-! ### The poll in a run -/

/-- A step that is not the foreground's leaves its poll where it is. -/
theorem Waits.other {i : Instr} {m : Word} {left : Nat} {more : List DrvOp} {rets : List CallResult} {s t : State}
    (w : Waits i m left more rets s) (d : StepDisciplined s) (hr : s.schedule.head? ≠ some .reset) (hf : ¬s.fgNext = true)
    (h : step s = .next t) : Waits i m left more rets t := by
  have hfg : t.fg = s.fg := step_fg h hr hf
  exact ⟨step_lockInv w.lock d h, by rw [hfg, w.holds], by rw [hfg, w.ops], by rw [hfg, w.returns]⟩

/-- A read that finds the flag clear takes one from those left. -/
theorem Waits.read {i : Instr} {m : Word} {flag : State → Bool} (p : Polls i m flag) {left : Nat} {more : List DrvOp}
    {rets : List CallResult} {s t : State} (w : Waits i m left more rets s) (d : StepDisciplined s) (hf : s.fgNext = true)
    (hclear : flag s = false) (hl : 1 < left) (h : step s = .next t) : Waits i m (left - 1) more rets t := by
  have hread : PollRead i m flag left more s t := poll_read p hf w.ops h
  obtain ⟨hops, hrets⟩ := hread.goesOn hclear hl
  exact ⟨step_lockInv w.lock d h, hread.holds.trans w.holds, hops, hrets.trans w.returns⟩

/-- While the flag is clear and reads are left, the poll goes on (30 R144). -/
theorem waits_of_clear {i : Instr} {m : Word} {flag : State → Bool} (p : Polls i m flag) {r : Nat → State} (hr : DisciplinedRun r)
    {reads : Nat} {more : List DrvOp} {rets : List CallResult} (w : Waits i m reads more rets (r 0)) {n : Nat}
    (hclear : ∀ k, k < n → flag (r k) = false) (hn : fgStepsIn r 0 n < reads) :
    Waits i m (reads - fgStepsIn r 0 n) more rets (r n) := by
  obtain ⟨hrun, hdisc, hreset⟩ := hr
  induction n with
  | zero => exact w
  | succ n ih =>
    have hsucc := fgStepsIn_succ r 0 n
    rw [Nat.zero_add] at hsucc
    have wn := ih (fun k hk => hclear k (by omega)) (by omega)
    by_cases hf : (r n).fgNext = true
    · rw [if_pos hf] at hsucc
      have := wn.read p (hdisc n) hf (hclear n (by omega)) (by omega) (hrun n)
      rwa [hsucc, ← Nat.sub_sub]
    · rw [if_neg hf] at hsucc
      rw [hsucc]
      exact wn.other (hdisc n) (hreset n) hf (hrun n)

/-! ### A single block (47 R441 b, c) -/

/-- COMPUTING lasts until the ENGINE step (10 R54). -/
theorem computing_until_engine {r : Nat → State} (hr : DisciplinedRun r) (k : BlockInv (r 0)) (hc : (r 0).st = .computing) {n : Nat}
    (hn : ∀ j, j < n → (r j).schedule.head? ≠ some .engine) : (r n).st = .computing ∧ BlockInv (r n) := by
  obtain ⟨hrun, -, hreset⟩ := hr
  induction n with
  | zero => exact ⟨hc, k⟩
  | succ n ih =>
    obtain ⟨hst, kn⟩ := ih fun j hj => hn j (by omega)
    refine ⟨?_, blockInv_keptByMoves.step kn (hrun n)⟩
    rcases step_st_of_busy (hrun n) (.inl hst) with h | ⟨-, h⟩ | ⟨-, h⟩
    · exact h.trans hst
    · exact absurd h (hn n (by omega))
    · exact absurd h (hreset n)

/-- The ENGINE step that COMPUTING waits for is enabled (10 R53 d, 43 R340). -/
theorem engineEnabled_of_computing {s : State} (k : BlockInv s) (hc : s.st = .computing) : s.engineEnabled = true := by
  obtain ⟨-, -, -, hcomp, -⟩ := k
  simp [State.engineEnabled, hc, (hcomp hc).1]

theorem step_engine_of_computing {s t : State} (k : BlockInv s) (hc : s.st = .computing) (hs : s.schedule.head? = some .engine)
    (h : step s = .next t) : t.st = .finished := by
  obtain ⟨rest, hsch⟩ := List.head?_eq_some_iff.mp hs
  rw [step_engine hsch] at h
  cases h
  obtain ⟨-, -, -, hcomp, -⟩ := k
  obtain ⟨w0, w1, w2, w3, hin⟩ := List.length_eq_four.mp (hcomp hc).1
  rw [engineStep_computing (s := { s with schedule := rest }) hc hin]

/-- FINISHED lasts while the foreground holds the lock and takes no step. -/
theorem step_finished {s t : State} (k : LockInv s) (hf : s.fg.holdsLock = true) (d : StepDisciplined s)
    (hr : s.schedule.head? ≠ some .reset) (hn : ¬s.fgNext = true) (hst : s.st = .finished) (h : step s = .next t) : t.st = .finished := by
  cases step_move h with
  | reset hs => contradiction
  | idle _ ht => rwa [ht]
  | host hs hm =>
    have hc : s.ctx = .isr := by
      cases hc : s.ctx
      · exact absurd ((fgNext_iff s).mpr ⟨hs, hc⟩) hn
      · rfl
    exact (hostMove_sameFlow k hf d hc hm).st.trans hst
  | engine _ ht =>
    rcases engineStep_st { s with schedule := s.schedule.tail } with h | ⟨h, -⟩ | ⟨h, -⟩
    · rw [ht, h]
      exact hst
    · simp [hst] at h
    · simp [hst] at h
  | dmaSrc _ ht => rw [ht, dmaSrcStep_st]; exact hst
  | dmaDst _ ht => rw [ht, dmaDstStep_st]; exact hst
  | irqRaise _ ht => rw [ht]; exact hst
  | isrEnter _ ht =>
    rw [ht]
    unfold State.enterIsr
    split <;> exact hst

/-- Once the flag FINISHED is set, the poll waits for the foreground's next step with nothing changed. -/
theorem waits_finished {r : Nat → State} (hr : DisciplinedRun r) {i : Instr} {m : Word} {left : Nat} {more : List DrvOp}
    {rets : List CallResult} {k : Nat} (w : Waits i m left more rets (r k)) (hst : (r k).st = .finished) {d : Nat}
    (hd : ∀ e, e < d → ¬(r (k + e)).fgNext = true) : Waits i m left more rets (r (k + d)) ∧ (r (k + d)).st = .finished := by
  obtain ⟨hrun, hdisc, hreset⟩ := hr
  induction d with
  | zero => exact ⟨w, hst⟩
  | succ d ih =>
    obtain ⟨wd, hstd⟩ := ih fun e he => hd e (by omega)
    have hother := hd d (by omega)
    exact ⟨wd.other (hdisc _) (hreset _) hother (hrun _),
      step_finished wd.lock wd.holds (hdisc _) (hreset _) hother hstd (hrun _)⟩

/-- (b) The first read after the ENGINE step ends the poll. -/
theorem poll_ends_after_engine {r : Nat → State} (hr : DisciplinedRun r) (kb : BlockInv (r 0)) (hc : (r 0).st = .computing) {reads : Nat}
    {more : List DrvOp} {rets : List CallResult} (w : Waits .rdCtrl 0x200#32 reads more rets (r 0)) {k d : Nat}
    (hk : ∀ j, j < k → (r j).schedule.head? ≠ some .engine) (he : (r k).schedule.head? = some .engine) (hreads : fgStepsIn r 0 k < reads)
    (hd : fgStepsIn r k d = 0) (hnext : (r (k + d)).fgNext = true) :
    (r (k + d + 1)).fg.ops = more ∧ (r (k + d + 1)).fg.returns = rets ∧ (r (k + d + 1)).st = .finished := by
  have ⟨hrun, hdisc, hreset⟩ := hr
  have hcomp : ∀ j, j ≤ k → (r j).st = .computing ∧ BlockInv (r j) := fun j hj =>
    computing_until_engine hr kb hc fun j' hj' => hk j' (by omega)
  have hclear : ∀ j, j < k → (r j).finishedFlag = false := fun j hj => by simp [State.finishedFlag, (hcomp j hj.le).1]
  have hotherk : ¬(r k).fgNext = true := fun hf => by
    rw [fgNext_iff, he] at hf
    simp at hf
  obtain ⟨e, rfl⟩ : ∃ e, d = e + 1 := Nat.exists_eq_succ_of_ne_zero fun h0 => hotherk (by rwa [h0] at hnext)
  have wk := (waits_of_clear .finished hr w hclear hreads).other (hdisc k) (hreset k) hotherk (hrun k)
  have hstk : (r (k + 1)).st = .finished := step_engine_of_computing (hcomp k le_rfl).2 (hcomp k le_rfl).1 he (hrun k)
  have hquiet : ∀ e', e' < e → ¬(r (k + 1 + e')).fgNext = true := fun e' he' => by
    have := not_fgNext_of_fgStepsIn hd (d := e' + 1) (by omega)
    rwa [show k + (e' + 1) = k + 1 + e' by omega] at this
  obtain ⟨we, hste⟩ := waits_finished hr wk hstk hquiet
  rw [show k + 1 + e = k + (e + 1) by omega] at we hste
  have hread := poll_read .finished hnext we.ops (hrun _)
  obtain ⟨hops, hrets⟩ := hread.passed (by simp [State.finishedFlag, hste])
  exact ⟨hops, hrets.trans we.returns, hread.block.st.trans hste⟩

/-- (c) Without the ENGINE step each read takes one from those left, and the last one ends the call with the lock still held. -/
theorem poll_times_out_without_engine {r : Nat → State} (hr : DisciplinedRun r) (kb : BlockInv (r 0)) (hc : (r 0).st = .computing)
    {reads : Nat} {more : List DrvOp} {rets : List CallResult} (w : Waits .rdCtrl 0x200#32 reads more rets (r 0)) {n : Nat}
    (hn : ∀ j, j < n → (r j).schedule.head? ≠ some .engine) :
    (fgStepsIn r 0 n < reads → Waits .rdCtrl 0x200#32 (reads - fgStepsIn r 0 n) more rets (r n)) ∧
    (fgStepsIn r 0 n + 1 = reads → (r n).fgNext = true →
      (r (n + 1)).fg.ops = [] ∧ (r (n + 1)).fg.returns = ⟨.hardwareTimeout, []⟩ :: rets ∧ (r (n + 1)).lockHeld = true ∧
      (r (n + 1)).st = .computing) := by
  have hst : ∀ j, j ≤ n → (r j).st = .computing := fun j hj => (computing_until_engine hr kb hc fun j' hj' => hn j' (by omega)).1
  have hclear : ∀ j, j ≤ n → (r j).finishedFlag = false := fun j hj => by simp [State.finishedFlag, hst j hj]
  have hwait := waits_of_clear .finished hr w (n := n) fun j hj => hclear j hj.le
  refine ⟨hwait, fun hlast hnext => ?_⟩
  have wn := hwait (by omega)
  have hread := poll_read .finished hnext wn.ops (hr.1 n)
  obtain ⟨hops, hrets⟩ := hread.timeout (hclear n le_rfl) (by omega)
  rw [wn.returns] at hrets
  exact ⟨hops, hrets, hread.block.lockHeld.trans (wn.lock.1.mpr (.inl wn.holds)), hread.block.st.trans (hst n le_rfl)⟩

/-- Under P7 the ENGINE step comes before the poll's last read. -/
theorem engine_before_last_read {r : Nat → State} (hr : DisciplinedRun r) (kb : BlockInv (r 0)) (hc : (r 0).st = .computing) {reads : Nat}
    (hb : EngineLatencyBound reads r) {n : Nat} (hn : fgStepsIn r 0 n = reads) :
    ∃ k, k < n ∧ (r k).schedule.head? = some .engine ∧ fgStepsIn r 0 k < reads := by
  obtain ⟨l, hln, hl, hbefore⟩ := exists_first_fgStepsIn hn
  by_contra hnone
  push Not at hnone
  have hwaits : ∀ j, j < l → (r j).schedule.head? ≠ some .engine := fun j hj he =>
    absurd (hbefore j hj) (Nat.not_lt.mpr (hnone j (by omega) he))
  have hlt : hostStepsIn r 0 l < reads := hb 0 l fun j hj => by
    obtain ⟨hst, kj⟩ := computing_until_engine hr kb hc (n := j) fun j' hj' => hwaits j' (by omega)
    rw [Nat.zero_add]
    exact ⟨engineEnabled_of_computing kj hst, hwaits j hj⟩
  have hle : fgStepsIn r 0 l ≤ hostStepsIn r 0 l := fgStepsIn_le_hostStepsIn r 0 l
  omega

end Sys2Proof.Machine

/-! A stream with both channels on and every word admitted (47 R441 under P7): one of the three agents is always enabled, stays so until
its step, and each of its steps is one of the at most 9 N that the stream has left. -/

namespace Sys2Proof.Machine

/-! ### What a step does to the stream's counters -/

/-- What a stream keeps from START to its end: it is a stream, its channels are on, and its descriptors are as they were. -/
structure SameSetup (s t : State) : Prop where
  stream : t.stream = s.stream
  srcEn : t.srcEn = s.srcEn
  dstEn : t.dstEn = s.dstEn
  srcAddr : t.srcAddr = s.srcAddr
  srcCount : t.srcCount = s.srcCount
  dstAddr : t.dstAddr = s.dstAddr
  dstCount : t.dstCount = s.dstCount
  platform : t.platform = s.platform

/-- `t` is `s` with `x` more words read, `y` more blocks computed and `z` more words written. -/
structure FlowStep (x y z : Nat) (s t : State) : Prop where
  setup : SameSetup s t
  read : t.srcWords.toNat = s.srcWords.toNat + x
  computed : t.blocksDone.toNat = s.blocksDone.toNat + y
  written : t.dstWords.toNat = s.dstWords.toNat + z

/-- A stream that can run to its end. -/
structure Flowing (s : State) : Prop where
  inv : EngineInv s
  stream : s.stream = true
  srcEn : s.srcEn = true
  dstEn : s.dstEn = true
  admitted : BuffersAdmitted s

theorem Flowing.of_setup {s t : State} (f : Flowing s) (k : EngineInv t) (h : SameSetup s t) : Flowing t :=
  ⟨k, h.stream.trans f.stream, h.srcEn.trans f.srcEn, h.dstEn.trans f.dstEn, by
    simpa only [BuffersAdmitted, h.srcAddr, h.srcCount, h.dstAddr, h.dstCount, h.platform] using f.admitted⟩

theorem SameFlow.flowStep {s t : State} (h : SameFlow s t) : FlowStep 0 0 0 s t :=
  ⟨⟨h.path.stream, h.srcEn, h.dstEn, h.path.srcAddr, h.path.srcCount, h.path.dstAddr, h.path.dstCount, h.path.platform⟩,
   congrArg BitVec.toNat h.path.srcWords, congrArg BitVec.toNat h.path.blocksDone, congrArg BitVec.toNat h.path.dstWords⟩

/-- How a stream's counters stand to each other (44 R361 to R363). -/
structure Counters (s : State) : Prop where
  read_le : s.srcWords.toNat ≤ 4 * s.srcCount.toNat
  computed_le_read : 4 * s.blocksDone.toNat ≤ s.srcWords.toNat
  read_le_computed : s.srcWords.toNat ≤ 4 * s.blocksDone.toNat + 4
  written_le_computed : s.dstWords.toNat ≤ 4 * s.blocksDone.toNat
  same : s.dstCount = s.srcCount

theorem Flowing.counters {s : State} (f : Flowing s) : Counters s := by
  obtain ⟨⟨⟨hin, -⟩, -⟩, -, hacc⟩ := f.inv
  obtain ⟨hcount, -, hread, hwritten, hle, -⟩ := hacc f.stream
  have hsame : s.dstCount = s.srcCount := ((countsValid_iff s).mp hcount).2.symm
  exact ⟨hle, by omega, by omega, by omega, hsame⟩

/-- In a stream, STREAMING says that a block is left to compute. -/
theorem Flowing.streaming_iff {s : State} (f : Flowing s) : s.st = .streaming ↔ s.blocksDone.toNat < s.srcCount.toNat := by
  obtain ⟨⟨-, -, -, -, -, hst, -⟩, -, hacc⟩ := f.inv
  obtain ⟨-, -, -, -, -, hleft, hfin, -⟩ := hacc f.stream
  refine ⟨hleft, fun hlt => (hst f.stream).resolve_right fun he => ?_⟩
  rw [hfin he] at hlt
  exact lt_irrefl _ hlt

/-- DMA_SRC is enabled while inBuf has room and words are left. -/
theorem Flowing.srcEnabled_iff {s : State} (f : Flowing s) :
    s.srcEnabled = true ↔ s.srcWords.toNat < 4 * s.blocksDone.toNat + 4 ∧ s.srcWords.toNat < 4 * s.srcCount.toNat := by
  obtain ⟨-, -, hacc⟩ := f.inv
  obtain ⟨-, -, hread, -⟩ := hacc f.stream
  have hadm : s.srcWords.toNat < 4 * s.srcCount.toNat → s.platform.memAdmit s.srcCursor 4 = true := fun h => by
    rw [srcCursor_eq]
    exact f.admitted.1 _ h
  have hst := f.streaming_iff
  simp only [State.srcEnabled, f.srcEn, Bool.true_and, Bool.and_eq_true, decide_eq_true_eq, hst]
  constructor
  · rintro ⟨⟨⟨-, hlen⟩, hleft⟩, -⟩
    omega
  · rintro ⟨hroom, hleft⟩
    exact ⟨⟨⟨by omega, by omega⟩, hleft⟩, hadm hleft⟩

/-- A stream's ENGINE step is one of STREAMING (10 R53 d). -/
theorem Flowing.engineEnabled_eq {s : State} (f : Flowing s) :
    s.engineEnabled = true ↔ s.st = .streaming ∧ s.inBuf.length = 4 ∧ s.outBuf = [] := by
  obtain ⟨⟨-, -, -, hcomp, -⟩, -⟩ := f.inv
  constructor
  · intro he
    have hst : s.st = .streaming := (engineEnabled_st he).resolve_left fun hc => by
      have hs : s.stream = false := (hcomp hc).2
      rw [f.stream] at hs
      cases hs
    simpa [State.engineEnabled, hst] using he
  · rintro ⟨hst, hbufs⟩
    simpa [State.engineEnabled, hst] using hbufs

/-- ENGINE is enabled while inBuf holds a block and outBuf is empty. -/
theorem Flowing.engineEnabled_iff {s : State} (f : Flowing s) :
    s.engineEnabled = true ↔ s.srcWords.toNat = 4 * s.blocksDone.toNat + 4 ∧ s.dstWords.toNat = 4 * s.blocksDone.toNat := by
  obtain ⟨-, -, hacc⟩ := f.inv
  obtain ⟨-, -, hread, hwritten, hle, -⟩ := hacc f.stream
  have hout : s.outBuf = [] ↔ s.outBuf.length = 0 := List.length_eq_zero_iff.symm
  rw [f.engineEnabled_eq, f.streaming_iff, hout]
  omega

/-- DMA_DST is enabled while result words are left in outBuf. -/
theorem Flowing.dstEnabled_iff {s : State} (f : Flowing s) : s.dstEnabled = true ↔ s.dstWords.toNat < 4 * s.blocksDone.toNat := by
  have hc := f.counters
  obtain ⟨-, -, hacc⟩ := f.inv
  obtain ⟨-, -, -, hwritten, -⟩ := hacc f.stream
  obtain ⟨hread, hcomputed, -, -, hsame⟩ := hc
  have hout : s.outBuf ≠ [] ↔ s.outBuf.length ≠ 0 := not_congr List.length_eq_zero_iff.symm
  have hadm : s.dstWords.toNat < 4 * s.dstCount.toNat → s.platform.memAdmit s.dstCursor 4 = true := fun h => by
    rw [dstCursor_eq]
    exact f.admitted.2 _ h
  have hcount : s.dstCount.toNat = s.srcCount.toNat := by rw [hsame]
  simp only [State.dstEnabled, f.dstEn, f.stream, Bool.true_and, Bool.and_eq_true, decide_eq_true_eq, hout]
  constructor
  · rintro ⟨⟨hne, -⟩, -⟩
    omega
  · intro hlt
    have hleft : s.dstWords.toNat < 4 * s.dstCount.toNat := by omega
    exact ⟨⟨by omega, hleft⟩, hadm hleft⟩

/-- A stream whose last word is not written has an agent's step left. -/
theorem Flowing.some_enabled {s : State} (f : Flowing s) (hd : s.dstDone = false) :
    s.srcEnabled = true ∨ s.engineEnabled = true ∨ s.dstEnabled = true := by
  have hc := f.counters
  obtain ⟨-, -, hacc⟩ := f.inv
  obtain ⟨-, -, -, -, -, -, -, -, hdst⟩ := hacc f.stream
  have hleft : s.dstWords.toNat ≠ 4 * s.dstCount.toNat := fun h => by
    rw [hdst.mpr h] at hd
    cases hd
  have hcount : s.dstCount.toNat = s.srcCount.toNat := by rw [hc.same]
  obtain ⟨hread, hcr, hrc, hwc, -⟩ := hc
  rw [f.srcEnabled_iff, f.engineEnabled_iff, f.dstEnabled_iff]
  omega

/-! ### The agents' steps -/

theorem FlowStep.after {x y z : Nat} {s u t : State} (h : FlowStep 0 0 0 s u) (k : FlowStep x y z u t) : FlowStep x y z s t :=
  ⟨⟨k.setup.stream.trans h.setup.stream, k.setup.srcEn.trans h.setup.srcEn, k.setup.dstEn.trans h.setup.dstEn,
    k.setup.srcAddr.trans h.setup.srcAddr, k.setup.srcCount.trans h.setup.srcCount, k.setup.dstAddr.trans h.setup.dstAddr,
    k.setup.dstCount.trans h.setup.dstCount, k.setup.platform.trans h.setup.platform⟩,
   by rw [k.read, h.read, Nat.add_zero], by rw [k.computed, h.computed, Nat.add_zero], by rw [k.written, h.written, Nat.add_zero]⟩

theorem flowStep_refl (s : State) : FlowStep 0 0 0 s s := (SameBlock.refl s).sameFlow.flowStep

theorem Flowing.engineStep {s : State} (f : Flowing s) : FlowStep 0 s.engineEnabled.toNat 0 s s.engineStep := by
  cases he : s.engineEnabled with
  | false =>
    rw [engineStep_disabled he]
    exact flowStep_refl s
  | true =>
    obtain ⟨hst, hin, hout⟩ := f.engineEnabled_eq.mp he
    obtain ⟨w0, w1, w2, w3, hin⟩ := List.length_eq_four.mp hin
    have hlt : s.blocksDone.toNat < s.srcCount.toNat := f.streaming_iff.mp hst
    rw [engineStep_streaming hst hout hin]
    refine ⟨by constructor <;> rfl, rfl, ?_, rfl⟩
    show (s.blocksDone + 1#16).toNat = s.blocksDone.toNat + 1
    rw [BitVec.toNat_add, BitVec.toNat_ofNat]
    omega

theorem Flowing.dmaSrcStep {s : State} (f : Flowing s) : FlowStep s.srcEnabled.toNat 0 0 s s.dmaSrcStep := by
  unfold State.dmaSrcStep
  cases he : s.srcEnabled with
  | false => exact flowStep_refl s
  | true =>
    obtain ⟨-, hlt⟩ := f.srcEnabled_iff.mp he
    refine ⟨by constructor <;> rfl, ?_, rfl, rfl⟩
    show (s.srcWords + 1#18).toNat = s.srcWords.toNat + 1
    rw [BitVec.toNat_add, BitVec.toNat_ofNat]
    omega

theorem Flowing.dmaDstStep {s : State} (f : Flowing s) : FlowStep 0 0 s.dstEnabled.toNat s s.dmaDstStep := by
  unfold State.dmaDstStep
  cases he : s.dstEnabled with
  | false => exact flowStep_refl s
  | true =>
    have hlt := f.dstEnabled_iff.mp he
    have hc := f.counters
    have hle := hc.computed_le_read.trans hc.read_le
    simp only [State.dstEnabled, Bool.and_eq_true, decide_eq_true_eq] at he
    obtain ⟨⟨⟨-, hne⟩, -⟩, -⟩ := he
    obtain ⟨x, rest, hout⟩ := List.exists_cons_of_ne_nil hne
    simp only [hout, if_true]
    refine ⟨by constructor <;> rfl, rfl, rfl, ?_⟩
    show (s.dstWords + 1#18).toNat = s.dstWords.toNat + 1
    rw [BitVec.toNat_add, BitVec.toNat_ofNat]
    omega

/-- One if the next step is agent `a`'s and enabled, else none. -/
def State.takes (a : Agent) (enabled : State → Bool) (s : State) : Nat := (decide (s.schedule.head? = some a) && enabled s).toNat

theorem takes_of_other {a : Agent} {enabled : State → Bool} {s : State} (h : s.schedule.head? ≠ some a) : s.takes a enabled = 0 := by
  simp [State.takes, h]

theorem takes_of_head {a : Agent} {enabled : State → Bool} {s : State} (h : s.schedule.head? = some a) :
    s.takes a enabled = (enabled s).toNat := by
  simp [State.takes, h]

theorem takes_of_disabled {a : Agent} {enabled : State → Bool} {s : State} (h : enabled s = false) : s.takes a enabled = 0 := by
  simp [State.takes, h]

/-- The counters after the next step, whoever takes it. -/
def NextFlow (s t : State) : Prop :=
  FlowStep (s.takes .dmaSrc State.srcEnabled) (s.takes .engine State.engineEnabled) (s.takes .dmaDst State.dstEnabled) s t

theorem nextFlow_of_other {s t : State} (h : SameFlow s t) (h1 : s.schedule.head? ≠ some .dmaSrc)
    (h2 : s.schedule.head? ≠ some .engine) (h3 : s.schedule.head? ≠ some .dmaDst) : NextFlow s t := by
  rw [NextFlow, takes_of_other h1, takes_of_other h2, takes_of_other h3]
  exact h.flowStep

/-- Where the host's step leaves the stream alone, the counters move by the three agents' steps only. -/
theorem step_nextFlow {s t : State} (f : Flowing s) (hr : s.schedule.head? ≠ some .reset)
    (hh : s.schedule.head? = some .host → SameFlow s t) (h : step s = .next t) : NextFlow s t := by
  have taken : FlowStep 0 0 0 s { s with schedule := s.schedule.tail } := (hostWork_taken s _).block.sameFlow.flowStep
  have ft : Flowing { s with schedule := s.schedule.tail } := ⟨f.inv, f.stream, f.srcEn, f.dstEn, f.admitted⟩
  cases step_move h with
  | reset hs => contradiction
  | idle hs ht => exact nextFlow_of_other (ht ▸ (SameBlock.refl s).sameFlow) (by simp [hs]) (by simp [hs]) (by simp [hs])
  | host hs => exact nextFlow_of_other (hh hs) (by simp [hs]) (by simp [hs]) (by simp [hs])
  | irqRaise hs ht =>
    exact nextFlow_of_other (ht ▸ ⟨by constructor <;> rfl, rfl, rfl⟩) (by simp [hs]) (by simp [hs]) (by simp [hs])
  | isrEnter hs ht =>
    refine nextFlow_of_other (ht ▸ ?_) (by simp [hs]) (by simp [hs]) (by simp [hs])
    unfold State.enterIsr
    split <;> exact ⟨by constructor <;> rfl, rfl, rfl⟩
  | engine hs ht =>
    rw [NextFlow, takes_of_other (a := .dmaSrc) (by simp [hs]), takes_of_other (a := .dmaDst) (by simp [hs]), takes_of_head hs]
    exact ht ▸ taken.after ft.engineStep
  | dmaSrc hs ht =>
    rw [NextFlow, takes_of_other (a := .engine) (by simp [hs]), takes_of_other (a := .dmaDst) (by simp [hs]), takes_of_head hs]
    exact ht ▸ taken.after ft.dmaSrcStep
  | dmaDst hs ht =>
    rw [NextFlow, takes_of_other (a := .dmaSrc) (by simp [hs]), takes_of_other (a := .engine) (by simp [hs]), takes_of_head hs]
    exact ht ▸ taken.after ft.dmaDstStep

/-! ### The agents of a stream -/

/-- The three agents of a stream, and when their steps are enabled. -/
inductive Moves : Agent → (State → Bool) → Prop where
  | src : Moves .dmaSrc State.srcEnabled
  | engine : Moves .engine State.engineEnabled
  | dst : Moves .dmaDst State.dstEnabled

theorem LatencyBound.of_moves {a : Agent} {enabled : State → Bool} (m : Moves a enabled) {bound : Nat} {r : Nat → State}
    (h : LatencyBound bound r) : AgentLatencyBound a enabled bound r := by
  obtain ⟨he, hs, hd⟩ := h
  cases m with
  | src => exact hs
  | engine => exact he
  | dst => exact hd

/-- An enabled agent stays enabled until its step. -/
theorem Moves.stays {a : Agent} {enabled : State → Bool} (m : Moves a enabled) {s t : State} (f : Flowing s) (g : Flowing t)
    (h : NextFlow s t) (he : enabled s = true) (hn : s.schedule.head? ≠ some a) : enabled t = true := by
  obtain ⟨hsetup, hread, hcomputed, hwritten⟩ := h
  have hcount : t.srcCount.toNat = s.srcCount.toNat := by rw [hsetup.srcCount]
  cases m with
  | src =>
    rw [takes_of_other hn] at hread
    rw [f.srcEnabled_iff] at he
    rw [g.srcEnabled_iff]
    omega
  | engine =>
    rw [f.engineEnabled_iff] at he
    have hsrc : s.srcEnabled = false := by
      rw [← Bool.not_eq_true, f.srcEnabled_iff]
      omega
    have hdst : s.dstEnabled = false := by
      rw [← Bool.not_eq_true, f.dstEnabled_iff]
      omega
    rw [takes_of_disabled hsrc] at hread
    rw [takes_of_other hn] at hcomputed
    rw [takes_of_disabled hdst] at hwritten
    rw [g.engineEnabled_iff]
    omega
  | dst =>
    rw [takes_of_other hn] at hwritten
    rw [f.dstEnabled_iff] at he
    rw [g.dstEnabled_iff]
    omega

/-- The agents' steps that a stream has left: at most 9 N for N blocks. -/
def State.remaining (s : State) : Nat :=
  (4 * s.srcCount.toNat - s.srcWords.toNat) + (s.srcCount.toNat - s.blocksDone.toNat) + (4 * s.srcCount.toNat - s.dstWords.toNat)

theorem remaining_le (s : State) : s.remaining ≤ 9 * s.srcCount.toNat := by
  unfold State.remaining
  omega

theorem NextFlow.remaining_le {s t : State} (h : NextFlow s t) : t.remaining ≤ s.remaining := by
  obtain ⟨hsetup, hread, hcomputed, hwritten⟩ := h
  unfold State.remaining
  rw [hsetup.srcCount, hread, hcomputed, hwritten]
  omega

/-- An enabled agent's step is one of those left. -/
theorem Moves.remaining_lt {a : Agent} {enabled : State → Bool} (m : Moves a enabled) {s t : State} (f : Flowing s)
    (h : NextFlow s t) (he : enabled s = true) (hs : s.schedule.head? = some a) : t.remaining < s.remaining := by
  have hc := f.counters
  have htakes : s.takes a enabled = 1 := by rw [takes_of_head hs, he]; rfl
  obtain ⟨hsetup, hread, hcomputed, hwritten⟩ := h
  obtain ⟨hle, hcr, -, hwc, -⟩ := hc
  unfold State.remaining
  rw [hsetup.srcCount, hread, hcomputed, hwritten]
  cases m with
  | src =>
    rw [f.srcEnabled_iff] at he
    omega
  | engine =>
    rw [f.engineEnabled_iff] at he
    omega
  | dst =>
    rw [f.dstEnabled_iff] at he
    omega

theorem Moves.remaining_pos {a : Agent} {enabled : State → Bool} (m : Moves a enabled) {s : State} (f : Flowing s)
    (he : enabled s = true) : 0 < s.remaining := by
  obtain ⟨hle, hcr, -, hwc, -⟩ := f.counters
  unfold State.remaining
  cases m with
  | src =>
    rw [f.srcEnabled_iff] at he
    omega
  | engine =>
    rw [f.engineEnabled_iff] at he
    omega
  | dst =>
    rw [f.dstEnabled_iff] at he
    omega

theorem Moves.not_host {a : Agent} {enabled : State → Bool} (m : Moves a enabled) : a ≠ .host := by cases m <;> decide

/-! ### The bound -/

/-- A stretch of a run, up to state `l`, in which the stream flows and is not at its end. -/
structure Stretch (r : Nat → State) (l : Nat) : Prop where
  flows : ∀ k, k ≤ l → Flowing (r k)
  next : ∀ k, k < l → NextFlow (r k) (r (k + 1))
  pending : ∀ k, k < l → ∃ a enabled, Moves a enabled ∧ enabled (r k) = true

/-- An agent enabled at `k` waits with its step enabled for as long as the stretch and the others' steps last. -/
theorem Stretch.enabled_until {r : Nat → State} {l : Nat} (w : Stretch r l) {a : Agent} {enabled : State → Bool} (m : Moves a enabled)
    {k d : Nat} (hd : k + d ≤ l) (he : enabled (r k) = true) (hn : ∀ e, e < d → (r (k + e)).schedule.head? ≠ some a) :
    enabled (r (k + d)) = true := by
  induction d with
  | zero => exact he
  | succ d ih =>
    exact m.stays (w.flows (k + d) (by omega)) (w.flows _ hd) (w.next (k + d) (by omega)) (ih (by omega) fun e h => hn e (by omega))
      (hn d (by omega))

theorem Stretch.remaining_le {r : Nat → State} {l : Nat} (w : Stretch r l) {k d : Nat} (hd : k + d ≤ l) :
    (r (k + d)).remaining ≤ (r k).remaining := by
  induction d with
  | zero => exact le_rfl
  | succ d ih => exact (w.next (k + d) (by omega)).remaining_le.trans (ih (by omega))

/-- An agent enabled at `k` takes its step after at most `b` host steps, or the stretch ends before that. -/
theorem Stretch.wait_le {r : Nat → State} {l b : Nat} (w : Stretch r l) (hb : LatencyBound (b + 1) r) {a : Agent} {enabled : State → Bool}
    (m : Moves a enabled) {k d : Nat} (hd : k + d ≤ l) (he : enabled (r k) = true)
    (hn : ∀ e, e < d → (r (k + e)).schedule.head? ≠ some a) : hostStepsIn r k d ≤ b :=
  Nat.lt_succ_iff.mp <| hb.of_moves m k d fun e h =>
    ⟨w.enabled_until m (by omega) he fun e' h' => hn e' (by omega), hn e h⟩

theorem hostStepsIn_one_of_head {r : Nat → State} {k : Nat} {a : Agent} (h : (r k).schedule.head? = some a) (ha : a ≠ .host) :
    hostStepsIn r k 1 = 0 := by
  rw [hostStepsIn_eq_count, Nat.count_one, if_neg]
  simpa [h] using ha

/-- The host's steps of a stretch: at most `b` before each of the steps that the stream has left. -/
theorem Stretch.hostSteps_le {r : Nat → State} {l b : Nat} (w : Stretch r l) (hb : LatencyBound (b + 1) r) {k d : Nat}
    (hkd : k + d = l) : hostStepsIn r k d ≤ (r k).remaining * b := by
  induction d using Nat.strong_induction_on generalizing k with
  | _ d ih =>
    rcases Nat.eq_zero_or_pos d with rfl | hpos
    · exact Nat.zero_le _
    obtain ⟨a, enabled, m, he⟩ := w.pending k (by omega)
    by_cases hex : ∃ e, e < d ∧ (r (k + e)).schedule.head? = some a
    · obtain ⟨hed, hhead⟩ := Nat.find_spec hex
      have hbefore : ∀ e', e' < Nat.find hex → (r (k + e')).schedule.head? ≠ some a := fun e' h' hh =>
        Nat.find_min hex h' ⟨h'.trans hed, hh⟩
      generalize Nat.find hex = e at *
      have hwait : hostStepsIn r k e ≤ b := w.wait_le hb m (by omega) he hbefore
      have htaken : hostStepsIn r (k + e) 1 = 0 := hostStepsIn_one_of_head hhead m.not_host
      have hrest : hostStepsIn r (k + e + 1) (d - e - 1) ≤ (r (k + e + 1)).remaining * b := ih _ (by omega) (by omega)
      have hless : (r (k + e + 1)).remaining + 1 ≤ (r k).remaining :=
        (m.remaining_lt (w.flows _ (by omega)) (w.next (k + e) (by omega)) (w.enabled_until m (by omega) he hbefore) hhead).trans_le
          (w.remaining_le (by omega))
      calc hostStepsIn r k d = hostStepsIn r k (e + (1 + (d - e - 1))) := by congr 1; omega
        _ = hostStepsIn r k e + hostStepsIn r (k + e + 1) (d - e - 1) := by
          rw [hostStepsIn_add, hostStepsIn_add, htaken, Nat.zero_add]
        _ ≤ b + (r (k + e + 1)).remaining * b := Nat.add_le_add hwait hrest
        _ = ((r (k + e + 1)).remaining + 1) * b := by rw [Nat.add_mul, Nat.one_mul, Nat.add_comm]
        _ ≤ (r k).remaining * b := Nat.mul_le_mul_right b hless
    · push Not at hex
      calc hostStepsIn r k d ≤ b := w.wait_le hb m (by omega) he hex
        _ ≤ (r k).remaining * b := Nat.le_mul_of_pos_left b (m.remaining_pos (w.flows k (by omega)) he)

/-! ### The polls of a stream (47 R436) -/

/-- What the two polls wait for is not there before the last word is written, or the last block computed. -/
theorem Polls.pending {i : Instr} {m : Word} {flag : State → Bool} (p : Polls i m flag) {s : State} (f : Flowing s)
    (h : flag s = false) : s.dstDone = false := by
  cases p with
  | drained => exact h
  | finished =>
    obtain ⟨-, -, -, -, -, hst, -⟩ := f.inv.1
    have hstr : s.st = .streaming := (hst f.stream).resolve_right fun he => by simp [State.finishedFlag, he] at h
    exact f.inv.dstDone_of_dmaActive (dmaActive_of_streaming hstr)

/-- While the foreground polls in vain, no host step touches the stream. -/
theorem Waits.sameFlow {i : Instr} {m : Word} {flag : State → Bool} (p : Polls i m flag) {left : Nat} {more : List DrvOp}
    {rets : List CallResult} {s t : State} (w : Waits i m left more rets s) (d : StepDisciplined s)
    (hs : s.schedule.head? = some .host) (h : step s = .next t) : SameFlow s t := by
  cases hc : s.ctx with
  | fg => exact (poll_read p ((fgNext_iff s).mpr ⟨hs, hc⟩) w.ops h).block.sameFlow
  | isr =>
    obtain ⟨rest, hsch⟩ := List.head?_eq_some_iff.mp hs
    exact hostMove_sameFlow w.lock w.holds d hc (step_hostMove hsch h)

/-- The stretch of a run in which the foreground polls in vain. -/
theorem stretch_of_clear {i : Instr} {m : Word} {flag : State → Bool} (p : Polls i m flag) {r : Nat → State} (hr : DisciplinedRun r)
    {reads : Nat} {more : List DrvOp} {rets : List CallResult} (w : Waits i m reads more rets (r 0)) (f : Flowing (r 0)) {l : Nat}
    (hclear : ∀ k, k < l → flag (r k) = false) (hreads : ∀ k, k < l → fgStepsIn r 0 k < reads) : Stretch r l := by
  have ⟨hrun, hdisc, hreset⟩ := hr
  have hnext : ∀ k, k < l → Flowing (r k) → NextFlow (r k) (r (k + 1)) := fun k hk fk =>
    step_nextFlow fk (hreset k)
      (fun hs => (waits_of_clear p hr w (fun j hj => hclear j (hj.trans hk)) (hreads k hk)).sameFlow p (hdisc k) hs (hrun k)) (hrun k)
  have hflows : ∀ k, k ≤ l → Flowing (r k) := by
    intro k
    induction k with
    | zero => exact fun _ => f
    | succ k ih =>
      intro hk
      have fk := ih (by omega)
      exact fk.of_setup (engineInv_keptByMoves.step fk.inv (hrun k)) (hnext k hk fk).setup
  refine ⟨hflows, fun k hk => hnext k hk (hflows k hk.le), fun k hk => ?_⟩
  rcases (hflows k hk.le).some_enabled (p.pending (hflows k hk.le) (hclear k hk)) with h | h | h
  · exact ⟨_, _, .src, h⟩
  · exact ⟨_, _, .engine, h⟩
  · exact ⟨_, _, .dst, h⟩

/-- Under P7 what the poll waits for comes before its last read. -/
theorem flag_before_last_read {i : Instr} {m : Word} {flag : State → Bool} (p : Polls i m flag) {r : Nat → State} (hr : DisciplinedRun r)
    {reads bound : Nat} {more : List DrvOp} {rets : List CallResult} (w : Waits i m reads more rets (r 0)) (f : Flowing (r 0))
    (hb : LatencyBound bound r) (hreads : 9 * (r 0).srcCount.toNat * bound ≤ reads) (hpos : 0 < reads) {n : Nat}
    (hn : fgStepsIn r 0 n = reads) : ∃ k, k < n ∧ flag (r k) = true ∧ fgStepsIn r 0 k < reads := by
  obtain ⟨l, hln, hl, hbefore⟩ := exists_first_fgStepsIn hn
  by_contra hnone
  push Not at hnone
  have hclear : ∀ k, k < l → flag (r k) = false := fun k hk => by
    by_contra hf
    exact absurd (hbefore k hk) (Nat.not_lt.mpr (hnone k (by omega) (by simpa using hf)))
  obtain ⟨b, rfl⟩ : ∃ b, bound = b + 1 := Nat.exists_eq_succ_of_ne_zero fun h0 => by
    have := hb.of_moves .src 0 0 (fun _ h => absurd h (Nat.not_lt_zero _))
    omega
  have hhost : hostStepsIn r 0 l ≤ (r 0).remaining * b :=
    (stretch_of_clear p hr w f hclear hbefore).hostSteps_le hb (Nat.zero_add l)
  have hlast : reads ≤ 9 * (r 0).srcCount.toNat * b :=
    calc reads = fgStepsIn r 0 l := hl.symm
      _ ≤ hostStepsIn r 0 l := fgStepsIn_le_hostStepsIn r 0 l
      _ ≤ (r 0).remaining * b := hhost
      _ ≤ 9 * (r 0).srcCount.toNat * b := Nat.mul_le_mul_right b (remaining_le _)
  rw [Nat.mul_add, Nat.mul_one] at hreads
  have hcount : (r 0).srcCount.toNat = 0 := by omega
  rw [hcount] at hlast
  omega

/-- Settles O57: (a) by the cost of each driver step, (b) and (c) by following the foreground's poll along the run, and the stream's part
by counting the host steps before each of the agents' steps that are left. -/
theorem driverCallsAreBounded : Obligations.DriverCallsAreBounded := by
  refine ⟨⟨fun s u t op more => driverStep_lowers_callCost, fun s u t c h ht => ?_, fun s t => step_keeps_callCost⟩,
    fun r more hr hl kb hf => ?_, fun r more bound hr hl k hf ha hsrc hdst hadm => ?_⟩
  · rw [step_of_nextCommand h] at ht
    exact startCall_callCost ht
  · intro p hc hops
    have w : Waits .rdCtrl 0x200#32 p more (r 0).fg.returns (r 0) := ⟨hl, hf, hops, rfl⟩
    refine ⟨fun k d hk he hp hd hs hctx => poll_ends_after_engine hr kb hc w hk he hp hd ((fgNext_iff _).mpr ⟨hs, hctx⟩),
      fun n hn => ?_, fun hb n hn => engine_before_last_read hr kb hc hb hn⟩
    obtain ⟨hwait, hlast⟩ := poll_times_out_without_engine hr kb hc w hn
    exact ⟨fun hp => ⟨(hwait hp).ops, (hwait hp).returns⟩, fun hp hs hctx => hlast hp ((fgNext_iff _).mpr ⟨hs, hctx⟩)⟩
  · intro p hb hreads n hn
    have f : Flowing (r 0) := ⟨k, k.1.stream_of_dmaActive ha, hsrc, hdst, hadm⟩
    have hpos : 0 < p := one_le_pollBound _
    refine ⟨fun hops => ?_, fun hops => ?_⟩
    · obtain ⟨j, hj, hfin, hreadsj⟩ :=
        flag_before_last_read .finished hr (more := more) ⟨hl, hf, hops, rfl⟩ f hb hreads hpos hn
      exact ⟨j, hj, by simpa [State.finishedFlag] using hfin, hreadsj⟩
    · exact flag_before_last_read .drained hr (more := more) ⟨hl, hf, hops, rfl⟩ f hb hreads hpos hn

end Sys2Proof.Machine

/-! A stream that has started lasts until its last word is written: while it is active, each transaction that would end it or change what
it works on is refused, and no other agent but reset ends it (44 R367, R370). -/

namespace Sys2Proof.Machine

/-! ### Active streams -/

/-- A stream is in STREAMING or FINISHED (10 R53 f). -/
theorem BlockInv.st_of_stream {s : State} (k : BlockInv s) (hs : s.stream = true) : s.st = .streaming ∨ s.st = .finished := by
  obtain ⟨-, -, -, -, -, hf, -⟩ := k
  exact hf hs

/-- In the states that a run reaches, a stream is active until DST_DONE (10 R49). -/
theorem EngineInv.dmaActive_iff {s : State} (k : EngineInv s) : s.dmaActive = true ↔ s.stream = true ∧ s.dstDone = false := by
  refine ⟨fun ha => ⟨k.1.stream_of_dmaActive ha, k.dstDone_of_dmaActive ha⟩, fun ⟨hs, hd⟩ => ?_⟩
  rcases k.1.st_of_stream hs with e | e <;> simp [State.dmaActive, e, hs, hd]

/-- Settles O12: before FINISHED a stream is active, which DST_DONE excludes, and with source words left it has not finished. -/
theorem streamDoneFlagsImplyComputation : Obligations.StreamDoneFlagsImplyComputation := by
  intro s k hs
  have finished_reads : s.st = .finished → s.srcDone = true := by
    intro he
    by_contra hd
    have hst : s.st = .streaming := k.streaming_of_srcDone hs (by simpa using hd)
    simp [he] at hst
  refine ⟨fun hd => ?_, finished_reads⟩
  have he : s.st = .finished := (k.1.st_of_stream hs).resolve_left fun hst => by
    have := k.dstDone_of_dmaActive (dmaActive_of_streaming hst)
    simp [hd] at this
  exact ⟨finished_reads he, he⟩

/-! ### Refused transactions -/

/-- The transaction records a reason behind its guard check and does nothing else (43 R302). -/
def Refuses (i : Instr) (s : State) : Prop := ∃ q, exec i s = .next ((s.checked i).raise q)

theorem Refuses.faults {i : Instr} {s : State} (h : Refuses i s) :
    ∃ q, exec i s = .next { s with faults := (checkedFaults i s).add q } := by
  obtain ⟨q, hq⟩ := h
  exact ⟨q, hq.trans (congrArg _ (checked_raise i q s))⟩

theorem st_of_dmaActive {s : State} (h : s.dmaActive = true) : s.st = .streaming ∨ s.st = .finished :=
  ((dmaActive_iff s).mp h).imp_right And.left

/-- A CTRL write is refused in STREAMING as in any operation, and in FINISHED because the stream has not drained (43 R310, R312). -/
theorem refuses_wrCtrl {s : State} (ha : s.dmaActive = true) (v : Word) : Refuses (.wrCtrl v) s := by
  by_cases hv : hasBitsFrom 2 v = true
  · exact ⟨.reservedBits, if_pos hv⟩
  · rcases (dmaActive_iff s).mp ha with hst | ⟨hst, hs, hd⟩
    · exact ⟨.ctrlWriteWhileBusy, execWrCtrl_busy hv (by simp [hst])⟩
    · refine ⟨.dmaNotDrained, (execWrCtrl_finished hv hst).trans ?_⟩
      rw [State.endOperation, if_pos (by simp [hs, hd])]
      rfl

/-- START is accepted in KEY_LOADED only (43 R311). -/
theorem refuses_wrCtrlStart {s : State} (ha : s.dmaActive = true) (v : Word) : Refuses (.wrCtrlStart v) s := by
  by_cases hv : hasBitsFrom 2 v = true
  · exact ⟨.reservedBits, if_pos hv⟩
  · rcases st_of_dmaActive ha with hst | hst
    · exact ⟨.ctrlWriteWhileBusy, execWrCtrlStart_busy hv (by simp [hst])⟩
    · exact ⟨.startNotReady, execWrCtrlStart_notReady hv (by simp [hst])⟩

/-- An enable that is set may not be cleared (43 R332). -/
theorem refuses_wrDmaCtrl {s : State} (ha : s.dmaActive = true) {v : Word}
    (hv : (s.srcEn = true ∧ v.getLsbD 0 = false) ∨ (s.dstEn = true ∧ v.getLsbD 1 = false)) : Refuses (.wrDmaCtrl v) s := by
  by_cases hb : hasBitsFrom 2 v = true
  · exact ⟨.reservedBits, if_pos hb⟩
  · have hclear : (s.guardCheck.dmaActive && s.guardCheck.disablesChannel v) = true :=
      Bool.and_eq_true_iff.mpr ⟨ha, (disablesChannel_iff v s).mpr hv⟩
    exact ⟨.dmaDisableWhileBusy, (if_neg hb).trans (if_pos hclear)⟩

/-- Descriptors are written in IDLE and KEY_LOADED only (43 R324 to R330). -/
theorem refuses_descriptor {s : State} (hc : s.configurable = false) :
    (∀ v, Refuses (.wrDmaSrcAddr v) s) ∧ (∀ v, Refuses (.wrDmaSrcCount v) s) ∧
    (∀ v, Refuses (.wrDmaDstAddr v) s) ∧ (∀ v, Refuses (.wrDmaDstCount v) s) := by
  have hc : (!s.guardCheck.configurable) = true := by simp [hc]
  have addr (v : Word) : Refuses (.wrDmaSrcAddr v) s ∧ Refuses (.wrDmaDstAddr v) s := by
    by_cases hv : (!wordAligned v) = true
    · exact ⟨⟨.dmaMisaligned, if_pos hv⟩, ⟨.dmaMisaligned, if_pos hv⟩⟩
    · exact ⟨⟨.dmaConfigWhileBusy, (if_neg hv).trans (if_pos hc)⟩, ⟨.dmaConfigWhileBusy, (if_neg hv).trans (if_pos hc)⟩⟩
  have count (v : Word) : Refuses (.wrDmaSrcCount v) s ∧ Refuses (.wrDmaDstCount v) s := by
    by_cases hv : hasBitsFrom 16 v = true
    · exact ⟨⟨.reservedBits, if_pos hv⟩, ⟨.reservedBits, if_pos hv⟩⟩
    · exact ⟨⟨.dmaConfigWhileBusy, (if_neg hv).trans (if_pos hc)⟩, ⟨.dmaConfigWhileBusy, (if_neg hv).trans (if_pos hc)⟩⟩
  exact ⟨fun v => (addr v).1, fun v => (count v).1, fun v => (addr v).2, fun v => (count v).2⟩

/-- Key words are written in IDLE and KEY_LOADED only (43 R315). -/
theorem refuses_wrKey {s : State} (ha : s.dmaActive = true) (n : BitVec 2) (v : Word) : Refuses (.wrKey n v) s :=
  ⟨.keyWriteWhileBusy, execWrKey_refused (by rcases st_of_dmaActive ha with hst | hst <;> simp [hst]) n v⟩

/-- The lock is not released in mid-operation (45 R401, R402). -/
theorem refuses_wrLock {s : State} (hr : s.releasable = false) (v : Word) : Refuses (.wrLock v) s := by
  by_cases hv : v ≠ 0#32
  · exact ⟨.reservedBits, if_pos hv⟩
  by_cases hl : (!s.lockHeld) = true
  · exact ⟨.releaseNotHeld, (if_neg hv).trans (if_pos hl)⟩
  · exact ⟨.releaseMidOp, (if_neg hv).trans ((if_neg hl).trans (if_neg (by simp [hr])))⟩

theorem releasable_of_dmaActive {s : State} (ha : s.dmaActive = true) : s.releasable = false := by
  rcases st_of_dmaActive ha with hst | hst <;> simp [State.releasable, hst, ha]

/-! ### What ends a stream -/

theorem engineStep_stream (s : State) : s.engineStep.stream = s.stream ∧ s.engineStep.dstDone = s.dstDone := by
  unfold State.engineStep
  repeat' split
  all_goals exact ⟨rfl, rfl⟩

theorem dmaSrcStep_stream (s : State) : s.dmaSrcStep.stream = s.stream ∧ s.dmaSrcStep.dstDone = s.dstDone := by
  unfold State.dmaSrcStep
  split <;> exact ⟨rfl, rfl⟩

theorem dmaDstStep_stream (s : State) : s.dmaDstStep.stream = s.stream := by
  unfold State.dmaDstStep
  repeat' split
  all_goals rfl

/-- No step but reset ends an active stream, and none but DMA_DST's sets DST_DONE. -/
theorem step_stream_of_dmaActive {s t : State} (k : EngineInv s) (ha : s.dmaActive = true) (h : step s = .next t)
    (hr : s.schedule.head? ≠ some .reset) :
    t.stream = true ∧ (s.schedule.head? ≠ some .dmaDst → t.dstDone = false) := by
  obtain ⟨hs, hd⟩ := k.dmaActive_iff.mp ha
  have kept {u : State} (h : u.stream = s.stream ∧ u.dstDone = s.dstDone) :
      u.stream = true ∧ (s.schedule.head? ≠ some .dmaDst → u.dstDone = false) := ⟨h.1.trans hs, fun _ => h.2.trans hd⟩
  cases step_cases h with
  | idle _ ht => exact kept (ht ▸ ⟨rfl, rfl⟩)
  | host rest _ hh =>
    rcases hostStepCases_sameStream_or_ended (s := { s with schedule := rest }) k.1 hs hh with h | ⟨-, hn⟩
    · exact kept ⟨h.stream, h.dstDone⟩
    · exact absurd (ha.symm.trans hn) (by decide)
  | engine rest _ ht => exact kept (ht ▸ engineStep_stream { s with schedule := rest })
  | dmaSrc rest _ ht => exact kept (ht ▸ dmaSrcStep_stream { s with schedule := rest })
  | dmaDst rest hsch ht =>
    refine ⟨?_, fun hn => absurd (by rw [hsch]; rfl) hn⟩
    rw [ht, dmaDstStep_stream]
    exact hs
  | interrupt _ _ ht => exact kept ⟨ht.stream, ht.dstDone⟩
  | reset rest hsch _ => exact absurd (by rw [hsch]; rfl) hr

/-- Settles O22: the refusals by each transaction's order of checks, and the step by what `dmaActive` says of a state with the engine's
invariant: a stream whose DST_DONE is 0. -/
theorem activeStreamCannotBeCancelled : Obligations.ActiveStreamCannotBeCancelled := by
  intro s ha
  obtain ⟨srcAddr, srcCount, dstAddr, dstCount⟩ := refuses_descriptor (configurable_of_stream (st_of_dmaActive ha))
  refine ⟨fun v => (refuses_wrCtrl ha v).faults, fun v => (refuses_wrCtrlStart ha v).faults, fun v hv => (refuses_wrDmaCtrl ha hv).faults,
    fun v => (srcAddr v).faults, fun v => (srcCount v).faults, fun v => (dstAddr v).faults, fun v => (dstCount v).faults,
    fun n v => (refuses_wrKey ha n v).faults, fun v => (refuses_wrLock (releasable_of_dmaActive ha) v).faults,
    fun t k h => ?_⟩
  by_cases hr : s.schedule.head? = some .reset
  · exact .inr (.inr hr)
  have kt : EngineInv t := streamAccountIsKept s t k h
  obtain ⟨hs, hd⟩ := step_stream_of_dmaActive k ha h hr
  cases hdone : t.dstDone with
  | false => exact .inl (kt.dmaActive_iff.mpr ⟨hs, hdone⟩)
  | true =>
    refine .inr (.inl ⟨rfl, ?_⟩)
    by_contra hn
    simp [hd hn] at hdone

end Sys2Proof.Machine

/-! The DMA channels' steps, each in the one state in which it moves a word (44 R362, R363). -/

namespace Sys2Proof.Machine

theorem srcEnabled_iff (s : State) : s.srcEnabled = true ↔ s.srcEn = true ∧ s.st = .streaming ∧ s.inBuf.length < 4 ∧
    s.srcWords.toNat < 4 * s.srcCount.toNat ∧ s.platform.memAdmit s.srcCursor 4 = true := by
  simp [State.srcEnabled, and_assoc]

theorem dstEnabled_iff (s : State) : s.dstEnabled = true ↔ s.dstEn = true ∧ s.stream = true ∧ s.outBuf ≠ [] ∧
    s.dstWords.toNat < 4 * s.dstCount.toNat ∧ s.platform.memAdmit s.dstCursor 4 = true := by
  simp [State.dstEnabled, and_assoc]

/-- The DMA_SRC step where it is enabled (44 R362). -/
theorem dmaSrcStep_enabled {s : State} (he : s.srcEnabled = true) :
    s.dmaSrcStep = { s with
      inBuf := s.inBuf ++ [s.mem.read32 s.srcCursor]
      srcWords := s.srcWords + 1
      srcDone := if (s.srcWords + 1).toNat = 4 * s.srcCount.toNat then true else s.srcDone } := if_pos he

theorem dmaSrcStep_disabled {s : State} (he : ¬s.srcEnabled = true) : s.dmaSrcStep = s := if_neg he

/-- The DMA_DST step where it is enabled (44 R363). -/
theorem dmaDstStep_enabled {s : State} (he : s.dstEnabled = true) {x : Word} {rest : List Word} (ho : s.outBuf = x :: rest) :
    s.dmaDstStep = { s with
      mem := s.mem.write32 s.dstCursor x
      outBuf := rest
      dstWords := s.dstWords + 1
      dstDone := if (s.dstWords + 1).toNat = 4 * s.dstCount.toNat then true else s.dstDone } := by
  simp only [State.dmaDstStep, if_pos he, ho]

theorem dmaDstStep_disabled {s : State} (he : ¬s.dstEnabled = true) : s.dmaDstStep = s := if_neg he

/-- Settles O32: where the channel is enabled its count does not wrap, so the last word is the one that the statement names. -/
theorem dmaSrcReadsOneWord : Obligations.DmaSrcReadsOneWord := by
  intro s rest hsch
  have hstep : step s = .next (State.dmaSrcStep { s with schedule := rest }) := step_scheduled hsch
  have henabled := srcEnabled_iff { s with schedule := rest }
  refine ⟨fun he => ?_, fun he => hstep.trans (congrArg _ (dmaSrcStep_disabled (mt henabled.mp he)))⟩
  have hon := henabled.mpr he
  obtain ⟨-, -, -, hlt, -⟩ := he
  rw [← toNat_succ_of_lt hlt]
  exact hstep.trans (congrArg _ (dmaSrcStep_enabled hon))

/-- Settles O33: the word that the step writes is read back byte by byte, and the count does not wrap where the channel is enabled. -/
theorem dmaDstWritesOneWord : Obligations.DmaDstWritesOneWord := by
  intro s rest hsch hm
  have hstep : step s = .next (State.dmaDstStep { s with schedule := rest }) := step_scheduled hsch
  have henabled := dstEnabled_iff { s with schedule := rest }
  refine ⟨fun he => ?_, fun he => hstep.trans (congrArg _ (dmaDstStep_disabled (mt henabled.mp he)))⟩
  have hon := henabled.mpr he
  obtain ⟨-, -, hne, hlt, -⟩ := he
  obtain ⟨x, tail, ho⟩ := List.exists_cons_of_ne_nil hne
  obtain ⟨h0, h1, h2, h3⟩ := Memory.read8_write32 hm s.dstCursor x
  rw [← toNat_succ_of_lt hlt]
  exact ⟨x, tail, _, ho, hstep.trans (congrArg _ (dmaDstStep_enabled hon ho)), rfl, h0, h1, h2, h3, fun b n0 n1 n2 n3 =>
    Memory.read8_write32_other n0 n1 n2 n3 s.mem x⟩

end Sys2Proof.Machine

/-! Bulk equivalence (44 R369): from an accepted START on, a run of the stream keeps where its data stands, and with the last word written
every word of the destination is a result word, whose four bytes are a column of the result block. -/

namespace Sys2Proof.Machine

/-! ### Bytes of a block in memory -/

theorem Quad.get_map {α β : Type} (f : α → β) (q : Quad α) (n : BitVec 2) : (q.map f).get n = f (q.get n) := by
  simp only [Quad.get, Quad.map]
  repeat' split
  all_goals rfl

/-- Byte `4 c + l` of a block is byte `l` of its column `c` (00 R11). -/
theorem blockBytes_getElem? (b : Block) {c l : Nat} (hc : c < 4) (hl : l < 4) :
    (blockBytes b)[4 * c + l]? = some ((b.get (BitVec.ofNat 2 c)).get (BitVec.ofNat 2 l)) := by
  interval_cases c <;> interval_cases l <;> rfl

/-- The bytes of a word in memory (20 R82). -/
theorem Memory.read8_of_read32 {m : Memory} {a : Word} {q : Quad Byte} (h : m.read32 a = le32 q) {l : Nat} (hl : l < 4) :
    m.read8 (a + BitVec.ofNat 32 l) = q.get (BitVec.ofNat 2 l) := by
  have hq : (⟨m.read8 a, m.read8 (a + 1), m.read8 (a + 2), m.read8 (a + 3)⟩ : Quad Byte) = q := by
    simpa [Memory.read32] using congrArg wordBytes h
  rw [← hq]
  match l, hl with
  | 0, _ => rw [BitVec.ofNat_eq_ofNat, BitVec.add_zero]; rfl
  | 1, _ | 2, _ | 3, _ => rfl

/-- A source block as memory holds it in words (20 R84). -/
theorem sourceBlock_read8 (m : Memory) (s : State) (j : Nat) : sourceBlock m.read8 s j = blockOfWords
    ⟨m.read32 (s.srcAddr + BitVec.ofNat 32 (16 * j)), m.read32 (s.srcAddr + BitVec.ofNat 32 (16 * j + 4)),
     m.read32 (s.srcAddr + BitVec.ofNat 32 (16 * j + 8)), m.read32 (s.srcAddr + BitVec.ofNat 32 (16 * j + 12))⟩ := by
  simp only [sourceBlock, sourceWord, Memory.read32, Nat.mul_add, ← Nat.mul_assoc]

/-! ### The run of a stream -/

/-- What a stream works on: nothing changes it from START to the stream's end (43 R342, 44 R370). -/
structure StreamJob where
  decrypt : Bool
  key : Quad Word
  srcAddr : Word
  srcCount : BitVec 16
  dstAddr : Word
  dstCount : BitVec 16

def State.job (s : State) : StreamJob := ⟨s.decrypt, s.key, s.srcAddr, s.srcCount, s.dstAddr, s.dstCount⟩

theorem SameStream.job {s t : State} (h : SameStream s t) : t.job = s.job := by
  simp only [State.job, h.decrypt, h.key, h.srcAddr, h.srcCount, h.dstAddr, h.dstCount]

/-- No move of a stream that goes on changes its job. -/
theorem StreamMove.job {s t : State} (h : StreamMove s t) (ht : t.stream = true) : t.job = s.job := by
  cases h with
  | kept h | host _ _ h | computed _ _ _ _ _ _ _ h | read _ h | wrote _ _ _ _ h => exact h.job
  | ended hn => simp [ht] at hn

theorem OverlapOk.of_job {s t : State} (h : t.job = s.job) (k : OverlapOk s) : OverlapOk t := by
  simp only [State.job, StreamJob.mk.injEq] at h
  obtain ⟨-, -, hsrc, hsc, hdst, hdc⟩ := h
  simpa only [OverlapOk, hsrc, hsc, hdst, hdc] using k

theorem resultBlock_of_job {s t : State} (h : t.job = s.job) (orig : Word → Byte) (j : Nat) :
    resultBlock orig t j = resultBlock orig s j := by
  simp only [State.job, StreamJob.mk.injEq] at h
  obtain ⟨hdec, hkey, hsrc, -⟩ := h
  simp only [resultBlock, sourceBlock, sourceWord, hdec, hkey, hsrc]

/-- `s` is a state of the stream that started in `q`: its job is the one of `q`, and its data stands where the bytes that memory held in
`q` put it. -/
structure StreamFrom (q s : State) : Prop where
  inv : EngineInv s
  canonical : s.mem.wf = true
  stream : s.stream = true
  job : s.job = q.job
  data : StreamData q.mem.read8 s

/-- START is accepted by starting the stream (43 R311). -/
theorem startStream_of_accepted {p t : State} {v : Word} (hp : p.st = .keyLoaded) (h : exec (.wrCtrlStart v) p = .next t)
    (ht : t.st = .streaming) : t = p.guardCheck.startStream (v.getLsbD 0) := by
  by_cases hv : hasBitsFrom 2 v = true
  · rw [exec, execWrCtrlStart, if_pos hv] at h
    cases h
    simp [hp] at ht
  · rw [exec, execWrCtrlStart_keyLoaded hv hp] at h
    split at h
    · cases h
      simp [hp] at ht
    · split at h <;> cases h
      · simp [hp] at ht
      · rfl

/-- A stream starts with both buffers empty and no word moved (10 R53 b; log entry 8). -/
theorem streamFrom_start {p : State} (k : EngineInv p) (hm : p.mem.wf = true) (hp : p.st = .keyLoaded) {v : Word} {q : State}
    (h : exec (.wrCtrlStart v) p = .next q) (hq : q = p.guardCheck.startStream (v.getLsbD 0)) : StreamFrom q q := by
  have inv : EngineInv q := exec_engineInv k h
  obtain ⟨⟨-, hin, -⟩, hout, -⟩ := k
  have hin : p.inBuf = [] := (hin hp).2
  have hout : p.outBuf = [] := hout (.inl hp)
  subst hq
  exact ⟨inv, hm, rfl, rfl, fun _ _ _ => rfl, by simp [hin], by simp [hout], by simp⟩

theorem StreamFrom.step {q s t : State} (f : StreamFrom q s) (hov : OverlapOk q) (hl : HostLeavesBuffers s)
    (h : step s = .next t) (ht : t.stream = true) : StreamFrom q t := by
  have hr : s.schedule.head? ≠ some .reset := fun hr => by simp [stream_of_reset hr h] at ht
  exact ⟨streamAccountIsKept s t f.inv h, memoryStaysCanonical s t f.canonical h, ht,
    ((step_streamMove f.inv.1 f.stream hr h).job ht).trans f.job,
    streamDataIsKept _ s t f.inv f.canonical (hov.of_job f.job) hl f.stream f.data h ht⟩

theorem streamFrom_run {r : Nat → State} {n : Nat} (h0 : StreamFrom (r 0) (r 0)) (hov : OverlapOk (r 0))
    (hrun : ∀ k, k < n → HostLeavesBuffers (r k) ∧ Machine.step (r k) = .next (r (k + 1)) ∧ (r (k + 1)).stream = true) :
    ∀ k, k ≤ n → StreamFrom (r 0) (r k)
  | 0, _ => h0
  | k + 1, hk =>
    have ⟨hl, h, ht⟩ := hrun k hk
    (streamFrom_run h0 hov hrun k (Nat.le_of_succ_le hk)).step hov hl h ht

/-- With DST_DONE set every byte of the destination is a byte of its result block. -/
theorem StreamFrom.destination {q s : State} (f : StreamFrom q s) (hd : s.dstDone = true) {j i : Nat} (hj : j < q.srcCount.toNat)
    (hi : i < 16) : (blockBytes (resultBlock q.mem.read8 q j))[i]? = some (s.mem.read8 (q.dstAddr + BitVec.ofNat 32 (16 * j + i))) := by
  obtain ⟨c, l, hc, hl, rfl⟩ : ∃ c l, c < 4 ∧ l < 4 ∧ i = 4 * c + l := ⟨i / 4, i % 4, by omega, by omega, by omega⟩
  obtain ⟨-, -, -, hwritten⟩ := f.data
  obtain ⟨-, -, hacc⟩ := f.inv
  obtain ⟨hvalid, -, -, -, -, -, -, -, hlast⟩ := hacc f.stream
  have hcount : s.srcCount = s.dstCount := ((countsValid_iff s).mp hvalid).2
  have hsrc : s.srcCount = q.srcCount := congrArg StreamJob.srcCount f.job
  have hdst : s.dstAddr = q.dstAddr := congrArg StreamJob.dstAddr f.job
  have hword : 4 * j + c < s.dstWords.toNat := by
    rw [hlast.mp hd, ← hcount, hsrc]
    omega
  have hcolumn : s.mem.read32 (q.dstAddr + BitVec.ofNat 32 (4 * (4 * j + c))) =
      le32 ((resultBlock q.mem.read8 q j).get (BitVec.ofNat 2 c)) := by
    rw [← hdst, hwritten _ hword, resultWord_block _ s hc, resultBlock_of_job f.job, wordsOfBlock, Quad.get_map]
  have haddr : q.dstAddr + BitVec.ofNat 32 (16 * j + (4 * c + l)) =
      q.dstAddr + BitVec.ofNat 32 (4 * (4 * j + c)) + BitVec.ofNat 32 l := by
    rw [BitVec.add_assoc, ← BitVec.ofNat_add, show 16 * j + (4 * c + l) = 4 * (4 * j + c) + l by omega]
  rw [blockBytes_getElem? _ hc hl, haddr, Memory.read8_of_read32 hcolumn hl]

/-- Settles O36, by induction on the run from START: every step keeps where the stream's data stands, and at DST_DONE all of it stands in
the destination. -/
theorem bulkEquivalence : Obligations.BulkEquivalence := by
  intro p v r n _ k hm hov hp h0 hst hrun hd j i hj hi
  have hq : r 0 = p.guardCheck.startStream (v.getLsbD 0) := startStream_of_accepted hp h0 hst
  have hov : OverlapOk (r 0) := by rw [hq]; exact hov
  have hn : StreamFrom (r 0) (r n) := streamFrom_run (streamFrom_start k hm hp h0 hq) hov hrun n (Nat.le_refl n)
  have hdest := hn.destination hd (j := j) (i := i) (by rw [hq]; exact hj) hi
  rw [hq, resultBlock, sourceBlock_read8] at hdest
  exact hdest

end Sys2Proof.Machine

/-! The arbiter (45): the LOCK and RESULT rows, one holder under the lock discipline, and the four events that write the result code. -/

namespace Sys2Proof.Machine

/-- Settles O15: the contexts' acquires and releases are the only moves of the lock, and each keeps its one holder or none. -/
theorem disciplinedLockHasOneHolder : Obligations.DisciplinedLockHasOneHolder := fun _ _ => step_lockInv

/-! ### LOCK (45 R400 to R402) -/

/-- A context that learns about the lock and is returned a word has changed its own state once. -/
theorem returnWord_setHolds (b : Bool) (w : Word) (s : State) :
    (s.setHolds b).returnWord w = s.setCur { s.cur with reads := w :: s.cur.reads, holdsLock := b } := by
  rw [State.returnWord, setHolds_cur, State.setHolds, setCur_setCur]

theorem execRdLock_free {s : State} (h : s.lockHeld = false) :
    execRdLock s = .next (((s.setLock true).setHolds true).returnWord lockGranted) := if_neg (ne_true_of_eq_false h)

theorem execRdLock_held {s : State} (h : s.lockHeld = true) : execRdLock s = .next ((s.setResult .busy).returnWord lockBusy) := if_pos h

/-- WR_LOCK of 0, by the lock and then by the release condition. -/
theorem execWrLock_zero_free {s : State} (h : s.lockHeld = false) : execWrLock 0#32 s = .next (s.raise .releaseNotHeld) :=
  (if_neg fun hv => hv rfl).trans (if_pos (by simp [h]))

theorem execWrLock_zero_held {s : State} (h : s.lockHeld = true) :
    execWrLock 0#32 s =
      if s.releasable then .next ((s.teardown.setLock false).setHolds false) else .next (s.raise .releaseMidOp) :=
  (if_neg fun hv => hv rfl).trans (if_neg (by simp [h]))

/-- The release condition as 45 R402 writes it. -/
theorem releasable_iff (s : State) : s.releasable = true ↔
    s.st = .idle ∨ s.st = .keyLoaded ∨ (s.st = .finished ∧ ¬(s.stream = true ∧ s.dstDone = false)) := by
  cases hs : s.st
  case idle | keyLoaded | feeding | computing | streaming => simp [State.releasable, hs]
  case finished => cases hstr : s.stream <;> simp [State.releasable, State.dmaActive, hs, hstr]

/-- Settles O50: each branch of the two rows is one change of the lock, the result code or the fault set, beside the running
context's own. -/
theorem lockIsTestAndSet : Obligations.LockIsTestAndSet := by
  refine ⟨rowDecodes_read .lock (by decide), rowDecodes_write .lock (by decide), fun s =>
    ⟨fun hfree => ?_, fun hheld => ?_, fun v hv => if_pos hv, execWrLock_zero_free, fun hheld => ⟨fun hr => ?_, fun hr => ?_⟩⟩⟩
  · refine ⟨_, execRdLock_free hfree, ?_⟩
    rw [returnWord_setHolds]
    exact hostOnly_setCur _ (s.setLock true)
  · exact ⟨_, execRdLock_held hheld, readReturns_returnWord lockBusy (s.setResult .busy), rfl⟩
  · exact ⟨_, (execWrLock_zero_held hheld).trans (if_pos ((releasable_iff s).mpr hr)), hostOnly_setCur _ (s.teardown.setLock false)⟩
  · exact (execWrLock_zero_held hheld).trans (if_neg (mt (releasable_iff s).mp hr))

/-! ### RESULT (45 R405 to R407) -/

/-- Settles O51: the code lies in the defined bits of the read, and a write is of 0 or refused. -/
theorem resultIsReadAndCleared : Obligations.ResultIsReadAndCleared := by
  refine ⟨rowDecodes_read .result (by decide), rowDecodes_write .result (by decide), fun s =>
    ⟨⟨_, _, rfl, drawnRead_returnDrawn codeReadMask s.codeField s, ?_⟩, fun v hv => if_pos hv, rfl⟩⟩
  rw [drawnWord_extractLsb' (by decide), State.codeField]
  cases s.resultCode <;> rfl

/-- An answer of `i` that keeps the result code, or one of the three events of 45 R407 that are transactions. -/
inductive WritesCode (i : Instr) (s : State) : Result → Prop where
  | kept {t : State} (h : t.resultCode = s.resultCode) : WritesCode i s (.next t)
  /-- A LOCK read while the lock is held (45 R400). -/
  | busy {t : State} (hi : i = .rdLock) (hl : s.lockHeld = true) (h : t.resultCode = .busy) : WritesCode i s (.next t)
  /-- A START with bad counts (44 R361). -/
  | startRefused {t : State} (v : Word) (hi : i = .wrCtrlStart v) (hs : s.st = .keyLoaded) (hc : s.countsValid = false)
    (h : t.resultCode = .invalidLength) : WritesCode i s (.next t)
  /-- A RESULT write of 0 (45 R406). -/
  | cleared {t : State} (hi : i = .wrResult 0#32) (h : t.resultCode = .success) : WritesCode i s (.next t)

theorem WritesCode.ite {i : Instr} {s : State} {c : Prop} [Decidable c] {a b : Result} (ha : c → WritesCode i s a)
    (hb : ¬c → WritesCode i s b) : WritesCode i s (if c then a else b) := by
  split
  · exact ha ‹_›
  · exact hb ‹_›

theorem popResult_resultCode (rest : List Word) (s : State) : (s.popResult rest).resultCode = s.resultCode := by
  unfold State.popResult
  split <;> rfl

theorem endOperation_resultCode (dir : Bool) (s : State) : (s.endOperation dir).resultCode = s.resultCode := by
  unfold State.endOperation
  split <;> rfl

theorem exec_writesCode (i : Instr) (s : State) : WritesCode i s (exec i s) := by
  cases i
  case rdCtrl | rdKey | rdDatain | wrDataout | rdDmaSrcAddr | rdDmaSrcCount | rdDmaDstAddr | rdDmaDstCount | rdDmaCtrl | rdDmaStatus
      | wrDmaStatus | rdResult => exact .kept rfl
  case wrDmaSrcAddr | wrDmaSrcCount | wrDmaDstAddr | wrDmaDstCount | wrDmaCtrl =>
    exact .ite (fun _ => .kept rfl) fun _ => .ite (fun _ => .kept rfl) fun _ => .kept rfl
  case wrLock => exact .ite (fun _ => .kept rfl) fun _ => .ite (fun _ => .kept rfl) fun _ => .ite (fun _ => .kept rfl) fun _ => .kept rfl
  case rdLock => exact .ite (fun hl => .busy rfl hl rfl) fun _ => .kept rfl
  case wrResult v => exact .ite (fun _ => .kept rfl) fun hv => .cleared (congrArg _ (not_not.mp hv)) rfl
  case wrCtrl v =>
    refine .ite (fun _ => .kept rfl) fun _ => ?_
    simp only [guardCheck_st]
    cases s.st
    case finished => exact .kept (endOperation_resultCode _ s.guardCheck)
    case idle | keyLoaded | feeding | computing | streaming => exact .kept rfl
  case wrCtrlStart v =>
    refine .ite (fun _ => .kept rfl) fun _ => ?_
    simp only [guardCheck_st]
    cases hs : s.st
    case keyLoaded =>
      exact .ite (fun hc => .startRefused v rfl hs (by simpa using hc) rfl) fun _ => .ite (fun _ => .kept rfl) fun _ => .kept rfl
    case idle | feeding | computing | finished | streaming => exact .kept rfl
  case wrKey n v =>
    simp only [exec, execWrKey, guardCheck_st]
    cases s.st <;> exact .kept rfl
  case wrDatain v =>
    simp only [exec, execWrDatain, guardCheck_st]
    cases s.st <;> exact .kept rfl
  case rdDataout =>
    simp only [exec, execRdDataout]
    split
    · exact .kept (popResult_resultCode _ s.guardCheck)
    · exact .kept rfl

theorem engineStep_resultCode (s : State) : s.engineStep.resultCode = s.resultCode := by
  unfold State.engineStep
  repeat' split
  all_goals rfl

theorem dmaSrcStep_resultCode (s : State) : s.dmaSrcStep.resultCode = s.resultCode := by
  unfold State.dmaSrcStep
  split <;> rfl

theorem dmaDstStep_resultCode (s : State) : s.dmaDstStep.resultCode = s.resultCode := by
  unfold State.dmaDstStep
  repeat' split
  all_goals rfl

/-- Of the agents, the host alone and reset can change the result code. -/
theorem step_resultCode {s t : State} (h : step s = .next t) :
    t.resultCode = s.resultCode ∨ s.schedule.head? = some .host ∨ (s.schedule.head? = some .reset ∧ t.resultCode = .success) := by
  cases step_cases h with
  | idle _ ht => exact .inl (ht ▸ rfl)
  | host _ hs _ => exact .inr <| .inl (congrArg List.head? hs)
  | engine _ _ ht => exact .inl (ht ▸ engineStep_resultCode _)
  | dmaSrc _ _ ht => exact .inl (ht ▸ dmaSrcStep_resultCode _)
  | dmaDst _ _ ht => exact .inl (ht ▸ dmaDstStep_resultCode _)
  | interrupt _ _ ht => exact .inl ht.resultCode
  | reset _ hs ht => exact .inr <| .inr ⟨congrArg List.head? hs, ht ▸ rfl⟩

/-- Settles O20, by the branches of each transaction and by the agents' steps. -/
theorem resultCodeChangesOnItsEvents : Obligations.ResultCodeChangesOnItsEvents := by
  refine ⟨fun i s t h hn => ?_, fun s t h hn => (step_resultCode h).resolve_left hn⟩
  have hw : WritesCode i s (.next t) := h ▸ exec_writesCode i s
  cases hw with
  | kept hk => exact absurd hk hn
  | busy hi hl hc => exact .inl ⟨hi, hl, hc⟩
  | startRefused v hi hs hv hc =>
    exact .inr <| .inl ⟨⟨v, hi⟩, hs, mt (countsValid_iff s).mpr (ne_true_of_eq_false hv), hc⟩
  | cleared hi hc => exact .inr <| .inr ⟨hi, hc⟩

end Sys2Proof.Machine

/-! The host protocol (47): what a call with bad arguments and a call on the software backend answer, Acquire and Release, the interrupt's
entry and return, and the wait on LOCK that 47 R434 forbids. -/

namespace Sys2Proof.Machine

/-! ### Calls that issue no transaction (47 R437, R447, R450) -/

theorem blockOfBytes_eq_none {l : List Byte} (h : l.length ≠ 16) : blockOfBytes l = none :=
  Option.eq_none_iff_forall_ne_some.mpr fun _ hb => h (blockOfBytes_length hb)

/-- Neither backend takes a key or a block of another length. -/
theorem startCall_single_bad {key block : List Byte} (h : key.length ≠ 16 ∨ block.length ≠ 16) (d : Bool) (u : State) :
    startCall (.single d key block) u = .next (u.finishCall .invalidLength []) := by
  rcases h with h | h
  · simp only [startCall, blockOfBytes_eq_none h]
  · cases hk : blockOfBytes key <;> simp only [startCall, hk, blockOfBytes_eq_none h]

/-- The arguments that streamingOp refuses (47 R436, R437). -/
theorem streamArgsBad_iff (key : List Byte) (src : Word) (n : Nat) (dst : Word) (m : Nat) :
    streamArgsBad key src n dst m = true ↔ key.length ≠ 16 ∨ n = 0 ∨ n % 16 ≠ 0 ∨ m ≠ n ∨ 65535 < n / 16 ∨
      src.extractLsb' 0 2 ≠ 0#2 ∨ dst.extractLsb' 0 2 ≠ 0#2 ∨ 2 ^ 32 < src.toNat + n ∨ 2 ^ 32 < dst.toNat + m := by
  simp only [streamArgsBad, wordAligned, Bool.or_eq_true, decide_eq_true_eq, Bool.not_eq_true', beq_eq_false_iff_ne, or_assoc]

theorem startCall_stream_bad {u : State} (hb : u.platform.backend = .hardware) {key : List Byte} {src dst : Word} {n m : Nat}
    (h : streamArgsBad key src n dst m = true) (d : Bool) :
    startCall (.stream d key src n dst m) u = .next (u.finishCall .invalidLength []) := by
  simp only [startCall, hb, h]

/-- Settles O52: the call's check fails, so the call returns at once, in the running context's own state. -/
theorem badArgumentsTouchNoRegister : Obligations.BadArgumentsTouchNoRegister := by
  intro s u c h hb hbad
  have hu : u.platform.backend = .hardware := by rwa [platform_of_nextCommand h]
  refine ⟨_, (step_of_nextCommand h).trans ?_, hostOnly_setCur _ u⟩
  cases c with
  | single d key block => exact startCall_single_bad hbad d u
  | stream d key src n dst m => exact startCall_stream_bad hu ((streamArgsBad_iff key src n dst m).mpr hbad) d

theorem softwareEncrypt_eq_cipher (K B : Block) : softwareEncrypt K B = cipher K B := rfl

theorem softwareDecrypt_eq_decryptWithKey (K B : Block) : softwareDecrypt K B = decryptWithKey K B := rfl

theorem startCall_single_software {u : State} (hb : u.platform.backend = .software) {key block : List Byte} {K B : Block}
    (hK : blockOfBytes key = some K) (hB : blockOfBytes block = some B) (d : Bool) :
    startCall (.single d key block) u =
      .next (u.finishCall .success (blockBytes (if d then decryptWithKey K B else cipher K B))) := by
  simp only [startCall, hb, hK, hB, softwareEncrypt_eq_cipher, softwareDecrypt_eq_decryptWithKey]

/-- Settles O53: the call answers at once with the ENGINE's functions, and the software backend has no buffer call. -/
theorem softwareBackendComputesTheSame : Obligations.SoftwareBackendComputesTheSame := by
  refine ⟨fun s u d key block h hb => ⟨fun hk hl => ?_, fun hbad => ?_⟩,
    fun K B => ⟨softwareEncrypt_eq_cipher K B, softwareDecrypt_eq_decryptWithKey K B⟩, fun s u d key src dst n m h hb => ?_⟩
  · obtain ⟨K, hK⟩ := exists_block hk
    obtain ⟨B, hB⟩ := exists_block hl
    have hu : u.platform.backend = .software := by rwa [platform_of_nextCommand h]
    exact ⟨K, B, _, blockBytes_of_blockOfBytes hK, blockBytes_of_blockOfBytes hB,
      (step_of_nextCommand h).trans (startCall_single_software hu hK hB d), hostOnly_setCur _ u⟩
  · exact ⟨_, (step_of_nextCommand h).trans (startCall_single_bad hbad d u), hostOnly_setCur _ u⟩
  · have hu : u.platform.backend = .software := by rwa [platform_of_nextCommand h]
    rw [step_of_nextCommand h]
    simp only [execHostCmd, startCall, hu]

/-! ### Acquire and Release (47 R433) -/

/-- What Acquire does to the mask: interrupts are masked if the driver does so and the foreground runs. -/
def State.maskForDriver (s : State) : State :=
  { s with irqMasked := s.irqMasked || (s.platform.driverMasksIrq && decide (s.ctx = .fg)) }

theorem saveMask_eq (s : State) : s.saveMask = s.maskForDriver.setCur { s.cur with savedMask := s.irqMasked } := rfl

theorem setLock_setCur (b : Bool) (h : HostContext) (s : State) : (s.setCur h).setLock b = (s.setLock b).setCur h := rfl

theorem setResult_setCur (c : ResultCode) (h : HostContext) (s : State) : (s.setCur h).setResult c = (s.setResult c).setCur h := rfl

theorem lastRead_setCur (h : HostContext) (s : State) : (s.setCur h).lastRead = h.reads.headD 0 := by
  rw [State.lastRead, cur_setCur]

theorem setOps_setCur (ops : List DrvOp) (h : HostContext) (s : State) : (s.setCur h).setOps ops = s.setCur { h with ops := ops } := by
  rw [State.setOps, cur_setCur, setCur_setCur]

/-- The mask goes back to what the context has kept. -/
theorem restoreMask_setCur (h : HostContext) (s : State) :
    (s.setCur h).restoreMask = State.setCur h { s with irqMasked := h.savedMask } := by
  rw [State.restoreMask, cur_setCur]
  rfl

theorem finishCall_setCur (code : ResultCode) (bytes : List Byte) (h : HostContext) (s : State) :
    (s.setCur h).finishCall code bytes = s.setCur { h with ops := [], out := [], returns := ⟨code, bytes⟩ :: h.returns } := by
  rw [State.finishCall, cur_setCur, setCur_setCur]

/-- Acquire's read of LOCK while it is free: the mask is kept, and the context holds the lock. -/
theorem exec_rdLock_saveMask_free {u : State} (hl : u.lockHeld = false) :
    exec .rdLock u.saveMask = .next ((u.maskForDriver.setLock true).setCur
      { u.cur with reads := lockGranted :: u.cur.reads, holdsLock := true, savedMask := u.irqMasked }) := by
  refine (execRdLock_free (s := u.saveMask) hl).trans ?_
  rw [returnWord_setHolds, saveMask_eq, setLock_setCur, cur_setCur, setCur_setCur]

/-- The same while it is held: the result code is BUSY. -/
theorem exec_rdLock_saveMask_held {u : State} (hl : u.lockHeld = true) :
    exec .rdLock u.saveMask = .next ((u.maskForDriver.setResult .busy).setCur
      { u.cur with reads := lockBusy :: u.cur.reads, savedMask := u.irqMasked }) := by
  refine (execRdLock_held (s := u.saveMask) hl).trans ?_
  rw [State.returnWord, saveMask_eq, setResult_setCur, cur_setCur, setCur_setCur]

/-- Acquire with the lock free: the context holds the lock and its call goes on. -/
theorem execAcquire_free {u : State} (hm : MayIssue u) (hl : u.lockHeld = false) (more : List DrvOp) :
    execAcquire more u = .next ((u.maskForDriver.setLock true).setCur
      { u.cur with ops := more, reads := lockGranted :: u.cur.reads, holdsLock := true, savedMask := u.irqMasked }) := by
  have hm : MayIssue u.saveMask := hm
  have hgranted : lockGranted ≠ lockBusy := by decide
  rw [execAcquire, onNext_issue hm (exec_rdLock_saveMask_free hl), lastRead_setCur, setOps_setCur]
  exact if_neg hgranted

/-- Acquire with the lock held: the mask is put back and the call returns BUSY. -/
theorem execAcquire_held {u : State} (hm : MayIssue u) (hl : u.lockHeld = true) (more : List DrvOp) :
    execAcquire more u = .next ((u.setResult .busy).setCur
      { u.cur with
        ops := [], out := [], reads := lockBusy :: u.cur.reads, savedMask := u.irqMasked,
        returns := ⟨.busy, []⟩ :: u.cur.returns }) := by
  have hm : MayIssue u.saveMask := hm
  rw [execAcquire, onNext_issue hm (exec_rdLock_saveMask_held hl), lastRead_setCur, restoreMask_setCur, finishCall_setCur]
  exact if_pos rfl

/-- Release after its LOCK write has answered `v`: the mask is put back and the call returns the words it has drained. -/
theorem execRelease_eq {u v : State} (hm : MayIssue u) (hv : exec (.wrLock 0#32) u = .next v) (code : ResultCode) :
    execRelease code u = .next (State.finishCall code (u.cur.out.flatMap fun w => (wordBytes w).toList)
      { v with irqMasked := u.cur.savedMask }) := by
  have hcur : v.cur = { u.cur with reads := v.cur.reads, holdsLock := v.cur.holdsLock } := (frame_of_exec hv).cur
  have hmask : v.restoreMask = { v with irqMasked := u.cur.savedMask } := by rw [State.restoreMask, hcur]
  refine (onNext_issue hm hv _).trans ?_
  rw [hmask, out_of_exec hv]

/-- Settles O55: the LOCK access of each step answers, and the host's work around it is in the running context's own state. -/
theorem acquireAndRelease : Obligations.AcquireAndRelease := by
  refine ⟨fun s u more h hm => ?_, fun s u more code h hm => ?_⟩
  all_goals
    have hu : MayIssue u := mayIssue_of_nextDriverStep h hm
    rw [step_of_nextDriverStep h]
  · rw [← (sameBlock_of_nextDriverStep h).lockHeld]
    exact ⟨fun hl => ⟨_, execAcquire_free hu hl more, hostOnly_setCur _ (u.maskForDriver.setLock true)⟩,
      fun hl => ⟨_, execAcquire_held hu hl more, hostOnly_setCur _ (u.setResult .busy)⟩⟩
  · obtain ⟨v, hv⟩ := exec_next (.wrLock 0#32) u
    have hreturns : v.cur.returns = u.cur.returns := by rw [(frame_of_exec hv).cur]
    rw [← hreturns]
    exact ⟨v, _, hv, execRelease_eq hu hv code, hostOnly_setCur _ { v with irqMasked := u.cur.savedMask }⟩

/-! ### Interrupts (47 R430, R431, 60 R512) -/

theorem isrEnterEnabled_iff (s : State) :
    s.isrEnterEnabled = true ↔ s.ctx = .fg ∧ s.irqMasked = false ∧ s.irqPending = true := by
  simp [State.isrEnterEnabled, and_assoc]

theorem enterIsr_disabled {s : State} (h : ¬(s.ctx = .fg ∧ s.irqMasked = false ∧ s.irqPending = true)) : s.enterIsr = s :=
  if_neg (mt (isrEnterEnabled_iff s).mp h)

/-- An ISR with nothing left returns (60 R512). -/
theorem hostStep_isr_done {s : State} (hc : s.ctx = .isr) (ho : s.isr.ops = []) (hp : s.isr.prog = []) :
    s.hostStep = .next s.returnIsr := by
  have hcur : s.cur = s.isr := by rw [State.cur, hc]
  rw [State.hostStep, hcur, ho, hp, hc]

/-- An ISR that may issue no transaction puts no word on the bus, whatever the word (47 R431). -/
theorem busTransaction_not_admitted {u : State} (hc : u.ctx = .isr) (hr : u.platform.interruptReentry = false) (w : Transaction) :
    busTransaction w u = .refused .isrTransactionNotAdmitted := by
  unfold busTransaction
  split
  · simp only [issue, hc, hr, Bool.false_eq_true, if_false]
  · simp only [hc, hr]

theorem not_fgNext_of_isr {s : State} (hc : s.ctx = .isr) : ¬s.fgNext = true := by simp [State.fgNext, hc]

theorem ctx_of_nextCommand {s u : State} {c : HostCmd} (h : NextCommand s c u) : u.ctx = s.ctx := by
  obtain ⟨_, _, -, -, -, rfl⟩ := h
  rfl

/-- Settles O58: the interrupt's steps by the condition of entry, the foreground's standstill by the moves of a step. -/
theorem interruptEntryAndReturn : Obligations.InterruptEntryAndReturn := by
  refine ⟨fun s rest h => ⟨fun hc hm hp => ?_, fun hno => ?_⟩, fun s rest h => step_scheduled h,
    fun s t hc h hr => step_fg h hr (not_fgNext_of_isr hc), fun s rest h hc ho hp => ?_, fun s u w h hc hr => ?_,
    fun s u b h => step_of_nextCommand h⟩
  · have hen : State.isrEnterEnabled { s with schedule := rest } = true := (isrEnterEnabled_iff _).mpr ⟨hc, hm, hp⟩
    exact (step_scheduled h).trans (congrArg _ (if_pos hen))
  · exact (step_scheduled h).trans (congrArg _ (enterIsr_disabled (s := { s with schedule := rest }) hno))
  · exact (step_scheduled h).trans (hostStep_isr_done (s := { s with schedule := rest }) hc ho hp)
  · rw [step_of_nextCommand h]
    exact busTransaction_not_admitted ((ctx_of_nextCommand h).trans hc) (by rwa [platform_of_nextCommand h]) w

/-! ### The wait on LOCK (47 R434) -/

/-- The ISR runs and waits on a held LOCK. -/
structure SpinsOnLock (cs : List HostCmd) (s : State) : Prop where
  ctx : s.ctx = .isr
  held : s.lockHeld = true
  ops : s.isr.ops = []
  prog : s.isr.prog = .spinLock :: cs

theorem SpinsOnLock.of_same {cs : List HostCmd} {s t : State} (k : SpinsOnLock cs s) (h : SameHost s t) : SpinsOnLock cs t :=
  ⟨h.ctx.trans k.ctx, h.held.trans k.held, by rw [h.isr, k.ops], by rw [h.isr, k.prog]⟩

theorem SpinsOnLock.taken {cs : List HostCmd} {s : State} (k : SpinsOnLock cs s) (rest : List Agent) :
    SpinsOnLock cs { s with schedule := rest } := ⟨k.ctx, k.held, k.ops, k.prog⟩

/-- A read of the wait while the lock is held: the command is put back in front of the program. -/
theorem execHostCmd_spinLock_held {u t : State} (hl : u.lockHeld = true) (h : execHostCmd .spinLock u = .next t) :
    t = (u.setResult .busy).setCur { u.cur with prog := .spinLock :: u.cur.prog, reads := lockBusy :: u.cur.reads } := by
  obtain ⟨v, hv, h⟩ := onNext_next h
  obtain rfl : (u.setResult .busy).returnWord lockBusy = v := by
    simpa only [exec, execRdLock_held hl, Host.Outcome.next.injEq] using issue_ran hv
  rw [State.returnWord, lastRead_setCur, cur_setCur, setCur_setCur] at h
  exact (Host.Outcome.next.inj ((if_pos rfl).symm.trans h)).symm

/-- The ISR's own step reads BUSY and leaves it at the same read. -/
theorem SpinsOnLock.host {cs : List HostCmd} {s t : State} (k : SpinsOnLock cs s) {rest : List Agent} (hs : s.schedule = .host :: rest)
    (h : step s = .next t) : SpinsOnLock cs t := by
  have hcur : s.cur = s.isr := by rw [State.cur, k.ctx]
  have hnext : NextCommand s .spinLock (State.setCur { s.cur with prog := cs } { s with schedule := rest }) :=
    ⟨rest, cs, hs, by rw [hcur, k.ops], by rw [hcur, k.prog], rfl⟩
  have ht := execHostCmd_spinLock_held (by exact k.held) ((step_of_nextCommand hnext).symm.trans h)
  rw [cur_setCur, hcur] at ht
  subst ht
  exact ⟨k.ctx, k.held, by simp [k.ctx, k.ops], by simp [k.ctx]⟩

theorem SpinsOnLock.step {cs : List HostCmd} {s t : State} (k : SpinsOnLock cs s) (h : step s = .next t)
    (hr : s.schedule.head? ≠ some .reset) : SpinsOnLock cs t := by
  cases step_move h with
  | idle _ ht => exact ht ▸ k
  | host hs _ =>
    obtain ⟨rest, hs⟩ := List.head?_eq_some_iff.mp hs
    exact k.host hs h
  | engine _ ht => exact ht ▸ (k.taken _).of_same (sameHost_engineStep _)
  | dmaSrc _ ht => exact ht ▸ (k.taken _).of_same (sameHost_dmaSrcStep _)
  | dmaDst _ ht => exact ht ▸ (k.taken _).of_same (sameHost_dmaDstStep _)
  | irqRaise _ ht => exact ht ▸ k.of_same ⟨rfl, rfl, rfl, rfl⟩
  | isrEnter _ ht =>
    rw [ht, enterIsr_disabled (by simp [k.ctx])]
    exact k.taken _
  | reset hs => contradiction

/-- Settles O59: the ISR's step reads BUSY again, no other agent touches the lock or a context, and no interrupt nests. -/
theorem spinningIsrHangs : Obligations.SpinningIsrHangs := by
  intro s t cs hc hl ho hp h hr
  obtain ⟨hc', hl', ho', hp'⟩ := SpinsOnLock.step ⟨hc, hl, ho, hp⟩ h hr
  exact ⟨hc', hl', ho', hp', step_fg h hr (not_fgNext_of_isr hc)⟩

end Sys2Proof.Machine

/-! A single-block call of the foreground on an unbroken schedule (47 R435): each driver step is one move of the block's state, beside
what the foreground has still to do, and the moves chain from the call's start to its return. -/

namespace Sys2Proof.Machine

/-! ### Runs -/

theorem run_of_step {s t : State} (h : step s = .next t) (k : Nat) : Sys2Proof.core.run (k + 1) s = Sys2Proof.core.run k t := by
  have h : Sys2Proof.core.step s = .next t := h
  simp only [Host.Core.run, h]

theorem run_add {j k : Nat} {s t : State} (h : Sys2Proof.core.run j s = .next t) :
    Sys2Proof.core.run (j + k) s = Sys2Proof.core.run k t := by
  induction j generalizing s with
  | zero =>
    cases h
    rw [Nat.zero_add]
  | succ j ih =>
    rw [Nat.succ_add]
    simp only [Host.Core.run] at h ⊢
    split at h
    · exact ih h
    · cases h
    · cases h

/-- From every state with `P`, `k` steps reach a state with `Q`. -/
def LeadsTo (k : Nat) (P Q : State → Prop) : Prop := ∀ s, P s → ∃ t, Sys2Proof.core.run k s = .next t ∧ Q t

theorem LeadsTo.of_step {P Q : State → Prop} (h : ∀ s, P s → ∃ t, step s = .next t ∧ Q t) : LeadsTo 1 P Q := by
  intro s hs
  obtain ⟨t, ht, hq⟩ := h s hs
  exact ⟨t, run_of_step ht 0, hq⟩

theorem LeadsTo.trans {j k : Nat} {P Q R : State → Prop} (h : LeadsTo j P Q) (g : LeadsTo k Q R) : LeadsTo (j + k) P R := by
  intro s hs
  obtain ⟨t, ht, hq⟩ := h s hs
  obtain ⟨u, hu, hr⟩ := g t hq
  exact ⟨u, (run_add ht).trans hu, hr⟩

/-! ### The foreground in a call -/

/-- The state `m` with the foreground in a call: the steps it has left, the words it has drained and read, the free values used, and
the agents to step. -/
def State.during (ops : List DrvOp) (out reads : List Word) (n : Nat) (l : List Agent) (m : State) : State :=
  { m with fg := { m.fg with ops := ops, out := out, reads := reads }, draws := n, schedule := l }

/-- The block stands as in `m` and the foreground is in a call; what it has read, and the free values used for that, may be any. -/
def InCall (m : State) (ops : List DrvOp) (out : List Word) (l : List Agent) (t : State) : Prop :=
  ∃ reads n, t = m.during ops out reads n l

/-- The foreground runs and the lock is held. -/
structure Working (m : State) : Prop where
  ctx : m.ctx = .fg
  held : m.lockHeld = true

theorem Working.loadKeyWord {m : State} (w : Working m) (n : BitVec 2) (v : Word) : Working (m.loadKeyWord n v) := ⟨w.ctx, w.held⟩

theorem Working.teardown {m : State} (w : Working m) : Working m.teardown := ⟨w.ctx, w.held⟩

theorem Working.feedWord {m : State} (w : Working m) (v : Word) : Working (m.feedWord v) := ⟨w.ctx, w.held⟩

section During

variable {m : State} {ops more : List DrvOp} {out reads : List Word} {n : Nat} {l : List Agent}

theorem mayIssue_during (hc : m.ctx = .fg) : MayIssue (m.during ops out reads n l) := .inl hc

theorem cur_during (hc : m.ctx = .fg) :
    (m.during ops out reads n l).cur = { m.fg with ops := ops, out := out, reads := reads } := cur_of_fg hc

theorem setCur_during (hc : m.ctx = .fg) (h : HostContext) :
    (m.during ops out reads n l).setCur h = { m with fg := h, draws := n, schedule := l } := by
  simp only [State.setCur, State.during, hc]

theorem setLock_during (b : Bool) : (m.during ops out reads n l).setLock b = (m.setLock b).during ops out reads n l := rfl

theorem teardown_during : (m.during ops out reads n l).teardown = m.teardown.during ops out reads n l := rfl

theorem maskForDriver_during : (m.during ops out reads n l).maskForDriver = m.maskForDriver.during ops out reads n l := rfl

theorem setOps_during (hc : m.ctx = .fg) : (m.during ops out reads n l).setOps more = m.during more out reads n l := by
  rw [State.setOps, cur_during hc, setCur_during hc]
  rfl

theorem returnWord_during (hc : m.ctx = .fg) (w : Word) :
    (m.during ops out reads n l).returnWord w = m.during ops out (w :: reads) n l := by
  rw [State.returnWord, cur_during hc, setCur_during hc]
  rfl

theorem returnDrawn_during (hc : m.ctx = .fg) (mask v : Word) :
    ∃ w, (m.during ops out reads n l).returnDrawn mask v = m.during ops out (w :: reads) (n + 1) l :=
  ⟨_, by rw [State.returnDrawn, returnWord_during hc]; rfl⟩

theorem setHolds_during (hc : m.ctx = .fg) (b : Bool) :
    (m.during ops out reads n l).setHolds b = State.during ops out reads n l { m with fg := { m.fg with holdsLock := b } } := by
  rw [State.setHolds, cur_during hc, setCur_during hc]
  rfl

theorem finishCall_during (hc : m.ctx = .fg) (code : ResultCode) (bytes : List Byte) :
    (m.during ops out reads n l).finishCall code bytes =
      State.during [] [] reads n l { m with fg := { m.fg with returns := ⟨code, bytes⟩ :: m.fg.returns } } := by
  rw [State.finishCall, cur_during hc, setCur_during hc]
  rfl

theorem guardCheck_during (w : Working m) : (m.during ops out reads n l).guardCheck = m.during ops out reads n l :=
  guardCheck_held w.held

theorem popResult_during (rest : List Word) :
    (m.during ops out reads n l).popResult rest = (m.popResult rest).during ops out reads n l := by
  unfold State.popResult
  split <;> rfl

end During

/-! ### One step of the call -/

section Steps

variable {m m' : State} {op : DrvOp} {more : List DrvOp} {out out' : List Word} {l : List Agent}

theorem step_during (hc : m.ctx = .fg) (reads : List Word) (n : Nat) :
    step (m.during (op :: more) out reads n (.host :: l)) = execDrvOp op more (m.during (op :: more) out reads n l) :=
  step_driver (s := m.during (op :: more) out reads n (.host :: l)) rfl (by rw [cur_during hc])

/-- A driver step of the foreground moves the block from `m` to `m'`. -/
theorem leadsTo_driver (hc : m.ctx = .fg)
    (h : ∀ reads n, ∃ t, execDrvOp op more (m.during (op :: more) out reads n l) = .next t ∧ InCall m' more out' l t) :
    LeadsTo 1 (InCall m (op :: more) out (.host :: l)) (InCall m' more out' l) := by
  refine .of_step ?_
  rintro _ ⟨reads, n, rfl⟩
  rw [step_during hc]
  exact h reads n

/-- A transaction whose answer does not depend on the foreground's state, such as a write (43 R300). -/
theorem leadsTo_write {i : Instr} (hc : m.ctx = .fg) (hc' : m'.ctx = .fg)
    (h : ∀ ops reads n, exec i (m.during ops out reads n l) = .next (m'.during ops out reads n l)) :
    LeadsTo 1 (InCall m (.xact i :: more) out (.host :: l)) (InCall m' more out l) := by
  refine leadsTo_driver hc fun reads n => ⟨_, ?_, reads, n, rfl⟩
  rw [execDrvOp, onNext_issue (mayIssue_during hc) (h _ reads n), setOps_during hc']

/-- A poll of CTRL that finds its flag set goes on at once. -/
theorem leadsTo_poll (w : Working m) {mask : Word} (hm : mask &&& ctrlReadMask = mask) (hflag : m.ctrlFields &&& mask = mask)
    (left : Nat) : LeadsTo 1 (InCall m (.poll .rdCtrl mask left :: more) out (.host :: l)) (InCall m more out l) := by
  refine leadsTo_driver w.ctx fun reads n => ?_
  generalize DrvOp.poll .rdCtrl mask left :: more = ops
  obtain ⟨x, hx⟩ := returnDrawn_during (ops := ops) (out := out) (reads := reads) (n := n) (l := l) w.ctx ctrlReadMask m.ctrlFields
  have hread : issue .rdCtrl (m.during ops out reads n l) =
      .next ((m.during ops out reads n l).returnDrawn ctrlReadMask m.ctrlFields) := by
    rw [issue_of_mayIssue (mayIssue_during w.ctx), exec, execRdCtrl, guardCheck_during w]
    rfl
  rw [execDrvOp, execPoll_drawn left more hread hm, if_pos hflag, hx, setOps_during w.ctx]
  exact ⟨_, rfl, x :: reads, n + 1, rfl⟩

/-! ### From the call to the lock (47 R433, R435) -/

theorem blockOfBytes_blockBytes (b : Block) : blockOfBytes (blockBytes b) = some b := rfl

/-- The step that begins the call takes it off the program and sets up its steps; the block stands as before (47 R435). -/
theorem leadsTo_begin {s : State} (hl : s.schedule = .host :: l) (hc : s.ctx = .fg) (hb : s.platform.backend = .hardware)
    (ho : s.fg.ops = []) {d : Bool} {K B : Block} {cs : List HostCmd}
    (hp : s.fg.prog = .call (.single d (blockBytes K) (blockBytes B)) :: cs) :
    LeadsTo 1 (· = s) (InCall { s with fg := { s.fg with prog := cs } } (singleBlockOps s.platform.pollBound d K B) [] l) := by
  refine .of_step ?_
  intro s' hs'
  rw [hs']
  have hcur : s.cur = s.fg := cur_of_fg hc
  obtain ⟨u, hu, hnext⟩ : ∃ u, u = State.setCur { s.fg with prog := cs } { s with schedule := l } ∧
      NextCommand s (.call (.single d (blockBytes K) (blockBytes B))) u :=
    ⟨_, rfl, l, cs, hl, by rw [hcur, ho], by rw [hcur, hp], by rw [hcur]⟩
  have hp : u.platform = s.platform := platform_of_nextCommand hnext
  have hstart := startCall_single (by rw [hp, hb]) (blockOfBytes_blockBytes K) (blockOfBytes_blockBytes B) d (u := u)
  refine ⟨_, (step_of_nextCommand hnext).trans hstart, s.fg.reads, s.draws, ?_⟩
  rw [State.beginCall, hp, hu, cur_setCur, setCur_setCur]
  simp only [State.setCur, hc]
  rfl

/-- The state after Acquire has taken the lock for the foreground (47 R433). -/
def State.acquired (m : State) : State :=
  { m.maskForDriver with lockHeld := true, fg := { m.fg with holdsLock := true, savedMask := m.irqMasked } }

theorem leadsTo_acquire (hc : m.ctx = .fg) (hl : m.lockHeld = false) :
    LeadsTo 1 (InCall m (.acquire :: more) out (.host :: l)) (InCall m.acquired more out l) := by
  refine leadsTo_driver hc fun reads n => ?_
  generalize DrvOp.acquire :: more = ops
  refine ⟨_, execAcquire_free (u := m.during ops out reads n l) (mayIssue_during hc) hl more, lockGranted :: reads, n, ?_⟩
  rw [cur_during hc, maskForDriver_during, setLock_during, setCur_during (by exact hc)]
  rfl

/-! ### The direction, the key and the data (43 R310, R315, R318) -/

/-- The direction is set in IDLE and KEY_LOADED (43 R310). -/
theorem leadsTo_setDir (w : Working m) (hs : m.st = .idle ∨ m.st = .keyLoaded) (d : Bool) :
    LeadsTo 1 (InCall m (pseudoSetDir d ++ more) out (.host :: l)) (InCall (m.setDecrypt d) more out l) := by
  refine leadsTo_write w.ctx w.ctx fun ops reads n => ?_
  have hbits : ¬hasBitsFrom 2 (dirWord d) = true := by cases d <;> decide
  have hbit : (dirWord d).getLsbD 0 = d := by cases d <;> rfl
  rw [exec, execWrCtrl_configurable (s := m.during ops out reads n l) hbits hs, guardCheck_during w, hbit]
  rfl

/-- The state after all four key words are written (43 R315). -/
def State.keyed (k : Quad Word) (m : State) : State :=
  { m with key := k, keyValid := ⟨true, true, true, true⟩, st := .keyLoaded }

/-- A key word leaves the block where key words are taken (43 R315). -/
theorem loadKeyWord_configurable (hs : m.st = .idle ∨ m.st = .keyLoaded) (n : BitVec 2) (v : Word) :
    (m.loadKeyWord n v).st = .idle ∨ (m.loadKeyWord n v).st = .keyLoaded := by
  by_cases h : m.st = .idle ∧ keyComplete (m.keyValid.set n true) = true
  · exact .inr (if_pos h)
  · rwa [show (m.loadKeyWord n v).st = m.st from if_neg h]

/-- The word that completes the key leads to KEY_LOADED, or leaves the block there (43 R315). -/
theorem loadKeyWord_completes (hs : m.st = .idle ∨ m.st = .keyLoaded) {n : BitVec 2}
    (hk : keyComplete (m.keyValid.set n true) = true) (v : Word) : (m.loadKeyWord n v).st = .keyLoaded := by
  rcases hs with hs | hs
  · exact if_pos ⟨hs, hk⟩
  · exact (if_neg (by simp [hs])).trans hs

theorem leadsTo_keyWord (w : Working m) (hs : m.st = .idle ∨ m.st = .keyLoaded) (n : BitVec 2) (v : Word) :
    LeadsTo 1 (InCall m (.xact (.wrKey n v) :: more) out (.host :: l)) (InCall (m.loadKeyWord n v) more out l) := by
  refine leadsTo_write w.ctx w.ctx fun ops reads i => ?_
  rw [exec, execWrKey_accepted (s := m.during ops out reads i l) hs, guardCheck_during w]
  rfl

theorem loadKeyWords_eq (hs : m.st = .idle ∨ m.st = .keyLoaded) (k : Quad Word) :
    (((m.loadKeyWord 0 k.e0).loadKeyWord 1 k.e1).loadKeyWord 2 k.e2).loadKeyWord 3 k.e3 = m.keyed k := by
  have h3 := loadKeyWord_configurable (loadKeyWord_configurable (loadKeyWord_configurable hs 0 k.e0) 1 k.e1) 2 k.e2
  have hst := loadKeyWord_completes h3 (n := 3) rfl k.e3
  exact congrArg (fun e => { m.keyed k with st := e }) hst

theorem leadsTo_loadKey (w : Working m) (hs : m.st = .idle ∨ m.st = .keyLoaded) (k : Quad Word) :
    LeadsTo 4 (InCall m (.xact (.wrKey 0 k.e0) :: .xact (.wrKey 1 k.e1) :: .xact (.wrKey 2 k.e2) :: .xact (.wrKey 3 k.e3) :: more) out
      (.host :: .host :: .host :: .host :: l)) (InCall (m.keyed k) more out l) := by
  have s1 := loadKeyWord_configurable hs 0 k.e0
  have s2 := loadKeyWord_configurable s1 1 k.e1
  have s3 := loadKeyWord_configurable s2 2 k.e2
  rw [← loadKeyWords_eq hs]
  exact (((leadsTo_keyWord w hs 0 _).trans (leadsTo_keyWord (w.loadKeyWord 0 _) s1 1 _)).trans
    (leadsTo_keyWord ((w.loadKeyWord 0 _).loadKeyWord 1 _) s2 2 _)).trans
    (leadsTo_keyWord (((w.loadKeyWord 0 _).loadKeyWord 1 _).loadKeyWord 2 _) s3 3 _)

/-- One word of a block: the poll for DATA_FEED_READY and the write of DATAIN (43 R318, 30 R144). -/
theorem leadsTo_feedWord (w : Working m) (hs : m.st = .keyLoaded ∨ m.st = .feeding) (p : Nat) (v : Word) :
    LeadsTo 2 (InCall m (.poll .rdCtrl feedReadyMask p :: .xact (.wrDatain v) :: more) out (.host :: .host :: l))
      (InCall (m.feedWord v) more out l) := by
  have hready : m.dataFeedReady = true := (dataFeedReady_iff m).mpr (by tauto)
  obtain ⟨-, hbit, -⟩ := ctrlFields_flags m
  have hflag : m.ctrlFields &&& feedReadyMask = feedReadyMask := (and_bit_iff (k := 8) (by decide) _).mpr (hbit.trans hready)
  refine LeadsTo.trans (j := 1) (k := 1) (leadsTo_poll w (by decide) hflag p) (leadsTo_write w.ctx w.ctx fun ops reads n => ?_)
  rw [exec, execWrDatain_accepted (s := m.during ops out reads n l) hs, guardCheck_during w]
  rfl

theorem feedWord_feeding (h : m.inBuf.length < 3) (v : Word) : (m.feedWord v).st = .feeding :=
  if_neg (by simp; omega)

/-- The state after four data words have started the computation (43 R318). -/
def State.fed (b : Quad Word) (m : State) : State := { m with inBuf := b.toList, st := .computing }

theorem leadsTo_feed (w : Working m) (hs : m.st = .keyLoaded) (hi : m.inBuf = []) (p : Nat) (b : Quad Word) :
    LeadsTo 8 (InCall m ((b.toList.flatMap fun v => [.poll .rdCtrl feedReadyMask p, .xact (.wrDatain v)]) ++ more) out
      (.host :: .host :: .host :: .host :: .host :: .host :: .host :: .host :: l)) (InCall (m.fed b) more out l) := by
  have heq : (((m.feedWord b.e0).feedWord b.e1).feedWord b.e2).feedWord b.e3 = m.fed b := by
    simp [State.feedWord, State.fed, hi, Quad.toList]
  have s1 : (m.feedWord b.e0).st = .feeding := feedWord_feeding (by simp [hi]) _
  have s2 : ((m.feedWord b.e0).feedWord b.e1).st = .feeding := feedWord_feeding (by simp [hi]) _
  have s3 : (((m.feedWord b.e0).feedWord b.e1).feedWord b.e2).st = .feeding := feedWord_feeding (by simp [hi]) _
  rw [← heq]
  exact (((leadsTo_feedWord w (.inl hs) p _).trans (leadsTo_feedWord (w.feedWord _) (.inr s1) p _)).trans
    (leadsTo_feedWord ((w.feedWord _).feedWord _) (.inr s2) p _)).trans
    (leadsTo_feedWord (((w.feedWord _).feedWord _).feedWord _) (.inr s3) p _)

/-! ### The result and the release (43 R322, 45 R402) -/

/-- The state in which the ENGINE step has computed the block (43 R340). -/
def State.computed (b : Quad Word) (m : State) : State := { m.emitBlock b with st := .finished }

/-- The ENGINE step on a block that is fed (43 R340). -/
theorem leadsTo_engine {ops : List DrvOp} (hs : m.st = .computing) {b : Quad Word} (hb : m.inBuf = b.toList) :
    LeadsTo 1 (InCall m ops out (.engine :: l)) (InCall (m.computed b) ops out l) := by
  refine .of_step ?_
  rintro _ ⟨reads, n, rfl⟩
  exact ⟨_, (step_engine rfl).trans (congrArg _ (engineStep_computing (s := m.during ops out reads n l) hs hb)), reads, n, rfl⟩

theorem leadsTo_pollFinished (w : Working m) (hs : m.st = .finished) (p : Nat) :
    LeadsTo 1 (InCall m (.poll .rdCtrl finishedMask p :: more) out (.host :: l)) (InCall m more out l) := by
  obtain ⟨-, -, hbit, -⟩ := ctrlFields_flags m
  exact leadsTo_poll w (by decide) ((and_bit_iff (k := 9) (by decide) _).mpr (hbit.trans (decide_eq_true hs))) p

/-- One result word is drained (43 R322). -/
theorem leadsTo_drain (w : Working m) (hs : m.st = .finished) (hf : m.stream = false) {x : Word} {rest : List Word}
    (ho : m.outBuf = x :: rest) :
    LeadsTo 1 (InCall m (.drain :: more) out (.host :: l)) (InCall (m.popResult rest) more (out ++ [x]) l) := by
  have hc' : (m.popResult rest).ctx = .fg := ((TransactionFrame.refl m).popResult rest).ctx.trans w.ctx
  refine leadsTo_driver w.ctx fun reads n => ?_
  generalize DrvOp.drain :: more = ops
  have hread : exec .rdDataout (m.during ops out reads n l) = .next ((m.popResult rest).during ops out (x :: reads) n l) := by
    rw [exec, execRdDataout_popped (s := m.during ops out reads n l) hs hf ho, guardCheck_during w, popResult_during,
      returnWord_during hc']
  rw [execDrvOp, execDrain, onNext_issue (mayIssue_during w.ctx) hread, State.lastRead, cur_during hc', setCur_during hc']
  exact ⟨_, rfl, x :: reads, n, rfl⟩

/-- Draining the four result words tears the block down (43 R322). -/
theorem leadsTo_drainAll (w : Working m) (hs : m.st = .finished) (hf : m.stream = false) {q : Quad Word} (ho : m.outBuf = q.toList) :
    LeadsTo 4 (InCall m (pseudoDrain ++ more) [] (.host :: .host :: .host :: .host :: l)) (InCall m.teardown more q.toList l) :=
  (((leadsTo_drain w hs hf ho).trans (leadsTo_drain (m := { m with outBuf := [q.e1, q.e2, q.e3] }) ⟨w.ctx, w.held⟩ hs hf rfl)).trans
    (leadsTo_drain (m := { m with outBuf := [q.e2, q.e3] }) ⟨w.ctx, w.held⟩ hs hf rfl)).trans
    (leadsTo_drain (m := { m with outBuf := [q.e3] }) ⟨w.ctx, w.held⟩ hs hf rfl)

/-- The state after the foreground's Release and return (47 R433, 45 R402). -/
def State.released (code : ResultCode) (bytes : List Byte) (m : State) : State :=
  { m.teardown with
    lockHeld := false
    irqMasked := m.fg.savedMask
    fg := { m.fg with holdsLock := false, returns := ⟨code, bytes⟩ :: m.fg.returns } }

theorem leadsTo_release (w : Working m) (hs : m.st = .idle) (code : ResultCode) :
    LeadsTo 1 (InCall m [.release code] out (.host :: l))
      (InCall (m.released code (out.flatMap fun w => (wordBytes w).toList)) [] [] l) := by
  refine leadsTo_driver w.ctx fun reads n => ?_
  generalize [DrvOp.release code] = ops
  have hv : exec (.wrLock 0#32) (m.during ops out reads n l) =
      .next (((m.during ops out reads n l).teardown.setLock false).setHolds false) :=
    (execWrLock_zero_held (s := m.during ops out reads n l) w.held).trans (if_pos ((releasable_iff _).mpr (.inl hs)))
  rw [teardown_during, setLock_during, setHolds_during (by exact w.ctx)] at hv
  refine ⟨_, execRelease_eq (mayIssue_during w.ctx) hv code, reads, n, ?_⟩
  rw [cur_during w.ctx]
  exact finishCall_during (m := { m.teardown with
    lockHeld := false, irqMasked := m.fg.savedMask, fg := { m.fg with holdsLock := false } }) w.ctx code _

/-! ### The whole call -/

/-- From the direction to the fourth data word: thirteen transactions (47 R435, steps 2 to 4). -/
theorem leadsTo_fed (w : Working m) (hs : m.st = .idle) (hi : m.inBuf = []) (p : Nat) (d : Bool) (K B : Block) :
    LeadsTo 13 (InCall m (pseudoSetDir d ++ pseudoLoadKey K ++ pseudoFeed p B ++ more) out (List.replicate 13 .host ++ l))
      (InCall (((m.setDecrypt d).keyed (wordsOfBlock K)).fed (wordsOfBlock B)) more out l) := by
  have wd : Working (m.setDecrypt d) := ⟨w.ctx, w.held⟩
  have wk : Working ((m.setDecrypt d).keyed (wordsOfBlock K)) := ⟨w.ctx, w.held⟩
  exact ((leadsTo_setDir w (.inl hs) d).trans (leadsTo_loadKey wd (.inl hs) (wordsOfBlock K))).trans
    (leadsTo_feed wk rfl hi p (wordsOfBlock B))

/-- From the fourth data word to the last drained word: the ENGINE step and five transactions (47 R435, steps 5 and 6). -/
theorem leadsTo_drained (w : Working m) (hs : m.st = .computing) (hf : m.stream = false) {b : Quad Word} (hb : m.inBuf = b.toList)
    (p : Nat) :
    LeadsTo 6 (InCall m (.poll .rdCtrl finishedMask p :: (pseudoDrain ++ more)) [] (.engine :: (List.replicate 5 .host ++ l)))
      (InCall m.teardown more (m.compute b).toList l) := by
  have wc : Working (m.computed b) := ⟨w.ctx, w.held⟩
  exact ((leadsTo_engine hs hb).trans (leadsTo_pollFinished wc rfl p)).trans (leadsTo_drainAll wc rfl hf rfl)

/-- The block that ENGINE computes is the one that the call was given (43 R340). -/
theorem compute_fed (m : State) (d : Bool) (K B : Block) :
    (((m.setDecrypt d).keyed (wordsOfBlock K)).fed (wordsOfBlock B)).compute (wordsOfBlock B) = wordsOfBlock (transform d K B) := by
  simp [State.compute, State.fed, State.keyed]

/-- The bytes of a block's words are the block's (43 R340). -/
theorem bytes_wordsOfBlock (b : Block) : ((wordsOfBlock b).toList.flatMap fun w => (wordBytes w).toList) = blockBytes b := by
  simp [wordsOfBlock, Quad.map, Quad.toList, blockBytes]

/-- From Acquire to the return: 14 transactions, the ENGINE step, and 6 transactions (47 R435). -/
theorem leadsTo_returned (hc : m.ctx = .fg) (hl : m.lockHeld = false) (hs : m.st = .idle) (hi : m.inBuf = []) (hf : m.stream = false)
    (p : Nat) (d : Bool) (K B : Block) :
    LeadsTo 21 (InCall m (singleBlockOps p d K B) [] (List.replicate 14 .host ++ [.engine] ++ List.replicate 6 .host ++ l))
      (InCall ((m.acquired.setDecrypt d).released .success (blockBytes (transform d K B))) [] [] l) := by
  have wa : Working m.acquired := ⟨hc, rfl⟩
  have wf : Working (((m.acquired.setDecrypt d).keyed (wordsOfBlock K)).fed (wordsOfBlock B)) := ⟨hc, rfl⟩
  have drained := leadsTo_drained (more := [.release .success]) (l := .host :: l) wf rfl hf rfl p
  rw [compute_fed] at drained
  rw [← bytes_wordsOfBlock]
  exact (((leadsTo_acquire hc hl).trans (leadsTo_fed wa hs hi p d K B)).trans drained).trans
    (leadsTo_release wf.teardown rfl .success)

end Steps

/-- Settles O60: the call's steps move the block one by one, from its start over the ENGINE step to its return. -/
theorem singleBlockCallReturnsTheCipher : Obligations.SingleBlockCallReturnsTheCipher := by
  intro s d K B cs rest hsch hc hb ho hp hinv hs hl
  obtain ⟨-, -, -, -, -, -, hidle, -, -⟩ := hinv
  obtain ⟨hi, -, hf⟩ := hidle hs
  have call := (leadsTo_begin hsch hc hb ho hp).trans
    (leadsTo_returned (m := { s with fg := { s.fg with prog := cs } }) hc hl hs hi hf s.platform.pollBound d K B)
  obtain ⟨_, ht, reads, n, rfl⟩ := call s rfl
  exact ⟨_, ht, rfl, rfl, rfl, rfl, rfl, rfl, rfl, rfl, rfl, rfl, rfl, rfl, rfl⟩

end Sys2Proof.Machine

/-! Reset, at power-on and in mid-run (70 R540): the states it gives, and what their first reads return. -/

namespace Sys2Proof.Machine

/-! ### The states that reset gives -/

/-- Every field has its reset value; nothing is said of memory, the contexts' records, the parameters, the draws and the schedule
(70 R540, R542). -/
def IsReset (t : State) : Prop :=
  t = { State.reset with
        mem := t.mem
        fg := t.fg
        isr := t.isr
        platform := t.platform
        draws := t.draws
        schedule := t.schedule }

theorem isReset_reset : IsReset State.reset := rfl

theorem isReset_afterReset (s : State) : IsReset s.afterReset := rfl

theorem step_reset {s : State} {rest : List Agent} (h : s.schedule = .reset :: rest) :
    step s = .next (State.afterReset { s with schedule := rest }) := step_scheduled h

theorem isReset_of_step {s t : State} {rest : List Agent} (hs : s.schedule = .reset :: rest) (h : step s = .next t) : IsReset t := by
  rw [step_reset hs] at h
  cases h
  exact isReset_afterReset _

/-! ### The words that status reads are built from -/

/-- A status word is made of fields that reset sets, so it is the word at power-on, which is 0 (70 R540). -/
theorem IsReset.ctrlFields {t : State} (h : IsReset t) : t.ctrlFields = 0#32 :=
  (congrArg State.ctrlFields h).trans (show State.reset.ctrlFields = 0#32 by decide)
theorem IsReset.doneFields {t : State} (h : IsReset t) : t.doneFields = 0#32 :=
  (congrArg State.doneFields h).trans (show State.reset.doneFields = 0#32 by decide)
theorem IsReset.codeField {t : State} (h : IsReset t) : t.codeField = 0#32 :=
  (congrArg State.codeField h).trans (show State.reset.codeField = 0#32 by decide)

/-- A read whose fields are all 0 returns a word that is 0 under the mask, whatever is drawn beside it (43 R303). -/
theorem reads_zero_of_returnDrawn {i : Instr} {s t : State} {mask v : Word} (h : exec i t = .next (s.returnDrawn mask v))
    (hv : v = 0#32) : ∃ u w, exec i t = .next u ∧ u.cur.reads.head? = some w ∧ w &&& mask = 0#32 := by
  refine ⟨_, s.drawnWord mask v, h, ?_, ?_⟩
  · rw [returnDrawn_cur, List.head?_cons]
  · rw [drawnWord_defined, hv, BitVec.zero_and]

/-- The first LOCK read of a free lock is granted (45 R400). -/
theorem rdLock_granted_of_free {t : State} (h : t.lockHeld = false) :
    ∃ u, exec .rdLock t = .next u ∧ u.cur.reads.head? = some 0#32 :=
  ⟨_, execRdLock_free h, by rw [returnWord_cur, List.head?_cons, lockGranted]⟩

/-- Settles O8: power-on and a reset step give a reset state, whose status fields are 0 and whose lock is free. -/
theorem resetLeavesTheListedValues : Obligations.ResetLeavesTheListedValues := by
  refine ⟨fun t ht => ?_, fun s rest hs => ⟨_, step_reset hs, fun _ => rfl⟩⟩
  have hr : IsReset t := by
    obtain rfl | ⟨s, rest, hs, h⟩ := ht
    · exact isReset_reset
    · exact isReset_of_step hs h
  refine ⟨?_, reads_zero_of_returnDrawn (mask := ctrlReadMask) rfl hr.ctrlFields,
    reads_zero_of_returnDrawn (mask := enableReadMask) rfl hr.doneFields,
    reads_zero_of_returnDrawn (mask := codeReadMask) rfl hr.codeField, rdLock_granted_of_free (by rw [hr]; rfl)⟩
  rw [hr]
  exact ⟨rfl, rfl, rfl, rfl, rfl, rfl, rfl, rfl, rfl, rfl, rfl, rfl, rfl, rfl, rfl, rfl, rfl, rfl, rfl, rfl,
    FaultSet.has_empty, rfl, rfl, rfl⟩

end Sys2Proof.Machine
